-- ==== Sys2Proof/Word.lean ====
section
/-! DEFINITION. The word types of the machine: 32-bit words, bytes and register numbers (R5, R6, R61, R91). -/

namespace Sys2Proof

/-- A 32-bit register value or address (R5, R7). -/
abbrev Word := BitVec 32

/-- A byte of memory (R61). -/
abbrev Byte := BitVec 8

/-- A register number as an instruction names it, 0 to 15 (R24, R91). -/
abbrev Reg := BitVec 4

end Sys2Proof
end

