-- ==== Sys2Proof/Config.lean ====
section
/-! DEFINITION. The parameters the spec leaves to the platform (R5, R68) and the values it leaves free (R9). -/

namespace Sys2Proof

/-- What an access does, as `Aborts` is told it (R68). -/
inductive AccessKind where
  | fetch
  | read
  | write
  deriving DecidableEq, Repr

/-- With whose rights an access is made (R64, R68, R70). -/
inductive Privilege where
  | user
  | privileged
  deriving DecidableEq, Repr

/-- The addresses `base`, `base + 1`, … , `base + size - 1`. -/
structure Region where
  base : Nat
  size : Nat
  deriving DecidableEq, Repr

/-- One rule of the predicate `Aborts(addr, n, kind, priv)` of R68: it claims the accesses whose address lies in
`region` and whose width, kind and privilege are the ones named (`none`: any). Every predicate on the finitely many
accesses is a list of such rules. -/
structure AbortRule where
  region : Region
  width  : Option Nat
  kind   : Option AccessKind
  priv   : Option Privilege
  deriving DecidableEq, Repr

/-- `ABORT_MODEL` of R5 and R327: what the base register of an aborted transfer with write-back holds. -/
inductive AbortModel where
  | baseRestored
  | baseUpdated
  deriving DecidableEq, Repr

/-- The platform of R68: which bytes exist, which accesses abort, and the abort model. No step changes it.
DESIGN CHOICE (log 5): the parameters are plain data of the state, so that a statement for every state is a statement
for every platform. -/
structure Platform where
  mapped     : List Region
  aborts     : List AbortRule
  abortModel : AbortModel
  deriving DecidableEq, Repr

/-- The default platform: `Aborts` false everywhere and the base restored (R68, R5). That the whole space is mapped is
a DESIGN CHOICE (log 5, unsafe). -/
def Platform.default : Platform where
  mapped     := [⟨0, 4294967296⟩]
  aborts     := []
  abortModel := .baseRestored

/-- The free value of the `k`-th draw (R9, D11): no body, so nothing can be proved of it (log 7, safe). -/
opaque Config.draw : Nat → BitVec 32

/-- Which of its two values `PC_STORE_OFFSET` has on this implementation (R5, R25, D19): no body (log 8, safe). -/
opaque Config.storesPcPlusTwelve : Bool

/-- What every general register holds at reset, where the spec says UNKNOWN and "must not read it as zero" (R38, R39).
DESIGN CHOICE (log 1, unsafe). -/
def Config.resetRegister : Word := 0xA5A5A5A4#32

/-- What a byte of memory that nothing has listed reads as: the platform's initial contents `MEM` are not given (R38).
DESIGN CHOICE (log 4, unsafe). -/
def Config.initialByte : Byte := 0#8

end Sys2Proof
end

