-- ==== Sys2Proof/Syntax.lean ====
section
/-! DEFINITION. The instructions as terms: conditions, operand forms, and one constructor for each row of
spec/opcode_table.json (R3, R10). -/

namespace Sys2Proof

/-- The fifteen conditions (R130). -/
inductive Cond where
  | eq | ne | cs | cc | mi | pl | vs | vc | hi | ls | ge | lt | gt | le | al
  deriving DecidableEq, Repr

/-- A register shifted by an immediate amount (R97, R135, R136, R138, R140, R142, R144). A plain `Rm` is `lsl 0`. -/
inductive ShiftImm where
  | lsl (n : Nat)
  | lsr (n : Nat)
  | asr (n : Nat)
  | ror (n : Nat)
  | rrx
  deriving DecidableEq, Repr

/-- The shifts whose amount may come from a register (R98). -/
inductive ShiftKind where
  | lsl | lsr | asr | ror
  deriving DecidableEq, Repr

/-- The eleven forms of `shift_op` (R133). -/
inductive ShiftOp where
  /-- `#imm8r` (R134). -/
  | imm (rot : BitVec 4) (imm : BitVec 8)
  /-- `Rm`, and `Rm` shifted by an immediate or `rrx` (R135, R136, R138, R140, R142, R144). -/
  | shiftImm (rm : Reg) (sh : ShiftImm)
  /-- `Rm` shifted by the low byte of `Rs` (R137, R139, R141, R143). -/
  | shiftReg (rm : Reg) (k : ShiftKind) (rs : Reg)
  deriving DecidableEq, Repr

/-- The sixteen data-processing operations (R95). -/
inductive DpOp where
  | and | eor | sub | rsb | add | adc | sbc | rsc | tst | teq | cmp | cmn | orr | mov | bic | mvn
  deriving DecidableEq, Repr

/-- The letters of `cpsr_fields` and `spsr_fields` (R34). -/
structure PsrFields where
  f : Bool
  s : Bool
  x : Bool
  c : Bool
  deriving DecidableEq, Repr

/-- The offset of a single-register transfer (R147, R153). -/
inductive Offset where
  /-- `#±imm12` or `#±imm8`, zero-extended. -/
  | imm (v : Word)
  /-- `±Rm`, shifted by an immediate (`lsl 0` where the form has no shift). -/
  | reg (rm : Reg) (sh : ShiftImm)
  deriving DecidableEq, Repr

/-- When a single-register transfer uses its offset, and whether it writes the base (R148, R149). -/
inductive Index where
  /-- `[Rn, offset]`: the base is not written. -/
  | offset
  /-- `[Rn, offset]!`. -/
  | pre
  /-- `[Rn], offset`. -/
  | post
  deriving DecidableEq, Repr

/-- The addressing modes of `ldm` and `stm` by their non-stack names (R158, R159, R161). -/
inductive BlockMode where
  | ia | ib | da | db
  deriving DecidableEq, Repr

/-- The stack names of the addressing modes (R158 to R160): full or empty, descending or ascending. -/
inductive StackMode where
  | fd | ed | fa | ea
  deriving DecidableEq, Repr

/-- What a stack name means on `ldm` (R158). -/
def StackMode.forLoad : StackMode → BlockMode
  | .fd => .ia
  | .ed => .ib
  | .fa => .da
  | .ea => .db

/-- What a stack name means on `stm` (R159). -/
def StackMode.forStore : StackMode → BlockMode
  | .ea => .ia
  | .fa => .ib
  | .ed => .da
  | .fd => .db

/-- The instructions: one constructor for each row of spec/opcode_table.json, in the table's order. `c` is the condition,
`sf` the suffix `s`, `u` the sign `+` of an offset, `w` the `!`. -/
inductive Instr where
  /-- `and` with a rotated immediate (R220, R96). -/
  | andImm (c : Cond) (sf : Bool) (rd : Reg) (rn : Reg) (rot : BitVec 4) (imm : BitVec 8)
  /-- `and` with a register shifted by an immediate (R220, R97). -/
  | andShiftImm (c : Cond) (sf : Bool) (rd : Reg) (rn : Reg) (rm : Reg) (sh : ShiftImm)
  /-- `and` with a register shifted by a register (R220, R98). -/
  | andShiftReg (c : Cond) (sf : Bool) (rd : Reg) (rn : Reg) (rm : Reg) (k : ShiftKind) (rs : Reg)
  /-- `eor` with a rotated immediate (R222, R96). -/
  | eorImm (c : Cond) (sf : Bool) (rd : Reg) (rn : Reg) (rot : BitVec 4) (imm : BitVec 8)
  /-- `eor` with a register shifted by an immediate (R222, R97). -/
  | eorShiftImm (c : Cond) (sf : Bool) (rd : Reg) (rn : Reg) (rm : Reg) (sh : ShiftImm)
  /-- `eor` with a register shifted by a register (R222, R98). -/
  | eorShiftReg (c : Cond) (sf : Bool) (rd : Reg) (rn : Reg) (rm : Reg) (k : ShiftKind) (rs : Reg)
  /-- `sub` with a rotated immediate (R192, R96). -/
  | subImm (c : Cond) (sf : Bool) (rd : Reg) (rn : Reg) (rot : BitVec 4) (imm : BitVec 8)
  /-- `sub` with a register shifted by an immediate (R192, R97). -/
  | subShiftImm (c : Cond) (sf : Bool) (rd : Reg) (rn : Reg) (rm : Reg) (sh : ShiftImm)
  /-- `sub` with a register shifted by a register (R192, R98). -/
  | subShiftReg (c : Cond) (sf : Bool) (rd : Reg) (rn : Reg) (rm : Reg) (k : ShiftKind) (rs : Reg)
  /-- `rsb` with a rotated immediate (R194, R96). -/
  | rsbImm (c : Cond) (sf : Bool) (rd : Reg) (rn : Reg) (rot : BitVec 4) (imm : BitVec 8)
  /-- `rsb` with a register shifted by an immediate (R194, R97). -/
  | rsbShiftImm (c : Cond) (sf : Bool) (rd : Reg) (rn : Reg) (rm : Reg) (sh : ShiftImm)
  /-- `rsb` with a register shifted by a register (R194, R98). -/
  | rsbShiftReg (c : Cond) (sf : Bool) (rd : Reg) (rn : Reg) (rm : Reg) (k : ShiftKind) (rs : Reg)
  /-- `add` with a rotated immediate (R190, R96). -/
  | addImm (c : Cond) (sf : Bool) (rd : Reg) (rn : Reg) (rot : BitVec 4) (imm : BitVec 8)
  /-- `add` with a register shifted by an immediate (R190, R97). -/
  | addShiftImm (c : Cond) (sf : Bool) (rd : Reg) (rn : Reg) (rm : Reg) (sh : ShiftImm)
  /-- `add` with a register shifted by a register (R190, R98). -/
  | addShiftReg (c : Cond) (sf : Bool) (rd : Reg) (rn : Reg) (rm : Reg) (k : ShiftKind) (rs : Reg)
  /-- `adc` with a rotated immediate (R191, R96). -/
  | adcImm (c : Cond) (sf : Bool) (rd : Reg) (rn : Reg) (rot : BitVec 4) (imm : BitVec 8)
  /-- `adc` with a register shifted by an immediate (R191, R97). -/
  | adcShiftImm (c : Cond) (sf : Bool) (rd : Reg) (rn : Reg) (rm : Reg) (sh : ShiftImm)
  /-- `adc` with a register shifted by a register (R191, R98). -/
  | adcShiftReg (c : Cond) (sf : Bool) (rd : Reg) (rn : Reg) (rm : Reg) (k : ShiftKind) (rs : Reg)
  /-- `sbc` with a rotated immediate (R193, R96). -/
  | sbcImm (c : Cond) (sf : Bool) (rd : Reg) (rn : Reg) (rot : BitVec 4) (imm : BitVec 8)
  /-- `sbc` with a register shifted by an immediate (R193, R97). -/
  | sbcShiftImm (c : Cond) (sf : Bool) (rd : Reg) (rn : Reg) (rm : Reg) (sh : ShiftImm)
  /-- `sbc` with a register shifted by a register (R193, R98). -/
  | sbcShiftReg (c : Cond) (sf : Bool) (rd : Reg) (rn : Reg) (rm : Reg) (k : ShiftKind) (rs : Reg)
  /-- `rsc` with a rotated immediate (R195, R96). -/
  | rscImm (c : Cond) (sf : Bool) (rd : Reg) (rn : Reg) (rot : BitVec 4) (imm : BitVec 8)
  /-- `rsc` with a register shifted by an immediate (R195, R97). -/
  | rscShiftImm (c : Cond) (sf : Bool) (rd : Reg) (rn : Reg) (rm : Reg) (sh : ShiftImm)
  /-- `rsc` with a register shifted by a register (R195, R98). -/
  | rscShiftReg (c : Cond) (sf : Bool) (rd : Reg) (rn : Reg) (rm : Reg) (k : ShiftKind) (rs : Reg)
  /-- `tst` with a rotated immediate (R232, R96). -/
  | tstImm (c : Cond) (rn : Reg) (rot : BitVec 4) (imm : BitVec 8)
  /-- `tst` with a register shifted by an immediate (R232, R97). -/
  | tstShiftImm (c : Cond) (rn : Reg) (rm : Reg) (sh : ShiftImm)
  /-- `tst` with a register shifted by a register (R232, R98). -/
  | tstShiftReg (c : Cond) (rn : Reg) (rm : Reg) (k : ShiftKind) (rs : Reg)
  /-- `teq` with a rotated immediate (R233, R96). -/
  | teqImm (c : Cond) (rn : Reg) (rot : BitVec 4) (imm : BitVec 8)
  /-- `teq` with a register shifted by an immediate (R233, R97). -/
  | teqShiftImm (c : Cond) (rn : Reg) (rm : Reg) (sh : ShiftImm)
  /-- `teq` with a register shifted by a register (R233, R98). -/
  | teqShiftReg (c : Cond) (rn : Reg) (rm : Reg) (k : ShiftKind) (rs : Reg)
  /-- `cmp` with a rotated immediate (R230, R96). -/
  | cmpImm (c : Cond) (rn : Reg) (rot : BitVec 4) (imm : BitVec 8)
  /-- `cmp` with a register shifted by an immediate (R230, R97). -/
  | cmpShiftImm (c : Cond) (rn : Reg) (rm : Reg) (sh : ShiftImm)
  /-- `cmp` with a register shifted by a register (R230, R98). -/
  | cmpShiftReg (c : Cond) (rn : Reg) (rm : Reg) (k : ShiftKind) (rs : Reg)
  /-- `cmn` with a rotated immediate (R231, R96). -/
  | cmnImm (c : Cond) (rn : Reg) (rot : BitVec 4) (imm : BitVec 8)
  /-- `cmn` with a register shifted by an immediate (R231, R97). -/
  | cmnShiftImm (c : Cond) (rn : Reg) (rm : Reg) (sh : ShiftImm)
  /-- `cmn` with a register shifted by a register (R231, R98). -/
  | cmnShiftReg (c : Cond) (rn : Reg) (rm : Reg) (k : ShiftKind) (rs : Reg)
  /-- `orr` with a rotated immediate (R221, R96). -/
  | orrImm (c : Cond) (sf : Bool) (rd : Reg) (rn : Reg) (rot : BitVec 4) (imm : BitVec 8)
  /-- `orr` with a register shifted by an immediate (R221, R97). -/
  | orrShiftImm (c : Cond) (sf : Bool) (rd : Reg) (rn : Reg) (rm : Reg) (sh : ShiftImm)
  /-- `orr` with a register shifted by a register (R221, R98). -/
  | orrShiftReg (c : Cond) (sf : Bool) (rd : Reg) (rn : Reg) (rm : Reg) (k : ShiftKind) (rs : Reg)
  /-- `mov` with a rotated immediate (R171, R96). -/
  | movImm (c : Cond) (sf : Bool) (rd : Reg) (rot : BitVec 4) (imm : BitVec 8)
  /-- `mov` with a register shifted by an immediate (R171, R97). -/
  | movShiftImm (c : Cond) (sf : Bool) (rd : Reg) (rm : Reg) (sh : ShiftImm)
  /-- `mov` with a register shifted by a register (R171, R98). -/
  | movShiftReg (c : Cond) (sf : Bool) (rd : Reg) (rm : Reg) (k : ShiftKind) (rs : Reg)
  /-- `bic` with a rotated immediate (R223, R96). -/
  | bicImm (c : Cond) (sf : Bool) (rd : Reg) (rn : Reg) (rot : BitVec 4) (imm : BitVec 8)
  /-- `bic` with a register shifted by an immediate (R223, R97). -/
  | bicShiftImm (c : Cond) (sf : Bool) (rd : Reg) (rn : Reg) (rm : Reg) (sh : ShiftImm)
  /-- `bic` with a register shifted by a register (R223, R98). -/
  | bicShiftReg (c : Cond) (sf : Bool) (rd : Reg) (rn : Reg) (rm : Reg) (k : ShiftKind) (rs : Reg)
  /-- `mvn` with a rotated immediate (R172, R96). -/
  | mvnImm (c : Cond) (sf : Bool) (rd : Reg) (rot : BitVec 4) (imm : BitVec 8)
  /-- `mvn` with a register shifted by an immediate (R172, R97). -/
  | mvnShiftImm (c : Cond) (sf : Bool) (rd : Reg) (rm : Reg) (sh : ShiftImm)
  /-- `mvn` with a register shifted by a register (R172, R98). -/
  | mvnShiftReg (c : Cond) (sf : Bool) (rd : Reg) (rm : Reg) (k : ShiftKind) (rs : Reg)
  /-- `mrs Rd, cpsr` (R173). -/
  | mrsCpsr (c : Cond) (rd : Reg)
  /-- `mrs Rd, spsr` (R174). -/
  | mrsSpsr (c : Cond) (rd : Reg)
  /-- `msr cpsr_fields, Rm` (R175). -/
  | msrCpsrReg (c : Cond) (fields : PsrFields) (rm : Reg)
  /-- `msr spsr_fields, Rm` (R176). -/
  | msrSpsrReg (c : Cond) (fields : PsrFields) (rm : Reg)
  /-- `msr cpsr_fields, #imm8r` (R177). -/
  | msrCpsrImm (c : Cond) (fields : PsrFields) (rot : BitVec 4) (imm : BitVec 8)
  /-- `msr spsr_fields, #imm8r` (R178). -/
  | msrSpsrImm (c : Cond) (fields : PsrFields) (rot : BitVec 4) (imm : BitVec 8)
  /-- `mul Rd, Rm, Rs` (R196). -/
  | mul (c : Cond) (sf : Bool) (rd rm rs : Reg)
  /-- `mla Rd, Rm, Rs, Rn` (R197). -/
  | mla (c : Cond) (sf : Bool) (rd rm rs rn : Reg)
  /-- `umull RdLo, RdHi, Rm, Rs` (R198). -/
  | umull (c : Cond) (sf : Bool) (rdLo rdHi rm rs : Reg)
  /-- `umlal RdLo, RdHi, Rm, Rs` (R199). -/
  | umlal (c : Cond) (sf : Bool) (rdLo rdHi rm rs : Reg)
  /-- `smull RdLo, RdHi, Rm, Rs` (R200). -/
  | smull (c : Cond) (sf : Bool) (rdLo rdHi rm rs : Reg)
  /-- `smlal RdLo, RdHi, Rm, Rs` (R201). -/
  | smlal (c : Cond) (sf : Bool) (rdLo rdHi rm rs : Reg)
  /-- `bx Rm` (R242). -/
  | bx (c : Cond) (rm : Reg)
  /-- `swp Rd, Rm, [Rn]` (R300). -/
  | swp (c : Cond) (rd rm rn : Reg)
  /-- `swpb Rd, Rm, [Rn]` (R301). -/
  | swpb (c : Cond) (rd rm rn : Reg)
  /-- `ldr Rd, [Rn, #±imm12]` and with `!` (R251, R148). -/
  | ldrPreImm (c : Cond) (u w : Bool) (rn rd : Reg) (imm : BitVec 12)
  /-- `ldr Rd, [Rn], #±imm12` (R251, R149). -/
  | ldrPostImm (c : Cond) (u : Bool) (rn rd : Reg) (imm : BitVec 12)
  /-- `ldr Rd, [Rn, ±Rm, shift]` and with `!` (R251, R148). -/
  | ldrPreReg (c : Cond) (u w : Bool) (rn rd rm : Reg) (sh : ShiftImm)
  /-- `ldr Rd, [Rn], ±Rm, shift` (R251, R149). -/
  | ldrPostReg (c : Cond) (u : Bool) (rn rd rm : Reg) (sh : ShiftImm)
  /-- `ldrb Rd, [Rn, #±imm12]` and with `!` (R253, R148). -/
  | ldrbPreImm (c : Cond) (u w : Bool) (rn rd : Reg) (imm : BitVec 12)
  /-- `ldrb Rd, [Rn], #±imm12` (R253, R149). -/
  | ldrbPostImm (c : Cond) (u : Bool) (rn rd : Reg) (imm : BitVec 12)
  /-- `ldrb Rd, [Rn, ±Rm, shift]` and with `!` (R253, R148). -/
  | ldrbPreReg (c : Cond) (u w : Bool) (rn rd rm : Reg) (sh : ShiftImm)
  /-- `ldrb Rd, [Rn], ±Rm, shift` (R253, R149). -/
  | ldrbPostReg (c : Cond) (u : Bool) (rn rd rm : Reg) (sh : ShiftImm)
  /-- `str Rd, [Rn, #±imm12]` and with `!` (R258, R148). -/
  | strPreImm (c : Cond) (u w : Bool) (rn rd : Reg) (imm : BitVec 12)
  /-- `str Rd, [Rn], #±imm12` (R258, R149). -/
  | strPostImm (c : Cond) (u : Bool) (rn rd : Reg) (imm : BitVec 12)
  /-- `str Rd, [Rn, ±Rm, shift]` and with `!` (R258, R148). -/
  | strPreReg (c : Cond) (u w : Bool) (rn rd rm : Reg) (sh : ShiftImm)
  /-- `str Rd, [Rn], ±Rm, shift` (R258, R149). -/
  | strPostReg (c : Cond) (u : Bool) (rn rd rm : Reg) (sh : ShiftImm)
  /-- `strb Rd, [Rn, #±imm12]` and with `!` (R260, R148). -/
  | strbPreImm (c : Cond) (u w : Bool) (rn rd : Reg) (imm : BitVec 12)
  /-- `strb Rd, [Rn], #±imm12` (R260, R149). -/
  | strbPostImm (c : Cond) (u : Bool) (rn rd : Reg) (imm : BitVec 12)
  /-- `strb Rd, [Rn, ±Rm, shift]` and with `!` (R260, R148). -/
  | strbPreReg (c : Cond) (u w : Bool) (rn rd rm : Reg) (sh : ShiftImm)
  /-- `strb Rd, [Rn], ±Rm, shift` (R260, R149). -/
  | strbPostReg (c : Cond) (u : Bool) (rn rd rm : Reg) (sh : ShiftImm)
  /-- `ldrt Rd, [Rn], #±imm12` (R252, R151). -/
  | ldrtImm (c : Cond) (u : Bool) (rn rd : Reg) (imm : BitVec 12)
  /-- `ldrt Rd, [Rn], ±Rm, shift` (R252, R151). -/
  | ldrtReg (c : Cond) (u : Bool) (rn rd rm : Reg) (sh : ShiftImm)
  /-- `ldrbt Rd, [Rn], #±imm12` (R255, R151). -/
  | ldrbtImm (c : Cond) (u : Bool) (rn rd : Reg) (imm : BitVec 12)
  /-- `ldrbt Rd, [Rn], ±Rm, shift` (R255, R151). -/
  | ldrbtReg (c : Cond) (u : Bool) (rn rd rm : Reg) (sh : ShiftImm)
  /-- `strt Rd, [Rn], #±imm12` (R259, R151). -/
  | strtImm (c : Cond) (u : Bool) (rn rd : Reg) (imm : BitVec 12)
  /-- `strt Rd, [Rn], ±Rm, shift` (R259, R151). -/
  | strtReg (c : Cond) (u : Bool) (rn rd rm : Reg) (sh : ShiftImm)
  /-- `strbt Rd, [Rn], #±imm12` (R261, R151). -/
  | strbtImm (c : Cond) (u : Bool) (rn rd : Reg) (imm : BitVec 12)
  /-- `strbt Rd, [Rn], ±Rm, shift` (R261, R151). -/
  | strbtReg (c : Cond) (u : Bool) (rn rd rm : Reg) (sh : ShiftImm)
  /-- `ldrh Rd, [Rn, #±imm8]` and with `!` (R256, R153). -/
  | ldrhPreImm (c : Cond) (u w : Bool) (rn rd : Reg) (imm : BitVec 8)
  /-- `ldrh Rd, [Rn], #±imm8` (R256, R153). -/
  | ldrhPostImm (c : Cond) (u : Bool) (rn rd : Reg) (imm : BitVec 8)
  /-- `ldrh Rd, [Rn, ±Rm]` and with `!` (R256, R153). -/
  | ldrhPreReg (c : Cond) (u w : Bool) (rn rd rm : Reg)
  /-- `ldrh Rd, [Rn], ±Rm` (R256, R153). -/
  | ldrhPostReg (c : Cond) (u : Bool) (rn rd rm : Reg)
  /-- `ldrsb Rd, [Rn, #±imm8]` and with `!` (R254, R153). -/
  | ldrsbPreImm (c : Cond) (u w : Bool) (rn rd : Reg) (imm : BitVec 8)
  /-- `ldrsb Rd, [Rn], #±imm8` (R254, R153). -/
  | ldrsbPostImm (c : Cond) (u : Bool) (rn rd : Reg) (imm : BitVec 8)
  /-- `ldrsb Rd, [Rn, ±Rm]` and with `!` (R254, R153). -/
  | ldrsbPreReg (c : Cond) (u w : Bool) (rn rd rm : Reg)
  /-- `ldrsb Rd, [Rn], ±Rm` (R254, R153). -/
  | ldrsbPostReg (c : Cond) (u : Bool) (rn rd rm : Reg)
  /-- `ldrsh Rd, [Rn, #±imm8]` and with `!` (R257, R153). -/
  | ldrshPreImm (c : Cond) (u w : Bool) (rn rd : Reg) (imm : BitVec 8)
  /-- `ldrsh Rd, [Rn], #±imm8` (R257, R153). -/
  | ldrshPostImm (c : Cond) (u : Bool) (rn rd : Reg) (imm : BitVec 8)
  /-- `ldrsh Rd, [Rn, ±Rm]` and with `!` (R257, R153). -/
  | ldrshPreReg (c : Cond) (u w : Bool) (rn rd rm : Reg)
  /-- `ldrsh Rd, [Rn], ±Rm` (R257, R153). -/
  | ldrshPostReg (c : Cond) (u : Bool) (rn rd rm : Reg)
  /-- `strh Rd, [Rn, #±imm8]` and with `!` (R262, R153). -/
  | strhPreImm (c : Cond) (u w : Bool) (rn rd : Reg) (imm : BitVec 8)
  /-- `strh Rd, [Rn], #±imm8` (R262, R153). -/
  | strhPostImm (c : Cond) (u : Bool) (rn rd : Reg) (imm : BitVec 8)
  /-- `strh Rd, [Rn, ±Rm]` and with `!` (R262, R153). -/
  | strhPreReg (c : Cond) (u w : Bool) (rn rd rm : Reg)
  /-- `strh Rd, [Rn], ±Rm` (R262, R153). -/
  | strhPostReg (c : Cond) (u : Bool) (rn rd rm : Reg)
  /-- `ldm Rn{!}, {reglist}` (form 1, R281). -/
  | ldm (c : Cond) (am : BlockMode) (w : Bool) (rn : Reg) (list : BitVec 16)
  /-- `ldm Rn{!}, {reglist-pc}^`: User-bank registers (form 2, R283). -/
  | ldmUser (c : Cond) (am : BlockMode) (w : Bool) (rn : Reg) (list : BitVec 16)
  /-- `ldm Rn{!}, {reglist+pc}^`: return and restore CPSR (form 3, R284). -/
  | ldmReturn (c : Cond) (am : BlockMode) (w : Bool) (rn : Reg) (list : BitVec 16)
  /-- `stm Rn{!}, {reglist}` (form 1, R285). -/
  | stm (c : Cond) (am : BlockMode) (w : Bool) (rn : Reg) (list : BitVec 16)
  /-- `stm Rn{!}, {reglist}^`: User-bank registers (form 2, R286). -/
  | stmUser (c : Cond) (am : BlockMode) (w : Bool) (rn : Reg) (list : BitVec 16)
  /-- `b label` (R240). -/
  | b (c : Cond) (off : BitVec 24)
  /-- `bl label` (R241). -/
  | bl (c : Cond) (off : BitVec 24)
  /-- `swi imm24` (R302). -/
  | swi (c : Cond) (imm : BitVec 24)
  /-- Pseudo-instruction `nop` (R310). -/
  | nop (c : Cond)
  /-- Pseudo-instruction `ldr Rd, label`, the label given by the assembler's offset from R15 (R311). -/
  | ldrLabel (c : Cond) (u : Bool) (rd : Reg) (imm : BitVec 12)
  /-- Pseudo-instruction `ldr Rd, =imm32`, with the offset from R15 of its literal-pool word, which the assembler uses
  when neither the constant nor its complement is an `imm8r` (R312). -/
  | ldrConst (c : Cond) (rd : Reg) (imm32 : Word) (u : Bool) (pool : BitVec 12)
  /-- Pseudo-instruction `adr Rd, label`: the offset from R15 is added (`u`) or subtracted (R313). -/
  | adr (c : Cond) (u : Bool) (rd : Reg) (rot : BitVec 4) (imm : BitVec 8)
  /-- Pseudo-instruction `adrl Rd, label`: the two parts of the offset are added (`u`) or subtracted (R314). -/
  | adrl (c : Cond) (u : Bool) (rd : Reg) (rot1 : BitVec 4) (imm1 : BitVec 8) (rot2 : BitVec 4) (imm2 : BitVec 8)
  deriving DecidableEq, Repr

end Sys2Proof
end

