-- ==== Sys2Proof/WellFormed.lean ====
section
/-! DEFINITION. Which terms are instructions: the ranges the card states for shift amounts and register lists. What the
spec calls UNPREDICTABLE is not ill-formed: such an instruction is well-formed and refused when it executes. -/

namespace Sys2Proof

/-- The allowed shift amounts: "0-31 only", "1-32 only", "1-32 only", "1-31 only" (R136, R138, R140, R142). -/
def ShiftImm.wf : ShiftImm → Bool
  | .lsl n => decide (n ≤ 31)
  | .lsr n => decide (1 ≤ n ∧ n ≤ 32)
  | .asr n => decide (1 ≤ n ∧ n ≤ 32)
  | .ror n => decide (1 ≤ n ∧ n ≤ 31)
  | .rrx => true

/-- The well-formed instructions. Form 2 of `ldm` does not list R15 and form 3 does (R280, R283, R284); the two
instructions of `adrl` both execute, so its `Rd` is not R15 (R314). -/
def Instr.wf : Instr → Bool
  | .andImm _ _ _ _ _ _ => true
  | .andShiftImm _ _ _ _ _ sh => sh.wf
  | .andShiftReg _ _ _ _ _ _ _ => true
  | .eorImm _ _ _ _ _ _ => true
  | .eorShiftImm _ _ _ _ _ sh => sh.wf
  | .eorShiftReg _ _ _ _ _ _ _ => true
  | .subImm _ _ _ _ _ _ => true
  | .subShiftImm _ _ _ _ _ sh => sh.wf
  | .subShiftReg _ _ _ _ _ _ _ => true
  | .rsbImm _ _ _ _ _ _ => true
  | .rsbShiftImm _ _ _ _ _ sh => sh.wf
  | .rsbShiftReg _ _ _ _ _ _ _ => true
  | .addImm _ _ _ _ _ _ => true
  | .addShiftImm _ _ _ _ _ sh => sh.wf
  | .addShiftReg _ _ _ _ _ _ _ => true
  | .adcImm _ _ _ _ _ _ => true
  | .adcShiftImm _ _ _ _ _ sh => sh.wf
  | .adcShiftReg _ _ _ _ _ _ _ => true
  | .sbcImm _ _ _ _ _ _ => true
  | .sbcShiftImm _ _ _ _ _ sh => sh.wf
  | .sbcShiftReg _ _ _ _ _ _ _ => true
  | .rscImm _ _ _ _ _ _ => true
  | .rscShiftImm _ _ _ _ _ sh => sh.wf
  | .rscShiftReg _ _ _ _ _ _ _ => true
  | .tstImm _ _ _ _ => true
  | .tstShiftImm _ _ _ sh => sh.wf
  | .tstShiftReg _ _ _ _ _ => true
  | .teqImm _ _ _ _ => true
  | .teqShiftImm _ _ _ sh => sh.wf
  | .teqShiftReg _ _ _ _ _ => true
  | .cmpImm _ _ _ _ => true
  | .cmpShiftImm _ _ _ sh => sh.wf
  | .cmpShiftReg _ _ _ _ _ => true
  | .cmnImm _ _ _ _ => true
  | .cmnShiftImm _ _ _ sh => sh.wf
  | .cmnShiftReg _ _ _ _ _ => true
  | .orrImm _ _ _ _ _ _ => true
  | .orrShiftImm _ _ _ _ _ sh => sh.wf
  | .orrShiftReg _ _ _ _ _ _ _ => true
  | .movImm _ _ _ _ _ => true
  | .movShiftImm _ _ _ _ sh => sh.wf
  | .movShiftReg _ _ _ _ _ _ => true
  | .bicImm _ _ _ _ _ _ => true
  | .bicShiftImm _ _ _ _ _ sh => sh.wf
  | .bicShiftReg _ _ _ _ _ _ _ => true
  | .mvnImm _ _ _ _ _ => true
  | .mvnShiftImm _ _ _ _ sh => sh.wf
  | .mvnShiftReg _ _ _ _ _ _ => true
  | .mrsCpsr _ _ => true
  | .mrsSpsr _ _ => true
  | .msrCpsrReg _ _ _ => true
  | .msrSpsrReg _ _ _ => true
  | .msrCpsrImm _ _ _ _ => true
  | .msrSpsrImm _ _ _ _ => true
  | .mul _ _ _ _ _ => true
  | .mla _ _ _ _ _ _ => true
  | .umull _ _ _ _ _ _ => true
  | .umlal _ _ _ _ _ _ => true
  | .smull _ _ _ _ _ _ => true
  | .smlal _ _ _ _ _ _ => true
  | .bx _ _ => true
  | .swp _ _ _ _ => true
  | .swpb _ _ _ _ => true
  | .ldrPreImm _ _ _ _ _ _ => true
  | .ldrPostImm _ _ _ _ _ => true
  | .ldrPreReg _ _ _ _ _ _ sh => sh.wf
  | .ldrPostReg _ _ _ _ _ sh => sh.wf
  | .ldrbPreImm _ _ _ _ _ _ => true
  | .ldrbPostImm _ _ _ _ _ => true
  | .ldrbPreReg _ _ _ _ _ _ sh => sh.wf
  | .ldrbPostReg _ _ _ _ _ sh => sh.wf
  | .strPreImm _ _ _ _ _ _ => true
  | .strPostImm _ _ _ _ _ => true
  | .strPreReg _ _ _ _ _ _ sh => sh.wf
  | .strPostReg _ _ _ _ _ sh => sh.wf
  | .strbPreImm _ _ _ _ _ _ => true
  | .strbPostImm _ _ _ _ _ => true
  | .strbPreReg _ _ _ _ _ _ sh => sh.wf
  | .strbPostReg _ _ _ _ _ sh => sh.wf
  | .ldrtImm _ _ _ _ _ => true
  | .ldrtReg _ _ _ _ _ sh => sh.wf
  | .ldrbtImm _ _ _ _ _ => true
  | .ldrbtReg _ _ _ _ _ sh => sh.wf
  | .strtImm _ _ _ _ _ => true
  | .strtReg _ _ _ _ _ sh => sh.wf
  | .strbtImm _ _ _ _ _ => true
  | .strbtReg _ _ _ _ _ sh => sh.wf
  | .ldrhPreImm _ _ _ _ _ _ => true
  | .ldrhPostImm _ _ _ _ _ => true
  | .ldrhPreReg _ _ _ _ _ _ => true
  | .ldrhPostReg _ _ _ _ _ => true
  | .ldrsbPreImm _ _ _ _ _ _ => true
  | .ldrsbPostImm _ _ _ _ _ => true
  | .ldrsbPreReg _ _ _ _ _ _ => true
  | .ldrsbPostReg _ _ _ _ _ => true
  | .ldrshPreImm _ _ _ _ _ _ => true
  | .ldrshPostImm _ _ _ _ _ => true
  | .ldrshPreReg _ _ _ _ _ _ => true
  | .ldrshPostReg _ _ _ _ _ => true
  | .strhPreImm _ _ _ _ _ _ => true
  | .strhPostImm _ _ _ _ _ => true
  | .strhPreReg _ _ _ _ _ _ => true
  | .strhPostReg _ _ _ _ _ => true
  | .ldm _ _ _ _ _ => true
  | .ldmUser _ _ _ _ list => !list.getLsbD 15
  | .ldmReturn _ _ _ _ list => list.getLsbD 15
  | .stm _ _ _ _ _ => true
  | .stmUser _ _ _ _ _ => true
  | .b _ _ => true
  | .bl _ _ => true
  | .swi _ _ => true
  | .nop _ => true
  | .ldrLabel _ _ _ _ => true
  | .ldrConst _ _ _ _ _ => true
  | .adr _ _ _ _ _ => true
  | .adrl _ _ rd _ _ _ _ => rd != 15#4

end Sys2Proof
end

