-- ==== Sys2Proof/Decode.lean ====
section
/-! DEFINITION. The decoder of 32-bit words (R90 to R113), total on any bytes and rejecting by name, and after it the
encoder, written from the same tables. The spec has every bit pattern here from general knowledge (D1). -/

namespace Sys2Proof

/-- Why a word is no instruction of this spec (R110, R111). Every one of them stops the machine as
`Refusal.badWord`; a refusal is safe, since nothing can be proved of a run that reaches it. -/
inductive DecodeError where
  /-- Raised by a word whose condition field is 1111 (R92, R110). Safe. -/
  | condNV
  /-- Raised by a coprocessor word: out of scope (R4, R110, D14). Safe. -/
  | coprocessorNotModelled
  /-- Raised by a word of the unallocated multiply, control or half-word space (R110). Safe. -/
  | unallocated
  /-- Raised by a word with a should-be-zero or should-be-one field violated (R111). Safe. -/
  | fieldShouldBe
  /-- Raised by a half-word or signed-byte transfer with P = 0 and W = 1 (R106, R110). Safe. -/
  | halfwordWriteBack
  /-- Raised by fewer than four bytes, which are no word (R90). The fetch never gives so few. Safe. -/
  | truncated
  deriving DecidableEq, Repr

/-- What a word is: an instruction, a word of the Undefined instruction space with its condition (R110, R324), or none. -/
inductive Decoded where
  | instr (i : Instr)
  | undefined (c : Cond)
  | refused (e : DecodeError)
  deriving DecidableEq, Repr

/-! ### Fields -/

/-- The bits `lo + len - 1` down to `lo` of a word (R6). -/
def field (w : Word) (lo len : Nat) : BitVec len :=
  w.extractLsb' lo len

/-- The condition field (R92). -/
def Cond.bits : Cond → BitVec 4
  | .eq => 0#4
  | .ne => 1#4
  | .cs => 2#4
  | .cc => 3#4
  | .mi => 4#4
  | .pl => 5#4
  | .vs => 6#4
  | .vc => 7#4
  | .hi => 8#4
  | .ls => 9#4
  | .ge => 10#4
  | .lt => 11#4
  | .gt => 12#4
  | .le => 13#4
  | .al => 14#4

/-- The condition of a condition field; 1111 is none (R92, D27). -/
def Cond.ofBits (b : BitVec 4) : Option Cond :=
  if b = 0#4 then some .eq
  else if b = 1#4 then some .ne
  else if b = 2#4 then some .cs
  else if b = 3#4 then some .cc
  else if b = 4#4 then some .mi
  else if b = 5#4 then some .pl
  else if b = 6#4 then some .vs
  else if b = 7#4 then some .vc
  else if b = 8#4 then some .hi
  else if b = 9#4 then some .ls
  else if b = 10#4 then some .ge
  else if b = 11#4 then some .lt
  else if b = 12#4 then some .gt
  else if b = 13#4 then some .le
  else if b = 14#4 then some .al
  else none

/-- The opcode field, bits 24..21 (R95). -/
def DpOp.bits : DpOp → BitVec 4
  | .and => 0#4
  | .eor => 1#4
  | .sub => 2#4
  | .rsb => 3#4
  | .add => 4#4
  | .adc => 5#4
  | .sbc => 6#4
  | .rsc => 7#4
  | .tst => 8#4
  | .teq => 9#4
  | .cmp => 10#4
  | .cmn => 11#4
  | .orr => 12#4
  | .mov => 13#4
  | .bic => 14#4
  | .mvn => 15#4

/-- The operation of an opcode field (R95). -/
def DpOp.ofBits (b : BitVec 4) : DpOp :=
  if b = 0#4 then .and
  else if b = 1#4 then .eor
  else if b = 2#4 then .sub
  else if b = 3#4 then .rsb
  else if b = 4#4 then .add
  else if b = 5#4 then .adc
  else if b = 6#4 then .sbc
  else if b = 7#4 then .rsc
  else if b = 8#4 then .tst
  else if b = 9#4 then .teq
  else if b = 10#4 then .cmp
  else if b = 11#4 then .cmn
  else if b = 12#4 then .orr
  else if b = 13#4 then .mov
  else if b = 14#4 then .bic
  else .mvn

/-- The `shift` field, bits 6..5 (R97). -/
def ShiftKind.bits : ShiftKind → BitVec 2
  | .lsl => 0#2
  | .lsr => 1#2
  | .asr => 2#2
  | .ror => 3#2

/-- The shift of a `shift` field (R97, R98). -/
def ShiftKind.ofBits (b : BitVec 2) : ShiftKind :=
  if b = 0#2 then .lsl
  else if b = 1#2 then .lsr
  else if b = 2#2 then .asr
  else .ror

/-- The `shift_imm` field, bits 11..7: 32 is encoded as 00000, and so is `rrx` (R97). -/
def ShiftImm.amountBits : ShiftImm → BitVec 5
  | .lsl n => BitVec.ofNat 5 n
  | .lsr n => BitVec.ofNat 5 n
  | .asr n => BitVec.ofNat 5 n
  | .ror n => BitVec.ofNat 5 n
  | .rrx => 0#5

/-- The `shift` field of a shift by immediate (R97). -/
def ShiftImm.kindBits : ShiftImm → BitVec 2
  | .lsl _ => 0#2
  | .lsr _ => 1#2
  | .asr _ => 2#2
  | .ror _ => 3#2
  | .rrx => 3#2

/-- The shift of the fields `shift_imm` and `shift` (R97). -/
def ShiftImm.ofBits (amount : BitVec 5) (kind : BitVec 2) : ShiftImm :=
  match ShiftKind.ofBits kind with
  | .lsl => .lsl amount.toNat
  | .lsr => .lsr (if amount = 0#5 then 32 else amount.toNat)
  | .asr => .asr (if amount = 0#5 then 32 else amount.toNat)
  | .ror => if amount = 0#5 then .rrx else .ror amount.toNat

/-- Bit 24 of a block transfer, `P` (R107). -/
def BlockMode.p : BlockMode → Bool
  | .ia => false
  | .ib => true
  | .da => false
  | .db => true

/-- Bit 23 of a block transfer, `U` (R107). -/
def BlockMode.u : BlockMode → Bool
  | .ia => true
  | .ib => true
  | .da => false
  | .db => false

/-- The addressing mode of `P` and `U` (R107). -/
def BlockMode.ofBits : Bool → Bool → BlockMode
  | false, true => .ia
  | true, true => .ib
  | false, false => .da
  | true, false => .db

/-- The `field_mask`, bits 19..16: f, s, x, c from the top (R104). -/
def PsrFields.bits (m : PsrFields) : BitVec 4 :=
  BitVec.ofBool m.f ++ BitVec.ofBool m.s ++ BitVec.ofBool m.x ++ BitVec.ofBool m.c

/-- The letters of a `field_mask` (R104). -/
def PsrFields.ofBits (b : BitVec 4) : PsrFields where
  f := b.getLsbD 3
  s := b.getLsbD 2
  x := b.getLsbD 1
  c := b.getLsbD 0

/-! ### The decoder -/

/-- A data-processing word with a rotated immediate (R94 to R96, R111). -/
def decodeDpImm (op : DpOp) (c : Cond) (sf : Bool) (rn rd : Reg) (rot : BitVec 4) (imm : BitVec 8) : Decoded :=
  match op with
  | .and => .instr (.andImm c sf rd rn rot imm)
  | .eor => .instr (.eorImm c sf rd rn rot imm)
  | .sub => .instr (.subImm c sf rd rn rot imm)
  | .rsb => .instr (.rsbImm c sf rd rn rot imm)
  | .add => .instr (.addImm c sf rd rn rot imm)
  | .adc => .instr (.adcImm c sf rd rn rot imm)
  | .sbc => .instr (.sbcImm c sf rd rn rot imm)
  | .rsc => .instr (.rscImm c sf rd rn rot imm)
  | .tst => if !sf then .refused .unallocated else if rd ≠ 0#4 then .refused .fieldShouldBe else .instr (.tstImm c rn rot imm)
  | .teq => if !sf then .refused .unallocated else if rd ≠ 0#4 then .refused .fieldShouldBe else .instr (.teqImm c rn rot imm)
  | .cmp => if !sf then .refused .unallocated else if rd ≠ 0#4 then .refused .fieldShouldBe else .instr (.cmpImm c rn rot imm)
  | .cmn => if !sf then .refused .unallocated else if rd ≠ 0#4 then .refused .fieldShouldBe else .instr (.cmnImm c rn rot imm)
  | .orr => .instr (.orrImm c sf rd rn rot imm)
  | .mov => if rn ≠ 0#4 then .refused .fieldShouldBe else .instr (.movImm c sf rd rot imm)
  | .bic => .instr (.bicImm c sf rd rn rot imm)
  | .mvn => if rn ≠ 0#4 then .refused .fieldShouldBe else .instr (.mvnImm c sf rd rot imm)

/-- A data-processing word with a shift by immediate (R94, R95, R97, R111). -/
def decodeDpShiftImm (op : DpOp) (c : Cond) (sf : Bool) (rn rd rm : Reg) (sh : ShiftImm) : Decoded :=
  match op with
  | .and => .instr (.andShiftImm c sf rd rn rm sh)
  | .eor => .instr (.eorShiftImm c sf rd rn rm sh)
  | .sub => .instr (.subShiftImm c sf rd rn rm sh)
  | .rsb => .instr (.rsbShiftImm c sf rd rn rm sh)
  | .add => .instr (.addShiftImm c sf rd rn rm sh)
  | .adc => .instr (.adcShiftImm c sf rd rn rm sh)
  | .sbc => .instr (.sbcShiftImm c sf rd rn rm sh)
  | .rsc => .instr (.rscShiftImm c sf rd rn rm sh)
  | .tst => if !sf then .refused .unallocated else if rd ≠ 0#4 then .refused .fieldShouldBe else .instr (.tstShiftImm c rn rm sh)
  | .teq => if !sf then .refused .unallocated else if rd ≠ 0#4 then .refused .fieldShouldBe else .instr (.teqShiftImm c rn rm sh)
  | .cmp => if !sf then .refused .unallocated else if rd ≠ 0#4 then .refused .fieldShouldBe else .instr (.cmpShiftImm c rn rm sh)
  | .cmn => if !sf then .refused .unallocated else if rd ≠ 0#4 then .refused .fieldShouldBe else .instr (.cmnShiftImm c rn rm sh)
  | .orr => .instr (.orrShiftImm c sf rd rn rm sh)
  | .mov => if rn ≠ 0#4 then .refused .fieldShouldBe else .instr (.movShiftImm c sf rd rm sh)
  | .bic => .instr (.bicShiftImm c sf rd rn rm sh)
  | .mvn => if rn ≠ 0#4 then .refused .fieldShouldBe else .instr (.mvnShiftImm c sf rd rm sh)

/-- A data-processing word with a shift by register (R94, R95, R98, R111). -/
def decodeDpShiftReg (op : DpOp) (c : Cond) (sf : Bool) (rn rd rm : Reg) (k : ShiftKind) (rs : Reg) : Decoded :=
  match op with
  | .and => .instr (.andShiftReg c sf rd rn rm k rs)
  | .eor => .instr (.eorShiftReg c sf rd rn rm k rs)
  | .sub => .instr (.subShiftReg c sf rd rn rm k rs)
  | .rsb => .instr (.rsbShiftReg c sf rd rn rm k rs)
  | .add => .instr (.addShiftReg c sf rd rn rm k rs)
  | .adc => .instr (.adcShiftReg c sf rd rn rm k rs)
  | .sbc => .instr (.sbcShiftReg c sf rd rn rm k rs)
  | .rsc => .instr (.rscShiftReg c sf rd rn rm k rs)
  | .tst => if !sf then .refused .unallocated else if rd ≠ 0#4 then .refused .fieldShouldBe else .instr (.tstShiftReg c rn rm k rs)
  | .teq => if !sf then .refused .unallocated else if rd ≠ 0#4 then .refused .fieldShouldBe else .instr (.teqShiftReg c rn rm k rs)
  | .cmp => if !sf then .refused .unallocated else if rd ≠ 0#4 then .refused .fieldShouldBe else .instr (.cmpShiftReg c rn rm k rs)
  | .cmn => if !sf then .refused .unallocated else if rd ≠ 0#4 then .refused .fieldShouldBe else .instr (.cmnShiftReg c rn rm k rs)
  | .orr => .instr (.orrShiftReg c sf rd rn rm k rs)
  | .mov => if rn ≠ 0#4 then .refused .fieldShouldBe else .instr (.movShiftReg c sf rd rm k rs)
  | .bic => .instr (.bicShiftReg c sf rd rn rm k rs)
  | .mvn => if rn ≠ 0#4 then .refused .fieldShouldBe else .instr (.mvnShiftReg c sf rd rm k rs)

/-- `mul` and `mla` (R99): bit 21 is A, and bits 15..12 of `mul` should be zero (R111). -/
def decodeMultiply (c : Cond) (a sf : Bool) (rd rn rs rm : Reg) : Decoded :=
  if a then .instr (.mla c sf rd rm rs rn)
  else if rn ≠ 0#4 then .refused .fieldShouldBe
  else .instr (.mul c sf rd rm rs)

/-- The four long multiplies (R100): bit 22 is Sg, bit 21 is A. -/
def decodeLongMultiply (c : Cond) (sg a sf : Bool) (rdHi rdLo rs rm : Reg) : Instr :=
  match sg, a with
  | false, false => .umull c sf rdLo rdHi rm rs
  | false, true => .umlal c sf rdLo rdHi rm rs
  | true, false => .smull c sf rdLo rdHi rm rs
  | true, true => .smlal c sf rdLo rdHi rm rs

/-- Word and byte transfers with an immediate offset (R105). -/
def decodeTransferImm (c : Cond) (p u b w l : Bool) (rn rd : Reg) (imm : BitVec 12) : Instr :=
  match p, b, l with
  | true, false, true => .ldrPreImm c u w rn rd imm
  | true, true, true => .ldrbPreImm c u w rn rd imm
  | true, false, false => .strPreImm c u w rn rd imm
  | true, true, false => .strbPreImm c u w rn rd imm
  | false, false, true => if w then .ldrtImm c u rn rd imm else .ldrPostImm c u rn rd imm
  | false, true, true => if w then .ldrbtImm c u rn rd imm else .ldrbPostImm c u rn rd imm
  | false, false, false => if w then .strtImm c u rn rd imm else .strPostImm c u rn rd imm
  | false, true, false => if w then .strbtImm c u rn rd imm else .strbPostImm c u rn rd imm

/-- Word and byte transfers with a register offset (R105). -/
def decodeTransferReg (c : Cond) (p u b w l : Bool) (rn rd rm : Reg) (sh : ShiftImm) : Instr :=
  match p, b, l with
  | true, false, true => .ldrPreReg c u w rn rd rm sh
  | true, true, true => .ldrbPreReg c u w rn rd rm sh
  | true, false, false => .strPreReg c u w rn rd rm sh
  | true, true, false => .strbPreReg c u w rn rd rm sh
  | false, false, true => if w then .ldrtReg c u rn rd rm sh else .ldrPostReg c u rn rd rm sh
  | false, true, true => if w then .ldrbtReg c u rn rd rm sh else .ldrbPostReg c u rn rd rm sh
  | false, false, false => if w then .strtReg c u rn rd rm sh else .strPostReg c u rn rd rm sh
  | false, true, false => if w then .strbtReg c u rn rd rm sh else .strbPostReg c u rn rd rm sh

/-- Half-word and signed-byte transfers with an immediate offset (R106, R110). -/
def decodeHalfImm (c : Cond) (p u w l s h : Bool) (rn rd : Reg) (imm : BitVec 8) : Decoded :=
  if s && !l then .refused .unallocated
  else if !p && w then .refused .halfwordWriteBack
  else
    match l, s, h, p with
    | true, false, true, true => .instr (.ldrhPreImm c u w rn rd imm)
    | true, false, true, false => .instr (.ldrhPostImm c u rn rd imm)
    | true, true, false, true => .instr (.ldrsbPreImm c u w rn rd imm)
    | true, true, false, false => .instr (.ldrsbPostImm c u rn rd imm)
    | true, true, true, true => .instr (.ldrshPreImm c u w rn rd imm)
    | true, true, true, false => .instr (.ldrshPostImm c u rn rd imm)
    | false, _, true, true => .instr (.strhPreImm c u w rn rd imm)
    | false, _, true, false => .instr (.strhPostImm c u rn rd imm)
    | _, _, false, _ => .refused .unallocated

/-- Half-word and signed-byte transfers with a register offset; bits 11..8 should be zero (R106, R110, R111). -/
def decodeHalfReg (c : Cond) (p u w l s h : Bool) (rn rd hi rm : Reg) : Decoded :=
  if s && !l then .refused .unallocated
  else if !p && w then .refused .halfwordWriteBack
  else if hi ≠ 0#4 then .refused .fieldShouldBe
  else
    match l, s, h, p with
    | true, false, true, true => .instr (.ldrhPreReg c u w rn rd rm)
    | true, false, true, false => .instr (.ldrhPostReg c u rn rd rm)
    | true, true, false, true => .instr (.ldrsbPreReg c u w rn rd rm)
    | true, true, false, false => .instr (.ldrsbPostReg c u rn rd rm)
    | true, true, true, true => .instr (.ldrshPreReg c u w rn rd rm)
    | true, true, true, false => .instr (.ldrshPostReg c u rn rd rm)
    | false, _, true, true => .instr (.strhPreReg c u w rn rd rm)
    | false, _, true, false => .instr (.strhPostReg c u rn rd rm)
    | _, _, false, _ => .refused .unallocated

/-- The miscellaneous space, bits 27..23 = 00010 and bit 20 = 0: `mrs`, `msr` (register), `bx`, else unallocated (R93,
R102 to R104, R110, R111). -/
def decodeMisc (c : Cond) (w : Word) : Decoded :=
  if field w 4 4 = 0#4 then
    if w.getLsbD 21 then
      if field w 12 4 = 15#4 ∧ field w 4 8 = 0#8 then
        if w.getLsbD 22 then .instr (.msrSpsrReg c (.ofBits (field w 16 4)) (field w 0 4))
        else .instr (.msrCpsrReg c (.ofBits (field w 16 4)) (field w 0 4))
      else .refused .fieldShouldBe
    else
      if field w 16 4 = 15#4 ∧ field w 0 12 = 0#12 then
        if w.getLsbD 22 then .instr (.mrsSpsr c (field w 12 4)) else .instr (.mrsCpsr c (field w 12 4))
      else .refused .fieldShouldBe
  else if field w 4 4 = 1#4 ∧ field w 21 2 = 1#2 then
    if field w 8 12 = 0xFFF#12 then .instr (.bx c (field w 0 4)) else .refused .fieldShouldBe
  else .refused .unallocated

/-- Bits 27..25 = 000 and bits 7..4 = 1001: multiplies and swaps (R93, R99 to R101, R110). -/
def decodeMultiplySwap (c : Cond) (w : Word) : Decoded :=
  if field w 22 3 = 0#3 then
    decodeMultiply c (w.getLsbD 21) (w.getLsbD 20) (field w 16 4) (field w 12 4) (field w 8 4) (field w 0 4)
  else if field w 23 2 = 1#2 then
    .instr (decodeLongMultiply c (w.getLsbD 22) (w.getLsbD 21) (w.getLsbD 20) (field w 16 4) (field w 12 4)
      (field w 8 4) (field w 0 4))
  else if field w 23 2 = 2#2 ∧ field w 20 2 = 0#2 ∧ field w 8 4 = 0#4 then
    if w.getLsbD 22 then .instr (.swpb c (field w 12 4) (field w 0 4) (field w 16 4))
    else .instr (.swp c (field w 12 4) (field w 0 4) (field w 16 4))
  else .refused .unallocated

/-- Bits 27..25 = 000 (R93, the first eight lines of its table). -/
def decode000 (c : Cond) (w : Word) : Decoded :=
  if field w 4 4 = 9#4 then decodeMultiplySwap c w
  else if w.getLsbD 7 && w.getLsbD 4 then
    if w.getLsbD 22 then
      decodeHalfImm c (w.getLsbD 24) (w.getLsbD 23) (w.getLsbD 21) (w.getLsbD 20) (w.getLsbD 6) (w.getLsbD 5)
        (field w 16 4) (field w 12 4) (field w 8 4 ++ field w 0 4)
    else
      decodeHalfReg c (w.getLsbD 24) (w.getLsbD 23) (w.getLsbD 21) (w.getLsbD 20) (w.getLsbD 6) (w.getLsbD 5)
        (field w 16 4) (field w 12 4) (field w 8 4) (field w 0 4)
  else if field w 23 2 = 2#2 ∧ w.getLsbD 20 = false then decodeMisc c w
  else if w.getLsbD 4 then
    decodeDpShiftReg (.ofBits (field w 21 4)) c (w.getLsbD 20) (field w 16 4) (field w 12 4) (field w 0 4)
      (.ofBits (field w 5 2)) (field w 8 4)
  else
    decodeDpShiftImm (.ofBits (field w 21 4)) c (w.getLsbD 20) (field w 16 4) (field w 12 4) (field w 0 4)
      (.ofBits (field w 7 5) (field w 5 2))

/-- Bits 27..25 = 001 (R93): `msr` (immediate), the Undefined words, or data processing with an immediate. -/
def decode001 (c : Cond) (w : Word) : Decoded :=
  if field w 23 2 = 2#2 ∧ field w 20 2 = 2#2 then
    if field w 12 4 = 15#4 then
      if w.getLsbD 22 then .instr (.msrSpsrImm c (.ofBits (field w 16 4)) (field w 8 4) (field w 0 8))
      else .instr (.msrCpsrImm c (.ofBits (field w 16 4)) (field w 8 4) (field w 0 8))
    else .refused .fieldShouldBe
  else if field w 23 2 = 2#2 ∧ field w 20 2 = 0#2 then .undefined c
  else
    decodeDpImm (.ofBits (field w 21 4)) c (w.getLsbD 20) (field w 16 4) (field w 12 4) (field w 8 4) (field w 0 8)

/-- Bits 27..25 = 100 (R107): the five rows of `ldm` and `stm` by L, S and bit 15. -/
def decodeBlock (c : Cond) (am : BlockMode) (s w l : Bool) (rn : Reg) (list : BitVec 16) : Instr :=
  match l, s with
  | true, false => .ldm c am w rn list
  | true, true => if list.getLsbD 15 then .ldmReturn c am w rn list else .ldmUser c am w rn list
  | false, false => .stm c am w rn list
  | false, true => .stmUser c am w rn list

/-- A word whose condition is known, by bits 27..25 (R93). -/
def decodeClass (c : Cond) (w : Word) : Decoded :=
  if field w 25 3 = 0#3 then decode000 c w
  else if field w 25 3 = 1#3 then decode001 c w
  else if field w 25 3 = 2#3 then
    .instr (decodeTransferImm c (w.getLsbD 24) (w.getLsbD 23) (w.getLsbD 22) (w.getLsbD 21) (w.getLsbD 20)
      (field w 16 4) (field w 12 4) (field w 0 12))
  else if field w 25 3 = 3#3 then
    if w.getLsbD 4 then .undefined c
    else
      .instr (decodeTransferReg c (w.getLsbD 24) (w.getLsbD 23) (w.getLsbD 22) (w.getLsbD 21) (w.getLsbD 20)
        (field w 16 4) (field w 12 4) (field w 0 4) (.ofBits (field w 7 5) (field w 5 2)))
  else if field w 25 3 = 4#3 then
    .instr (decodeBlock c (.ofBits (w.getLsbD 24) (w.getLsbD 23)) (w.getLsbD 22) (w.getLsbD 21) (w.getLsbD 20)
      (field w 16 4) (field w 0 16))
  else if field w 25 3 = 5#3 then
    if w.getLsbD 24 then .instr (.bl c (field w 0 24)) else .instr (.b c (field w 0 24))
  else if field w 25 3 = 6#3 then .refused .coprocessorNotModelled
  else if w.getLsbD 24 then .instr (.swi c (field w 0 24))
  else .refused .coprocessorNotModelled

/-- What a 32-bit word is (R92, R93, R110). -/
def decodeWord (w : Word) : Decoded :=
  match Cond.ofBits (field w 28 4) with
  | none => .refused .condNV
  | some c => decodeClass c w

/-- What the bytes at an address are, the lowest first: the first four make a little-endian word (R62, R67, R90). -/
def decodeBytes : List Byte → Decoded
  | b0 :: b1 :: b2 :: b3 :: _ => decodeWord (b3 ++ b2 ++ b1 ++ b0)
  | _ => .refused .truncated

/-- The four bytes of a word as memory holds them, the lowest address first (R62). -/
def wordBytes (w : Word) : List Byte :=
  [field w 0 8, field w 8 8, field w 16 8, field w 24 8]

/-- The instruction the decoder reads from the word whose bits are the low `nbits` bits of `w`, the bits above them zero. -/
def decodeTableWord (nbits w : Nat) : Option Instr :=
  match decodeBytes (wordBytes (BitVec.ofNat 32 (w % 2 ^ nbits))) with
  | .instr i => some i
  | .undefined _ => none
  | .refused _ => none

/-! ### The encoder -/

/-- Data processing with an immediate (R94, R96). -/
def encodeDpImm (c : Cond) (op : DpOp) (sf : Bool) (rn rd : Reg) (rot : BitVec 4) (imm : BitVec 8) : Word :=
  c.bits ++ 1#3 ++ op.bits ++ BitVec.ofBool sf ++ rn ++ rd ++ rot ++ imm

/-- Data processing with a shift by immediate (R94, R97). -/
def encodeDpShiftImm (c : Cond) (op : DpOp) (sf : Bool) (rn rd rm : Reg) (sh : ShiftImm) : Word :=
  c.bits ++ 0#3 ++ op.bits ++ BitVec.ofBool sf ++ rn ++ rd ++ sh.amountBits ++ sh.kindBits ++ 0#1 ++ rm

/-- Data processing with a shift by register (R94, R98). -/
def encodeDpShiftReg (c : Cond) (op : DpOp) (sf : Bool) (rn rd rm : Reg) (k : ShiftKind) (rs : Reg) : Word :=
  c.bits ++ 0#3 ++ op.bits ++ BitVec.ofBool sf ++ rn ++ rd ++ rs ++ 0#1 ++ k.bits ++ 1#1 ++ rm

/-- The multiplies: bits 27..21 tell them apart (R99, R100). -/
def encodeMultiply (c : Cond) (op : BitVec 7) (sf : Bool) (r19 r15 rs rm : Reg) : Word :=
  c.bits ++ op ++ BitVec.ofBool sf ++ r19 ++ r15 ++ rs ++ 9#4 ++ rm

/-- `swp` and `swpb` (R101). -/
def encodeSwap (c : Cond) (b : Bool) (rn rd rm : Reg) : Word :=
  c.bits ++ 2#5 ++ BitVec.ofBool b ++ 0#2 ++ rn ++ rd ++ 0#4 ++ 9#4 ++ rm

/-- `mrs` (R103). -/
def encodeMrs (c : Cond) (r : Bool) (rd : Reg) : Word :=
  c.bits ++ 2#5 ++ BitVec.ofBool r ++ 0#2 ++ 15#4 ++ rd ++ 0#12

/-- `msr` from a register (R104). -/
def encodeMsrReg (c : Cond) (r : Bool) (m : PsrFields) (rm : Reg) : Word :=
  c.bits ++ 2#5 ++ BitVec.ofBool r ++ 2#2 ++ m.bits ++ 15#4 ++ 0#8 ++ rm

/-- `msr` of an immediate (R104). -/
def encodeMsrImm (c : Cond) (r : Bool) (m : PsrFields) (rot : BitVec 4) (imm : BitVec 8) : Word :=
  c.bits ++ 6#5 ++ BitVec.ofBool r ++ 2#2 ++ m.bits ++ 15#4 ++ rot ++ imm

/-- Word and byte transfers with an immediate offset (R105). -/
def encodeTransferImm (c : Cond) (p u b w l : Bool) (rn rd : Reg) (imm : BitVec 12) : Word :=
  c.bits ++ 2#3 ++ BitVec.ofBool p ++ BitVec.ofBool u ++ BitVec.ofBool b ++ BitVec.ofBool w ++ BitVec.ofBool l ++ rn ++
    rd ++ imm

/-- Word and byte transfers with a register offset (R105). -/
def encodeTransferReg (c : Cond) (p u b w l : Bool) (rn rd rm : Reg) (sh : ShiftImm) : Word :=
  c.bits ++ 3#3 ++ BitVec.ofBool p ++ BitVec.ofBool u ++ BitVec.ofBool b ++ BitVec.ofBool w ++ BitVec.ofBool l ++ rn ++
    rd ++ sh.amountBits ++ sh.kindBits ++ 0#1 ++ rm

/-- Half-word and signed-byte transfers: `i` is bit 22, `hi` and `lo` the two offset fields (R106). -/
def encodeHalf (c : Cond) (p u i w l s h : Bool) (rn rd hi lo : Reg) : Word :=
  c.bits ++ 0#3 ++ BitVec.ofBool p ++ BitVec.ofBool u ++ BitVec.ofBool i ++ BitVec.ofBool w ++ BitVec.ofBool l ++ rn ++
    rd ++ hi ++ 1#1 ++ BitVec.ofBool s ++ BitVec.ofBool h ++ 1#1 ++ lo

/-- A half-word transfer whose immediate offset is `hi : lo` (R106). -/
def encodeHalfImm (c : Cond) (p u w l s h : Bool) (rn rd : Reg) (imm : BitVec 8) : Word :=
  encodeHalf c p u true w l s h rn rd (imm.extractLsb' 4 4) (imm.extractLsb' 0 4)

/-- A half-word transfer with a register offset (R106). -/
def encodeHalfReg (c : Cond) (p u w l s h : Bool) (rn rd rm : Reg) : Word :=
  encodeHalf c p u false w l s h rn rd 0#4 rm

/-- `ldm` and `stm` (R107). -/
def encodeBlock (c : Cond) (am : BlockMode) (s w l : Bool) (rn : Reg) (list : BitVec 16) : Word :=
  c.bits ++ 4#3 ++ BitVec.ofBool am.p ++ BitVec.ofBool am.u ++ BitVec.ofBool s ++ BitVec.ofBool w ++ BitVec.ofBool l ++
    rn ++ list

/-- The pair (`rotate_imm`, `immed_8`) with the smallest rotation that gives a value, if there is one (R96, R115). -/
def immPair? (v : Word) : Option (BitVec 4 × BitVec 8) :=
  go v [0, 1, 2, 3, 4, 5, 6, 7, 8, 9, 10, 11, 12, 13, 14, 15]
where
  go (v : Word) : List Nat → Option (BitVec 4 × BitVec 8)
    | [] => none
    | r :: rs =>
      if (v.rotateLeft (2 * r)).toNat < 256 then some (BitVec.ofNat 4 r, (v.rotateLeft (2 * r)).setWidth 8)
      else go v rs

/-- The instructions a term stands for: a pseudo-instruction is replaced by its expansion (R310 to R314), and every
other instruction stands for itself. -/
def Instr.expand (i : Instr) : List Instr :=
  match i with
  | .andImm c sf rd rn rot imm => [.andImm c sf rd rn rot imm]
  | .andShiftImm c sf rd rn rm sh => [.andShiftImm c sf rd rn rm sh]
  | .andShiftReg c sf rd rn rm k rs => [.andShiftReg c sf rd rn rm k rs]
  | .eorImm c sf rd rn rot imm => [.eorImm c sf rd rn rot imm]
  | .eorShiftImm c sf rd rn rm sh => [.eorShiftImm c sf rd rn rm sh]
  | .eorShiftReg c sf rd rn rm k rs => [.eorShiftReg c sf rd rn rm k rs]
  | .subImm c sf rd rn rot imm => [.subImm c sf rd rn rot imm]
  | .subShiftImm c sf rd rn rm sh => [.subShiftImm c sf rd rn rm sh]
  | .subShiftReg c sf rd rn rm k rs => [.subShiftReg c sf rd rn rm k rs]
  | .rsbImm c sf rd rn rot imm => [.rsbImm c sf rd rn rot imm]
  | .rsbShiftImm c sf rd rn rm sh => [.rsbShiftImm c sf rd rn rm sh]
  | .rsbShiftReg c sf rd rn rm k rs => [.rsbShiftReg c sf rd rn rm k rs]
  | .addImm c sf rd rn rot imm => [.addImm c sf rd rn rot imm]
  | .addShiftImm c sf rd rn rm sh => [.addShiftImm c sf rd rn rm sh]
  | .addShiftReg c sf rd rn rm k rs => [.addShiftReg c sf rd rn rm k rs]
  | .adcImm c sf rd rn rot imm => [.adcImm c sf rd rn rot imm]
  | .adcShiftImm c sf rd rn rm sh => [.adcShiftImm c sf rd rn rm sh]
  | .adcShiftReg c sf rd rn rm k rs => [.adcShiftReg c sf rd rn rm k rs]
  | .sbcImm c sf rd rn rot imm => [.sbcImm c sf rd rn rot imm]
  | .sbcShiftImm c sf rd rn rm sh => [.sbcShiftImm c sf rd rn rm sh]
  | .sbcShiftReg c sf rd rn rm k rs => [.sbcShiftReg c sf rd rn rm k rs]
  | .rscImm c sf rd rn rot imm => [.rscImm c sf rd rn rot imm]
  | .rscShiftImm c sf rd rn rm sh => [.rscShiftImm c sf rd rn rm sh]
  | .rscShiftReg c sf rd rn rm k rs => [.rscShiftReg c sf rd rn rm k rs]
  | .tstImm c rn rot imm => [.tstImm c rn rot imm]
  | .tstShiftImm c rn rm sh => [.tstShiftImm c rn rm sh]
  | .tstShiftReg c rn rm k rs => [.tstShiftReg c rn rm k rs]
  | .teqImm c rn rot imm => [.teqImm c rn rot imm]
  | .teqShiftImm c rn rm sh => [.teqShiftImm c rn rm sh]
  | .teqShiftReg c rn rm k rs => [.teqShiftReg c rn rm k rs]
  | .cmpImm c rn rot imm => [.cmpImm c rn rot imm]
  | .cmpShiftImm c rn rm sh => [.cmpShiftImm c rn rm sh]
  | .cmpShiftReg c rn rm k rs => [.cmpShiftReg c rn rm k rs]
  | .cmnImm c rn rot imm => [.cmnImm c rn rot imm]
  | .cmnShiftImm c rn rm sh => [.cmnShiftImm c rn rm sh]
  | .cmnShiftReg c rn rm k rs => [.cmnShiftReg c rn rm k rs]
  | .orrImm c sf rd rn rot imm => [.orrImm c sf rd rn rot imm]
  | .orrShiftImm c sf rd rn rm sh => [.orrShiftImm c sf rd rn rm sh]
  | .orrShiftReg c sf rd rn rm k rs => [.orrShiftReg c sf rd rn rm k rs]
  | .movImm c sf rd rot imm => [.movImm c sf rd rot imm]
  | .movShiftImm c sf rd rm sh => [.movShiftImm c sf rd rm sh]
  | .movShiftReg c sf rd rm k rs => [.movShiftReg c sf rd rm k rs]
  | .bicImm c sf rd rn rot imm => [.bicImm c sf rd rn rot imm]
  | .bicShiftImm c sf rd rn rm sh => [.bicShiftImm c sf rd rn rm sh]
  | .bicShiftReg c sf rd rn rm k rs => [.bicShiftReg c sf rd rn rm k rs]
  | .mvnImm c sf rd rot imm => [.mvnImm c sf rd rot imm]
  | .mvnShiftImm c sf rd rm sh => [.mvnShiftImm c sf rd rm sh]
  | .mvnShiftReg c sf rd rm k rs => [.mvnShiftReg c sf rd rm k rs]
  | .mrsCpsr c rd => [.mrsCpsr c rd]
  | .mrsSpsr c rd => [.mrsSpsr c rd]
  | .msrCpsrReg c fields rm => [.msrCpsrReg c fields rm]
  | .msrSpsrReg c fields rm => [.msrSpsrReg c fields rm]
  | .msrCpsrImm c fields rot imm => [.msrCpsrImm c fields rot imm]
  | .msrSpsrImm c fields rot imm => [.msrSpsrImm c fields rot imm]
  | .mul c sf rd rm rs => [.mul c sf rd rm rs]
  | .mla c sf rd rm rs rn => [.mla c sf rd rm rs rn]
  | .umull c sf rdLo rdHi rm rs => [.umull c sf rdLo rdHi rm rs]
  | .umlal c sf rdLo rdHi rm rs => [.umlal c sf rdLo rdHi rm rs]
  | .smull c sf rdLo rdHi rm rs => [.smull c sf rdLo rdHi rm rs]
  | .smlal c sf rdLo rdHi rm rs => [.smlal c sf rdLo rdHi rm rs]
  | .bx c rm => [.bx c rm]
  | .swp c rd rm rn => [.swp c rd rm rn]
  | .swpb c rd rm rn => [.swpb c rd rm rn]
  | .ldrPreImm c u w rn rd imm => [.ldrPreImm c u w rn rd imm]
  | .ldrPostImm c u rn rd imm => [.ldrPostImm c u rn rd imm]
  | .ldrPreReg c u w rn rd rm sh => [.ldrPreReg c u w rn rd rm sh]
  | .ldrPostReg c u rn rd rm sh => [.ldrPostReg c u rn rd rm sh]
  | .ldrbPreImm c u w rn rd imm => [.ldrbPreImm c u w rn rd imm]
  | .ldrbPostImm c u rn rd imm => [.ldrbPostImm c u rn rd imm]
  | .ldrbPreReg c u w rn rd rm sh => [.ldrbPreReg c u w rn rd rm sh]
  | .ldrbPostReg c u rn rd rm sh => [.ldrbPostReg c u rn rd rm sh]
  | .strPreImm c u w rn rd imm => [.strPreImm c u w rn rd imm]
  | .strPostImm c u rn rd imm => [.strPostImm c u rn rd imm]
  | .strPreReg c u w rn rd rm sh => [.strPreReg c u w rn rd rm sh]
  | .strPostReg c u rn rd rm sh => [.strPostReg c u rn rd rm sh]
  | .strbPreImm c u w rn rd imm => [.strbPreImm c u w rn rd imm]
  | .strbPostImm c u rn rd imm => [.strbPostImm c u rn rd imm]
  | .strbPreReg c u w rn rd rm sh => [.strbPreReg c u w rn rd rm sh]
  | .strbPostReg c u rn rd rm sh => [.strbPostReg c u rn rd rm sh]
  | .ldrtImm c u rn rd imm => [.ldrtImm c u rn rd imm]
  | .ldrtReg c u rn rd rm sh => [.ldrtReg c u rn rd rm sh]
  | .ldrbtImm c u rn rd imm => [.ldrbtImm c u rn rd imm]
  | .ldrbtReg c u rn rd rm sh => [.ldrbtReg c u rn rd rm sh]
  | .strtImm c u rn rd imm => [.strtImm c u rn rd imm]
  | .strtReg c u rn rd rm sh => [.strtReg c u rn rd rm sh]
  | .strbtImm c u rn rd imm => [.strbtImm c u rn rd imm]
  | .strbtReg c u rn rd rm sh => [.strbtReg c u rn rd rm sh]
  | .ldrhPreImm c u w rn rd imm => [.ldrhPreImm c u w rn rd imm]
  | .ldrhPostImm c u rn rd imm => [.ldrhPostImm c u rn rd imm]
  | .ldrhPreReg c u w rn rd rm => [.ldrhPreReg c u w rn rd rm]
  | .ldrhPostReg c u rn rd rm => [.ldrhPostReg c u rn rd rm]
  | .ldrsbPreImm c u w rn rd imm => [.ldrsbPreImm c u w rn rd imm]
  | .ldrsbPostImm c u rn rd imm => [.ldrsbPostImm c u rn rd imm]
  | .ldrsbPreReg c u w rn rd rm => [.ldrsbPreReg c u w rn rd rm]
  | .ldrsbPostReg c u rn rd rm => [.ldrsbPostReg c u rn rd rm]
  | .ldrshPreImm c u w rn rd imm => [.ldrshPreImm c u w rn rd imm]
  | .ldrshPostImm c u rn rd imm => [.ldrshPostImm c u rn rd imm]
  | .ldrshPreReg c u w rn rd rm => [.ldrshPreReg c u w rn rd rm]
  | .ldrshPostReg c u rn rd rm => [.ldrshPostReg c u rn rd rm]
  | .strhPreImm c u w rn rd imm => [.strhPreImm c u w rn rd imm]
  | .strhPostImm c u rn rd imm => [.strhPostImm c u rn rd imm]
  | .strhPreReg c u w rn rd rm => [.strhPreReg c u w rn rd rm]
  | .strhPostReg c u rn rd rm => [.strhPostReg c u rn rd rm]
  | .ldm c am w rn list => [.ldm c am w rn list]
  | .ldmUser c am w rn list => [.ldmUser c am w rn list]
  | .ldmReturn c am w rn list => [.ldmReturn c am w rn list]
  | .stm c am w rn list => [.stm c am w rn list]
  | .stmUser c am w rn list => [.stmUser c am w rn list]
  | .b c off => [.b c off]
  | .bl c off => [.bl c off]
  | .swi c imm => [.swi c imm]
  | .nop c => [.movShiftImm c false 0#4 0#4 (.lsl 0)]
  | .ldrLabel c u rd imm => [.ldrPreImm c u false 15#4 rd imm]
  | .ldrConst c rd imm32 u pool =>
    match immPair? imm32 with
    | some (rot, imm) => [.movImm c false rd rot imm]
    | none =>
      match immPair? (~~~imm32) with
      | some (rot, imm) => [.mvnImm c false rd rot imm]
      | none => [.ldrPreImm c u false 15#4 rd pool]
  | .adr c u rd rot imm => if u then [.addImm c false rd 15#4 rot imm] else [.subImm c false rd 15#4 rot imm]
  | .adrl c u rd rot1 imm1 rot2 imm2 =>
    if u then [.addImm c false rd 15#4 rot1 imm1, .addImm c false rd rd rot2 imm2]
    else [.subImm c false rd 15#4 rot1 imm1, .subImm c false rd rd rot2 imm2]

/-- The word of one instruction; a pseudo-instruction has none of its own (R116). -/
def encodeWord (i : Instr) : Option Word :=
  match i with
  | .andImm c sf rd rn rot imm => some (encodeDpImm c .and sf rn rd rot imm)
  | .andShiftImm c sf rd rn rm sh => some (encodeDpShiftImm c .and sf rn rd rm sh)
  | .andShiftReg c sf rd rn rm k rs => some (encodeDpShiftReg c .and sf rn rd rm k rs)
  | .eorImm c sf rd rn rot imm => some (encodeDpImm c .eor sf rn rd rot imm)
  | .eorShiftImm c sf rd rn rm sh => some (encodeDpShiftImm c .eor sf rn rd rm sh)
  | .eorShiftReg c sf rd rn rm k rs => some (encodeDpShiftReg c .eor sf rn rd rm k rs)
  | .subImm c sf rd rn rot imm => some (encodeDpImm c .sub sf rn rd rot imm)
  | .subShiftImm c sf rd rn rm sh => some (encodeDpShiftImm c .sub sf rn rd rm sh)
  | .subShiftReg c sf rd rn rm k rs => some (encodeDpShiftReg c .sub sf rn rd rm k rs)
  | .rsbImm c sf rd rn rot imm => some (encodeDpImm c .rsb sf rn rd rot imm)
  | .rsbShiftImm c sf rd rn rm sh => some (encodeDpShiftImm c .rsb sf rn rd rm sh)
  | .rsbShiftReg c sf rd rn rm k rs => some (encodeDpShiftReg c .rsb sf rn rd rm k rs)
  | .addImm c sf rd rn rot imm => some (encodeDpImm c .add sf rn rd rot imm)
  | .addShiftImm c sf rd rn rm sh => some (encodeDpShiftImm c .add sf rn rd rm sh)
  | .addShiftReg c sf rd rn rm k rs => some (encodeDpShiftReg c .add sf rn rd rm k rs)
  | .adcImm c sf rd rn rot imm => some (encodeDpImm c .adc sf rn rd rot imm)
  | .adcShiftImm c sf rd rn rm sh => some (encodeDpShiftImm c .adc sf rn rd rm sh)
  | .adcShiftReg c sf rd rn rm k rs => some (encodeDpShiftReg c .adc sf rn rd rm k rs)
  | .sbcImm c sf rd rn rot imm => some (encodeDpImm c .sbc sf rn rd rot imm)
  | .sbcShiftImm c sf rd rn rm sh => some (encodeDpShiftImm c .sbc sf rn rd rm sh)
  | .sbcShiftReg c sf rd rn rm k rs => some (encodeDpShiftReg c .sbc sf rn rd rm k rs)
  | .rscImm c sf rd rn rot imm => some (encodeDpImm c .rsc sf rn rd rot imm)
  | .rscShiftImm c sf rd rn rm sh => some (encodeDpShiftImm c .rsc sf rn rd rm sh)
  | .rscShiftReg c sf rd rn rm k rs => some (encodeDpShiftReg c .rsc sf rn rd rm k rs)
  | .tstImm c rn rot imm => some (encodeDpImm c .tst true rn 0#4 rot imm)
  | .tstShiftImm c rn rm sh => some (encodeDpShiftImm c .tst true rn 0#4 rm sh)
  | .tstShiftReg c rn rm k rs => some (encodeDpShiftReg c .tst true rn 0#4 rm k rs)
  | .teqImm c rn rot imm => some (encodeDpImm c .teq true rn 0#4 rot imm)
  | .teqShiftImm c rn rm sh => some (encodeDpShiftImm c .teq true rn 0#4 rm sh)
  | .teqShiftReg c rn rm k rs => some (encodeDpShiftReg c .teq true rn 0#4 rm k rs)
  | .cmpImm c rn rot imm => some (encodeDpImm c .cmp true rn 0#4 rot imm)
  | .cmpShiftImm c rn rm sh => some (encodeDpShiftImm c .cmp true rn 0#4 rm sh)
  | .cmpShiftReg c rn rm k rs => some (encodeDpShiftReg c .cmp true rn 0#4 rm k rs)
  | .cmnImm c rn rot imm => some (encodeDpImm c .cmn true rn 0#4 rot imm)
  | .cmnShiftImm c rn rm sh => some (encodeDpShiftImm c .cmn true rn 0#4 rm sh)
  | .cmnShiftReg c rn rm k rs => some (encodeDpShiftReg c .cmn true rn 0#4 rm k rs)
  | .orrImm c sf rd rn rot imm => some (encodeDpImm c .orr sf rn rd rot imm)
  | .orrShiftImm c sf rd rn rm sh => some (encodeDpShiftImm c .orr sf rn rd rm sh)
  | .orrShiftReg c sf rd rn rm k rs => some (encodeDpShiftReg c .orr sf rn rd rm k rs)
  | .movImm c sf rd rot imm => some (encodeDpImm c .mov sf 0#4 rd rot imm)
  | .movShiftImm c sf rd rm sh => some (encodeDpShiftImm c .mov sf 0#4 rd rm sh)
  | .movShiftReg c sf rd rm k rs => some (encodeDpShiftReg c .mov sf 0#4 rd rm k rs)
  | .bicImm c sf rd rn rot imm => some (encodeDpImm c .bic sf rn rd rot imm)
  | .bicShiftImm c sf rd rn rm sh => some (encodeDpShiftImm c .bic sf rn rd rm sh)
  | .bicShiftReg c sf rd rn rm k rs => some (encodeDpShiftReg c .bic sf rn rd rm k rs)
  | .mvnImm c sf rd rot imm => some (encodeDpImm c .mvn sf 0#4 rd rot imm)
  | .mvnShiftImm c sf rd rm sh => some (encodeDpShiftImm c .mvn sf 0#4 rd rm sh)
  | .mvnShiftReg c sf rd rm k rs => some (encodeDpShiftReg c .mvn sf 0#4 rd rm k rs)
  | .mrsCpsr c rd => some (encodeMrs c false rd)
  | .mrsSpsr c rd => some (encodeMrs c true rd)
  | .msrCpsrReg c fields rm => some (encodeMsrReg c false fields rm)
  | .msrSpsrReg c fields rm => some (encodeMsrReg c true fields rm)
  | .msrCpsrImm c fields rot imm => some (encodeMsrImm c false fields rot imm)
  | .msrSpsrImm c fields rot imm => some (encodeMsrImm c true fields rot imm)
  | .mul c sf rd rm rs => some (encodeMultiply c 0#7 sf rd 0#4 rs rm)
  | .mla c sf rd rm rs rn => some (encodeMultiply c 1#7 sf rd rn rs rm)
  | .umull c sf rdLo rdHi rm rs => some (encodeMultiply c 4#7 sf rdHi rdLo rs rm)
  | .umlal c sf rdLo rdHi rm rs => some (encodeMultiply c 5#7 sf rdHi rdLo rs rm)
  | .smull c sf rdLo rdHi rm rs => some (encodeMultiply c 6#7 sf rdHi rdLo rs rm)
  | .smlal c sf rdLo rdHi rm rs => some (encodeMultiply c 7#7 sf rdHi rdLo rs rm)
  | .bx c rm => some (c.bits ++ 0x12FFF1#24 ++ rm)
  | .swp c rd rm rn => some (encodeSwap c false rn rd rm)
  | .swpb c rd rm rn => some (encodeSwap c true rn rd rm)
  | .ldrPreImm c u w rn rd imm => some (encodeTransferImm c true u false w true rn rd imm)
  | .ldrPostImm c u rn rd imm => some (encodeTransferImm c false u false false true rn rd imm)
  | .ldrPreReg c u w rn rd rm sh => some (encodeTransferReg c true u false w true rn rd rm sh)
  | .ldrPostReg c u rn rd rm sh => some (encodeTransferReg c false u false false true rn rd rm sh)
  | .ldrbPreImm c u w rn rd imm => some (encodeTransferImm c true u true w true rn rd imm)
  | .ldrbPostImm c u rn rd imm => some (encodeTransferImm c false u true false true rn rd imm)
  | .ldrbPreReg c u w rn rd rm sh => some (encodeTransferReg c true u true w true rn rd rm sh)
  | .ldrbPostReg c u rn rd rm sh => some (encodeTransferReg c false u true false true rn rd rm sh)
  | .strPreImm c u w rn rd imm => some (encodeTransferImm c true u false w false rn rd imm)
  | .strPostImm c u rn rd imm => some (encodeTransferImm c false u false false false rn rd imm)
  | .strPreReg c u w rn rd rm sh => some (encodeTransferReg c true u false w false rn rd rm sh)
  | .strPostReg c u rn rd rm sh => some (encodeTransferReg c false u false false false rn rd rm sh)
  | .strbPreImm c u w rn rd imm => some (encodeTransferImm c true u true w false rn rd imm)
  | .strbPostImm c u rn rd imm => some (encodeTransferImm c false u true false false rn rd imm)
  | .strbPreReg c u w rn rd rm sh => some (encodeTransferReg c true u true w false rn rd rm sh)
  | .strbPostReg c u rn rd rm sh => some (encodeTransferReg c false u true false false rn rd rm sh)
  | .ldrtImm c u rn rd imm => some (encodeTransferImm c false u false true true rn rd imm)
  | .ldrtReg c u rn rd rm sh => some (encodeTransferReg c false u false true true rn rd rm sh)
  | .ldrbtImm c u rn rd imm => some (encodeTransferImm c false u true true true rn rd imm)
  | .ldrbtReg c u rn rd rm sh => some (encodeTransferReg c false u true true true rn rd rm sh)
  | .strtImm c u rn rd imm => some (encodeTransferImm c false u false true false rn rd imm)
  | .strtReg c u rn rd rm sh => some (encodeTransferReg c false u false true false rn rd rm sh)
  | .strbtImm c u rn rd imm => some (encodeTransferImm c false u true true false rn rd imm)
  | .strbtReg c u rn rd rm sh => some (encodeTransferReg c false u true true false rn rd rm sh)
  | .ldrhPreImm c u w rn rd imm => some (encodeHalfImm c true u w true false true rn rd imm)
  | .ldrhPostImm c u rn rd imm => some (encodeHalfImm c false u false true false true rn rd imm)
  | .ldrhPreReg c u w rn rd rm => some (encodeHalfReg c true u w true false true rn rd rm)
  | .ldrhPostReg c u rn rd rm => some (encodeHalfReg c false u false true false true rn rd rm)
  | .ldrsbPreImm c u w rn rd imm => some (encodeHalfImm c true u w true true false rn rd imm)
  | .ldrsbPostImm c u rn rd imm => some (encodeHalfImm c false u false true true false rn rd imm)
  | .ldrsbPreReg c u w rn rd rm => some (encodeHalfReg c true u w true true false rn rd rm)
  | .ldrsbPostReg c u rn rd rm => some (encodeHalfReg c false u false true true false rn rd rm)
  | .ldrshPreImm c u w rn rd imm => some (encodeHalfImm c true u w true true true rn rd imm)
  | .ldrshPostImm c u rn rd imm => some (encodeHalfImm c false u false true true true rn rd imm)
  | .ldrshPreReg c u w rn rd rm => some (encodeHalfReg c true u w true true true rn rd rm)
  | .ldrshPostReg c u rn rd rm => some (encodeHalfReg c false u false true true true rn rd rm)
  | .strhPreImm c u w rn rd imm => some (encodeHalfImm c true u w false false true rn rd imm)
  | .strhPostImm c u rn rd imm => some (encodeHalfImm c false u false false false true rn rd imm)
  | .strhPreReg c u w rn rd rm => some (encodeHalfReg c true u w false false true rn rd rm)
  | .strhPostReg c u rn rd rm => some (encodeHalfReg c false u false false false true rn rd rm)
  | .ldm c am w rn list => some (encodeBlock c am false w true rn list)
  | .ldmUser c am w rn list => some (encodeBlock c am true w true rn list)
  | .ldmReturn c am w rn list => some (encodeBlock c am true w true rn list)
  | .stm c am w rn list => some (encodeBlock c am false w false rn list)
  | .stmUser c am w rn list => some (encodeBlock c am true w false rn list)
  | .b c off => some (c.bits ++ 10#4 ++ off)
  | .bl c off => some (c.bits ++ 11#4 ++ off)
  | .swi c imm => some (c.bits ++ 15#4 ++ imm)
  | .nop _ => none
  | .ldrLabel _ _ _ _ => none
  | .ldrConst _ _ _ _ _ => none
  | .adr _ _ _ _ _ => none
  | .adrl _ _ _ _ _ _ _ => none

/-- The words of an instruction, in the order memory holds them: those of its expansion (R116, R314). -/
def encode (i : Instr) : List Word :=
  i.expand.filterMap encodeWord

end Sys2Proof
end

