-- ==== Sys2Proof/Machine/State.lean ====
section
/-! DEFINITION. The state of the machine as plain data (R20 to R39), the reasons a step can stop, and the state after
Reset (R38, R370). -/

namespace Sys2Proof.Machine

/-- The seven processor modes (R31). -/
inductive Mode where
  | usr | fiq | irq | svc | abt | und | sys
  deriving DecidableEq, Repr

/-- The physical general registers but for the PC (R22): a name without a suffix is the User-mode copy. -/
inductive PhysReg where
  | r0 | r1 | r2 | r3 | r4 | r5 | r6 | r7
  | r8 | r9 | r10 | r11 | r12 | r13 | r14 | r8Fiq
  | r9Fiq | r10Fiq | r11Fiq | r12Fiq | r13Fiq | r14Fiq | r13Irq | r14Irq
  | r13Svc | r14Svc | r13Abt | r14Abt | r13Und | r14Und
  deriving DecidableEq, Repr

/-- The slot of `State.gprs` that holds a physical register. -/
def PhysReg.index : PhysReg → Fin 30
  | .r0 => 0
  | .r1 => 1
  | .r2 => 2
  | .r3 => 3
  | .r4 => 4
  | .r5 => 5
  | .r6 => 6
  | .r7 => 7
  | .r8 => 8
  | .r9 => 9
  | .r10 => 10
  | .r11 => 11
  | .r12 => 12
  | .r13 => 13
  | .r14 => 14
  | .r8Fiq => 15
  | .r9Fiq => 16
  | .r10Fiq => 17
  | .r11Fiq => 18
  | .r12Fiq => 19
  | .r13Fiq => 20
  | .r14Fiq => 21
  | .r13Irq => 22
  | .r14Irq => 23
  | .r13Svc => 24
  | .r14Svc => 25
  | .r13Abt => 26
  | .r14Abt => 27
  | .r13Und => 28
  | .r14Und => 29

/-- The current program status register: its twelve defined bits (R27, R33), the mode field always one of the seven
modes (R31, D13). -/
structure Cpsr where
  n : Bool
  z : Bool
  c : Bool
  v : Bool
  i : Bool
  f : Bool
  t : Bool
  mode : Mode
  deriving DecidableEq, Repr

/-- A saved program status register: "a plain 12-bit store", any five mode bits (R32). -/
structure Psr where
  n : Bool
  z : Bool
  c : Bool
  v : Bool
  i : Bool
  f : Bool
  t : Bool
  m : BitVec 5
  deriving DecidableEq, Repr

/-- One sample of the two interrupt request inputs (R37, R338). -/
structure Requests where
  fiq : Bool
  irq : Bool
  deriving DecidableEq, Repr

/-- The model faults: named outcomes that are no architectural exceptions (R9, R340). -/
inductive Fault where
  /-- Raised by a half-word or word access at an address that is no multiple of its width (R66, D5; log 13). Safe. -/
  | misaligned (addr : Word) (width : Nat)
  /-- Raised by an access or a fetch of a byte outside `Mapped`: the spec's "stuck" (R64, R67, R68; log 5). Safe. -/
  | unmapped (addr : Word) (width : Nat)
  /-- Raised by the fetch of an instruction that a store has written to since launch (R67, R75; log 14). Safe. -/
  | fetchModified (addr : Word)
  deriving DecidableEq, Repr

/-- The refusals: the spec gives the step no meaning (R9, D12), so no claim can be proved of a run that reaches one. -/
inductive Refusal where
  /-- Raised by an arm of `exec` that has no meaning yet; no arm does. Safe. -/
  | notModelled (mnemonic : String)
  /-- Raised by every step with CPSR.T = 1 (R30, R321, D2; log 12). Safe. -/
  | thumbStateNotModelled
  /-- Raised by a fetched word that is no instruction (R110, R111; log 17). Safe. -/
  | badWord (reason : DecodeError)
  /-- Raised where sequential execution would pass 0xFFFFFFFC (R26, D20). Safe. -/
  | pcWraps
  /-- Raised by a control transfer in ARM state to an address that is no multiple of 4 (R26, R170, R242, D6). Safe. -/
  | pcMisaligned (target : Word)
  /-- Raised by R15 as an operand that the instruction does not allow (R145, R150, R162, R173 to R176, R203, R252 to R262,
  R300; log 16). Safe. -/
  | r15Operand
  /-- Raised by an SPSR access or an exception return in User or System mode: "Not valid" (R170, R174, R176, R284). Safe. -/
  | noSpsr
  /-- Raised by writing five bits that are no mode into CPSR.M (R31, R175, R333, D13). Safe. -/
  | illegalMode (bits : BitVec 5)
  /-- Raised by `msr` writing T = 1 to the CPSR (R30, R175). Safe. -/
  | msrSetsThumb
  /-- Raised by the register combinations R203 forbids a multiply (D31). Safe. -/
  | multiplyRegisters
  /-- Raised by `Rn = Rm` or `Rd = Rn` in a transfer that writes its base (R150 d, e). Safe. -/
  | baseWriteBack
  /-- Raised by `swp` and `swpb` with `Rn = Rm` or `Rn = Rd` (R300). Safe. -/
  | swapRegisters
  /-- Raised by `ldm` and `stm` with an empty register list (R162 a). Safe. -/
  | emptyRegisterList
  /-- Raised by `ldm` and `stm` with `!` and the base in the list, but for an `stm` whose base is the lowest (R162 c, d). Safe. -/
  | baseInRegisterList
  /-- Raised by `ldm` and `stm` whose block crosses the top of memory (R77, R280, D20). Safe. -/
  | blockWraps
  /-- Raised by `!` on a User-bank `ldm` or `stm` (R162 e, D21). Safe. -/
  | userBankWriteBack
  /-- Raised by a User-bank `ldm` or `stm` in User or System mode (R283, R286, D21). Safe. -/
  | userBankMode
  /-- Raised by a banked register named by the instruction after a User-bank `ldm` (R375; log 15). Safe. -/
  | bankedAfterUserLdm
  deriving DecidableEq, Repr

/-- Everything the spec gives the machine (R20 to R37, R68, R375), and `draws`, the model's own count of the free
values drawn (R9; log 7). -/
structure State where
  /-- The general registers of every bank, by `PhysReg.index` (R22). -/
  gprs : Vector Word 30
  /-- The address of the instruction being executed (R8, R25). -/
  pc : Word
  cpsr : Cpsr
  spsrFiq : Psr
  spsrIrq : Psr
  spsrSvc : Psr
  spsrAbt : Psr
  spsrUnd : Psr
  /-- Memory (R36): the listed bytes, in the canonical form of `Memory.wf`. -/
  mem : List Host.Cell
  /-- The addresses stored to since launch, strictly rising (R75). -/
  written : List Nat
  /-- "The previous instruction was a form-2 `ldm`" (R375). -/
  afterUserLdm : Bool
  /-- The coming samples of the interrupt request inputs, one for each step; none listed: no request (R37; log 6). -/
  requests : List Requests
  /-- How many free values have been drawn (log 7). -/
  draws : Nat
  /-- The platform, which no step changes (R68; log 5). -/
  platform : Platform
  deriving DecidableEq, Repr

/-- The SPSRs at reset, where the spec says UNKNOWN (R38). DESIGN CHOICE (log 3, unsafe): the value CPSR has at reset. -/
def Psr.atReset : Psr where
  n := false
  z := false
  c := false
  v := false
  i := true
  f := true
  t := false
  m := 0b10011#5

/-- The state after Reset (R38, R370): Supervisor mode, I = F = 1, T = 0, pc = 0. The flags are a DESIGN CHOICE (log 2,
unsafe), as are the registers (log 1), the SPSRs (log 3), the mapped set (log 5) and the empty list of requests (log 6). -/
def State.reset : State where
  gprs := Vector.replicate 30 Config.resetRegister
  pc := 0x00000000#32
  cpsr :=
    { n := false, z := false, c := false, v := false, i := true, f := true, t := false, mode := .svc }
  spsrFiq := Psr.atReset
  spsrIrq := Psr.atReset
  spsrSvc := Psr.atReset
  spsrAbt := Psr.atReset
  spsrUnd := Psr.atReset
  mem := []
  written := []
  afterUserLdm := false
  requests := []
  draws := 0
  platform := Platform.default

/-- What a step or an instruction answers. -/
abbrev Out := Host.Outcome State Fault Refusal

end Sys2Proof.Machine
end

