-- ==== Sys2Proof/Machine/Memory.lean ====
section
/-! DEFINITION. Memory as a canonical list of cells (R36, R60), little-endian accesses over it (R62), and the set of
bytes stored to (R75). -/

namespace Sys2Proof.Machine

/-- A memory: its listed bytes. -/
abbrev Memory := List Host.Cell

/-- The byte at an address; an unlisted one reads as `Config.initialByte` (log 4). -/
def Memory.byte : Memory → Nat → Byte
  | [], _ => Config.initialByte
  | (x, v) :: rest, a => if a = x then v else Memory.byte rest a

/-- Store a byte, keeping the canonical form: writing what an unlisted address reads as removes the entry. -/
def Memory.setByte : Memory → Nat → Byte → Memory
  | [], a, b => if b = Config.initialByte then [] else [(a, b)]
  | (x, v) :: rest, a, b =>
    if a < x then (if b = Config.initialByte then (x, v) :: rest else (a, b) :: (x, v) :: rest)
    else if a = x then (if b = Config.initialByte then rest else (a, b) :: rest)
    else (x, v) :: Memory.setByte rest a b

/-- The entries after address `lo` are strictly rising and none is what an unlisted address reads as. -/
def Memory.wfFrom : Nat → Memory → Bool
  | _, [] => true
  | lo, (x, v) :: rest => decide (lo ≤ x) && decide (v ≠ Config.initialByte) && Memory.wfFrom (x + 1) rest

/-- The canonical form: addresses strictly rising, no entry equal to what an unlisted address reads as. -/
def Memory.wf (m : Memory) : Bool :=
  Memory.wfFrom 0 m

/-- Every listed address is a 32-bit address (R60). -/
def Memory.inSpace (m : Memory) : Bool :=
  m.all fun cell => decide (cell.1 < 4294967296)

/-- The value of the `n` bytes at `a`, the lowest address least significant (R62, R64). -/
def Memory.load (m : Memory) (a : Nat) : Nat → Nat
  | 0 => 0
  | n + 1 => (m.byte a).toNat + 256 * Memory.load m (a + 1) n

/-- Store the low `n` bytes of a value at `a`, the least significant at the lowest address (R62, R65). -/
def Memory.store (m : Memory) (a : Nat) : Nat → Nat → Memory
  | 0, _ => m
  | n + 1, v => Memory.store (m.setByte a (BitVec.ofNat 8 v)) (a + 1) n (v / 256)

/-- The four bytes at an address, the lowest first (R67). -/
def Memory.fourBytes (m : Memory) (a : Nat) : List Byte :=
  [m.byte a, m.byte (a + 1), m.byte (a + 2), m.byte (a + 3)]

/-! ### The set of bytes stored to -/

/-- Add an address to a strictly rising list. -/
def Written.insert : List Nat → Nat → List Nat
  | [], a => [a]
  | x :: rest, a => if a < x then a :: x :: rest else if a = x then x :: rest else x :: Written.insert rest a

/-- Add the addresses `a` to `a + n - 1` (R75). -/
def Written.add (l : List Nat) (a : Nat) : Nat → List Nat
  | 0 => l
  | n + 1 => Written.add (Written.insert l a) (a + 1) n

/-- The addresses from `lo` on are strictly rising. -/
def Written.wfFrom : Nat → List Nat → Bool
  | _, [] => true
  | lo, x :: rest => decide (lo ≤ x) && Written.wfFrom (x + 1) rest

/-- The list is strictly rising. -/
def Written.wf (l : List Nat) : Bool :=
  Written.wfFrom 0 l

/-- One of the bytes `a` to `a + n - 1` has been stored to (R67, R75). -/
def Written.touches (l : List Nat) (a n : Nat) : Bool :=
  l.any fun x => decide (a ≤ x ∧ x < a + n)

/-! ### The platform (R68) -/

/-- An address lies in a region. -/
def Region.holds (r : Region) (a : Nat) : Bool :=
  decide (r.base ≤ a ∧ a < r.base + r.size)

/-- A byte exists: `Mapped`, a subset of the 2^32 addresses (R68). -/
def Platform.mapsByte (p : Platform) (a : Nat) : Bool :=
  decide (a < 4294967296) && p.mapped.any fun r => Region.holds r a

/-- All of the bytes `a` to `a + n - 1` exist (R64). -/
def Platform.maps (p : Platform) (a : Nat) : Nat → Bool
  | 0 => true
  | n + 1 => Platform.mapsByte p a && Platform.maps p (a + 1) n

/-- A rule claims an access. -/
def AbortRule.claims (r : AbortRule) (a n : Nat) (k : AccessKind) (pr : Privilege) : Bool :=
  Region.holds r.region a && r.width.all (fun w => decide (w = n)) && r.kind.all (fun x => decide (x = k))
    && r.priv.all (fun x => decide (x = pr))

/-- The predicate `Aborts(addr, n, kind, priv)` of R68. -/
def Platform.abortsAccess (p : Platform) (a n : Nat) (k : AccessKind) (pr : Privilege) : Bool :=
  p.aborts.any fun r => AbortRule.claims r a n k pr

end Sys2Proof.Machine
end

