-- ==== Sys2Proof/Machine/Ops.lean ====
section
/-! DEFINITION. The named operations over the state: the register banks, the status registers, data accesses, the free
values, conditional execution, and taking an exception and returning from one (R22 to R34, R64 to R70, R131, R132, R322
to R333). -/

namespace Sys2Proof.Machine

/-! ### Modes (R31) -/

/-- The mode field of a mode (R31). -/
def Mode.bits : Mode → BitVec 5
  | .usr => 0b10000#5
  | .fiq => 0b10001#5
  | .irq => 0b10010#5
  | .svc => 0b10011#5
  | .abt => 0b10111#5
  | .und => 0b11011#5
  | .sys => 0b11111#5

/-- The mode of a mode field; the other 25 values are no modes (R31, D13). -/
def Mode.ofBits (b : BitVec 5) : Option Mode :=
  if b = 0b10000#5 then some .usr
  else if b = 0b10001#5 then some .fiq
  else if b = 0b10010#5 then some .irq
  else if b = 0b10011#5 then some .svc
  else if b = 0b10111#5 then some .abt
  else if b = 0b11011#5 then some .und
  else if b = 0b11111#5 then some .sys
  else none

/-- The modes with an SPSR; User and System have none (R31, R32). -/
def Mode.hasSpsr : Mode → Bool
  | .usr => false
  | .fiq => true
  | .irq => true
  | .svc => true
  | .abt => true
  | .und => true
  | .sys => false

/-- Every mode but User is privileged (R12, R336). -/
def Mode.privileged (m : Mode) : Bool :=
  decide (m ≠ .usr)

/-! ### General registers (R22, R23) -/

/-- `R13` and `R14` of a mode's bank (R23). -/
def Mode.r13 : Mode → PhysReg
  | .usr => .r13
  | .fiq => .r13Fiq
  | .irq => .r13Irq
  | .svc => .r13Svc
  | .abt => .r13Abt
  | .und => .r13Und
  | .sys => .r13

/-- `R14` of a mode's bank (R23). -/
def Mode.r14 : Mode → PhysReg
  | .usr => .r14
  | .fiq => .r14Fiq
  | .irq => .r14Irq
  | .svc => .r14Svc
  | .abt => .r14Abt
  | .und => .r14Und
  | .sys => .r14

/-- One of two physical registers, by whether the mode is Fast Interrupt (R23, `R8` to `R12`). -/
def Mode.ifFiq (m : Mode) (fiq other : PhysReg) : PhysReg :=
  if m = .fiq then fiq else other

/-- `phys(M, i)`: the physical register that `x[i]` names in a mode; `none` is the PC, register 15 (R23). -/
def phys (m : Mode) (i : Reg) : Option PhysReg :=
  match i.toNat with
  | 0 => some .r0
  | 1 => some .r1
  | 2 => some .r2
  | 3 => some .r3
  | 4 => some .r4
  | 5 => some .r5
  | 6 => some .r6
  | 7 => some .r7
  | 8 => some (m.ifFiq .r8Fiq .r8)
  | 9 => some (m.ifFiq .r9Fiq .r9)
  | 10 => some (m.ifFiq .r10Fiq .r10)
  | 11 => some (m.ifFiq .r11Fiq .r11)
  | 12 => some (m.ifFiq .r12Fiq .r12)
  | 13 => some m.r13
  | 14 => some m.r14
  | _ => none

/-- The value of a physical register. -/
def State.gpr (s : State) (p : PhysReg) : Word :=
  s.gprs[p.index]

/-- Write a physical register. -/
def State.setGpr (s : State) (p : PhysReg) (v : Word) : State :=
  { s with gprs := s.gprs.set p.index v }

/-- `x[i]` as mode `m` sees it; R15 reads as the instruction's address plus 8 (R8, R23, R25). -/
def State.regIn (s : State) (m : Mode) (i : Reg) : Word :=
  match phys m i with
  | some p => s.gpr p
  | none => s.pc + 8#32

/-- `x[i] <- v` as mode `m` sees it; a write of R15 is `pc <- v` (R8, R23, R25). -/
def State.setRegIn (s : State) (m : Mode) (i : Reg) (v : Word) : State :=
  match phys m i with
  | some p => s.setGpr p v
  | none => { s with pc := v }

/-- `x[i]` in the current mode (R8, R23). -/
def State.reg (s : State) (i : Reg) : Word :=
  s.regIn s.cpsr.mode i

/-- `x[i] <- v` in the current mode (R8, R23). -/
def State.setReg (s : State) (i : Reg) (v : Word) : State :=
  s.setRegIn s.cpsr.mode i v

/-! ### Status registers (R27 to R34) -/

/-- The twelve defined bits of the CPSR, as an SPSR holds them (R32, R33). -/
def Cpsr.saved (c : Cpsr) : Psr where
  n := c.n
  z := c.z
  c := c.c
  v := c.v
  i := c.i
  f := c.f
  t := c.t
  m := c.mode.bits

/-- An SPSR copied to the CPSR: only a legal mode can be (R31, R32). -/
def Psr.restored (p : Psr) : Option Cpsr :=
  match Mode.ofBits p.m with
  | none => none
  | some m => some { n := p.n, z := p.z, c := p.c, v := p.v, i := p.i, f := p.f, t := p.t, mode := m }

/-- A PSR as a word, with the bits 27..8 it does not define (R27, R33, R173). -/
def Psr.word (p : Psr) (undefinedBits : BitVec 20) : Word :=
  BitVec.ofBool p.n ++ BitVec.ofBool p.z ++ BitVec.ofBool p.c ++ BitVec.ofBool p.v ++ undefinedBits ++
    BitVec.ofBool p.i ++ BitVec.ofBool p.f ++ BitVec.ofBool p.t ++ p.m

/-- The SPSR of a mode; User and System have none (R23, R32). -/
def State.spsr? (s : State) : Mode → Option Psr
  | .usr => none
  | .fiq => some s.spsrFiq
  | .irq => some s.spsrIrq
  | .svc => some s.spsrSvc
  | .abt => some s.spsrAbt
  | .und => some s.spsrUnd
  | .sys => none

/-- Write the SPSR of a mode; there is nothing to write in User and System mode (R23, R32). -/
def State.setSpsr (s : State) (m : Mode) (p : Psr) : State :=
  match m with
  | .usr => s
  | .fiq => { s with spsrFiq := p }
  | .irq => { s with spsrIrq := p }
  | .svc => { s with spsrSvc := p }
  | .abt => { s with spsrAbt := p }
  | .und => { s with spsrUnd := p }
  | .sys => s

/-! ### Free values (R9, D11) -/

/-- The free value that the next draw gives (log 7). -/
def State.drawn (s : State) : BitVec 32 :=
  Config.draw s.draws

/-- The state after a draw. -/
def State.afterDraw (s : State) : State :=
  { s with draws := s.draws + 1 }

/-! ### Conditions and the end of an instruction (R26, R130 to R132) -/

/-- `ConditionPassed(cond)` (R130, R131; LE is corrected as 90_conflicts.md C1 says). -/
def Cond.passes (c : Cond) (p : Cpsr) : Bool :=
  match c with
  | .eq => p.z
  | .ne => !p.z
  | .cs => p.c
  | .cc => !p.c
  | .mi => p.n
  | .pl => !p.n
  | .vs => p.v
  | .vc => !p.v
  | .hi => p.c && !p.z
  | .ls => !p.c || p.z
  | .ge => p.n == p.v
  | .lt => p.n != p.v
  | .gt => !p.z && (p.n == p.v)
  | .le => p.z || (p.n != p.v)
  | .al => true

/-- `pc <- pc + 4`, refused at 0xFFFFFFFC (R26, D20). -/
def advance (s : State) : Out :=
  if s.pc = 0xFFFFFFFC#32 then .refused .pcWraps else .next { s with pc := s.pc + 4#32 }

/-- Conditional execution: a failed condition leaves only `pc <- pc + 4` (R10, R132). -/
def conditional (c : Cond) (s : State) (body : State → Out) : Out :=
  if Cond.passes c s.cpsr then body s else advance s

/-- A control transfer in ARM state to an address that must be a multiple of 4 (R26, R170, D6). -/
def jump (s : State) (target : Word) : Out :=
  if target &&& 3#32 = 0#32 then .next { s with pc := target } else .refused (.pcMisaligned target)

/-! ### Exceptions (R320 to R333) -/

/-- The seven exceptions (R320). -/
inductive Exc where
  | reset | undefinedInstruction | swi | prefetchAbort | dataAbort | irq | fiq
  deriving DecidableEq, Repr

/-- The mode an exception enters (R320). -/
def Exc.mode : Exc → Mode
  | .reset => .svc
  | .undefinedInstruction => .und
  | .swi => .svc
  | .prefetchAbort => .abt
  | .dataAbort => .abt
  | .irq => .irq
  | .fiq => .fiq

/-- The vector of an exception; no exception has 0x00000014 (R69, R320, R331). -/
def Exc.vector : Exc → Word
  | .reset => 0x00000000#32
  | .undefinedInstruction => 0x00000004#32
  | .swi => 0x00000008#32
  | .prefetchAbort => 0x0000000C#32
  | .dataAbort => 0x00000010#32
  | .irq => 0x00000018#32
  | .fiq => 0x0000001C#32

/-- Reset and FIQ also disable fast interrupts (R322). -/
def Exc.setsF : Exc → Bool
  | .reset => true
  | .undefinedInstruction => false
  | .swi => false
  | .prefetchAbort => false
  | .dataAbort => false
  | .irq => false
  | .fiq => true

/-- The CPSR an exception handler starts with (R322). -/
def Cpsr.entered (c : Cpsr) (e : Exc) : Cpsr :=
  { c with mode := e.mode, t := false, i := true, f := c.f || e.setsF }

/-- The entry sequence, common to all exceptions, with its link value (R322). -/
def enter (e : Exc) (link : Word) (s : State) : State :=
  { ((s.setRegIn e.mode 14#4 link).setSpsr e.mode s.cpsr.saved) with cpsr := s.cpsr.entered e, pc := e.vector }

/-- A Data abort of the instruction at `pc`: the link is `A + 8` (R327). -/
def dataAbort (s : State) : Out :=
  .next (enter .dataAbort (s.pc + 8#32) s)

/-- `CPSR <- SPSR` of the current mode: refused without an SPSR or with an illegal mode in it (R31, R170, R333). -/
def returnCpsr (s : State) : Except Refusal State :=
  match s.spsr? s.cpsr.mode with
  | none => .error .noSpsr
  | some p =>
    match p.restored with
    | none => .error (.illegalMode p.m)
    | some c => .ok { s with cpsr := c }

/-! ### Data accesses (R64 to R70) -/

/-- The privilege of the current mode's accesses (R64, R336). -/
def State.privilege (s : State) : Privilege :=
  if s.cpsr.mode.privileged then .privileged else .user

/-- What an access answers: a result, an abort that the memory system signals, or a model fault. -/
inductive Access (α : Type) where
  | ok (a : α)
  | abort
  | fault (f : Fault)
  deriving Repr

/-- The checks of `MemRead` and `MemWrite`, in their order: alignment, `Aborts`, `Mapped` (R64, R65). -/
def State.checkAccess (s : State) (a : Word) (n : Nat) (k : AccessKind) (pr : Privilege) : Access Unit :=
  if a.toNat % n ≠ 0 then .fault (.misaligned a n)
  else if Platform.abortsAccess s.platform a.toNat n k pr then .abort
  else if Platform.maps s.platform a.toNat n then .ok ()
  else .fault (.unmapped a n)

/-- `MemRead(addr, n)`, zero-extended to a word (R64). -/
def State.readMem (s : State) (a : Word) (n : Nat) (pr : Privilege) : Access Word :=
  match s.checkAccess a n .read pr with
  | .ok _ => .ok (BitVec.ofNat 32 (Memory.load s.mem a.toNat n))
  | .abort => .abort
  | .fault f => .fault f

/-- The state after storing the low `n` bytes of a word at `a`, with the bytes marked as stored to (R65, R75). -/
def State.stored (s : State) (a : Word) (n : Nat) (v : Word) : State :=
  { s with mem := Memory.store s.mem a.toNat n v.toNat, written := Written.add s.written a.toNat n }

/-- `MemWrite(addr, n, v)` (R65). -/
def State.writeMem (s : State) (a : Word) (n : Nat) (v : Word) (pr : Privilege) : Access State :=
  match s.checkAccess a n .write pr with
  | .ok _ => .ok (s.stored a n v)
  | .abort => .abort
  | .fault f => .fault f

/-- The value `str` and `stm` store for R15: the instruction's address plus `PC_STORE_OFFSET` (R25, R258, R285; log 8). -/
def State.storedPc (s : State) : Word :=
  s.pc + (if Config.storesPcPlusTwelve then 12#32 else 8#32)

end Sys2Proof.Machine
end

