-- ==== Sys2Proof/Machine/Flags.lean ====
section
/-! DEFINITION. Every flag computation of the spec: N and Z of a result, carry, borrow and overflow of sums and
differences (R8, R28), and the sixteen data-processing results (R170 to R172, R190 to R195, R220 to R224, R230 to R233). -/

namespace Sys2Proof.Machine

/-- A carry as the number 0 or 1. -/
def bit (c : Bool) : Nat :=
  if c then 1 else 0

/-- A 32-bit result with the carry and overflow of the exact result. -/
structure Arith where
  value : Word
  carry : Bool
  overflow : Bool
  deriving DecidableEq, Repr

/-- An exact signed result lies outside the 32-bit range (R8, `OverflowFrom`). -/
def outOfRange (r : Int) : Bool :=
  decide (r < -2147483648 ∨ 2147483647 < r)

/-- `a + b + c` with `CarryFrom` and `OverflowFrom` (R8, R190, R191). -/
def addCarry (a b : Word) (c : Bool) : Arith where
  value := BitVec.ofNat 32 (a.toNat + b.toNat + bit c)
  carry := decide (4294967296 ≤ a.toNat + b.toNat + bit c)
  overflow := outOfRange (a.toInt + b.toInt + bit c)

/-- `a - b - (1 - c)`: the carry is NOT `BorrowFrom` (R8, R28, R192, R193). -/
def subCarry (a b : Word) (c : Bool) : Arith where
  value := a - b - BitVec.ofNat 32 (bit (!c))
  carry := decide (b.toNat + bit (!c) ≤ a.toNat)
  overflow := outOfRange (a.toInt - b.toInt - bit (!c))

/-- What a data-processing instruction computes: a result and the C and V it gives. -/
structure DpResult where
  value : Word
  c : Bool
  v : Bool
  deriving DecidableEq, Repr

/-- The result of an addition or subtraction. -/
def Arith.result (r : Arith) : DpResult where
  value := r.value
  c := r.carry
  v := r.overflow

/-- The result of a logical or move instruction: C is the shifter's carry-out and V is unchanged (R224). -/
def logical (value : Word) (sc : Bool) (p : Cpsr) : DpResult where
  value := value
  c := sc
  v := p.v

/-- The result of each data-processing operation from the first operand, the shifter's value and carry-out and the old
CPSR: R220 (and), R222 (eor), R192 (sub), R194 (rsb), R190 (add), R191 (adc), R193 (sbc), R195 (rsc), R232 (tst), R233
(teq), R230 (cmp), R231 (cmn), R221 (orr), R171 (mov), R223 (bic), R172 (mvn). -/
def dpResult (op : DpOp) (a sv : Word) (sc : Bool) (p : Cpsr) : DpResult :=
  match op with
  | .and => logical (a &&& sv) sc p
  | .eor => logical (a ^^^ sv) sc p
  | .sub => (subCarry a sv true).result
  | .rsb => (subCarry sv a true).result
  | .add => (addCarry a sv false).result
  | .adc => (addCarry a sv p.c).result
  | .sbc => (subCarry a sv p.c).result
  | .rsc => (subCarry sv a p.c).result
  | .tst => logical (a &&& sv) sc p
  | .teq => logical (a ^^^ sv) sc p
  | .cmp => (subCarry a sv true).result
  | .cmn => (addCarry a sv false).result
  | .orr => logical (a ||| sv) sc p
  | .mov => logical sv sc p
  | .bic => logical (a &&& ~~~sv) sc p
  | .mvn => logical (~~~sv) sc p

/-- N and Z of a 32-bit result (R28). -/
def Cpsr.withNZ (p : Cpsr) (value : Word) : Cpsr :=
  { p with n := value.getLsbD 31, z := decide (value = 0#32) }

/-- N and Z of a 64-bit result (R198). -/
def Cpsr.withNZLong (p : Cpsr) (value : BitVec 64) : Cpsr :=
  { p with n := value.getLsbD 63, z := decide (value = 0#64) }

/-- The four flags of a data-processing result (R170). -/
def Cpsr.withResult (p : Cpsr) (r : DpResult) : Cpsr :=
  { p with n := r.value.getLsbD 31, z := decide (r.value = 0#32), c := r.c, v := r.v }

/-- Write the flags of a data-processing result. -/
def State.setFlags (s : State) (r : DpResult) : State :=
  { s with cpsr := s.cpsr.withResult r }

end Sys2Proof.Machine
end

