-- ==== Sys2Proof/Machine/Operands.lean ====
section
/-! DEFINITION. Every operand form: the shifter operand (R133 to R145), the addresses of single-register transfers (R146
to R153) and of block transfers (R158 to R162). -/

namespace Sys2Proof.Machine

/-! ### The shifter operand -/

/-- A rotated 8-bit immediate (R96, R134). -/
def rotatedImm (rot : BitVec 4) (imm : BitVec 8) : Word :=
  (imm.setWidth 32).rotateRight (2 * rot.toNat)

/-- A register shifted by an immediate: its value and its carry-out (R135, R136, R138, R140, R142, R144). -/
def shiftByImm (m : Word) (sh : ShiftImm) (c : Bool) : Word × Bool :=
  match sh with
  | .lsl n => if n = 0 then (m, c) else (m <<< n, m.getLsbD (32 - n))
  | .lsr n => if n = 32 then (0#32, m.getLsbD 31) else (m >>> n, m.getLsbD (n - 1))
  | .asr n =>
    if n = 32 then (if m.getLsbD 31 then 0xFFFFFFFF#32 else 0#32, m.getLsbD 31)
    else (m.sshiftRight n, m.getLsbD (n - 1))
  | .ror n => (m.rotateRight n, m.getLsbD (n - 1))
  | .rrx => ((if c then 0x80000000#32 else 0#32) ||| (m >>> 1), m.getLsbD 0)

/-- A register shifted by the amount `s`, the low byte of a register (R137, R139, R141, R143). -/
def shiftByReg (m : Word) (k : ShiftKind) (s : Nat) (c : Bool) : Word × Bool :=
  if s = 0 then (m, c)
  else
    match k with
    | .lsl =>
      if s < 32 then (m <<< s, m.getLsbD (32 - s))
      else if s = 32 then (0#32, m.getLsbD 0)
      else (0#32, false)
    | .lsr =>
      if s < 32 then (m >>> s, m.getLsbD (s - 1))
      else if s = 32 then (0#32, m.getLsbD 31)
      else (0#32, false)
    | .asr =>
      if s < 32 then (m.sshiftRight s, m.getLsbD (s - 1))
      else (if m.getLsbD 31 then 0xFFFFFFFF#32 else 0#32, m.getLsbD 31)
    | .ror =>
      if s % 32 = 0 then (m, m.getLsbD 31)
      else (m.rotateRight (s % 32), m.getLsbD (s % 32 - 1))

/-- The value and the carry-out of a shifter operand (R133). -/
def shifter (so : ShiftOp) (s : State) : Word × Bool :=
  match so with
  | .imm rot imm =>
    (rotatedImm rot imm, if rot = 0#4 then s.cpsr.c else (rotatedImm rot imm).getLsbD 31)
  | .shiftImm rm sh => shiftByImm (s.reg rm) sh s.cpsr.c
  | .shiftReg rm k rs => shiftByReg (s.reg rm) k ((s.reg rs).toNat % 256) s.cpsr.c

/-- A register-shift form with R15 among its registers or among the others of its instruction (R145, D32). -/
def regShiftWithPc (so : ShiftOp) (others : List Reg) : Bool :=
  match so with
  | .imm _ _ => false
  | .shiftImm _ _ => false
  | .shiftReg rm _ rs => (rm :: rs :: others).any fun r => decide (r = 15#4)

/-! ### Single-register transfers -/

/-- The offset of a transfer (R147, R153). The flags are not changed. -/
def offsetValue (off : Offset) (s : State) : Word :=
  match off with
  | .imm v => v
  | .reg rm sh => (shiftByImm (s.reg rm) sh s.cpsr.c).1

/-- `base ± off` (R147). -/
def offsetBase (u : Bool) (base off : Word) : Word :=
  if u then base + off else base - off

/-- The access address `ea` (R148, R149, R153). -/
def transferAddress (idx : Index) (u : Bool) (rn : Reg) (off : Offset) (s : State) : Word :=
  match idx with
  | .offset => offsetBase u (s.reg rn) (offsetValue off s)
  | .pre => offsetBase u (s.reg rn) (offsetValue off s)
  | .post => s.reg rn

/-- The form writes its base (R148, R149). -/
def Index.writesBase : Index → Bool
  | .offset => false
  | .pre => true
  | .post => true

/-- The pre-indexed forms by their `!` (R148). -/
def preIndex (w : Bool) : Index :=
  if w then .pre else .offset

/-- The base write of a transfer, `x[Rn] <- wb` with `wb = base ± off` (R148 to R150). -/
def State.writeBase (s : State) (idx : Index) (u : Bool) (rn : Reg) (off : Offset) : State :=
  if Index.writesBase idx then s.setReg rn (offsetBase u (s.reg rn) (offsetValue off s)) else s

/-- What R150 forbids: (b) R15 as a written base, (c) R15 as an offset, (d) the offset register as a written base, (e)
the transferred register as a written base. -/
def transferRefusal (idx : Index) (rn rd : Reg) (off : Offset) : Option Refusal :=
  if Index.writesBase idx && decide (rn = 15#4) then some .r15Operand
  else if (match off with | .imm _ => false | .reg rm _ => decide (rm = 15#4)) then some .r15Operand
  else if Index.writesBase idx && (match off with | .imm _ => false | .reg rm _ => decide (rm = rn)) then
    some .baseWriteBack
  else if Index.writesBase idx && decide (rd = rn) then some .baseWriteBack
  else none

/-! ### Block transfers -/

/-- The registers of a list in increasing number (R161, R280). -/
def regsOf (list : BitVec 16) : List Reg :=
  [0#4, 1#4, 2#4, 3#4, 4#4, 5#4, 6#4, 7#4, 8#4, 9#4, 10#4, 11#4, 12#4, 13#4, 14#4, 15#4].filter fun r =>
    list.getLsbD r.toNat

/-- How many bytes a block of `n` words has. -/
def blockSize (n : Nat) : Word :=
  BitVec.ofNat 32 (4 * n)

/-- The `start` of a block of `n` words (R161). -/
def blockStart (am : BlockMode) (b : Word) (n : Nat) : Word :=
  match am with
  | .ia => b
  | .ib => b + 4#32
  | .da => b - blockSize n + 4#32
  | .db => b - blockSize n

/-- The written-back base `wb` of a block of `n` words (R161). -/
def blockBase (am : BlockMode) (b : Word) (n : Nat) : Word :=
  match am with
  | .ia => b + blockSize n
  | .ib => b + blockSize n
  | .da => b - blockSize n
  | .db => b - blockSize n

/-- The address of the first word: bits 1..0 of `start` are ignored (R161, R280). -/
def blockFirst (am : BlockMode) (b : Word) (n : Nat) : Word :=
  blockStart am b n &&& 0xFFFFFFFC#32

/-- The addresses of `n` words from `a` on (R161, R280). -/
def wordsFrom (a : Word) : Nat → List Word
  | 0 => []
  | n + 1 => a :: wordsFrom (a + 4#32) n

/-- The block crosses the top of memory (R77, R280). -/
def blockCrossesTop (am : BlockMode) (b : Word) (n : Nat) : Bool :=
  decide (4294967296 < (blockFirst am b n).toNat + 4 * n)

/-- What R162 (a), (b) and R77 forbid every block transfer. -/
def blockRefusal (am : BlockMode) (rn : Reg) (list : BitVec 16) (s : State) : Option Refusal :=
  if list = 0#16 then some .emptyRegisterList
  else if rn = 15#4 then some .r15Operand
  else if blockCrossesTop am (s.reg rn) (regsOf list).length then some .blockWraps
  else none

end Sys2Proof.Machine
end

