-- ==== Sys2Proof/Machine/Block.lean ====
section
/-! DEFINITION. Load multiple and store multiple (R280 to R287). -/

namespace Sys2Proof.Machine

/-- What the reads of a block answer: the words read, the number of the access that aborted, or a model fault. -/
inductive BlockRead where
  | ok (words : List Word)
  | abort (j : Nat)
  | fault (f : Fault)
  deriving DecidableEq, Repr

/-- What the writes of a block answer. -/
inductive BlockWrite where
  | ok (s : State)
  | abort (j : Nat)
  | fault (f : Fault)
  deriving DecidableEq, Repr

/-- The reads of a block in ascending order; `k` counts the accesses made (R71, R280, R330). -/
def readBlock (s : State) : List Word → Nat → BlockRead
  | [], _ => .ok []
  | a :: as, k =>
    match s.readMem a 4 s.privilege with
    | .fault f => .fault f
    | .abort => .abort k
    | .ok v =>
      match readBlock s as (k + 1) with
      | .ok vs => .ok (v :: vs)
      | .abort j => .abort j
      | .fault f => .fault f

/-- The writes of a block in ascending order; `k` counts the accesses made (R71, R280, R330). -/
def writeBlock (s : State) : List (Word × Word) → Nat → BlockWrite
  | [], _ => .ok s
  | (a, v) :: rest, k =>
    match s.writeMem a 4 v s.privilege with
    | .fault f => .fault f
    | .abort => .abort k
    | .ok t => writeBlock t rest (k + 1)

/-- The base write of a block transfer (R162, R280). -/
def State.writeBlockBase (s : State) (am : BlockMode) (w : Bool) (rn : Reg) (n : Nat) : State :=
  if w then s.setReg rn (blockBase am (s.reg rn) n) else s

/-- The base after a Data abort in a block: as before, or updated under `base_updated` (R287, R327; log 9). -/
def State.abortedBlockBase (s : State) (am : BlockMode) (w : Bool) (rn : Reg) (n : Nat) : State :=
  if s.platform.abortModel = .baseUpdated then s.writeBlockBase am w rn n else s

/-- The registers of an aborted `ldm`, from the `k`-th on: each but the aborting one, the base and R15 holds its old value or
the word that can be read for it, as the free bit `k` of `choice` says (R287; log 10). `old` is the state before the
instruction, `m` the bank loaded. -/
def abortedLoads (old : State) (m : Mode) (rn : Reg) (j : Nat) (choice : BitVec 32) :
    List (Reg × Word) → Nat → State → State
  | [], _, s => s
  | (r, a) :: rest, k, s =>
    abortedLoads old m rn j choice rest (k + 1)
      (if k = j ∨ r = 15#4 ∨ phys m r = phys old.cpsr.mode rn ∨ choice.getLsbD k = false then s
       else
        match old.readMem a 4 old.privilege with
        | .ok v => s.setRegIn m r v
        | .abort => s
        | .fault _ => s)

/-- The words of an aborted `stm`, from the `k`-th on: each but the aborting one holds its old contents or, where it can be
written, the register's value, as the free bit `k` of `choice` says (R287; log 10). -/
def abortedStores (pr : Privilege) (j : Nat) (choice : BitVec 32) : List (Word × Word) → Nat → State → State
  | [], _, s => s
  | (a, v) :: rest, k, s =>
    abortedStores pr j choice rest (k + 1)
      (if k = j ∨ choice.getLsbD k = false then s
       else
        match s.writeMem a 4 v pr with
        | .ok t => t
        | .abort => s
        | .fault _ => s)

/-- Write the words read to their registers in the bank of mode `m`; R15 receives its word with bits 1..0 cleared and T
does not change (R280, R281, D29). -/
def loadRegs (m : Mode) : List (Reg × Word) → State → State
  | [], s => s
  | (r, v) :: rest, s =>
    loadRegs m rest (s.setRegIn m r (if r = 15#4 then v &&& 0xFFFFFFFC#32 else v))

/-- What R162 (c) forbids an `ldm`: the base in the list with `!`. -/
def loadBaseRefusal (w : Bool) (rn : Reg) (list : BitVec 16) : Option Refusal :=
  if w && list.getLsbD rn.toNat then some .baseInRegisterList else none

/-- What R162 (d) forbids an `stm`: the base in the list with `!` unless it is the lowest-numbered register of it. -/
def storeBaseRefusal (w : Bool) (rn : Reg) (list : BitVec 16) : Option Refusal :=
  if w && list.getLsbD rn.toNat && decide ((regsOf list).head? ≠ some rn) then some .baseInRegisterList else none

/-- What R162 (e) and R283, R286 forbid a User-bank transfer: User and System mode, and `!`. -/
def userBankRefusal (w : Bool) (s : State) : Option Refusal :=
  if !s.cpsr.mode.hasSpsr then some .userBankMode
  else if w then some .userBankWriteBack
  else none

/-- The addresses of the block in a state (R161). -/
def blockAddresses (am : BlockMode) (rn : Reg) (list : BitVec 16) (s : State) : List Word :=
  wordsFrom (blockFirst am (s.reg rn) (regsOf list).length) (regsOf list).length

/-- The skeleton of an `ldm` (R280): the words of the block are read, and `finish` is given the registers with their words
and the state with the base written. A Data abort leaves what R287 says. -/
def loadBlock (am : BlockMode) (w : Bool) (rn : Reg) (list : BitVec 16) (m : Mode)
    (finish : List (Reg × Word) → State → Out) (s : State) : Out :=
  match blockRefusal am rn list s with
  | some e => .refused e
  | none =>
    match readBlock s (blockAddresses am rn list s) 0 with
    | .fault f => .fault f
    | .abort j =>
      dataAbort ((abortedLoads s m rn j s.drawn ((regsOf list).zip (blockAddresses am rn list s)) 0
        (s.abortedBlockBase am w rn (regsOf list).length)).afterDraw)
    | .ok vs => finish ((regsOf list).zip vs) (s.writeBlockBase am w rn (regsOf list).length)

/-- The value `stm` stores for a register of the bank of mode `m`; for R15, `A + PC_STORE_OFFSET` (R285, R286). -/
def State.storedReg (s : State) (m : Mode) (r : Reg) : Word :=
  if r = 15#4 then s.storedPc else s.regIn m r

/-- The addresses and values an `stm` stores (R280). -/
def blockStores (am : BlockMode) (rn : Reg) (list : BitVec 16) (m : Mode) (s : State) : List (Word × Word) :=
  (blockAddresses am rn list s).zip ((regsOf list).map (s.storedReg m))

/-- The skeleton of an `stm` (R280). A Data abort leaves what R287 says. -/
def storeBlock (am : BlockMode) (w : Bool) (rn : Reg) (list : BitVec 16) (m : Mode) (s : State) : Out :=
  match blockRefusal am rn list s with
  | some e => .refused e
  | none =>
    match writeBlock s (blockStores am rn list m s) 0 with
    | .fault f => .fault f
    | .abort j =>
      dataAbort ((abortedStores s.privilege j s.drawn (blockStores am rn list m s) 0
        (s.abortedBlockBase am w rn (regsOf list).length)).afterDraw)
    | .ok t => advance (t.writeBlockBase am w rn (regsOf list).length)

/-- The end of `ldm` form 1 (R281). -/
def finishLoad (list : BitVec 16) (loaded : List (Reg × Word)) (s : State) : Out :=
  if list.getLsbD 15 then .next (loadRegs s.cpsr.mode loaded s) else advance (loadRegs s.cpsr.mode loaded s)

/-- The end of `ldm` form 2: the User-mode copies are written (R283). -/
def finishLoadUser (loaded : List (Reg × Word)) (s : State) : Out :=
  advance (loadRegs .usr loaded s)

/-- The end of `ldm` form 3 (R284): the registers in the old mode's bank, then `CPSR <- SPSR`, then the PC, whose low bits are
cleared as the new T says. -/
def finishLoadReturn (loaded : List (Reg × Word)) (s : State) : Out :=
  match returnCpsr (loadRegs s.cpsr.mode (loaded.filter fun x => decide (x.1 ≠ 15#4)) s) with
  | .error e => .refused e
  | .ok t =>
    match loaded.getLast? with
    | none => .next t
    | some (_, v) => .next { t with pc := v &&& (if t.cpsr.t then 0xFFFFFFFE#32 else 0xFFFFFFFC#32) }

/-- Remember that the instruction was a User-bank `ldm` (R375). -/
def markUserLdm : Out → Out
  | .next s => .next { s with afterUserLdm := true }
  | .fault f => .fault f
  | .refused e => .refused e

/-- `ldm`, form 1 (R281). -/
def execLdm (c : Cond) (am : BlockMode) (w : Bool) (rn : Reg) (list : BitVec 16) (s : State) : Out :=
  conditional c s fun t =>
    match loadBaseRefusal w rn list with
    | some e => .refused e
    | none => loadBlock am w rn list t.cpsr.mode (finishLoad list) t

/-- `ldm`, form 2: User-mode registers (R283). -/
def execLdmUser (c : Cond) (am : BlockMode) (w : Bool) (rn : Reg) (list : BitVec 16) (s : State) : Out :=
  conditional c s fun t =>
    match userBankRefusal w t with
    | some e => .refused e
    | none => markUserLdm (loadBlock am w rn list .usr finishLoadUser t)

/-- `ldm`, form 3: return and restore CPSR (R284). -/
def execLdmReturn (c : Cond) (am : BlockMode) (w : Bool) (rn : Reg) (list : BitVec 16) (s : State) : Out :=
  conditional c s fun t =>
    if !t.cpsr.mode.hasSpsr then .refused .noSpsr
    else
      match loadBaseRefusal w rn list with
      | some e => .refused e
      | none => loadBlock am w rn list t.cpsr.mode finishLoadReturn t

/-- `stm`, form 1 (R285). -/
def execStm (c : Cond) (am : BlockMode) (w : Bool) (rn : Reg) (list : BitVec 16) (s : State) : Out :=
  conditional c s fun t =>
    match storeBaseRefusal w rn list with
    | some e => .refused e
    | none => storeBlock am w rn list t.cpsr.mode t

/-- `stm`, form 2: User-mode registers (R286). -/
def execStmUser (c : Cond) (am : BlockMode) (w : Bool) (rn : Reg) (list : BitVec 16) (s : State) : Out :=
  conditional c s fun t =>
    match userBankRefusal w t with
    | some e => .refused e
    | none => storeBlock am w rn list .usr t

end Sys2Proof.Machine
end

