-- ==== Sys2Proof/Machine/Branch.lean ====
section
/-! DEFINITION. The branches and the software interrupt (R240 to R242, R302). -/

namespace Sys2Proof.Machine

/-- The target of `b` and `bl`: `A + 8 + sext_32(offset24) * 4`, modulo 2^32 (R108, R240). -/
def branchTarget (pc : Word) (off : BitVec 24) : Word :=
  pc + 8#32 + (off.signExtend 32 <<< 2)

/-- Branch and exchange to an address (R242): bit 0 selects the state; an ARM-state target must be a multiple of 4. -/
def branchExchange (s : State) (target : Word) : Out :=
  if target.getLsbD 0 then .next { s with cpsr := { s.cpsr with t := true }, pc := target &&& 0xFFFFFFFE#32 }
  else if target.getLsbD 1 then .refused (.pcMisaligned target)
  else .next { s with cpsr := { s.cpsr with t := false }, pc := target }

/-- `b` (R240). -/
def execB (c : Cond) (off : BitVec 24) (s : State) : Out :=
  conditional c s fun t => .next { t with pc := branchTarget t.pc off }

/-- `bl` (R241): the link is the address of the next instruction. -/
def execBl (c : Cond) (off : BitVec 24) (s : State) : Out :=
  conditional c s fun t => .next { t.setReg 14#4 (t.pc + 4#32) with pc := branchTarget t.pc off }

/-- `bx` (R242). -/
def execBx (c : Cond) (rm : Reg) (s : State) : Out :=
  conditional c s fun t => branchExchange t (t.reg rm)

/-- `swi` (R302, R325): it takes the Software interrupt exception with the link `A + 4`. `imm24` is ignored (D34). -/
def execSwi (c : Cond) (_imm : BitVec 24) (s : State) : Out :=
  conditional c s fun t => .next (enter .swi (t.pc + 4#32) t)

end Sys2Proof.Machine
end

