-- ==== Sys2Proof/Machine/DataProcessing.lean ====
section
/-! DEFINITION. The sixteen data-processing instructions in their three operand forms (R170 to R172, R190 to R195, R220 to
R225, R230 to R233). -/

namespace Sys2Proof.Machine

/-- The end of an instruction with a destination (R170): the flags when `s`, or, with `Rd = r15`, a jump, which with `s`
also copies the SPSR to the CPSR and is then checked in the state that the new T selects. -/
def finishDp (sf : Bool) (rd : Reg) (r : DpResult) (s : State) : Out :=
  if rd = 15#4 then
    if sf then
      match returnCpsr s with
      | .error e => .refused e
      | .ok t => if t.cpsr.t then .next { t with pc := r.value } else jump t r.value
    else jump s r.value
  else if sf then advance ((s.setReg rd r.value).setFlags r)
  else advance (s.setReg rd r.value)

/-- An instruction with a first operand and a destination (R145, R170). -/
def dataProc (op : DpOp) (sf : Bool) (rd rn : Reg) (so : ShiftOp) (s : State) : Out :=
  if regShiftWithPc so [rd, rn] then .refused .r15Operand
  else finishDp sf rd (dpResult op (s.reg rn) (shifter so s).1 (shifter so s).2 s.cpsr) s

/-- `mov` and `mvn`, which read no first operand (R145, R170). -/
def dataMove (op : DpOp) (sf : Bool) (rd : Reg) (so : ShiftOp) (s : State) : Out :=
  if regShiftWithPc so [rd] then .refused .r15Operand
  else finishDp sf rd (dpResult op 0#32 (shifter so s).1 (shifter so s).2 s.cpsr) s

/-- A compare, which always updates the flags and has no destination (R145, R170). -/
def dataCompare (op : DpOp) (rn : Reg) (so : ShiftOp) (s : State) : Out :=
  if regShiftWithPc so [rn] then .refused .r15Operand
  else advance (s.setFlags (dpResult op (s.reg rn) (shifter so s).1 (shifter so s).2 s.cpsr))

/-- `and` with an immediate (R220). -/
def execAndImm (c : Cond) (sf : Bool) (rd rn : Reg) (rot : BitVec 4) (imm : BitVec 8) (s : State) : Out :=
  conditional c s (dataProc .and sf rd rn (.imm rot imm))

/-- `and` with a shift by immediate (R220). -/
def execAndShiftImm (c : Cond) (sf : Bool) (rd rn rm : Reg) (sh : ShiftImm) (s : State) : Out :=
  conditional c s (dataProc .and sf rd rn (.shiftImm rm sh))

/-- `and` with a shift by register (R220). -/
def execAndShiftReg (c : Cond) (sf : Bool) (rd rn rm : Reg) (k : ShiftKind) (rs : Reg) (s : State) : Out :=
  conditional c s (dataProc .and sf rd rn (.shiftReg rm k rs))

/-- `eor` with an immediate (R222). -/
def execEorImm (c : Cond) (sf : Bool) (rd rn : Reg) (rot : BitVec 4) (imm : BitVec 8) (s : State) : Out :=
  conditional c s (dataProc .eor sf rd rn (.imm rot imm))

/-- `eor` with a shift by immediate (R222). -/
def execEorShiftImm (c : Cond) (sf : Bool) (rd rn rm : Reg) (sh : ShiftImm) (s : State) : Out :=
  conditional c s (dataProc .eor sf rd rn (.shiftImm rm sh))

/-- `eor` with a shift by register (R222). -/
def execEorShiftReg (c : Cond) (sf : Bool) (rd rn rm : Reg) (k : ShiftKind) (rs : Reg) (s : State) : Out :=
  conditional c s (dataProc .eor sf rd rn (.shiftReg rm k rs))

/-- `sub` with an immediate (R192). -/
def execSubImm (c : Cond) (sf : Bool) (rd rn : Reg) (rot : BitVec 4) (imm : BitVec 8) (s : State) : Out :=
  conditional c s (dataProc .sub sf rd rn (.imm rot imm))

/-- `sub` with a shift by immediate (R192). -/
def execSubShiftImm (c : Cond) (sf : Bool) (rd rn rm : Reg) (sh : ShiftImm) (s : State) : Out :=
  conditional c s (dataProc .sub sf rd rn (.shiftImm rm sh))

/-- `sub` with a shift by register (R192). -/
def execSubShiftReg (c : Cond) (sf : Bool) (rd rn rm : Reg) (k : ShiftKind) (rs : Reg) (s : State) : Out :=
  conditional c s (dataProc .sub sf rd rn (.shiftReg rm k rs))

/-- `rsb` with an immediate (R194). -/
def execRsbImm (c : Cond) (sf : Bool) (rd rn : Reg) (rot : BitVec 4) (imm : BitVec 8) (s : State) : Out :=
  conditional c s (dataProc .rsb sf rd rn (.imm rot imm))

/-- `rsb` with a shift by immediate (R194). -/
def execRsbShiftImm (c : Cond) (sf : Bool) (rd rn rm : Reg) (sh : ShiftImm) (s : State) : Out :=
  conditional c s (dataProc .rsb sf rd rn (.shiftImm rm sh))

/-- `rsb` with a shift by register (R194). -/
def execRsbShiftReg (c : Cond) (sf : Bool) (rd rn rm : Reg) (k : ShiftKind) (rs : Reg) (s : State) : Out :=
  conditional c s (dataProc .rsb sf rd rn (.shiftReg rm k rs))

/-- `add` with an immediate (R190). -/
def execAddImm (c : Cond) (sf : Bool) (rd rn : Reg) (rot : BitVec 4) (imm : BitVec 8) (s : State) : Out :=
  conditional c s (dataProc .add sf rd rn (.imm rot imm))

/-- `add` with a shift by immediate (R190). -/
def execAddShiftImm (c : Cond) (sf : Bool) (rd rn rm : Reg) (sh : ShiftImm) (s : State) : Out :=
  conditional c s (dataProc .add sf rd rn (.shiftImm rm sh))

/-- `add` with a shift by register (R190). -/
def execAddShiftReg (c : Cond) (sf : Bool) (rd rn rm : Reg) (k : ShiftKind) (rs : Reg) (s : State) : Out :=
  conditional c s (dataProc .add sf rd rn (.shiftReg rm k rs))

/-- `adc` with an immediate (R191). -/
def execAdcImm (c : Cond) (sf : Bool) (rd rn : Reg) (rot : BitVec 4) (imm : BitVec 8) (s : State) : Out :=
  conditional c s (dataProc .adc sf rd rn (.imm rot imm))

/-- `adc` with a shift by immediate (R191). -/
def execAdcShiftImm (c : Cond) (sf : Bool) (rd rn rm : Reg) (sh : ShiftImm) (s : State) : Out :=
  conditional c s (dataProc .adc sf rd rn (.shiftImm rm sh))

/-- `adc` with a shift by register (R191). -/
def execAdcShiftReg (c : Cond) (sf : Bool) (rd rn rm : Reg) (k : ShiftKind) (rs : Reg) (s : State) : Out :=
  conditional c s (dataProc .adc sf rd rn (.shiftReg rm k rs))

/-- `sbc` with an immediate (R193). -/
def execSbcImm (c : Cond) (sf : Bool) (rd rn : Reg) (rot : BitVec 4) (imm : BitVec 8) (s : State) : Out :=
  conditional c s (dataProc .sbc sf rd rn (.imm rot imm))

/-- `sbc` with a shift by immediate (R193). -/
def execSbcShiftImm (c : Cond) (sf : Bool) (rd rn rm : Reg) (sh : ShiftImm) (s : State) : Out :=
  conditional c s (dataProc .sbc sf rd rn (.shiftImm rm sh))

/-- `sbc` with a shift by register (R193). -/
def execSbcShiftReg (c : Cond) (sf : Bool) (rd rn rm : Reg) (k : ShiftKind) (rs : Reg) (s : State) : Out :=
  conditional c s (dataProc .sbc sf rd rn (.shiftReg rm k rs))

/-- `rsc` with an immediate (R195). -/
def execRscImm (c : Cond) (sf : Bool) (rd rn : Reg) (rot : BitVec 4) (imm : BitVec 8) (s : State) : Out :=
  conditional c s (dataProc .rsc sf rd rn (.imm rot imm))

/-- `rsc` with a shift by immediate (R195). -/
def execRscShiftImm (c : Cond) (sf : Bool) (rd rn rm : Reg) (sh : ShiftImm) (s : State) : Out :=
  conditional c s (dataProc .rsc sf rd rn (.shiftImm rm sh))

/-- `rsc` with a shift by register (R195). -/
def execRscShiftReg (c : Cond) (sf : Bool) (rd rn rm : Reg) (k : ShiftKind) (rs : Reg) (s : State) : Out :=
  conditional c s (dataProc .rsc sf rd rn (.shiftReg rm k rs))

/-- `tst` with an immediate (R232). -/
def execTstImm (c : Cond) (rn : Reg) (rot : BitVec 4) (imm : BitVec 8) (s : State) : Out :=
  conditional c s (dataCompare .tst rn (.imm rot imm))

/-- `tst` with a shift by immediate (R232). -/
def execTstShiftImm (c : Cond) (rn rm : Reg) (sh : ShiftImm) (s : State) : Out :=
  conditional c s (dataCompare .tst rn (.shiftImm rm sh))

/-- `tst` with a shift by register (R232). -/
def execTstShiftReg (c : Cond) (rn rm : Reg) (k : ShiftKind) (rs : Reg) (s : State) : Out :=
  conditional c s (dataCompare .tst rn (.shiftReg rm k rs))

/-- `teq` with an immediate (R233). -/
def execTeqImm (c : Cond) (rn : Reg) (rot : BitVec 4) (imm : BitVec 8) (s : State) : Out :=
  conditional c s (dataCompare .teq rn (.imm rot imm))

/-- `teq` with a shift by immediate (R233). -/
def execTeqShiftImm (c : Cond) (rn rm : Reg) (sh : ShiftImm) (s : State) : Out :=
  conditional c s (dataCompare .teq rn (.shiftImm rm sh))

/-- `teq` with a shift by register (R233). -/
def execTeqShiftReg (c : Cond) (rn rm : Reg) (k : ShiftKind) (rs : Reg) (s : State) : Out :=
  conditional c s (dataCompare .teq rn (.shiftReg rm k rs))

/-- `cmp` with an immediate (R230). -/
def execCmpImm (c : Cond) (rn : Reg) (rot : BitVec 4) (imm : BitVec 8) (s : State) : Out :=
  conditional c s (dataCompare .cmp rn (.imm rot imm))

/-- `cmp` with a shift by immediate (R230). -/
def execCmpShiftImm (c : Cond) (rn rm : Reg) (sh : ShiftImm) (s : State) : Out :=
  conditional c s (dataCompare .cmp rn (.shiftImm rm sh))

/-- `cmp` with a shift by register (R230). -/
def execCmpShiftReg (c : Cond) (rn rm : Reg) (k : ShiftKind) (rs : Reg) (s : State) : Out :=
  conditional c s (dataCompare .cmp rn (.shiftReg rm k rs))

/-- `cmn` with an immediate (R231). -/
def execCmnImm (c : Cond) (rn : Reg) (rot : BitVec 4) (imm : BitVec 8) (s : State) : Out :=
  conditional c s (dataCompare .cmn rn (.imm rot imm))

/-- `cmn` with a shift by immediate (R231). -/
def execCmnShiftImm (c : Cond) (rn rm : Reg) (sh : ShiftImm) (s : State) : Out :=
  conditional c s (dataCompare .cmn rn (.shiftImm rm sh))

/-- `cmn` with a shift by register (R231). -/
def execCmnShiftReg (c : Cond) (rn rm : Reg) (k : ShiftKind) (rs : Reg) (s : State) : Out :=
  conditional c s (dataCompare .cmn rn (.shiftReg rm k rs))

/-- `orr` with an immediate (R221). -/
def execOrrImm (c : Cond) (sf : Bool) (rd rn : Reg) (rot : BitVec 4) (imm : BitVec 8) (s : State) : Out :=
  conditional c s (dataProc .orr sf rd rn (.imm rot imm))

/-- `orr` with a shift by immediate (R221). -/
def execOrrShiftImm (c : Cond) (sf : Bool) (rd rn rm : Reg) (sh : ShiftImm) (s : State) : Out :=
  conditional c s (dataProc .orr sf rd rn (.shiftImm rm sh))

/-- `orr` with a shift by register (R221). -/
def execOrrShiftReg (c : Cond) (sf : Bool) (rd rn rm : Reg) (k : ShiftKind) (rs : Reg) (s : State) : Out :=
  conditional c s (dataProc .orr sf rd rn (.shiftReg rm k rs))

/-- `mov` with an immediate (R171). -/
def execMovImm (c : Cond) (sf : Bool) (rd : Reg) (rot : BitVec 4) (imm : BitVec 8) (s : State) : Out :=
  conditional c s (dataMove .mov sf rd (.imm rot imm))

/-- `mov` with a shift by immediate (R171). -/
def execMovShiftImm (c : Cond) (sf : Bool) (rd rm : Reg) (sh : ShiftImm) (s : State) : Out :=
  conditional c s (dataMove .mov sf rd (.shiftImm rm sh))

/-- `mov` with a shift by register (R171). -/
def execMovShiftReg (c : Cond) (sf : Bool) (rd rm : Reg) (k : ShiftKind) (rs : Reg) (s : State) : Out :=
  conditional c s (dataMove .mov sf rd (.shiftReg rm k rs))

/-- `bic` with an immediate (R223). -/
def execBicImm (c : Cond) (sf : Bool) (rd rn : Reg) (rot : BitVec 4) (imm : BitVec 8) (s : State) : Out :=
  conditional c s (dataProc .bic sf rd rn (.imm rot imm))

/-- `bic` with a shift by immediate (R223). -/
def execBicShiftImm (c : Cond) (sf : Bool) (rd rn rm : Reg) (sh : ShiftImm) (s : State) : Out :=
  conditional c s (dataProc .bic sf rd rn (.shiftImm rm sh))

/-- `bic` with a shift by register (R223). -/
def execBicShiftReg (c : Cond) (sf : Bool) (rd rn rm : Reg) (k : ShiftKind) (rs : Reg) (s : State) : Out :=
  conditional c s (dataProc .bic sf rd rn (.shiftReg rm k rs))

/-- `mvn` with an immediate (R172). -/
def execMvnImm (c : Cond) (sf : Bool) (rd : Reg) (rot : BitVec 4) (imm : BitVec 8) (s : State) : Out :=
  conditional c s (dataMove .mvn sf rd (.imm rot imm))

/-- `mvn` with a shift by immediate (R172). -/
def execMvnShiftImm (c : Cond) (sf : Bool) (rd rm : Reg) (sh : ShiftImm) (s : State) : Out :=
  conditional c s (dataMove .mvn sf rd (.shiftImm rm sh))

/-- `mvn` with a shift by register (R172). -/
def execMvnShiftReg (c : Cond) (sf : Bool) (rd rm : Reg) (k : ShiftKind) (rs : Reg) (s : State) : Out :=
  conditional c s (dataMove .mvn sf rd (.shiftReg rm k rs))

end Sys2Proof.Machine
end

