-- ==== Sys2Proof/Machine/LoadStore.lean ====
section
/-! DEFINITION. The single-register loads and stores and the swaps (R250 to R262, R300, R301). -/

namespace Sys2Proof.Machine

/-- The state in which the Data abort of a single transfer is taken: under `base_updated` the base has its written-back
value, else its old one (R250, R327; log 9). -/
def State.abortedBase (s : State) (idx : Index) (u : Bool) (rn : Reg) (off : Offset) : State :=
  if s.platform.abortModel = .baseUpdated then s.writeBase idx u rn off else s

/-- A load (R250): `n` bytes read with the privilege `pr`, extended by `ext`. `pcOk` says whether `Rd` may be R15, which
then receives the word with bits 1..0 cleared (R251, D29). -/
def loadSingle (n : Nat) (ext : Word → Word) (pcOk : Bool) (pr : Privilege) (idx : Index) (u : Bool) (rn rd : Reg)
    (off : Offset) (s : State) : Out :=
  match transferRefusal idx rn rd off with
  | some e => .refused e
  | none =>
    if rd = 15#4 && !pcOk then .refused .r15Operand
    else
      match s.readMem (transferAddress idx u rn off s) n pr with
      | .fault f => .fault f
      | .abort => dataAbort (s.abortedBase idx u rn off)
      | .ok v =>
        if rd = 15#4 then .next { s.writeBase idx u rn off with pc := v &&& 0xFFFFFFFC#32 }
        else advance ((s.writeBase idx u rn off).setReg rd (ext v))

/-- A store (R250) of the low `n` bytes of `Rd` with the privilege `pr`. `pcOk` says whether `Rd` may be R15, which then
stores the instruction's address plus `PC_STORE_OFFSET` (R258). -/
def storeSingle (n : Nat) (pcOk : Bool) (pr : Privilege) (idx : Index) (u : Bool) (rn rd : Reg) (off : Offset)
    (s : State) : Out :=
  match transferRefusal idx rn rd off with
  | some e => .refused e
  | none =>
    if rd = 15#4 && !pcOk then .refused .r15Operand
    else
      match s.writeMem (transferAddress idx u rn off s) n (if rd = 15#4 then s.storedPc else s.reg rd) pr with
      | .fault f => .fault f
      | .abort => dataAbort (s.abortedBase idx u rn off)
      | .ok t => advance (t.writeBase idx u rn off)

/-- No extension: a word (R71). -/
def extWord (v : Word) : Word :=
  v

/-- `ZeroExtend` of a byte (R253). -/
def extByte (v : Word) : Word :=
  (v.setWidth 8).setWidth 32

/-- `SignExtend` of a byte (R254). -/
def extSignedByte (v : Word) : Word :=
  (v.setWidth 8).signExtend 32

/-- `ZeroExtend` of a half-word (R256). -/
def extHalf (v : Word) : Word :=
  (v.setWidth 16).setWidth 32

/-- `SignExtend` of a half-word (R257). -/
def extSignedHalf (v : Word) : Word :=
  (v.setWidth 16).signExtend 32

/-- What R300 forbids the swaps: R15, `Rn = Rm` and `Rn = Rd`. -/
def swapRefusal (rd rm rn : Reg) : Option Refusal :=
  if rd = 15#4 ∨ rm = 15#4 ∨ rn = 15#4 then some .r15Operand
  else if rn = rm ∨ rn = rd then some .swapRegisters
  else none

/-- A swap of `n` bytes: read, write, then `Rd`, in one step (R74, R300, R301). If the read aborts nothing is written, if
the write aborts `Rd` is not. -/
def swap (n : Nat) (ext : Word → Word) (rd rm rn : Reg) (s : State) : Out :=
  match swapRefusal rd rm rn with
  | some e => .refused e
  | none =>
    match s.readMem (s.reg rn) n s.privilege with
    | .fault f => .fault f
    | .abort => dataAbort s
    | .ok v =>
      match s.writeMem (s.reg rn) n (s.reg rm) s.privilege with
      | .fault f => .fault f
      | .abort => dataAbort s
      | .ok t => advance (t.setReg rd (ext v))

/-- `ldr`, offset and pre-indexed, immediate offset (R251). -/
def execLdrPreImm (c : Cond) (u w : Bool) (rn rd : Reg) (imm : BitVec 12) (s : State) : Out :=
  conditional c s fun t => loadSingle 4 extWord true t.privilege (preIndex w) u rn rd (.imm (imm.setWidth 32)) t

/-- `ldr`, post-indexed, immediate offset (R251). -/
def execLdrPostImm (c : Cond) (u : Bool) (rn rd : Reg) (imm : BitVec 12) (s : State) : Out :=
  conditional c s fun t => loadSingle 4 extWord true t.privilege .post u rn rd (.imm (imm.setWidth 32)) t

/-- `ldr`, offset and pre-indexed, register offset (R251). -/
def execLdrPreReg (c : Cond) (u w : Bool) (rn rd rm : Reg) (sh : ShiftImm) (s : State) : Out :=
  conditional c s fun t => loadSingle 4 extWord true t.privilege (preIndex w) u rn rd (.reg rm sh) t

/-- `ldr`, post-indexed, register offset (R251). -/
def execLdrPostReg (c : Cond) (u : Bool) (rn rd rm : Reg) (sh : ShiftImm) (s : State) : Out :=
  conditional c s fun t => loadSingle 4 extWord true t.privilege .post u rn rd (.reg rm sh) t

/-- `ldrb`, offset and pre-indexed, immediate offset (R253). -/
def execLdrbPreImm (c : Cond) (u w : Bool) (rn rd : Reg) (imm : BitVec 12) (s : State) : Out :=
  conditional c s fun t => loadSingle 1 extByte false t.privilege (preIndex w) u rn rd (.imm (imm.setWidth 32)) t

/-- `ldrb`, post-indexed, immediate offset (R253). -/
def execLdrbPostImm (c : Cond) (u : Bool) (rn rd : Reg) (imm : BitVec 12) (s : State) : Out :=
  conditional c s fun t => loadSingle 1 extByte false t.privilege .post u rn rd (.imm (imm.setWidth 32)) t

/-- `ldrb`, offset and pre-indexed, register offset (R253). -/
def execLdrbPreReg (c : Cond) (u w : Bool) (rn rd rm : Reg) (sh : ShiftImm) (s : State) : Out :=
  conditional c s fun t => loadSingle 1 extByte false t.privilege (preIndex w) u rn rd (.reg rm sh) t

/-- `ldrb`, post-indexed, register offset (R253). -/
def execLdrbPostReg (c : Cond) (u : Bool) (rn rd rm : Reg) (sh : ShiftImm) (s : State) : Out :=
  conditional c s fun t => loadSingle 1 extByte false t.privilege .post u rn rd (.reg rm sh) t

/-- `str`, offset and pre-indexed, immediate offset (R258). -/
def execStrPreImm (c : Cond) (u w : Bool) (rn rd : Reg) (imm : BitVec 12) (s : State) : Out :=
  conditional c s fun t => storeSingle 4 true t.privilege (preIndex w) u rn rd (.imm (imm.setWidth 32)) t

/-- `str`, post-indexed, immediate offset (R258). -/
def execStrPostImm (c : Cond) (u : Bool) (rn rd : Reg) (imm : BitVec 12) (s : State) : Out :=
  conditional c s fun t => storeSingle 4 true t.privilege .post u rn rd (.imm (imm.setWidth 32)) t

/-- `str`, offset and pre-indexed, register offset (R258). -/
def execStrPreReg (c : Cond) (u w : Bool) (rn rd rm : Reg) (sh : ShiftImm) (s : State) : Out :=
  conditional c s fun t => storeSingle 4 true t.privilege (preIndex w) u rn rd (.reg rm sh) t

/-- `str`, post-indexed, register offset (R258). -/
def execStrPostReg (c : Cond) (u : Bool) (rn rd rm : Reg) (sh : ShiftImm) (s : State) : Out :=
  conditional c s fun t => storeSingle 4 true t.privilege .post u rn rd (.reg rm sh) t

/-- `strb`, offset and pre-indexed, immediate offset (R260). -/
def execStrbPreImm (c : Cond) (u w : Bool) (rn rd : Reg) (imm : BitVec 12) (s : State) : Out :=
  conditional c s fun t => storeSingle 1 false t.privilege (preIndex w) u rn rd (.imm (imm.setWidth 32)) t

/-- `strb`, post-indexed, immediate offset (R260). -/
def execStrbPostImm (c : Cond) (u : Bool) (rn rd : Reg) (imm : BitVec 12) (s : State) : Out :=
  conditional c s fun t => storeSingle 1 false t.privilege .post u rn rd (.imm (imm.setWidth 32)) t

/-- `strb`, offset and pre-indexed, register offset (R260). -/
def execStrbPreReg (c : Cond) (u w : Bool) (rn rd rm : Reg) (sh : ShiftImm) (s : State) : Out :=
  conditional c s fun t => storeSingle 1 false t.privilege (preIndex w) u rn rd (.reg rm sh) t

/-- `strb`, post-indexed, register offset (R260). -/
def execStrbPostReg (c : Cond) (u : Bool) (rn rd rm : Reg) (sh : ShiftImm) (s : State) : Out :=
  conditional c s fun t => storeSingle 1 false t.privilege .post u rn rd (.reg rm sh) t

/-- `ldrt`, post-indexed with User privilege, immediate offset (R252). -/
def execLdrtImm (c : Cond) (u : Bool) (rn rd : Reg) (imm : BitVec 12) (s : State) : Out :=
  conditional c s fun t => loadSingle 4 extWord false .user .post u rn rd (.imm (imm.setWidth 32)) t

/-- `ldrt`, post-indexed with User privilege, register offset (R252). -/
def execLdrtReg (c : Cond) (u : Bool) (rn rd rm : Reg) (sh : ShiftImm) (s : State) : Out :=
  conditional c s fun t => loadSingle 4 extWord false .user .post u rn rd (.reg rm sh) t

/-- `ldrbt`, post-indexed with User privilege, immediate offset (R255). -/
def execLdrbtImm (c : Cond) (u : Bool) (rn rd : Reg) (imm : BitVec 12) (s : State) : Out :=
  conditional c s fun t => loadSingle 1 extByte false .user .post u rn rd (.imm (imm.setWidth 32)) t

/-- `ldrbt`, post-indexed with User privilege, register offset (R255). -/
def execLdrbtReg (c : Cond) (u : Bool) (rn rd rm : Reg) (sh : ShiftImm) (s : State) : Out :=
  conditional c s fun t => loadSingle 1 extByte false .user .post u rn rd (.reg rm sh) t

/-- `strt`, post-indexed with User privilege, immediate offset (R259). -/
def execStrtImm (c : Cond) (u : Bool) (rn rd : Reg) (imm : BitVec 12) (s : State) : Out :=
  conditional c s fun t => storeSingle 4 false .user .post u rn rd (.imm (imm.setWidth 32)) t

/-- `strt`, post-indexed with User privilege, register offset (R259). -/
def execStrtReg (c : Cond) (u : Bool) (rn rd rm : Reg) (sh : ShiftImm) (s : State) : Out :=
  conditional c s fun t => storeSingle 4 false .user .post u rn rd (.reg rm sh) t

/-- `strbt`, post-indexed with User privilege, immediate offset (R261). -/
def execStrbtImm (c : Cond) (u : Bool) (rn rd : Reg) (imm : BitVec 12) (s : State) : Out :=
  conditional c s fun t => storeSingle 1 false .user .post u rn rd (.imm (imm.setWidth 32)) t

/-- `strbt`, post-indexed with User privilege, register offset (R261). -/
def execStrbtReg (c : Cond) (u : Bool) (rn rd rm : Reg) (sh : ShiftImm) (s : State) : Out :=
  conditional c s fun t => storeSingle 1 false .user .post u rn rd (.reg rm sh) t

/-- `ldrh`, offset and pre-indexed, immediate offset (R256). -/
def execLdrhPreImm (c : Cond) (u w : Bool) (rn rd : Reg) (imm : BitVec 8) (s : State) : Out :=
  conditional c s fun t => loadSingle 2 extHalf false t.privilege (preIndex w) u rn rd (.imm (imm.setWidth 32)) t

/-- `ldrh`, post-indexed, immediate offset (R256). -/
def execLdrhPostImm (c : Cond) (u : Bool) (rn rd : Reg) (imm : BitVec 8) (s : State) : Out :=
  conditional c s fun t => loadSingle 2 extHalf false t.privilege .post u rn rd (.imm (imm.setWidth 32)) t

/-- `ldrh`, offset and pre-indexed, register offset (R256). -/
def execLdrhPreReg (c : Cond) (u w : Bool) (rn rd rm : Reg) (s : State) : Out :=
  conditional c s fun t => loadSingle 2 extHalf false t.privilege (preIndex w) u rn rd (.reg rm (.lsl 0)) t

/-- `ldrh`, post-indexed, register offset (R256). -/
def execLdrhPostReg (c : Cond) (u : Bool) (rn rd rm : Reg) (s : State) : Out :=
  conditional c s fun t => loadSingle 2 extHalf false t.privilege .post u rn rd (.reg rm (.lsl 0)) t

/-- `ldrsb`, offset and pre-indexed, immediate offset (R254). -/
def execLdrsbPreImm (c : Cond) (u w : Bool) (rn rd : Reg) (imm : BitVec 8) (s : State) : Out :=
  conditional c s fun t => loadSingle 1 extSignedByte false t.privilege (preIndex w) u rn rd (.imm (imm.setWidth 32)) t

/-- `ldrsb`, post-indexed, immediate offset (R254). -/
def execLdrsbPostImm (c : Cond) (u : Bool) (rn rd : Reg) (imm : BitVec 8) (s : State) : Out :=
  conditional c s fun t => loadSingle 1 extSignedByte false t.privilege .post u rn rd (.imm (imm.setWidth 32)) t

/-- `ldrsb`, offset and pre-indexed, register offset (R254). -/
def execLdrsbPreReg (c : Cond) (u w : Bool) (rn rd rm : Reg) (s : State) : Out :=
  conditional c s fun t => loadSingle 1 extSignedByte false t.privilege (preIndex w) u rn rd (.reg rm (.lsl 0)) t

/-- `ldrsb`, post-indexed, register offset (R254). -/
def execLdrsbPostReg (c : Cond) (u : Bool) (rn rd rm : Reg) (s : State) : Out :=
  conditional c s fun t => loadSingle 1 extSignedByte false t.privilege .post u rn rd (.reg rm (.lsl 0)) t

/-- `ldrsh`, offset and pre-indexed, immediate offset (R257). -/
def execLdrshPreImm (c : Cond) (u w : Bool) (rn rd : Reg) (imm : BitVec 8) (s : State) : Out :=
  conditional c s fun t => loadSingle 2 extSignedHalf false t.privilege (preIndex w) u rn rd (.imm (imm.setWidth 32)) t

/-- `ldrsh`, post-indexed, immediate offset (R257). -/
def execLdrshPostImm (c : Cond) (u : Bool) (rn rd : Reg) (imm : BitVec 8) (s : State) : Out :=
  conditional c s fun t => loadSingle 2 extSignedHalf false t.privilege .post u rn rd (.imm (imm.setWidth 32)) t

/-- `ldrsh`, offset and pre-indexed, register offset (R257). -/
def execLdrshPreReg (c : Cond) (u w : Bool) (rn rd rm : Reg) (s : State) : Out :=
  conditional c s fun t => loadSingle 2 extSignedHalf false t.privilege (preIndex w) u rn rd (.reg rm (.lsl 0)) t

/-- `ldrsh`, post-indexed, register offset (R257). -/
def execLdrshPostReg (c : Cond) (u : Bool) (rn rd rm : Reg) (s : State) : Out :=
  conditional c s fun t => loadSingle 2 extSignedHalf false t.privilege .post u rn rd (.reg rm (.lsl 0)) t

/-- `strh`, offset and pre-indexed, immediate offset (R262). -/
def execStrhPreImm (c : Cond) (u w : Bool) (rn rd : Reg) (imm : BitVec 8) (s : State) : Out :=
  conditional c s fun t => storeSingle 2 false t.privilege (preIndex w) u rn rd (.imm (imm.setWidth 32)) t

/-- `strh`, post-indexed, immediate offset (R262). -/
def execStrhPostImm (c : Cond) (u : Bool) (rn rd : Reg) (imm : BitVec 8) (s : State) : Out :=
  conditional c s fun t => storeSingle 2 false t.privilege .post u rn rd (.imm (imm.setWidth 32)) t

/-- `strh`, offset and pre-indexed, register offset (R262). -/
def execStrhPreReg (c : Cond) (u w : Bool) (rn rd rm : Reg) (s : State) : Out :=
  conditional c s fun t => storeSingle 2 false t.privilege (preIndex w) u rn rd (.reg rm (.lsl 0)) t

/-- `strh`, post-indexed, register offset (R262). -/
def execStrhPostReg (c : Cond) (u : Bool) (rn rd rm : Reg) (s : State) : Out :=
  conditional c s fun t => storeSingle 2 false t.privilege .post u rn rd (.reg rm (.lsl 0)) t

/-- `swp` (R300). -/
def execSwp (c : Cond) (rd rm rn : Reg) (s : State) : Out :=
  conditional c s (swap 4 extWord rd rm rn)

/-- `swpb` (R301). -/
def execSwpb (c : Cond) (rd rm rn : Reg) (s : State) : Out :=
  conditional c s (swap 1 extByte rd rm rn)

end Sys2Proof.Machine
end

