-- ==== Sys2Proof/Machine/Multiply.lean ====
section
/-! DEFINITION. The multiplies (R196 to R203). With `s`, C, and V of the long forms, end as free values (R9, R377). -/

namespace Sys2Proof.Machine

/-- One of several registers is R15. -/
def anyPc (l : List Reg) : Bool :=
  l.any fun r => decide (r = 15#4)

/-- The flags of `muls` and `mlas`: N and Z of the product, C a draw, V unchanged (R196, R197). -/
def State.multiplyFlags (s : State) (p : Word) : State :=
  { s.afterDraw with cpsr := { s.cpsr.withNZ p with c := s.drawn.getLsbD 0 } }

/-- The flags of the long multiplies with `s`: N and Z of the 64-bit product, C and V draws (R198). -/
def State.longMultiplyFlags (s : State) (p : BitVec 64) : State :=
  { s.afterDraw with cpsr := { s.cpsr.withNZLong p with c := s.drawn.getLsbD 0, v := s.drawn.getLsbD 1 } }

/-- `Rd := p` with the flags when `s` (R196, R197). -/
def multiply (sf : Bool) (rd : Reg) (p : Word) (s : State) : Out :=
  if sf then advance ((s.setReg rd p).multiplyFlags p) else advance (s.setReg rd p)

/-- `RdLo := p[31:0]`, `RdHi := p[63:32]` with the flags when `s` (R198 to R201). -/
def longMultiply (sf : Bool) (rdLo rdHi : Reg) (p : BitVec 64) (s : State) : Out :=
  let t := (s.setReg rdLo (p.extractLsb' 0 32)).setReg rdHi (p.extractLsb' 32 32)
  if sf then advance (t.longMultiplyFlags p) else advance t

/-- What R203 forbids the long multiplies. -/
def longMultiplyRefusal (rdLo rdHi rm rs : Reg) : Option Refusal :=
  if anyPc [rdLo, rdHi, rm, rs] then some .r15Operand
  else if rdHi = rdLo ∨ rdHi = rm ∨ rdLo = rm then some .multiplyRegisters
  else none

/-- The 64-bit addend `RdHi : RdLo` (R199). -/
def State.accumulator (s : State) (rdLo rdHi : Reg) : BitVec 64 :=
  s.reg rdHi ++ s.reg rdLo

/-- The exact unsigned product, which fits 64 bits (R198). -/
def unsignedProduct (a b : Word) : BitVec 64 :=
  BitVec.ofNat 64 (a.toNat * b.toNat)

/-- The exact signed product in 64-bit two's complement (R200). -/
def signedProduct (a b : Word) : BitVec 64 :=
  BitVec.ofInt 64 (a.toInt * b.toInt)

/-- `mul` (R196). -/
def execMul (c : Cond) (sf : Bool) (rd rm rs : Reg) (s : State) : Out :=
  conditional c s fun t =>
    if anyPc [rd, rm, rs] then .refused .r15Operand
    else if rd = rm then .refused .multiplyRegisters
    else multiply sf rd (t.reg rm * t.reg rs) t

/-- `mla` (R197). -/
def execMla (c : Cond) (sf : Bool) (rd rm rs rn : Reg) (s : State) : Out :=
  conditional c s fun t =>
    if anyPc [rd, rm, rs, rn] then .refused .r15Operand
    else if rd = rm then .refused .multiplyRegisters
    else multiply sf rd (t.reg rm * t.reg rs + t.reg rn) t

/-- `umull` (R198). -/
def execUmull (c : Cond) (sf : Bool) (rdLo rdHi rm rs : Reg) (s : State) : Out :=
  conditional c s fun t =>
    match longMultiplyRefusal rdLo rdHi rm rs with
    | some e => .refused e
    | none => longMultiply sf rdLo rdHi (unsignedProduct (t.reg rm) (t.reg rs)) t

/-- `umlal` (R199). -/
def execUmlal (c : Cond) (sf : Bool) (rdLo rdHi rm rs : Reg) (s : State) : Out :=
  conditional c s fun t =>
    match longMultiplyRefusal rdLo rdHi rm rs with
    | some e => .refused e
    | none => longMultiply sf rdLo rdHi (unsignedProduct (t.reg rm) (t.reg rs) + t.accumulator rdLo rdHi) t

/-- `smull` (R200). -/
def execSmull (c : Cond) (sf : Bool) (rdLo rdHi rm rs : Reg) (s : State) : Out :=
  conditional c s fun t =>
    match longMultiplyRefusal rdLo rdHi rm rs with
    | some e => .refused e
    | none => longMultiply sf rdLo rdHi (signedProduct (t.reg rm) (t.reg rs)) t

/-- `smlal` (R201). -/
def execSmlal (c : Cond) (sf : Bool) (rdLo rdHi rm rs : Reg) (s : State) : Out :=
  conditional c s fun t =>
    match longMultiplyRefusal rdLo rdHi rm rs with
    | some e => .refused e
    | none => longMultiply sf rdLo rdHi (signedProduct (t.reg rm) (t.reg rs) + t.accumulator rdLo rdHi) t

end Sys2Proof.Machine
end

