-- ==== Sys2Proof/Machine/Pseudo.lean ====
section
/-! DEFINITION. The pseudo-instructions: the meaning of each is that of its expansion (R310 to R314; log 18). -/

namespace Sys2Proof.Machine

/-- Two instructions, the second at the next address, executed only if the first goes on there (R314). -/
def sequence (first second : State → Out) (s : State) : Out :=
  match first s with
  | .next t => if t.pc = s.pc + 4#32 then second t else .next t
  | .fault f => .fault f
  | .refused e => .refused e

/-- `nop` is `mov r0, r0` (R310). -/
def execNop (c : Cond) (s : State) : Out :=
  execMovShiftImm c false 0#4 0#4 (.lsl 0) s

/-- `ldr Rd, label` is `ldr Rd, [r15, #offset]` (R311). -/
def execLdrLabel (c : Cond) (u : Bool) (rd : Reg) (imm : BitVec 12) (s : State) : Out :=
  execLdrPreImm c u false 15#4 rd imm s

/-- `ldr Rd, =imm32` is a `mov`, a `mvn`, or a load of the literal-pool word (R312). -/
def execLdrConst (c : Cond) (rd : Reg) (imm32 : Word) (u : Bool) (pool : BitVec 12) (s : State) : Out :=
  match immPair? imm32 with
  | some (rot, imm) => execMovImm c false rd rot imm s
  | none =>
    match immPair? (~~~imm32) with
    | some (rot, imm) => execMvnImm c false rd rot imm s
    | none => execLdrPreImm c u false 15#4 rd pool s

/-- `adr Rd, label` adds to or subtracts from R15 (R313). -/
def execAdr (c : Cond) (u : Bool) (rd : Reg) (rot : BitVec 4) (imm : BitVec 8) (s : State) : Out :=
  if u then execAddImm c false rd 15#4 rot imm s else execSubImm c false rd 15#4 rot imm s

/-- `adrl Rd, label` is two additions or two subtractions (R314). -/
def execAdrl (c : Cond) (u : Bool) (rd : Reg) (rot1 : BitVec 4) (imm1 : BitVec 8) (rot2 : BitVec 4) (imm2 : BitVec 8)
    (s : State) : Out :=
  if u then sequence (execAddImm c false rd 15#4 rot1 imm1) (execAddImm c false rd rd rot2 imm2) s
  else sequence (execSubImm c false rd 15#4 rot1 imm1) (execSubImm c false rd rd rot2 imm2) s

end Sys2Proof.Machine
end

