-- ==== Sys2Proof/Machine/StatusRegister.lean ====
section
/-! DEFINITION. The status-register instructions: `mrs` and `msr` in their six forms (R173 to R178). -/

namespace Sys2Proof.Machine

/-- `Rd := PSR` with a draw in bits 27..8; R15 as `Rd` is refused (R33, R173, R174). -/
def readPsr (rd : Reg) (p : Psr) (s : State) : Out :=
  if rd = 15#4 then .refused .r15Operand
  else advance ((s.setReg rd (p.word (s.drawn.extractLsb' 8 20))).afterDraw)

/-- The flags field of a word written to the CPSR (R34, R175). -/
def Cpsr.withFlagsOf (p : Cpsr) (v : Word) : Cpsr :=
  { p with n := v.getLsbD 31, z := v.getLsbD 30, c := v.getLsbD 29, v := v.getLsbD 28 }

/-- The flags field of a word written to an SPSR (R34, R176). -/
def Psr.withFlagsOf (p : Psr) (v : Word) : Psr :=
  { p with n := v.getLsbD 31, z := v.getLsbD 30, c := v.getLsbD 29, v := v.getLsbD 28 }

/-- The control field of a word written to an SPSR: any T and any mode bits (R32, R176). -/
def Psr.withControlOf (p : Psr) (v : Word) : Psr :=
  { p with i := v.getLsbD 7, f := v.getLsbD 6, t := v.getLsbD 5, m := v.extractLsb' 0 5 }

/-- The control field of a word written to the CPSR: T cannot be set and the mode must be one of the seven (R175). -/
def Cpsr.withControlOf (p : Cpsr) (v : Word) : Except Refusal Cpsr :=
  if v.getLsbD 5 then .error .msrSetsThumb
  else
    match Mode.ofBits (v.extractLsb' 0 5) with
    | none => .error (.illegalMode (v.extractLsb' 0 5))
    | some m => .ok { p with i := v.getLsbD 7, f := v.getLsbD 6, mode := m }

/-- A word written to the selected fields of the CPSR (R175): `c` only in a privileged mode, `x` and `s` hold no state. -/
def writeCpsr (fields : PsrFields) (v : Word) (s : State) : Out :=
  let flagged := if fields.f then s.cpsr.withFlagsOf v else s.cpsr
  if fields.c && s.cpsr.mode.privileged then
    match flagged.withControlOf v with
    | .error e => .refused e
    | .ok p => advance { s with cpsr := p }
  else advance { s with cpsr := flagged }

/-- A word written to the selected fields of the current mode's SPSR (R176). -/
def writeSpsr (fields : PsrFields) (v : Word) (s : State) : Out :=
  match s.spsr? s.cpsr.mode with
  | none => .refused .noSpsr
  | some p =>
    let flagged := if fields.f then p.withFlagsOf v else p
    advance (s.setSpsr s.cpsr.mode (if fields.c then flagged.withControlOf v else flagged))

/-- `mrs Rd, cpsr` (R173). -/
def execMrsCpsr (c : Cond) (rd : Reg) (s : State) : Out :=
  conditional c s fun t => readPsr rd t.cpsr.saved t

/-- `mrs Rd, spsr` (R174). -/
def execMrsSpsr (c : Cond) (rd : Reg) (s : State) : Out :=
  conditional c s fun t =>
    match t.spsr? t.cpsr.mode with
    | none => .refused .noSpsr
    | some p => readPsr rd p t

/-- `msr cpsr_fields, Rm` (R175). -/
def execMsrCpsrReg (c : Cond) (fields : PsrFields) (rm : Reg) (s : State) : Out :=
  conditional c s fun t => if rm = 15#4 then .refused .r15Operand else writeCpsr fields (t.reg rm) t

/-- `msr spsr_fields, Rm` (R176). -/
def execMsrSpsrReg (c : Cond) (fields : PsrFields) (rm : Reg) (s : State) : Out :=
  conditional c s fun t => if rm = 15#4 then .refused .r15Operand else writeSpsr fields (t.reg rm) t

/-- `msr cpsr_fields, #imm8r` (R177). -/
def execMsrCpsrImm (c : Cond) (fields : PsrFields) (rot : BitVec 4) (imm : BitVec 8) (s : State) : Out :=
  conditional c s (writeCpsr fields (rotatedImm rot imm))

/-- `msr spsr_fields, #imm8r` (R178). -/
def execMsrSpsrImm (c : Cond) (fields : PsrFields) (rot : BitVec 4) (imm : BitVec 8) (s : State) : Out :=
  conditional c s (writeSpsr fields (rotatedImm rot imm))

end Sys2Proof.Machine
end

