-- ==== Sys2Proof/Machine/Dispatch.lean ====
section
/-! DEFINITION. The meaning of each instruction, one arm for each row of spec/opcode_table.json. -/

namespace Sys2Proof.Machine

def exec (i : Instr) (s : State) : Host.Outcome State Fault Refusal :=
  match i with
  | .andImm c sf rd rn rot imm => Sys2Proof.Machine.execAndImm c sf rd rn rot imm s
  | .andShiftImm c sf rd rn rm sh => Sys2Proof.Machine.execAndShiftImm c sf rd rn rm sh s
  | .andShiftReg c sf rd rn rm k rs => Sys2Proof.Machine.execAndShiftReg c sf rd rn rm k rs s
  | .eorImm c sf rd rn rot imm => Sys2Proof.Machine.execEorImm c sf rd rn rot imm s
  | .eorShiftImm c sf rd rn rm sh => Sys2Proof.Machine.execEorShiftImm c sf rd rn rm sh s
  | .eorShiftReg c sf rd rn rm k rs => Sys2Proof.Machine.execEorShiftReg c sf rd rn rm k rs s
  | .subImm c sf rd rn rot imm => Sys2Proof.Machine.execSubImm c sf rd rn rot imm s
  | .subShiftImm c sf rd rn rm sh => Sys2Proof.Machine.execSubShiftImm c sf rd rn rm sh s
  | .subShiftReg c sf rd rn rm k rs => Sys2Proof.Machine.execSubShiftReg c sf rd rn rm k rs s
  | .rsbImm c sf rd rn rot imm => Sys2Proof.Machine.execRsbImm c sf rd rn rot imm s
  | .rsbShiftImm c sf rd rn rm sh => Sys2Proof.Machine.execRsbShiftImm c sf rd rn rm sh s
  | .rsbShiftReg c sf rd rn rm k rs => Sys2Proof.Machine.execRsbShiftReg c sf rd rn rm k rs s
  | .addImm c sf rd rn rot imm => Sys2Proof.Machine.execAddImm c sf rd rn rot imm s
  | .addShiftImm c sf rd rn rm sh => Sys2Proof.Machine.execAddShiftImm c sf rd rn rm sh s
  | .addShiftReg c sf rd rn rm k rs => Sys2Proof.Machine.execAddShiftReg c sf rd rn rm k rs s
  | .adcImm c sf rd rn rot imm => Sys2Proof.Machine.execAdcImm c sf rd rn rot imm s
  | .adcShiftImm c sf rd rn rm sh => Sys2Proof.Machine.execAdcShiftImm c sf rd rn rm sh s
  | .adcShiftReg c sf rd rn rm k rs => Sys2Proof.Machine.execAdcShiftReg c sf rd rn rm k rs s
  | .sbcImm c sf rd rn rot imm => Sys2Proof.Machine.execSbcImm c sf rd rn rot imm s
  | .sbcShiftImm c sf rd rn rm sh => Sys2Proof.Machine.execSbcShiftImm c sf rd rn rm sh s
  | .sbcShiftReg c sf rd rn rm k rs => Sys2Proof.Machine.execSbcShiftReg c sf rd rn rm k rs s
  | .rscImm c sf rd rn rot imm => Sys2Proof.Machine.execRscImm c sf rd rn rot imm s
  | .rscShiftImm c sf rd rn rm sh => Sys2Proof.Machine.execRscShiftImm c sf rd rn rm sh s
  | .rscShiftReg c sf rd rn rm k rs => Sys2Proof.Machine.execRscShiftReg c sf rd rn rm k rs s
  | .tstImm c rn rot imm => Sys2Proof.Machine.execTstImm c rn rot imm s
  | .tstShiftImm c rn rm sh => Sys2Proof.Machine.execTstShiftImm c rn rm sh s
  | .tstShiftReg c rn rm k rs => Sys2Proof.Machine.execTstShiftReg c rn rm k rs s
  | .teqImm c rn rot imm => Sys2Proof.Machine.execTeqImm c rn rot imm s
  | .teqShiftImm c rn rm sh => Sys2Proof.Machine.execTeqShiftImm c rn rm sh s
  | .teqShiftReg c rn rm k rs => Sys2Proof.Machine.execTeqShiftReg c rn rm k rs s
  | .cmpImm c rn rot imm => Sys2Proof.Machine.execCmpImm c rn rot imm s
  | .cmpShiftImm c rn rm sh => Sys2Proof.Machine.execCmpShiftImm c rn rm sh s
  | .cmpShiftReg c rn rm k rs => Sys2Proof.Machine.execCmpShiftReg c rn rm k rs s
  | .cmnImm c rn rot imm => Sys2Proof.Machine.execCmnImm c rn rot imm s
  | .cmnShiftImm c rn rm sh => Sys2Proof.Machine.execCmnShiftImm c rn rm sh s
  | .cmnShiftReg c rn rm k rs => Sys2Proof.Machine.execCmnShiftReg c rn rm k rs s
  | .orrImm c sf rd rn rot imm => Sys2Proof.Machine.execOrrImm c sf rd rn rot imm s
  | .orrShiftImm c sf rd rn rm sh => Sys2Proof.Machine.execOrrShiftImm c sf rd rn rm sh s
  | .orrShiftReg c sf rd rn rm k rs => Sys2Proof.Machine.execOrrShiftReg c sf rd rn rm k rs s
  | .movImm c sf rd rot imm => Sys2Proof.Machine.execMovImm c sf rd rot imm s
  | .movShiftImm c sf rd rm sh => Sys2Proof.Machine.execMovShiftImm c sf rd rm sh s
  | .movShiftReg c sf rd rm k rs => Sys2Proof.Machine.execMovShiftReg c sf rd rm k rs s
  | .bicImm c sf rd rn rot imm => Sys2Proof.Machine.execBicImm c sf rd rn rot imm s
  | .bicShiftImm c sf rd rn rm sh => Sys2Proof.Machine.execBicShiftImm c sf rd rn rm sh s
  | .bicShiftReg c sf rd rn rm k rs => Sys2Proof.Machine.execBicShiftReg c sf rd rn rm k rs s
  | .mvnImm c sf rd rot imm => Sys2Proof.Machine.execMvnImm c sf rd rot imm s
  | .mvnShiftImm c sf rd rm sh => Sys2Proof.Machine.execMvnShiftImm c sf rd rm sh s
  | .mvnShiftReg c sf rd rm k rs => Sys2Proof.Machine.execMvnShiftReg c sf rd rm k rs s
  | .mrsCpsr c rd => Sys2Proof.Machine.execMrsCpsr c rd s
  | .mrsSpsr c rd => Sys2Proof.Machine.execMrsSpsr c rd s
  | .msrCpsrReg c fields rm => Sys2Proof.Machine.execMsrCpsrReg c fields rm s
  | .msrSpsrReg c fields rm => Sys2Proof.Machine.execMsrSpsrReg c fields rm s
  | .msrCpsrImm c fields rot imm => Sys2Proof.Machine.execMsrCpsrImm c fields rot imm s
  | .msrSpsrImm c fields rot imm => Sys2Proof.Machine.execMsrSpsrImm c fields rot imm s
  | .mul c sf rd rm rs => Sys2Proof.Machine.execMul c sf rd rm rs s
  | .mla c sf rd rm rs rn => Sys2Proof.Machine.execMla c sf rd rm rs rn s
  | .umull c sf rdLo rdHi rm rs => Sys2Proof.Machine.execUmull c sf rdLo rdHi rm rs s
  | .umlal c sf rdLo rdHi rm rs => Sys2Proof.Machine.execUmlal c sf rdLo rdHi rm rs s
  | .smull c sf rdLo rdHi rm rs => Sys2Proof.Machine.execSmull c sf rdLo rdHi rm rs s
  | .smlal c sf rdLo rdHi rm rs => Sys2Proof.Machine.execSmlal c sf rdLo rdHi rm rs s
  | .bx c rm => Sys2Proof.Machine.execBx c rm s
  | .swp c rd rm rn => Sys2Proof.Machine.execSwp c rd rm rn s
  | .swpb c rd rm rn => Sys2Proof.Machine.execSwpb c rd rm rn s
  | .ldrPreImm c u w rn rd imm => Sys2Proof.Machine.execLdrPreImm c u w rn rd imm s
  | .ldrPostImm c u rn rd imm => Sys2Proof.Machine.execLdrPostImm c u rn rd imm s
  | .ldrPreReg c u w rn rd rm sh => Sys2Proof.Machine.execLdrPreReg c u w rn rd rm sh s
  | .ldrPostReg c u rn rd rm sh => Sys2Proof.Machine.execLdrPostReg c u rn rd rm sh s
  | .ldrbPreImm c u w rn rd imm => Sys2Proof.Machine.execLdrbPreImm c u w rn rd imm s
  | .ldrbPostImm c u rn rd imm => Sys2Proof.Machine.execLdrbPostImm c u rn rd imm s
  | .ldrbPreReg c u w rn rd rm sh => Sys2Proof.Machine.execLdrbPreReg c u w rn rd rm sh s
  | .ldrbPostReg c u rn rd rm sh => Sys2Proof.Machine.execLdrbPostReg c u rn rd rm sh s
  | .strPreImm c u w rn rd imm => Sys2Proof.Machine.execStrPreImm c u w rn rd imm s
  | .strPostImm c u rn rd imm => Sys2Proof.Machine.execStrPostImm c u rn rd imm s
  | .strPreReg c u w rn rd rm sh => Sys2Proof.Machine.execStrPreReg c u w rn rd rm sh s
  | .strPostReg c u rn rd rm sh => Sys2Proof.Machine.execStrPostReg c u rn rd rm sh s
  | .strbPreImm c u w rn rd imm => Sys2Proof.Machine.execStrbPreImm c u w rn rd imm s
  | .strbPostImm c u rn rd imm => Sys2Proof.Machine.execStrbPostImm c u rn rd imm s
  | .strbPreReg c u w rn rd rm sh => Sys2Proof.Machine.execStrbPreReg c u w rn rd rm sh s
  | .strbPostReg c u rn rd rm sh => Sys2Proof.Machine.execStrbPostReg c u rn rd rm sh s
  | .ldrtImm c u rn rd imm => Sys2Proof.Machine.execLdrtImm c u rn rd imm s
  | .ldrtReg c u rn rd rm sh => Sys2Proof.Machine.execLdrtReg c u rn rd rm sh s
  | .ldrbtImm c u rn rd imm => Sys2Proof.Machine.execLdrbtImm c u rn rd imm s
  | .ldrbtReg c u rn rd rm sh => Sys2Proof.Machine.execLdrbtReg c u rn rd rm sh s
  | .strtImm c u rn rd imm => Sys2Proof.Machine.execStrtImm c u rn rd imm s
  | .strtReg c u rn rd rm sh => Sys2Proof.Machine.execStrtReg c u rn rd rm sh s
  | .strbtImm c u rn rd imm => Sys2Proof.Machine.execStrbtImm c u rn rd imm s
  | .strbtReg c u rn rd rm sh => Sys2Proof.Machine.execStrbtReg c u rn rd rm sh s
  | .ldrhPreImm c u w rn rd imm => Sys2Proof.Machine.execLdrhPreImm c u w rn rd imm s
  | .ldrhPostImm c u rn rd imm => Sys2Proof.Machine.execLdrhPostImm c u rn rd imm s
  | .ldrhPreReg c u w rn rd rm => Sys2Proof.Machine.execLdrhPreReg c u w rn rd rm s
  | .ldrhPostReg c u rn rd rm => Sys2Proof.Machine.execLdrhPostReg c u rn rd rm s
  | .ldrsbPreImm c u w rn rd imm => Sys2Proof.Machine.execLdrsbPreImm c u w rn rd imm s
  | .ldrsbPostImm c u rn rd imm => Sys2Proof.Machine.execLdrsbPostImm c u rn rd imm s
  | .ldrsbPreReg c u w rn rd rm => Sys2Proof.Machine.execLdrsbPreReg c u w rn rd rm s
  | .ldrsbPostReg c u rn rd rm => Sys2Proof.Machine.execLdrsbPostReg c u rn rd rm s
  | .ldrshPreImm c u w rn rd imm => Sys2Proof.Machine.execLdrshPreImm c u w rn rd imm s
  | .ldrshPostImm c u rn rd imm => Sys2Proof.Machine.execLdrshPostImm c u rn rd imm s
  | .ldrshPreReg c u w rn rd rm => Sys2Proof.Machine.execLdrshPreReg c u w rn rd rm s
  | .ldrshPostReg c u rn rd rm => Sys2Proof.Machine.execLdrshPostReg c u rn rd rm s
  | .strhPreImm c u w rn rd imm => Sys2Proof.Machine.execStrhPreImm c u w rn rd imm s
  | .strhPostImm c u rn rd imm => Sys2Proof.Machine.execStrhPostImm c u rn rd imm s
  | .strhPreReg c u w rn rd rm => Sys2Proof.Machine.execStrhPreReg c u w rn rd rm s
  | .strhPostReg c u rn rd rm => Sys2Proof.Machine.execStrhPostReg c u rn rd rm s
  | .ldm c am w rn list => Sys2Proof.Machine.execLdm c am w rn list s
  | .ldmUser c am w rn list => Sys2Proof.Machine.execLdmUser c am w rn list s
  | .ldmReturn c am w rn list => Sys2Proof.Machine.execLdmReturn c am w rn list s
  | .stm c am w rn list => Sys2Proof.Machine.execStm c am w rn list s
  | .stmUser c am w rn list => Sys2Proof.Machine.execStmUser c am w rn list s
  | .b c off => Sys2Proof.Machine.execB c off s
  | .bl c off => Sys2Proof.Machine.execBl c off s
  | .swi c imm => Sys2Proof.Machine.execSwi c imm s
  | .nop c => Sys2Proof.Machine.execNop c s
  | .ldrLabel c u rd imm => Sys2Proof.Machine.execLdrLabel c u rd imm s
  | .ldrConst c rd imm32 u pool => Sys2Proof.Machine.execLdrConst c rd imm32 u pool s
  | .adr c u rd rot imm => Sys2Proof.Machine.execAdr c u rd rot imm s
  | .adrl c u rd rot1 imm1 rot2 imm2 => Sys2Proof.Machine.execAdrl c u rd rot1 imm1 rot2 imm2 s

end Sys2Proof.Machine
end

