-- ==== Sys2Proof/Machine/Hazard.lean ====
section
/-! DEFINITION. The one hazard of the spec: the instruction after a User-bank `ldm` must not access a banked register
(R375; log 15). -/

namespace Sys2Proof.Machine

/-- The registers an instruction names as operands, and R14 for `bl`, which writes it (R375; log 15). -/
def operandRegs (i : Instr) : List Reg :=
  match i with
  | .andImm _ _ rd rn _ _ => [rd, rn]
  | .andShiftImm _ _ rd rn rm _ => [rd, rn, rm]
  | .andShiftReg _ _ rd rn rm _ rs => [rd, rn, rm, rs]
  | .eorImm _ _ rd rn _ _ => [rd, rn]
  | .eorShiftImm _ _ rd rn rm _ => [rd, rn, rm]
  | .eorShiftReg _ _ rd rn rm _ rs => [rd, rn, rm, rs]
  | .subImm _ _ rd rn _ _ => [rd, rn]
  | .subShiftImm _ _ rd rn rm _ => [rd, rn, rm]
  | .subShiftReg _ _ rd rn rm _ rs => [rd, rn, rm, rs]
  | .rsbImm _ _ rd rn _ _ => [rd, rn]
  | .rsbShiftImm _ _ rd rn rm _ => [rd, rn, rm]
  | .rsbShiftReg _ _ rd rn rm _ rs => [rd, rn, rm, rs]
  | .addImm _ _ rd rn _ _ => [rd, rn]
  | .addShiftImm _ _ rd rn rm _ => [rd, rn, rm]
  | .addShiftReg _ _ rd rn rm _ rs => [rd, rn, rm, rs]
  | .adcImm _ _ rd rn _ _ => [rd, rn]
  | .adcShiftImm _ _ rd rn rm _ => [rd, rn, rm]
  | .adcShiftReg _ _ rd rn rm _ rs => [rd, rn, rm, rs]
  | .sbcImm _ _ rd rn _ _ => [rd, rn]
  | .sbcShiftImm _ _ rd rn rm _ => [rd, rn, rm]
  | .sbcShiftReg _ _ rd rn rm _ rs => [rd, rn, rm, rs]
  | .rscImm _ _ rd rn _ _ => [rd, rn]
  | .rscShiftImm _ _ rd rn rm _ => [rd, rn, rm]
  | .rscShiftReg _ _ rd rn rm _ rs => [rd, rn, rm, rs]
  | .tstImm _ rn _ _ => [rn]
  | .tstShiftImm _ rn rm _ => [rn, rm]
  | .tstShiftReg _ rn rm _ rs => [rn, rm, rs]
  | .teqImm _ rn _ _ => [rn]
  | .teqShiftImm _ rn rm _ => [rn, rm]
  | .teqShiftReg _ rn rm _ rs => [rn, rm, rs]
  | .cmpImm _ rn _ _ => [rn]
  | .cmpShiftImm _ rn rm _ => [rn, rm]
  | .cmpShiftReg _ rn rm _ rs => [rn, rm, rs]
  | .cmnImm _ rn _ _ => [rn]
  | .cmnShiftImm _ rn rm _ => [rn, rm]
  | .cmnShiftReg _ rn rm _ rs => [rn, rm, rs]
  | .orrImm _ _ rd rn _ _ => [rd, rn]
  | .orrShiftImm _ _ rd rn rm _ => [rd, rn, rm]
  | .orrShiftReg _ _ rd rn rm _ rs => [rd, rn, rm, rs]
  | .movImm _ _ rd _ _ => [rd]
  | .movShiftImm _ _ rd rm _ => [rd, rm]
  | .movShiftReg _ _ rd rm _ rs => [rd, rm, rs]
  | .bicImm _ _ rd rn _ _ => [rd, rn]
  | .bicShiftImm _ _ rd rn rm _ => [rd, rn, rm]
  | .bicShiftReg _ _ rd rn rm _ rs => [rd, rn, rm, rs]
  | .mvnImm _ _ rd _ _ => [rd]
  | .mvnShiftImm _ _ rd rm _ => [rd, rm]
  | .mvnShiftReg _ _ rd rm _ rs => [rd, rm, rs]
  | .mrsCpsr _ rd => [rd]
  | .mrsSpsr _ rd => [rd]
  | .msrCpsrReg _ _ rm => [rm]
  | .msrSpsrReg _ _ rm => [rm]
  | .msrCpsrImm _ _ _ _ => []
  | .msrSpsrImm _ _ _ _ => []
  | .mul _ _ rd rm rs => [rd, rm, rs]
  | .mla _ _ rd rm rs rn => [rd, rm, rs, rn]
  | .umull _ _ rdLo rdHi rm rs => [rdLo, rdHi, rm, rs]
  | .umlal _ _ rdLo rdHi rm rs => [rdLo, rdHi, rm, rs]
  | .smull _ _ rdLo rdHi rm rs => [rdLo, rdHi, rm, rs]
  | .smlal _ _ rdLo rdHi rm rs => [rdLo, rdHi, rm, rs]
  | .bx _ rm => [rm]
  | .swp _ rd rm rn => [rd, rm, rn]
  | .swpb _ rd rm rn => [rd, rm, rn]
  | .ldrPreImm _ _ _ rn rd _ => [rn, rd]
  | .ldrPostImm _ _ rn rd _ => [rn, rd]
  | .ldrPreReg _ _ _ rn rd rm _ => [rn, rd, rm]
  | .ldrPostReg _ _ rn rd rm _ => [rn, rd, rm]
  | .ldrbPreImm _ _ _ rn rd _ => [rn, rd]
  | .ldrbPostImm _ _ rn rd _ => [rn, rd]
  | .ldrbPreReg _ _ _ rn rd rm _ => [rn, rd, rm]
  | .ldrbPostReg _ _ rn rd rm _ => [rn, rd, rm]
  | .strPreImm _ _ _ rn rd _ => [rn, rd]
  | .strPostImm _ _ rn rd _ => [rn, rd]
  | .strPreReg _ _ _ rn rd rm _ => [rn, rd, rm]
  | .strPostReg _ _ rn rd rm _ => [rn, rd, rm]
  | .strbPreImm _ _ _ rn rd _ => [rn, rd]
  | .strbPostImm _ _ rn rd _ => [rn, rd]
  | .strbPreReg _ _ _ rn rd rm _ => [rn, rd, rm]
  | .strbPostReg _ _ rn rd rm _ => [rn, rd, rm]
  | .ldrtImm _ _ rn rd _ => [rn, rd]
  | .ldrtReg _ _ rn rd rm _ => [rn, rd, rm]
  | .ldrbtImm _ _ rn rd _ => [rn, rd]
  | .ldrbtReg _ _ rn rd rm _ => [rn, rd, rm]
  | .strtImm _ _ rn rd _ => [rn, rd]
  | .strtReg _ _ rn rd rm _ => [rn, rd, rm]
  | .strbtImm _ _ rn rd _ => [rn, rd]
  | .strbtReg _ _ rn rd rm _ => [rn, rd, rm]
  | .ldrhPreImm _ _ _ rn rd _ => [rn, rd]
  | .ldrhPostImm _ _ rn rd _ => [rn, rd]
  | .ldrhPreReg _ _ _ rn rd rm => [rn, rd, rm]
  | .ldrhPostReg _ _ rn rd rm => [rn, rd, rm]
  | .ldrsbPreImm _ _ _ rn rd _ => [rn, rd]
  | .ldrsbPostImm _ _ rn rd _ => [rn, rd]
  | .ldrsbPreReg _ _ _ rn rd rm => [rn, rd, rm]
  | .ldrsbPostReg _ _ rn rd rm => [rn, rd, rm]
  | .ldrshPreImm _ _ _ rn rd _ => [rn, rd]
  | .ldrshPostImm _ _ rn rd _ => [rn, rd]
  | .ldrshPreReg _ _ _ rn rd rm => [rn, rd, rm]
  | .ldrshPostReg _ _ rn rd rm => [rn, rd, rm]
  | .strhPreImm _ _ _ rn rd _ => [rn, rd]
  | .strhPostImm _ _ rn rd _ => [rn, rd]
  | .strhPreReg _ _ _ rn rd rm => [rn, rd, rm]
  | .strhPostReg _ _ rn rd rm => [rn, rd, rm]
  | .ldm _ _ _ rn list => [rn] ++ regsOf list
  | .ldmUser _ _ _ rn list => [rn] ++ regsOf list
  | .ldmReturn _ _ _ rn list => [rn] ++ regsOf list
  | .stm _ _ _ rn list => [rn] ++ regsOf list
  | .stmUser _ _ _ rn list => [rn] ++ regsOf list
  | .b _ _ => []
  | .bl _ _ => [14#4]
  | .swi _ _ => []
  | .nop _ => [0#4]
  | .ldrLabel _ _ rd _ => [rd]
  | .ldrConst _ rd _ _ _ => [rd]
  | .adr _ _ rd _ _ => [rd]
  | .adrl _ _ rd _ _ _ _ => [rd]

/-- The register numbers that name banked registers in a mode: 13, 14, and 8 to 12 in FIQ mode (R375). -/
def isBanked (m : Mode) (r : Reg) : Bool :=
  decide (r = 13#4) || decide (r = 14#4) || (decide (m = .fiq) && decide (8#4 ≤ r) && decide (r ≤ 12#4))

/-- The condition of an instruction (R114). -/
def condOf (i : Instr) : Cond :=
  match i with
  | .andImm c _ _ _ _ _ => c
  | .andShiftImm c _ _ _ _ _ => c
  | .andShiftReg c _ _ _ _ _ _ => c
  | .eorImm c _ _ _ _ _ => c
  | .eorShiftImm c _ _ _ _ _ => c
  | .eorShiftReg c _ _ _ _ _ _ => c
  | .subImm c _ _ _ _ _ => c
  | .subShiftImm c _ _ _ _ _ => c
  | .subShiftReg c _ _ _ _ _ _ => c
  | .rsbImm c _ _ _ _ _ => c
  | .rsbShiftImm c _ _ _ _ _ => c
  | .rsbShiftReg c _ _ _ _ _ _ => c
  | .addImm c _ _ _ _ _ => c
  | .addShiftImm c _ _ _ _ _ => c
  | .addShiftReg c _ _ _ _ _ _ => c
  | .adcImm c _ _ _ _ _ => c
  | .adcShiftImm c _ _ _ _ _ => c
  | .adcShiftReg c _ _ _ _ _ _ => c
  | .sbcImm c _ _ _ _ _ => c
  | .sbcShiftImm c _ _ _ _ _ => c
  | .sbcShiftReg c _ _ _ _ _ _ => c
  | .rscImm c _ _ _ _ _ => c
  | .rscShiftImm c _ _ _ _ _ => c
  | .rscShiftReg c _ _ _ _ _ _ => c
  | .tstImm c _ _ _ => c
  | .tstShiftImm c _ _ _ => c
  | .tstShiftReg c _ _ _ _ => c
  | .teqImm c _ _ _ => c
  | .teqShiftImm c _ _ _ => c
  | .teqShiftReg c _ _ _ _ => c
  | .cmpImm c _ _ _ => c
  | .cmpShiftImm c _ _ _ => c
  | .cmpShiftReg c _ _ _ _ => c
  | .cmnImm c _ _ _ => c
  | .cmnShiftImm c _ _ _ => c
  | .cmnShiftReg c _ _ _ _ => c
  | .orrImm c _ _ _ _ _ => c
  | .orrShiftImm c _ _ _ _ _ => c
  | .orrShiftReg c _ _ _ _ _ _ => c
  | .movImm c _ _ _ _ => c
  | .movShiftImm c _ _ _ _ => c
  | .movShiftReg c _ _ _ _ _ => c
  | .bicImm c _ _ _ _ _ => c
  | .bicShiftImm c _ _ _ _ _ => c
  | .bicShiftReg c _ _ _ _ _ _ => c
  | .mvnImm c _ _ _ _ => c
  | .mvnShiftImm c _ _ _ _ => c
  | .mvnShiftReg c _ _ _ _ _ => c
  | .mrsCpsr c _ => c
  | .mrsSpsr c _ => c
  | .msrCpsrReg c _ _ => c
  | .msrSpsrReg c _ _ => c
  | .msrCpsrImm c _ _ _ => c
  | .msrSpsrImm c _ _ _ => c
  | .mul c _ _ _ _ => c
  | .mla c _ _ _ _ _ => c
  | .umull c _ _ _ _ _ => c
  | .umlal c _ _ _ _ _ => c
  | .smull c _ _ _ _ _ => c
  | .smlal c _ _ _ _ _ => c
  | .bx c _ => c
  | .swp c _ _ _ => c
  | .swpb c _ _ _ => c
  | .ldrPreImm c _ _ _ _ _ => c
  | .ldrPostImm c _ _ _ _ => c
  | .ldrPreReg c _ _ _ _ _ _ => c
  | .ldrPostReg c _ _ _ _ _ => c
  | .ldrbPreImm c _ _ _ _ _ => c
  | .ldrbPostImm c _ _ _ _ => c
  | .ldrbPreReg c _ _ _ _ _ _ => c
  | .ldrbPostReg c _ _ _ _ _ => c
  | .strPreImm c _ _ _ _ _ => c
  | .strPostImm c _ _ _ _ => c
  | .strPreReg c _ _ _ _ _ _ => c
  | .strPostReg c _ _ _ _ _ => c
  | .strbPreImm c _ _ _ _ _ => c
  | .strbPostImm c _ _ _ _ => c
  | .strbPreReg c _ _ _ _ _ _ => c
  | .strbPostReg c _ _ _ _ _ => c
  | .ldrtImm c _ _ _ _ => c
  | .ldrtReg c _ _ _ _ _ => c
  | .ldrbtImm c _ _ _ _ => c
  | .ldrbtReg c _ _ _ _ _ => c
  | .strtImm c _ _ _ _ => c
  | .strtReg c _ _ _ _ _ => c
  | .strbtImm c _ _ _ _ => c
  | .strbtReg c _ _ _ _ _ => c
  | .ldrhPreImm c _ _ _ _ _ => c
  | .ldrhPostImm c _ _ _ _ => c
  | .ldrhPreReg c _ _ _ _ _ => c
  | .ldrhPostReg c _ _ _ _ => c
  | .ldrsbPreImm c _ _ _ _ _ => c
  | .ldrsbPostImm c _ _ _ _ => c
  | .ldrsbPreReg c _ _ _ _ _ => c
  | .ldrsbPostReg c _ _ _ _ => c
  | .ldrshPreImm c _ _ _ _ _ => c
  | .ldrshPostImm c _ _ _ _ => c
  | .ldrshPreReg c _ _ _ _ _ => c
  | .ldrshPostReg c _ _ _ _ => c
  | .strhPreImm c _ _ _ _ _ => c
  | .strhPostImm c _ _ _ _ => c
  | .strhPreReg c _ _ _ _ _ => c
  | .strhPostReg c _ _ _ _ => c
  | .ldm c _ _ _ _ => c
  | .ldmUser c _ _ _ _ => c
  | .ldmReturn c _ _ _ _ => c
  | .stm c _ _ _ _ => c
  | .stmUser c _ _ _ _ => c
  | .b c _ => c
  | .bl c _ => c
  | .swi c _ => c
  | .nop c => c
  | .ldrLabel c _ _ _ => c
  | .ldrConst c _ _ _ _ => c
  | .adr c _ _ _ _ => c
  | .adrl c _ _ _ _ _ _ => c

/-- The instruction executes right after a User-bank `ldm` and names a banked register (R375). -/
def hazard (i : Instr) (s : State) : Bool :=
  s.afterUserLdm && Cond.passes (condOf i) s.cpsr && (operandRegs i).any (isBanked s.cpsr.mode)

end Sys2Proof.Machine
end

