-- ==== Sys2Proof/Machine/Cycle.lean ====
section
/-! DEFINITION. One step of the machine: interrupts, fetch, decoding, execution (R321), and placing a word where the next
step fetches it. -/

namespace Sys2Proof.Machine

/-- What a fetch answers: the bytes of the instruction, an abort, or a model fault. -/
inductive Fetched where
  | bytes (l : List Byte)
  | abort
  | fault (f : Fault)
  deriving DecidableEq, Repr

/-- The fetch of the four bytes at `pc`: `Aborts`, `Mapped`, then the bytes stored to since launch (R67, R75). -/
def fetch (s : State) : Fetched :=
  if Platform.abortsAccess s.platform s.pc.toNat 4 .fetch s.privilege then .abort
  else if !Platform.maps s.platform s.pc.toNat 4 then .fault (.unmapped s.pc 4)
  else if Written.touches s.written s.pc.toNat 4 then .fault (.fetchModified s.pc)
  else .bytes (Memory.fourBytes s.mem s.pc.toNat)

/-- The sample of the request inputs for this step; with no sample left there is no request (R37, R321; log 6). -/
def State.request (s : State) : Requests :=
  match s.requests with
  | [] => { fiq := false, irq := false }
  | r :: _ => r

/-- The state with this step's sample taken. -/
def State.sampled (s : State) : State :=
  { s with requests := s.requests.tail }

/-- The state in which an instruction executes: the mark of a User-bank `ldm` is gone (R375). -/
def State.executing (s : State) : State :=
  { s with afterUserLdm := false }

/-- A word of the Undefined instruction space: the exception if its condition passes, else the word is skipped (R324). -/
def undefinedWord (c : Cond) (s : State) : Out :=
  conditional c s fun t => .next (enter .undefinedInstruction (t.pc + 4#32) t)

/-- Decode the fetched bytes and execute them (R321). -/
def runBytes (l : List Byte) (s : State) : Out :=
  match decodeBytes l with
  | .refused e => .refused (.badWord e)
  | .undefined c => undefinedWord c s.executing
  | .instr i => if hazard i s then .refused .bankedAfterUserLdm else exec i s.executing

/-- Fetch at `pc` and execute, or take a Prefetch abort with the link `A + 4` (R321, R326). -/
def runAtPc (s : State) : Out :=
  match fetch s with
  | .abort => .next (enter .prefetchAbort (s.pc + 4#32) s)
  | .fault f => .fault f
  | .bytes l => runBytes l s

/-- One step (R321): Thumb state is refused; an enabled FIQ, then an enabled IRQ, is entered with the link `pc + 4` (R328,
R329); else the instruction at `pc` executes. -/
def cycle (s : State) : Out :=
  if s.cpsr.t then .refused .thumbStateNotModelled
  else if s.request.fiq && !s.cpsr.f then .next (enter .fiq (s.pc + 4#32) s.sampled)
  else if s.request.irq && !s.cpsr.i then .next (enter .irq (s.pc + 4#32) s.sampled)
  else runAtPc s.sampled

/-! ### Placing a word -/

/-- The four bytes of a word placed at an address, not as a store (R372; log 11). -/
def placeWord (m : Memory) (a : Nat) (w : Word) : Memory :=
  Memory.setByte (Memory.setByte (Memory.setByte (Memory.setByte m a (field w 0 8)) (a + 1) (field w 8 8)) (a + 2)
    (field w 16 8)) (a + 3) (field w 24 8)

/-- The platform with the word at `a` mapped and no rule that claims its fetch; unchanged where that holds already. -/
def Platform.allowFetch (p : Platform) (a : Nat) (pr : Privilege) : Platform :=
  { p with
    mapped := if Platform.maps p a 4 then p.mapped else ⟨a, 4⟩ :: p.mapped
    aborts := p.aborts.filter fun r => !AbortRule.claims r a 4 .fetch pr }

/-- The state whose next step fetches and runs the word `w`: the word stands at `pc` as if loaded before launch, the fetch
is allowed, and ARM state, no request and no hazard let the instruction run. -/
def State.withWord (s : State) (w : Word) : State :=
  { s with
    mem := placeWord s.mem s.pc.toNat w
    written := s.written.filter fun x => !decide (s.pc.toNat ≤ x ∧ x < s.pc.toNat + 4)
    requests := s.requests.map fun _ => { fiq := false, irq := false }
    afterUserLdm := false
    cpsr := { s.cpsr with t := false }
    platform := Platform.allowFetch s.platform s.pc.toNat s.privilege }

end Sys2Proof.Machine
end

