-- ==== Sys2Proof/Machine/Step.lean ====
section
/-! DEFINITION. The step of the machine, and the placing of an instruction where the next step fetches it. -/

namespace Sys2Proof.Machine

/-- One step of the machine (R321). -/
def step (s : State) : Host.Outcome State Fault Refusal :=
  cycle s

/-- The state whose very next step fetches and runs the instruction whose bits are the low `nbits` bits of `w`, the bits
above them zero (log 11). -/
def State.withFetchWord (s : State) (nbits w : Nat) : State :=
  s.withWord (BitVec.ofNat 32 (w % 2 ^ nbits))

end Sys2Proof.Machine
end

