-- ==== Sys2Proof/Safety.lean ====
section
/-! DEFINITION. The words the statements are written in: the invariant of the machine, what an instruction may change, the
transfers as a table, and the ends of a data-processing instruction as R170 writes them. -/

namespace Sys2Proof.Machine

/-! ### The invariant -/

/-- In ARM state the PC is a multiple of 4 (R26). -/
def State.pcAligned (s : State) : Prop :=
  s.cpsr.t = false → s.pc &&& 3#32 = 0#32

/-- What every step keeps: memory and the set of bytes stored to are in their one canonical form and inside the address
space (R36, R60, R75), and the PC of ARM state is aligned (R26). -/
structure State.Inv (s : State) : Prop where
  memWf : Memory.wf s.mem = true
  memInSpace : Memory.inSpace s.mem = true
  writtenWf : Written.wf s.written = true
  pcAligned : s.pcAligned

/-! ### Going on and executing -/

/-- The state after an instruction that only goes on to the next one (R26). -/
def State.onward (s : State) : State :=
  { s with pc := s.pc + 4#32 }

/-- The condition passes and the next instruction's address exists (R26, R131). -/
def State.runs (s : State) (c : Cond) : Prop :=
  Cond.passes c s.cpsr = true ∧ s.pc ≠ 0xFFFFFFFC#32

/-- An access of `n` bytes goes through: aligned, not aborted, mapped (R64, R65). -/
def State.grants (s : State) (a : Word) (n : Nat) (k : AccessKind) (pr : Privilege) : Prop :=
  a.toNat % n = 0 ∧ Platform.abortsAccess s.platform a.toNat n k pr = false ∧
    Platform.maps s.platform a.toNat n = true

/-- The half-word at an address (R62). -/
def Memory.half (m : Memory) (a : Nat) : BitVec 16 :=
  m.byte (a + 1) ++ m.byte a

/-- The word at an address (R62). -/
def Memory.word (m : Memory) (a : Nat) : Word :=
  m.byte (a + 3) ++ m.byte (a + 2) ++ m.byte (a + 1) ++ m.byte a

/-- The byte at an address of the state's memory. -/
def State.byteAt (s : State) (a : Nat) : Byte :=
  Memory.byte s.mem a

/-- The little-endian word at an address of the state's memory (R62). -/
def State.wordAt (s : State) (a : Nat) : Word :=
  Memory.word s.mem a

/-! ### Data processing (R170) -/

/-- What the rule of a data-processing instruction gives, from the first operand, the shifter's value and carry-out and
the old CPSR. -/
abbrev DpRule :=
  Word → Word → Bool → Cpsr → DpResult

/-- The flags a result gives (R28, R170). -/
def Cpsr.ofResult (p : Cpsr) (r : DpResult) : Cpsr :=
  { p with n := r.value.msb, z := r.value == 0#32, c := r.c, v := r.v }

/-- The end of an instruction with a destination below R15 (R170). -/
def State.dpDone (s : State) (sf : Bool) (rd : Reg) (r : DpResult) : State :=
  State.onward (if sf then { s.setReg rd r.value with cpsr := s.cpsr.ofResult r } else s.setReg rd r.value)

/-- An instruction with a destination does what R170 says. Below R15: the destination and, with `s`, the flags, refused
only where the next address does not exist (R26). With R15: a jump, which with `s` first copies the SPSR to the CPSR; it is
refused without an SPSR, with no legal mode in it, and where ARM state would go on at no multiple of 4 (R26, R31). -/
def DpWrites (i : Instr) (sf : Bool) (rd : Reg) (r : State → DpResult) : Prop :=
  ∀ s : State, Cond.passes (condOf i) s.cpsr = true →
    (rd ≠ 15#4 → s.pc ≠ 0xFFFFFFFC#32 → exec i s = .next (s.dpDone sf rd (r s))) ∧
    (rd ≠ 15#4 → s.pc = 0xFFFFFFFC#32 → exec i s = .refused .pcWraps) ∧
    (rd = 15#4 → sf = false →
      ((r s).value &&& 3#32 = 0#32 → exec i s = .next { s with pc := (r s).value }) ∧
      ((r s).value &&& 3#32 ≠ 0#32 → exec i s = .refused (.pcMisaligned (r s).value))) ∧
    (rd = 15#4 → sf = true →
      (s.spsr? s.cpsr.mode = none → exec i s = .refused .noSpsr) ∧
      (∀ p, s.spsr? s.cpsr.mode = some p →
        (p.restored = none → exec i s = .refused (.illegalMode p.m)) ∧
        (∀ c, p.restored = some c →
          ((c.t = true ∨ (r s).value &&& 3#32 = 0#32) → exec i s = .next { s with cpsr := c, pc := (r s).value }) ∧
          (c.t = false → (r s).value &&& 3#32 ≠ 0#32 → exec i s = .refused (.pcMisaligned (r s).value)))))

/-- The result of a rule for a first operand register and a shifter operand. -/
def DpRule.at (rule : DpRule) (rn : Reg) (so : ShiftOp) (s : State) : DpResult :=
  rule (s.reg rn) (shifter so s).1 (shifter so s).2 s.cpsr

/-- A mnemonic with a destination and a first operand follows a rule in its three forms; the shift by register needs
registers below R15 (R145). -/
def DpFollows (rule : DpRule) (imm : Cond → Bool → Reg → Reg → BitVec 4 → BitVec 8 → Instr)
    (shiftImm : Cond → Bool → Reg → Reg → Reg → ShiftImm → Instr)
    (shiftReg : Cond → Bool → Reg → Reg → Reg → ShiftKind → Reg → Instr) : Prop :=
  ∀ (c : Cond) (sf : Bool) (rd rn : Reg),
    (∀ rot v, DpWrites (imm c sf rd rn rot v) sf rd (DpRule.at rule rn (.imm rot v))) ∧
    (∀ rm sh, DpWrites (shiftImm c sf rd rn rm sh) sf rd (DpRule.at rule rn (.shiftImm rm sh))) ∧
    (∀ rm k rs, rd ≠ 15#4 → rn ≠ 15#4 → rm ≠ 15#4 → rs ≠ 15#4 →
      DpWrites (shiftReg c sf rd rn rm k rs) sf rd (DpRule.at rule rn (.shiftReg rm k rs)))

/-- The same for `mov` and `mvn`, which have no first operand. -/
def MoveFollows (rule : DpRule) (imm : Cond → Bool → Reg → BitVec 4 → BitVec 8 → Instr)
    (shiftImm : Cond → Bool → Reg → Reg → ShiftImm → Instr)
    (shiftReg : Cond → Bool → Reg → Reg → ShiftKind → Reg → Instr) : Prop :=
  ∀ (c : Cond) (sf : Bool) (rd : Reg),
    (∀ rot v, DpWrites (imm c sf rd rot v) sf rd (DpRule.at rule 0#4 (.imm rot v))) ∧
    (∀ rm sh, DpWrites (shiftImm c sf rd rm sh) sf rd (DpRule.at rule 0#4 (.shiftImm rm sh))) ∧
    (∀ rm k rs, rd ≠ 15#4 → rm ≠ 15#4 → rs ≠ 15#4 →
      DpWrites (shiftReg c sf rd rm k rs) sf rd (DpRule.at rule 0#4 (.shiftReg rm k rs)))

/-- A compare writes the flags of its result and nothing else (R170). -/
def DpCompares (i : Instr) (r : State → DpResult) : Prop :=
  ∀ s : State, s.runs (condOf i) → exec i s = .next (State.onward { s with cpsr := s.cpsr.ofResult (r s) })

/-- A compare mnemonic follows a rule in its three forms. -/
def CompareFollows (rule : DpRule) (imm : Cond → Reg → BitVec 4 → BitVec 8 → Instr)
    (shiftImm : Cond → Reg → Reg → ShiftImm → Instr) (shiftReg : Cond → Reg → Reg → ShiftKind → Reg → Instr) : Prop :=
  ∀ (c : Cond) (rn : Reg),
    (∀ rot v, DpCompares (imm c rn rot v) (DpRule.at rule rn (.imm rot v))) ∧
    (∀ rm sh, DpCompares (shiftImm c rn rm sh) (DpRule.at rule rn (.shiftImm rm sh))) ∧
    (∀ rm k rs, rn ≠ 15#4 → rm ≠ 15#4 → rs ≠ 15#4 →
      DpCompares (shiftReg c rn rm k rs) (DpRule.at rule rn (.shiftReg rm k rs)))

/-- Each condition passes in a state exactly when its comparison holds of two words, the unsigned ones read as natural
numbers and the signed ones as integers (R130, R230). -/
def ComparedAs (a b : Word) (p : Cpsr) : Prop :=
  (Cond.passes .eq p = true ↔ a = b) ∧ (Cond.passes .ne p = true ↔ a ≠ b) ∧
    (Cond.passes .cs p = true ↔ b.toNat ≤ a.toNat) ∧ (Cond.passes .cc p = true ↔ a.toNat < b.toNat) ∧
    (Cond.passes .hi p = true ↔ b.toNat < a.toNat) ∧ (Cond.passes .ls p = true ↔ a.toNat ≤ b.toNat) ∧
    (Cond.passes .ge p = true ↔ b.toInt ≤ a.toInt) ∧ (Cond.passes .lt p = true ↔ a.toInt < b.toInt) ∧
    (Cond.passes .gt p = true ↔ b.toInt < a.toInt) ∧ (Cond.passes .le p = true ↔ a.toInt ≤ b.toInt)

/-- After an instruction the conditions compare a register with a shifter operand, both as they were before it (R230). -/
def ComparesNumbers (i : Instr) (rn : Reg) (so : ShiftOp) : Prop :=
  ∀ s : State, s.runs (condOf i) →
    ∃ t, exec i s = .next t ∧ ComparedAs (s.reg rn) (shifter so s).1 t.cpsr

/-! ### Status registers (R27, R34, R173 to R178) -/

/-- A word shows the twelve defined bits of a PSR in their places; its bits 27..8 may be anything (R27, R33, R173). -/
def Psr.shownBy (p : Psr) (w : Word) : Prop :=
  w.getLsbD 31 = p.n ∧ w.getLsbD 30 = p.z ∧ w.getLsbD 29 = p.c ∧ w.getLsbD 28 = p.v ∧ w.getLsbD 7 = p.i ∧
    w.getLsbD 6 = p.f ∧ w.getLsbD 5 = p.t ∧ w.extractLsb' 0 5 = p.m

/-- An instruction writes a word to the selected fields of the CPSR as R175 says: `f` in every mode, `c` in the privileged
ones, where it cannot set T and can only name a mode. -/
def MsrWritesCpsr (i : Instr) (fields : PsrFields) (v : Word) (s : State) : Prop :=
  let flagged : Cpsr :=
    if fields.f then
      { s.cpsr with n := v.getLsbD 31, z := v.getLsbD 30, c := v.getLsbD 29, v := v.getLsbD 28 }
    else s.cpsr
  (fields.c = false ∨ s.cpsr.mode = .usr → exec i s = .next (State.onward { s with cpsr := flagged })) ∧
  (fields.c = true → s.cpsr.mode ≠ .usr →
    (v.getLsbD 5 = true → exec i s = .refused .msrSetsThumb) ∧
    (v.getLsbD 5 = false →
      (∀ m : Mode, m.bits = v.extractLsb' 0 5 →
        exec i s = .next (State.onward { s with
          cpsr := { flagged with i := v.getLsbD 7, f := v.getLsbD 6, mode := m } })) ∧
      ((∀ m : Mode, m.bits ≠ v.extractLsb' 0 5) → exec i s = .refused (.illegalMode (v.extractLsb' 0 5)))))

/-- An instruction writes a word to the selected fields of the current mode's SPSR as R176 says: any T and any five mode
bits; in User and System mode there is no SPSR. -/
def MsrWritesSpsr (i : Instr) (fields : PsrFields) (v : Word) (s : State) : Prop :=
  (s.spsr? s.cpsr.mode = none → exec i s = .refused .noSpsr) ∧
  (∀ p, s.spsr? s.cpsr.mode = some p →
    exec i s = .next (State.onward (s.setSpsr s.cpsr.mode
      { n := if fields.f then v.getLsbD 31 else p.n
        z := if fields.f then v.getLsbD 30 else p.z
        c := if fields.f then v.getLsbD 29 else p.c
        v := if fields.f then v.getLsbD 28 else p.v
        i := if fields.c then v.getLsbD 7 else p.i
        f := if fields.c then v.getLsbD 6 else p.f
        t := if fields.c then v.getLsbD 5 else p.t
        m := if fields.c then v.extractLsb' 0 5 else p.m })))

/-! ### Multiplies (R196 to R201) -/

/-- The state after `mul` or `mla` with a product and, with `s`, a carry that the spec leaves open (R196, R197). -/
def State.multiplied (s : State) (sf : Bool) (rd : Reg) (p : Word) (carry : Bool) : State :=
  State.onward
    (if sf then
      { s.setReg rd p with cpsr := { s.cpsr with n := p.msb, z := p == 0#32, c := carry }, draws := s.draws + 1 }
    else s.setReg rd p)

/-- The state after a long multiply with a 64-bit product and, with `s`, a carry and an overflow that the spec leaves open
(R198 to R201). -/
def State.longMultiplied (s : State) (sf : Bool) (rdLo rdHi : Reg) (p : BitVec 64) (carry overflow : Bool) : State :=
  let t := (s.setReg rdLo (p.setWidth 32)).setReg rdHi ((p >>> 32).setWidth 32)
  State.onward
    (if sf then
      { t with cpsr := { s.cpsr with n := p.msb, z := p == 0#64, c := carry, v := overflow }, draws := s.draws + 1 }
    else t)

/-- The two registers as one 64-bit number (R199). -/
def State.pair (s : State) (rdLo rdHi : Reg) : Nat :=
  (s.reg rdHi).toNat * 4294967296 + (s.reg rdLo).toNat

/-! ### Single-register transfers (R250 to R262) -/

/-- A single-register transfer: a load or a store, of how many bytes, whether the value is sign-extended, whether the access
has User privilege (R70), whether `Rd` may be R15, and its addressing mode (R146 to R153). -/
structure Transfer where
  load : Bool
  width : Nat
  signed : Bool
  user : Bool
  pcOk : Bool
  idx : Index
  u : Bool
  rn : Reg
  rd : Reg
  off : Offset
  deriving DecidableEq, Repr

/-- The 40 single-register transfers: `ldr`, `ldrb`, `ldrh`, `ldrsb`, `ldrsh`, `str`, `strb`, `strh` in four forms each and
`ldrt`, `ldrbt`, `strt`, `strbt` in two. -/
def transferOf : Instr → Option Transfer
  | .andImm _ _ _ _ _ _ => none
  | .andShiftImm _ _ _ _ _ _ => none
  | .andShiftReg _ _ _ _ _ _ _ => none
  | .eorImm _ _ _ _ _ _ => none
  | .eorShiftImm _ _ _ _ _ _ => none
  | .eorShiftReg _ _ _ _ _ _ _ => none
  | .subImm _ _ _ _ _ _ => none
  | .subShiftImm _ _ _ _ _ _ => none
  | .subShiftReg _ _ _ _ _ _ _ => none
  | .rsbImm _ _ _ _ _ _ => none
  | .rsbShiftImm _ _ _ _ _ _ => none
  | .rsbShiftReg _ _ _ _ _ _ _ => none
  | .addImm _ _ _ _ _ _ => none
  | .addShiftImm _ _ _ _ _ _ => none
  | .addShiftReg _ _ _ _ _ _ _ => none
  | .adcImm _ _ _ _ _ _ => none
  | .adcShiftImm _ _ _ _ _ _ => none
  | .adcShiftReg _ _ _ _ _ _ _ => none
  | .sbcImm _ _ _ _ _ _ => none
  | .sbcShiftImm _ _ _ _ _ _ => none
  | .sbcShiftReg _ _ _ _ _ _ _ => none
  | .rscImm _ _ _ _ _ _ => none
  | .rscShiftImm _ _ _ _ _ _ => none
  | .rscShiftReg _ _ _ _ _ _ _ => none
  | .tstImm _ _ _ _ => none
  | .tstShiftImm _ _ _ _ => none
  | .tstShiftReg _ _ _ _ _ => none
  | .teqImm _ _ _ _ => none
  | .teqShiftImm _ _ _ _ => none
  | .teqShiftReg _ _ _ _ _ => none
  | .cmpImm _ _ _ _ => none
  | .cmpShiftImm _ _ _ _ => none
  | .cmpShiftReg _ _ _ _ _ => none
  | .cmnImm _ _ _ _ => none
  | .cmnShiftImm _ _ _ _ => none
  | .cmnShiftReg _ _ _ _ _ => none
  | .orrImm _ _ _ _ _ _ => none
  | .orrShiftImm _ _ _ _ _ _ => none
  | .orrShiftReg _ _ _ _ _ _ _ => none
  | .movImm _ _ _ _ _ => none
  | .movShiftImm _ _ _ _ _ => none
  | .movShiftReg _ _ _ _ _ _ => none
  | .bicImm _ _ _ _ _ _ => none
  | .bicShiftImm _ _ _ _ _ _ => none
  | .bicShiftReg _ _ _ _ _ _ _ => none
  | .mvnImm _ _ _ _ _ => none
  | .mvnShiftImm _ _ _ _ _ => none
  | .mvnShiftReg _ _ _ _ _ _ => none
  | .mrsCpsr _ _ => none
  | .mrsSpsr _ _ => none
  | .msrCpsrReg _ _ _ => none
  | .msrSpsrReg _ _ _ => none
  | .msrCpsrImm _ _ _ _ => none
  | .msrSpsrImm _ _ _ _ => none
  | .mul _ _ _ _ _ => none
  | .mla _ _ _ _ _ _ => none
  | .umull _ _ _ _ _ _ => none
  | .umlal _ _ _ _ _ _ => none
  | .smull _ _ _ _ _ _ => none
  | .smlal _ _ _ _ _ _ => none
  | .bx _ _ => none
  | .swp _ _ _ _ => none
  | .swpb _ _ _ _ => none
  | .ldrPreImm _ u w rn rd imm => some ⟨true, 4, false, false, true, preIndex w, u, rn, rd, .imm (imm.setWidth 32)⟩
  | .ldrPostImm _ u rn rd imm => some ⟨true, 4, false, false, true, .post, u, rn, rd, .imm (imm.setWidth 32)⟩
  | .ldrPreReg _ u w rn rd rm sh => some ⟨true, 4, false, false, true, preIndex w, u, rn, rd, .reg rm sh⟩
  | .ldrPostReg _ u rn rd rm sh => some ⟨true, 4, false, false, true, .post, u, rn, rd, .reg rm sh⟩
  | .ldrbPreImm _ u w rn rd imm => some ⟨true, 1, false, false, false, preIndex w, u, rn, rd, .imm (imm.setWidth 32)⟩
  | .ldrbPostImm _ u rn rd imm => some ⟨true, 1, false, false, false, .post, u, rn, rd, .imm (imm.setWidth 32)⟩
  | .ldrbPreReg _ u w rn rd rm sh => some ⟨true, 1, false, false, false, preIndex w, u, rn, rd, .reg rm sh⟩
  | .ldrbPostReg _ u rn rd rm sh => some ⟨true, 1, false, false, false, .post, u, rn, rd, .reg rm sh⟩
  | .strPreImm _ u w rn rd imm => some ⟨false, 4, false, false, true, preIndex w, u, rn, rd, .imm (imm.setWidth 32)⟩
  | .strPostImm _ u rn rd imm => some ⟨false, 4, false, false, true, .post, u, rn, rd, .imm (imm.setWidth 32)⟩
  | .strPreReg _ u w rn rd rm sh => some ⟨false, 4, false, false, true, preIndex w, u, rn, rd, .reg rm sh⟩
  | .strPostReg _ u rn rd rm sh => some ⟨false, 4, false, false, true, .post, u, rn, rd, .reg rm sh⟩
  | .strbPreImm _ u w rn rd imm => some ⟨false, 1, false, false, false, preIndex w, u, rn, rd, .imm (imm.setWidth 32)⟩
  | .strbPostImm _ u rn rd imm => some ⟨false, 1, false, false, false, .post, u, rn, rd, .imm (imm.setWidth 32)⟩
  | .strbPreReg _ u w rn rd rm sh => some ⟨false, 1, false, false, false, preIndex w, u, rn, rd, .reg rm sh⟩
  | .strbPostReg _ u rn rd rm sh => some ⟨false, 1, false, false, false, .post, u, rn, rd, .reg rm sh⟩
  | .ldrtImm _ u rn rd imm => some ⟨true, 4, false, true, false, .post, u, rn, rd, .imm (imm.setWidth 32)⟩
  | .ldrtReg _ u rn rd rm sh => some ⟨true, 4, false, true, false, .post, u, rn, rd, .reg rm sh⟩
  | .ldrbtImm _ u rn rd imm => some ⟨true, 1, false, true, false, .post, u, rn, rd, .imm (imm.setWidth 32)⟩
  | .ldrbtReg _ u rn rd rm sh => some ⟨true, 1, false, true, false, .post, u, rn, rd, .reg rm sh⟩
  | .strtImm _ u rn rd imm => some ⟨false, 4, false, true, false, .post, u, rn, rd, .imm (imm.setWidth 32)⟩
  | .strtReg _ u rn rd rm sh => some ⟨false, 4, false, true, false, .post, u, rn, rd, .reg rm sh⟩
  | .strbtImm _ u rn rd imm => some ⟨false, 1, false, true, false, .post, u, rn, rd, .imm (imm.setWidth 32)⟩
  | .strbtReg _ u rn rd rm sh => some ⟨false, 1, false, true, false, .post, u, rn, rd, .reg rm sh⟩
  | .ldrhPreImm _ u w rn rd imm => some ⟨true, 2, false, false, false, preIndex w, u, rn, rd, .imm (imm.setWidth 32)⟩
  | .ldrhPostImm _ u rn rd imm => some ⟨true, 2, false, false, false, .post, u, rn, rd, .imm (imm.setWidth 32)⟩
  | .ldrhPreReg _ u w rn rd rm => some ⟨true, 2, false, false, false, preIndex w, u, rn, rd, .reg rm (.lsl 0)⟩
  | .ldrhPostReg _ u rn rd rm => some ⟨true, 2, false, false, false, .post, u, rn, rd, .reg rm (.lsl 0)⟩
  | .ldrsbPreImm _ u w rn rd imm => some ⟨true, 1, true, false, false, preIndex w, u, rn, rd, .imm (imm.setWidth 32)⟩
  | .ldrsbPostImm _ u rn rd imm => some ⟨true, 1, true, false, false, .post, u, rn, rd, .imm (imm.setWidth 32)⟩
  | .ldrsbPreReg _ u w rn rd rm => some ⟨true, 1, true, false, false, preIndex w, u, rn, rd, .reg rm (.lsl 0)⟩
  | .ldrsbPostReg _ u rn rd rm => some ⟨true, 1, true, false, false, .post, u, rn, rd, .reg rm (.lsl 0)⟩
  | .ldrshPreImm _ u w rn rd imm => some ⟨true, 2, true, false, false, preIndex w, u, rn, rd, .imm (imm.setWidth 32)⟩
  | .ldrshPostImm _ u rn rd imm => some ⟨true, 2, true, false, false, .post, u, rn, rd, .imm (imm.setWidth 32)⟩
  | .ldrshPreReg _ u w rn rd rm => some ⟨true, 2, true, false, false, preIndex w, u, rn, rd, .reg rm (.lsl 0)⟩
  | .ldrshPostReg _ u rn rd rm => some ⟨true, 2, true, false, false, .post, u, rn, rd, .reg rm (.lsl 0)⟩
  | .strhPreImm _ u w rn rd imm => some ⟨false, 2, false, false, false, preIndex w, u, rn, rd, .imm (imm.setWidth 32)⟩
  | .strhPostImm _ u rn rd imm => some ⟨false, 2, false, false, false, .post, u, rn, rd, .imm (imm.setWidth 32)⟩
  | .strhPreReg _ u w rn rd rm => some ⟨false, 2, false, false, false, preIndex w, u, rn, rd, .reg rm (.lsl 0)⟩
  | .strhPostReg _ u rn rd rm => some ⟨false, 2, false, false, false, .post, u, rn, rd, .reg rm (.lsl 0)⟩
  | .ldm _ _ _ _ _ => none
  | .ldmUser _ _ _ _ _ => none
  | .ldmReturn _ _ _ _ _ => none
  | .stm _ _ _ _ _ => none
  | .stmUser _ _ _ _ _ => none
  | .b _ _ => none
  | .bl _ _ => none
  | .swi _ _ => none
  | .nop _ => none
  | .ldrLabel _ _ _ _ => none
  | .ldrConst _ _ _ _ _ => none
  | .adr _ _ _ _ _ => none
  | .adrl _ _ _ _ _ _ _ => none

/-- The address a transfer accesses (R147 to R149, R153). -/
def Transfer.address (f : Transfer) (s : State) : Word :=
  transferAddress f.idx f.u f.rn f.off s

/-- The privilege of its access (R64, R70). -/
def Transfer.privilege (f : Transfer) (s : State) : Privilege :=
  if f.user then .user else s.privilege

/-- The state after its base write (R148, R149). -/
def Transfer.based (f : Transfer) (s : State) : State :=
  s.writeBase f.idx f.u f.rn f.off

/-- R150 (b) to (e) do not forbid it: with a written base neither the base nor the offset register is R15, and neither the
offset register nor `Rd` is the base; without, the offset register is not R15. -/
def Transfer.allowed (f : Transfer) : Prop :=
  (∀ rm sh, f.off = .reg rm sh → rm ≠ 15#4 ∧ (Index.writesBase f.idx = true → rm ≠ f.rn)) ∧
    (Index.writesBase f.idx = true → f.rn ≠ 15#4 ∧ f.rd ≠ f.rn)

/-- The value a load gives `Rd`: the bytes at the address, extended to a word (R251 to R257). -/
def Transfer.loaded (f : Transfer) (m : Memory) (a : Nat) : Word :=
  if f.width = 4 then m.word a
  else if f.width = 2 then (if f.signed then (m.half a).signExtend 32 else (m.half a).setWidth 32)
  else if f.signed then (m.byte a).signExtend 32 else (m.byte a).setWidth 32

/-! ### Exceptions (R322) -/

/-- What the entry sequence does for every exception, Reset among them (R322, R323): the CPSR and the PC are written, and
nothing but the new mode's R14 and SPSR besides. -/
def EnteredMode (e : Exc) (s t : State) : Prop :=
  t.cpsr = { s.cpsr with mode := e.mode, t := false, i := true, f := s.cpsr.f || e.setsF } ∧ t.pc = e.vector ∧
    (∀ p : PhysReg, p ≠ e.mode.r14 → t.gpr p = s.gpr p) ∧ (∀ m : Mode, m ≠ e.mode → t.spsr? m = s.spsr? m) ∧
    t.mem = s.mem ∧ t.written = s.written ∧ t.afterUserLdm = s.afterUserLdm ∧ t.requests = s.requests ∧
    t.draws = s.draws ∧ t.platform = s.platform

/-- `t` is `s` after the entry sequence of an exception with a link value (R322): the new mode's R14 holds the link and its
SPSR the old CPSR, the CPSR and the PC are written, and nothing else is. -/
def Entered (e : Exc) (link : Word) (s t : State) : Prop :=
  t.gpr e.mode.r14 = link ∧ t.spsr? e.mode = some s.cpsr.saved ∧ EnteredMode e s t

/-- This step looks at the instruction at the PC: ARM state and no enabled request (R321). -/
def State.fetches (s : State) : Prop :=
  s.cpsr.t = false ∧ (s.request.fiq = true → s.cpsr.f = true) ∧ (s.request.irq = true → s.cpsr.i = true)

/-- The fetch at the PC goes through (R67). -/
def State.fetchGranted (s : State) : Prop :=
  Platform.abortsAccess s.platform s.pc.toNat 4 .fetch s.privilege = false ∧
    Platform.maps s.platform s.pc.toNat 4 = true ∧ Written.touches s.written s.pc.toNat 4 = false

/-- What the bytes at the PC decode to (R62, R67, R93). -/
def State.decoded (s : State) : Decoded :=
  decodeBytes (Memory.fourBytes s.mem s.pc.toNat)

/-- The state in which the step executes the instruction: the sample is taken and the mark of a User-bank `ldm` is gone. -/
def State.entering (s : State) : State :=
  { s with requests := s.requests.tail, afterUserLdm := false }

/-! ### Block transfers (R161, R280) -/

/-- The address of the `k`-th word of a block (R161). -/
def blockAddress (am : BlockMode) (rn : Reg) (list : BitVec 16) (s : State) (k : Nat) : Word :=
  blockFirst am (s.reg rn) (regsOf list).length + BitVec.ofNat 32 (4 * k)

/-- The `k`-th register of a list in increasing number (R161). -/
def listed (list : BitVec 16) (k : Nat) (r : Reg) : Prop :=
  (regsOf list)[k]? = some r

/-- What R162 (a), (b) and R77 ask of every block transfer. -/
def blockAllowed (am : BlockMode) (rn : Reg) (list : BitVec 16) (s : State) : Prop :=
  list ≠ 0#16 ∧ rn ≠ 15#4 ∧
    (blockFirst am (s.reg rn) (regsOf list).length).toNat + 4 * (regsOf list).length ≤ 4294967296

/-- Every word of the block can be accessed (R64, R65). -/
def blockGranted (am : BlockMode) (rn : Reg) (list : BitVec 16) (s : State) (k : AccessKind) : Prop :=
  ∀ j : Nat, j < (regsOf list).length → s.grants (blockAddress am rn list s j) 4 k s.privilege

/-- The accesses before the `j`-th go through and the `j`-th aborts (R287). -/
def blockAbortsAt (am : BlockMode) (rn : Reg) (list : BitVec 16) (s : State) (k : AccessKind) (j : Nat) : Prop :=
  j < (regsOf list).length ∧
    (∀ i : Nat, i < j → s.grants (blockAddress am rn list s i) 4 k s.privilege) ∧
    Platform.abortsAccess s.platform (blockAddress am rn list s j).toNat 4 k s.privilege = true

/-- The accesses before the `j`-th go through and the `j`-th, which does not abort, reaches a byte outside `Mapped` (R68,
R280). -/
def blockUnmappedAt (am : BlockMode) (rn : Reg) (list : BitVec 16) (s : State) (k : AccessKind) (j : Nat) : Prop :=
  j < (regsOf list).length ∧
    (∀ i : Nat, i < j → s.grants (blockAddress am rn list s i) 4 k s.privilege) ∧
    Platform.abortsAccess s.platform (blockAddress am rn list s j).toNat 4 k s.privilege = false ∧
    Platform.maps s.platform (blockAddress am rn list s j).toNat 4 = false

/-- The address is that of a byte of the block (R161). -/
def inBlock (am : BlockMode) (rn : Reg) (list : BitVec 16) (s : State) (x : Nat) : Prop :=
  ∃ k : Nat, k < (regsOf list).length ∧ (blockAddress am rn list s k).toNat ≤ x ∧
    x < (blockAddress am rn list s k).toNat + 4

/-- Memory outside the block addressed in `s` is the same in `t`, and the bytes stored to are those of before and those of
the block (R65, R75). -/
def StoredInBlock (am : BlockMode) (rn : Reg) (list : BitVec 16) (s t : State) : Prop :=
  ∀ x : Nat, (¬inBlock am rn list s x → t.byteAt x = s.byteAt x) ∧
    (x ∈ t.written ↔ inBlock am rn list s x ∨ x ∈ s.written)

/-! ### What an instruction may change -/

/-- The register numbers an instruction may write in the current mode's bank: its destinations and its written base. -/
def writesOf : Instr → List Reg
  | .andImm _ _ rd _ _ _ => [rd]
  | .andShiftImm _ _ rd _ _ _ => [rd]
  | .andShiftReg _ _ rd _ _ _ _ => [rd]
  | .eorImm _ _ rd _ _ _ => [rd]
  | .eorShiftImm _ _ rd _ _ _ => [rd]
  | .eorShiftReg _ _ rd _ _ _ _ => [rd]
  | .subImm _ _ rd _ _ _ => [rd]
  | .subShiftImm _ _ rd _ _ _ => [rd]
  | .subShiftReg _ _ rd _ _ _ _ => [rd]
  | .rsbImm _ _ rd _ _ _ => [rd]
  | .rsbShiftImm _ _ rd _ _ _ => [rd]
  | .rsbShiftReg _ _ rd _ _ _ _ => [rd]
  | .addImm _ _ rd _ _ _ => [rd]
  | .addShiftImm _ _ rd _ _ _ => [rd]
  | .addShiftReg _ _ rd _ _ _ _ => [rd]
  | .adcImm _ _ rd _ _ _ => [rd]
  | .adcShiftImm _ _ rd _ _ _ => [rd]
  | .adcShiftReg _ _ rd _ _ _ _ => [rd]
  | .sbcImm _ _ rd _ _ _ => [rd]
  | .sbcShiftImm _ _ rd _ _ _ => [rd]
  | .sbcShiftReg _ _ rd _ _ _ _ => [rd]
  | .rscImm _ _ rd _ _ _ => [rd]
  | .rscShiftImm _ _ rd _ _ _ => [rd]
  | .rscShiftReg _ _ rd _ _ _ _ => [rd]
  | .tstImm _ _ _ _ => []
  | .tstShiftImm _ _ _ _ => []
  | .tstShiftReg _ _ _ _ _ => []
  | .teqImm _ _ _ _ => []
  | .teqShiftImm _ _ _ _ => []
  | .teqShiftReg _ _ _ _ _ => []
  | .cmpImm _ _ _ _ => []
  | .cmpShiftImm _ _ _ _ => []
  | .cmpShiftReg _ _ _ _ _ => []
  | .cmnImm _ _ _ _ => []
  | .cmnShiftImm _ _ _ _ => []
  | .cmnShiftReg _ _ _ _ _ => []
  | .orrImm _ _ rd _ _ _ => [rd]
  | .orrShiftImm _ _ rd _ _ _ => [rd]
  | .orrShiftReg _ _ rd _ _ _ _ => [rd]
  | .movImm _ _ rd _ _ => [rd]
  | .movShiftImm _ _ rd _ _ => [rd]
  | .movShiftReg _ _ rd _ _ _ => [rd]
  | .bicImm _ _ rd _ _ _ => [rd]
  | .bicShiftImm _ _ rd _ _ _ => [rd]
  | .bicShiftReg _ _ rd _ _ _ _ => [rd]
  | .mvnImm _ _ rd _ _ => [rd]
  | .mvnShiftImm _ _ rd _ _ => [rd]
  | .mvnShiftReg _ _ rd _ _ _ => [rd]
  | .mrsCpsr _ rd => [rd]
  | .mrsSpsr _ rd => [rd]
  | .msrCpsrReg _ _ _ => []
  | .msrSpsrReg _ _ _ => []
  | .msrCpsrImm _ _ _ _ => []
  | .msrSpsrImm _ _ _ _ => []
  | .mul _ _ rd _ _ => [rd]
  | .mla _ _ rd _ _ _ => [rd]
  | .umull _ _ rdLo rdHi _ _ => [rdLo, rdHi]
  | .umlal _ _ rdLo rdHi _ _ => [rdLo, rdHi]
  | .smull _ _ rdLo rdHi _ _ => [rdLo, rdHi]
  | .smlal _ _ rdLo rdHi _ _ => [rdLo, rdHi]
  | .bx _ _ => []
  | .swp _ rd _ _ => [rd]
  | .swpb _ rd _ _ => [rd]
  | .ldrPreImm _ _ w rn rd _ => rd :: (if w then [rn] else [])
  | .ldrPostImm _ _ rn rd _ => rd :: [rn]
  | .ldrPreReg _ _ w rn rd _ _ => rd :: (if w then [rn] else [])
  | .ldrPostReg _ _ rn rd _ _ => rd :: [rn]
  | .ldrbPreImm _ _ w rn rd _ => rd :: (if w then [rn] else [])
  | .ldrbPostImm _ _ rn rd _ => rd :: [rn]
  | .ldrbPreReg _ _ w rn rd _ _ => rd :: (if w then [rn] else [])
  | .ldrbPostReg _ _ rn rd _ _ => rd :: [rn]
  | .strPreImm _ _ w rn _ _ => if w then [rn] else []
  | .strPostImm _ _ rn _ _ => [rn]
  | .strPreReg _ _ w rn _ _ _ => if w then [rn] else []
  | .strPostReg _ _ rn _ _ _ => [rn]
  | .strbPreImm _ _ w rn _ _ => if w then [rn] else []
  | .strbPostImm _ _ rn _ _ => [rn]
  | .strbPreReg _ _ w rn _ _ _ => if w then [rn] else []
  | .strbPostReg _ _ rn _ _ _ => [rn]
  | .ldrtImm _ _ rn rd _ => rd :: [rn]
  | .ldrtReg _ _ rn rd _ _ => rd :: [rn]
  | .ldrbtImm _ _ rn rd _ => rd :: [rn]
  | .ldrbtReg _ _ rn rd _ _ => rd :: [rn]
  | .strtImm _ _ rn _ _ => [rn]
  | .strtReg _ _ rn _ _ _ => [rn]
  | .strbtImm _ _ rn _ _ => [rn]
  | .strbtReg _ _ rn _ _ _ => [rn]
  | .ldrhPreImm _ _ w rn rd _ => rd :: (if w then [rn] else [])
  | .ldrhPostImm _ _ rn rd _ => rd :: [rn]
  | .ldrhPreReg _ _ w rn rd _ => rd :: (if w then [rn] else [])
  | .ldrhPostReg _ _ rn rd _ => rd :: [rn]
  | .ldrsbPreImm _ _ w rn rd _ => rd :: (if w then [rn] else [])
  | .ldrsbPostImm _ _ rn rd _ => rd :: [rn]
  | .ldrsbPreReg _ _ w rn rd _ => rd :: (if w then [rn] else [])
  | .ldrsbPostReg _ _ rn rd _ => rd :: [rn]
  | .ldrshPreImm _ _ w rn rd _ => rd :: (if w then [rn] else [])
  | .ldrshPostImm _ _ rn rd _ => rd :: [rn]
  | .ldrshPreReg _ _ w rn rd _ => rd :: (if w then [rn] else [])
  | .ldrshPostReg _ _ rn rd _ => rd :: [rn]
  | .strhPreImm _ _ w rn _ _ => if w then [rn] else []
  | .strhPostImm _ _ rn _ _ => [rn]
  | .strhPreReg _ _ w rn _ _ => if w then [rn] else []
  | .strhPostReg _ _ rn _ _ => [rn]
  | .ldm _ _ w rn list => regsOf list ++ (if w then [rn] else [])
  | .ldmUser _ _ _ _ _ => []
  | .ldmReturn _ _ w rn list => regsOf list ++ (if w then [rn] else [])
  | .stm _ _ w rn _ => if w then [rn] else []
  | .stmUser _ _ _ _ _ => []
  | .b _ _ => []
  | .bl _ _ => [14#4]
  | .swi _ _ => []
  | .nop _ => [0#4]
  | .ldrLabel _ _ rd _ => [rd]
  | .ldrConst _ rd _ _ _ => [rd]
  | .adr _ _ rd _ _ => [rd]
  | .adrl _ _ rd _ _ _ _ => [rd]

/-- It makes a data access, so that it may end in a Data abort (R327). -/
def accessesData : Instr → Bool
  | .andImm _ _ _ _ _ _ => false
  | .andShiftImm _ _ _ _ _ _ => false
  | .andShiftReg _ _ _ _ _ _ _ => false
  | .eorImm _ _ _ _ _ _ => false
  | .eorShiftImm _ _ _ _ _ _ => false
  | .eorShiftReg _ _ _ _ _ _ _ => false
  | .subImm _ _ _ _ _ _ => false
  | .subShiftImm _ _ _ _ _ _ => false
  | .subShiftReg _ _ _ _ _ _ _ => false
  | .rsbImm _ _ _ _ _ _ => false
  | .rsbShiftImm _ _ _ _ _ _ => false
  | .rsbShiftReg _ _ _ _ _ _ _ => false
  | .addImm _ _ _ _ _ _ => false
  | .addShiftImm _ _ _ _ _ _ => false
  | .addShiftReg _ _ _ _ _ _ _ => false
  | .adcImm _ _ _ _ _ _ => false
  | .adcShiftImm _ _ _ _ _ _ => false
  | .adcShiftReg _ _ _ _ _ _ _ => false
  | .sbcImm _ _ _ _ _ _ => false
  | .sbcShiftImm _ _ _ _ _ _ => false
  | .sbcShiftReg _ _ _ _ _ _ _ => false
  | .rscImm _ _ _ _ _ _ => false
  | .rscShiftImm _ _ _ _ _ _ => false
  | .rscShiftReg _ _ _ _ _ _ _ => false
  | .tstImm _ _ _ _ => false
  | .tstShiftImm _ _ _ _ => false
  | .tstShiftReg _ _ _ _ _ => false
  | .teqImm _ _ _ _ => false
  | .teqShiftImm _ _ _ _ => false
  | .teqShiftReg _ _ _ _ _ => false
  | .cmpImm _ _ _ _ => false
  | .cmpShiftImm _ _ _ _ => false
  | .cmpShiftReg _ _ _ _ _ => false
  | .cmnImm _ _ _ _ => false
  | .cmnShiftImm _ _ _ _ => false
  | .cmnShiftReg _ _ _ _ _ => false
  | .orrImm _ _ _ _ _ _ => false
  | .orrShiftImm _ _ _ _ _ _ => false
  | .orrShiftReg _ _ _ _ _ _ _ => false
  | .movImm _ _ _ _ _ => false
  | .movShiftImm _ _ _ _ _ => false
  | .movShiftReg _ _ _ _ _ _ => false
  | .bicImm _ _ _ _ _ _ => false
  | .bicShiftImm _ _ _ _ _ _ => false
  | .bicShiftReg _ _ _ _ _ _ _ => false
  | .mvnImm _ _ _ _ _ => false
  | .mvnShiftImm _ _ _ _ _ => false
  | .mvnShiftReg _ _ _ _ _ _ => false
  | .mrsCpsr _ _ => false
  | .mrsSpsr _ _ => false
  | .msrCpsrReg _ _ _ => false
  | .msrSpsrReg _ _ _ => false
  | .msrCpsrImm _ _ _ _ => false
  | .msrSpsrImm _ _ _ _ => false
  | .mul _ _ _ _ _ => false
  | .mla _ _ _ _ _ _ => false
  | .umull _ _ _ _ _ _ => false
  | .umlal _ _ _ _ _ _ => false
  | .smull _ _ _ _ _ _ => false
  | .smlal _ _ _ _ _ _ => false
  | .bx _ _ => false
  | .swp _ _ _ _ => true
  | .swpb _ _ _ _ => true
  | .ldrPreImm _ _ _ _ _ _ => true
  | .ldrPostImm _ _ _ _ _ => true
  | .ldrPreReg _ _ _ _ _ _ _ => true
  | .ldrPostReg _ _ _ _ _ _ => true
  | .ldrbPreImm _ _ _ _ _ _ => true
  | .ldrbPostImm _ _ _ _ _ => true
  | .ldrbPreReg _ _ _ _ _ _ _ => true
  | .ldrbPostReg _ _ _ _ _ _ => true
  | .strPreImm _ _ _ _ _ _ => true
  | .strPostImm _ _ _ _ _ => true
  | .strPreReg _ _ _ _ _ _ _ => true
  | .strPostReg _ _ _ _ _ _ => true
  | .strbPreImm _ _ _ _ _ _ => true
  | .strbPostImm _ _ _ _ _ => true
  | .strbPreReg _ _ _ _ _ _ _ => true
  | .strbPostReg _ _ _ _ _ _ => true
  | .ldrtImm _ _ _ _ _ => true
  | .ldrtReg _ _ _ _ _ _ => true
  | .ldrbtImm _ _ _ _ _ => true
  | .ldrbtReg _ _ _ _ _ _ => true
  | .strtImm _ _ _ _ _ => true
  | .strtReg _ _ _ _ _ _ => true
  | .strbtImm _ _ _ _ _ => true
  | .strbtReg _ _ _ _ _ _ => true
  | .ldrhPreImm _ _ _ _ _ _ => true
  | .ldrhPostImm _ _ _ _ _ => true
  | .ldrhPreReg _ _ _ _ _ _ => true
  | .ldrhPostReg _ _ _ _ _ => true
  | .ldrsbPreImm _ _ _ _ _ _ => true
  | .ldrsbPostImm _ _ _ _ _ => true
  | .ldrsbPreReg _ _ _ _ _ _ => true
  | .ldrsbPostReg _ _ _ _ _ => true
  | .ldrshPreImm _ _ _ _ _ _ => true
  | .ldrshPostImm _ _ _ _ _ => true
  | .ldrshPreReg _ _ _ _ _ _ => true
  | .ldrshPostReg _ _ _ _ _ => true
  | .strhPreImm _ _ _ _ _ _ => true
  | .strhPostImm _ _ _ _ _ => true
  | .strhPreReg _ _ _ _ _ _ => true
  | .strhPostReg _ _ _ _ _ => true
  | .ldm _ _ _ _ _ => true
  | .ldmUser _ _ _ _ _ => true
  | .ldmReturn _ _ _ _ _ => true
  | .stm _ _ _ _ _ => true
  | .stmUser _ _ _ _ _ => true
  | .b _ _ => false
  | .bl _ _ => false
  | .swi _ _ => false
  | .nop _ => false
  | .ldrLabel _ _ _ _ => true
  | .ldrConst _ _ _ _ _ => true
  | .adr _ _ _ _ _ => false
  | .adrl _ _ _ _ _ _ _ => false

/-- The addresses an instruction stores to in a state, each with its width in bytes. -/
def storesOf (i : Instr) (s : State) : List (Word × Nat) :=
  match i with
  | .andImm _ _ _ _ _ _ => []
  | .andShiftImm _ _ _ _ _ _ => []
  | .andShiftReg _ _ _ _ _ _ _ => []
  | .eorImm _ _ _ _ _ _ => []
  | .eorShiftImm _ _ _ _ _ _ => []
  | .eorShiftReg _ _ _ _ _ _ _ => []
  | .subImm _ _ _ _ _ _ => []
  | .subShiftImm _ _ _ _ _ _ => []
  | .subShiftReg _ _ _ _ _ _ _ => []
  | .rsbImm _ _ _ _ _ _ => []
  | .rsbShiftImm _ _ _ _ _ _ => []
  | .rsbShiftReg _ _ _ _ _ _ _ => []
  | .addImm _ _ _ _ _ _ => []
  | .addShiftImm _ _ _ _ _ _ => []
  | .addShiftReg _ _ _ _ _ _ _ => []
  | .adcImm _ _ _ _ _ _ => []
  | .adcShiftImm _ _ _ _ _ _ => []
  | .adcShiftReg _ _ _ _ _ _ _ => []
  | .sbcImm _ _ _ _ _ _ => []
  | .sbcShiftImm _ _ _ _ _ _ => []
  | .sbcShiftReg _ _ _ _ _ _ _ => []
  | .rscImm _ _ _ _ _ _ => []
  | .rscShiftImm _ _ _ _ _ _ => []
  | .rscShiftReg _ _ _ _ _ _ _ => []
  | .tstImm _ _ _ _ => []
  | .tstShiftImm _ _ _ _ => []
  | .tstShiftReg _ _ _ _ _ => []
  | .teqImm _ _ _ _ => []
  | .teqShiftImm _ _ _ _ => []
  | .teqShiftReg _ _ _ _ _ => []
  | .cmpImm _ _ _ _ => []
  | .cmpShiftImm _ _ _ _ => []
  | .cmpShiftReg _ _ _ _ _ => []
  | .cmnImm _ _ _ _ => []
  | .cmnShiftImm _ _ _ _ => []
  | .cmnShiftReg _ _ _ _ _ => []
  | .orrImm _ _ _ _ _ _ => []
  | .orrShiftImm _ _ _ _ _ _ => []
  | .orrShiftReg _ _ _ _ _ _ _ => []
  | .movImm _ _ _ _ _ => []
  | .movShiftImm _ _ _ _ _ => []
  | .movShiftReg _ _ _ _ _ _ => []
  | .bicImm _ _ _ _ _ _ => []
  | .bicShiftImm _ _ _ _ _ _ => []
  | .bicShiftReg _ _ _ _ _ _ _ => []
  | .mvnImm _ _ _ _ _ => []
  | .mvnShiftImm _ _ _ _ _ => []
  | .mvnShiftReg _ _ _ _ _ _ => []
  | .mrsCpsr _ _ => []
  | .mrsSpsr _ _ => []
  | .msrCpsrReg _ _ _ => []
  | .msrSpsrReg _ _ _ => []
  | .msrCpsrImm _ _ _ _ => []
  | .msrSpsrImm _ _ _ _ => []
  | .mul _ _ _ _ _ => []
  | .mla _ _ _ _ _ _ => []
  | .umull _ _ _ _ _ _ => []
  | .umlal _ _ _ _ _ _ => []
  | .smull _ _ _ _ _ _ => []
  | .smlal _ _ _ _ _ _ => []
  | .bx _ _ => []
  | .swp _ _ _ rn => [(s.reg rn, 4)]
  | .swpb _ _ _ rn => [(s.reg rn, 1)]
  | .ldrPreImm _ _ _ _ _ _ => []
  | .ldrPostImm _ _ _ _ _ => []
  | .ldrPreReg _ _ _ _ _ _ _ => []
  | .ldrPostReg _ _ _ _ _ _ => []
  | .ldrbPreImm _ _ _ _ _ _ => []
  | .ldrbPostImm _ _ _ _ _ => []
  | .ldrbPreReg _ _ _ _ _ _ _ => []
  | .ldrbPostReg _ _ _ _ _ _ => []
  | .strPreImm _ u w rn _ imm => [(transferAddress (preIndex w) u rn (.imm (imm.setWidth 32)) s, 4)]
  | .strPostImm _ u rn _ imm => [(transferAddress .post u rn (.imm (imm.setWidth 32)) s, 4)]
  | .strPreReg _ u w rn _ rm sh => [(transferAddress (preIndex w) u rn (.reg rm sh) s, 4)]
  | .strPostReg _ u rn _ rm sh => [(transferAddress .post u rn (.reg rm sh) s, 4)]
  | .strbPreImm _ u w rn _ imm => [(transferAddress (preIndex w) u rn (.imm (imm.setWidth 32)) s, 1)]
  | .strbPostImm _ u rn _ imm => [(transferAddress .post u rn (.imm (imm.setWidth 32)) s, 1)]
  | .strbPreReg _ u w rn _ rm sh => [(transferAddress (preIndex w) u rn (.reg rm sh) s, 1)]
  | .strbPostReg _ u rn _ rm sh => [(transferAddress .post u rn (.reg rm sh) s, 1)]
  | .ldrtImm _ _ _ _ _ => []
  | .ldrtReg _ _ _ _ _ _ => []
  | .ldrbtImm _ _ _ _ _ => []
  | .ldrbtReg _ _ _ _ _ _ => []
  | .strtImm _ u rn _ imm => [(transferAddress .post u rn (.imm (imm.setWidth 32)) s, 4)]
  | .strtReg _ u rn _ rm sh => [(transferAddress .post u rn (.reg rm sh) s, 4)]
  | .strbtImm _ u rn _ imm => [(transferAddress .post u rn (.imm (imm.setWidth 32)) s, 1)]
  | .strbtReg _ u rn _ rm sh => [(transferAddress .post u rn (.reg rm sh) s, 1)]
  | .ldrhPreImm _ _ _ _ _ _ => []
  | .ldrhPostImm _ _ _ _ _ => []
  | .ldrhPreReg _ _ _ _ _ _ => []
  | .ldrhPostReg _ _ _ _ _ => []
  | .ldrsbPreImm _ _ _ _ _ _ => []
  | .ldrsbPostImm _ _ _ _ _ => []
  | .ldrsbPreReg _ _ _ _ _ _ => []
  | .ldrsbPostReg _ _ _ _ _ => []
  | .ldrshPreImm _ _ _ _ _ _ => []
  | .ldrshPostImm _ _ _ _ _ => []
  | .ldrshPreReg _ _ _ _ _ _ => []
  | .ldrshPostReg _ _ _ _ _ => []
  | .strhPreImm _ u w rn _ imm => [(transferAddress (preIndex w) u rn (.imm (imm.setWidth 32)) s, 2)]
  | .strhPostImm _ u rn _ imm => [(transferAddress .post u rn (.imm (imm.setWidth 32)) s, 2)]
  | .strhPreReg _ u w rn _ rm => [(transferAddress (preIndex w) u rn (.reg rm (.lsl 0)) s, 2)]
  | .strhPostReg _ u rn _ rm => [(transferAddress .post u rn (.reg rm (.lsl 0)) s, 2)]
  | .ldm _ _ _ _ _ => []
  | .ldmUser _ _ _ _ _ => []
  | .ldmReturn _ _ _ _ _ => []
  | .stm _ am _ rn list => (blockAddresses am rn list s).map fun a => (a, 4)
  | .stmUser _ am _ rn list => (blockAddresses am rn list s).map fun a => (a, 4)
  | .b _ _ => []
  | .bl _ _ => []
  | .swi _ _ => []
  | .nop _ => []
  | .ldrLabel _ _ _ _ => []
  | .ldrConst _ _ _ _ _ => []
  | .adr _ _ _ _ _ => []
  | .adrl _ _ _ _ _ _ _ => []

/-- It may write N, Z and C (R28). -/
def writesFlags : Instr → Bool
  | .andImm _ sf _ _ _ _ => sf
  | .andShiftImm _ sf _ _ _ _ => sf
  | .andShiftReg _ sf _ _ _ _ _ => sf
  | .eorImm _ sf _ _ _ _ => sf
  | .eorShiftImm _ sf _ _ _ _ => sf
  | .eorShiftReg _ sf _ _ _ _ _ => sf
  | .subImm _ sf _ _ _ _ => sf
  | .subShiftImm _ sf _ _ _ _ => sf
  | .subShiftReg _ sf _ _ _ _ _ => sf
  | .rsbImm _ sf _ _ _ _ => sf
  | .rsbShiftImm _ sf _ _ _ _ => sf
  | .rsbShiftReg _ sf _ _ _ _ _ => sf
  | .addImm _ sf _ _ _ _ => sf
  | .addShiftImm _ sf _ _ _ _ => sf
  | .addShiftReg _ sf _ _ _ _ _ => sf
  | .adcImm _ sf _ _ _ _ => sf
  | .adcShiftImm _ sf _ _ _ _ => sf
  | .adcShiftReg _ sf _ _ _ _ _ => sf
  | .sbcImm _ sf _ _ _ _ => sf
  | .sbcShiftImm _ sf _ _ _ _ => sf
  | .sbcShiftReg _ sf _ _ _ _ _ => sf
  | .rscImm _ sf _ _ _ _ => sf
  | .rscShiftImm _ sf _ _ _ _ => sf
  | .rscShiftReg _ sf _ _ _ _ _ => sf
  | .tstImm _ _ _ _ => true
  | .tstShiftImm _ _ _ _ => true
  | .tstShiftReg _ _ _ _ _ => true
  | .teqImm _ _ _ _ => true
  | .teqShiftImm _ _ _ _ => true
  | .teqShiftReg _ _ _ _ _ => true
  | .cmpImm _ _ _ _ => true
  | .cmpShiftImm _ _ _ _ => true
  | .cmpShiftReg _ _ _ _ _ => true
  | .cmnImm _ _ _ _ => true
  | .cmnShiftImm _ _ _ _ => true
  | .cmnShiftReg _ _ _ _ _ => true
  | .orrImm _ sf _ _ _ _ => sf
  | .orrShiftImm _ sf _ _ _ _ => sf
  | .orrShiftReg _ sf _ _ _ _ _ => sf
  | .movImm _ sf _ _ _ => sf
  | .movShiftImm _ sf _ _ _ => sf
  | .movShiftReg _ sf _ _ _ _ => sf
  | .bicImm _ sf _ _ _ _ => sf
  | .bicShiftImm _ sf _ _ _ _ => sf
  | .bicShiftReg _ sf _ _ _ _ _ => sf
  | .mvnImm _ sf _ _ _ => sf
  | .mvnShiftImm _ sf _ _ _ => sf
  | .mvnShiftReg _ sf _ _ _ _ => sf
  | .mrsCpsr _ _ => false
  | .mrsSpsr _ _ => false
  | .msrCpsrReg _ fields _ => fields.f
  | .msrSpsrReg _ _ _ => false
  | .msrCpsrImm _ fields _ _ => fields.f
  | .msrSpsrImm _ _ _ _ => false
  | .mul _ sf _ _ _ => sf
  | .mla _ sf _ _ _ _ => sf
  | .umull _ sf _ _ _ _ => sf
  | .umlal _ sf _ _ _ _ => sf
  | .smull _ sf _ _ _ _ => sf
  | .smlal _ sf _ _ _ _ => sf
  | .bx _ _ => false
  | .swp _ _ _ _ => false
  | .swpb _ _ _ _ => false
  | .ldrPreImm _ _ _ _ _ _ => false
  | .ldrPostImm _ _ _ _ _ => false
  | .ldrPreReg _ _ _ _ _ _ _ => false
  | .ldrPostReg _ _ _ _ _ _ => false
  | .ldrbPreImm _ _ _ _ _ _ => false
  | .ldrbPostImm _ _ _ _ _ => false
  | .ldrbPreReg _ _ _ _ _ _ _ => false
  | .ldrbPostReg _ _ _ _ _ _ => false
  | .strPreImm _ _ _ _ _ _ => false
  | .strPostImm _ _ _ _ _ => false
  | .strPreReg _ _ _ _ _ _ _ => false
  | .strPostReg _ _ _ _ _ _ => false
  | .strbPreImm _ _ _ _ _ _ => false
  | .strbPostImm _ _ _ _ _ => false
  | .strbPreReg _ _ _ _ _ _ _ => false
  | .strbPostReg _ _ _ _ _ _ => false
  | .ldrtImm _ _ _ _ _ => false
  | .ldrtReg _ _ _ _ _ _ => false
  | .ldrbtImm _ _ _ _ _ => false
  | .ldrbtReg _ _ _ _ _ _ => false
  | .strtImm _ _ _ _ _ => false
  | .strtReg _ _ _ _ _ _ => false
  | .strbtImm _ _ _ _ _ => false
  | .strbtReg _ _ _ _ _ _ => false
  | .ldrhPreImm _ _ _ _ _ _ => false
  | .ldrhPostImm _ _ _ _ _ => false
  | .ldrhPreReg _ _ _ _ _ _ => false
  | .ldrhPostReg _ _ _ _ _ => false
  | .ldrsbPreImm _ _ _ _ _ _ => false
  | .ldrsbPostImm _ _ _ _ _ => false
  | .ldrsbPreReg _ _ _ _ _ _ => false
  | .ldrsbPostReg _ _ _ _ _ => false
  | .ldrshPreImm _ _ _ _ _ _ => false
  | .ldrshPostImm _ _ _ _ _ => false
  | .ldrshPreReg _ _ _ _ _ _ => false
  | .ldrshPostReg _ _ _ _ _ => false
  | .strhPreImm _ _ _ _ _ _ => false
  | .strhPostImm _ _ _ _ _ => false
  | .strhPreReg _ _ _ _ _ _ => false
  | .strhPostReg _ _ _ _ _ => false
  | .ldm _ _ _ _ _ => false
  | .ldmUser _ _ _ _ _ => false
  | .ldmReturn _ _ _ _ _ => true
  | .stm _ _ _ _ _ => false
  | .stmUser _ _ _ _ _ => false
  | .b _ _ => false
  | .bl _ _ => false
  | .swi _ _ => false
  | .nop _ => false
  | .ldrLabel _ _ _ _ => false
  | .ldrConst _ _ _ _ _ => false
  | .adr _ _ _ _ _ => false
  | .adrl _ _ _ _ _ _ _ => false

/-- It may write V (R28). -/
def writesOverflow : Instr → Bool
  | .andImm _ sf rd _ _ _ => sf && decide (rd = 15#4)
  | .andShiftImm _ sf rd _ _ _ => sf && decide (rd = 15#4)
  | .andShiftReg _ sf rd _ _ _ _ => sf && decide (rd = 15#4)
  | .eorImm _ sf rd _ _ _ => sf && decide (rd = 15#4)
  | .eorShiftImm _ sf rd _ _ _ => sf && decide (rd = 15#4)
  | .eorShiftReg _ sf rd _ _ _ _ => sf && decide (rd = 15#4)
  | .subImm _ sf _ _ _ _ => sf
  | .subShiftImm _ sf _ _ _ _ => sf
  | .subShiftReg _ sf _ _ _ _ _ => sf
  | .rsbImm _ sf _ _ _ _ => sf
  | .rsbShiftImm _ sf _ _ _ _ => sf
  | .rsbShiftReg _ sf _ _ _ _ _ => sf
  | .addImm _ sf _ _ _ _ => sf
  | .addShiftImm _ sf _ _ _ _ => sf
  | .addShiftReg _ sf _ _ _ _ _ => sf
  | .adcImm _ sf _ _ _ _ => sf
  | .adcShiftImm _ sf _ _ _ _ => sf
  | .adcShiftReg _ sf _ _ _ _ _ => sf
  | .sbcImm _ sf _ _ _ _ => sf
  | .sbcShiftImm _ sf _ _ _ _ => sf
  | .sbcShiftReg _ sf _ _ _ _ _ => sf
  | .rscImm _ sf _ _ _ _ => sf
  | .rscShiftImm _ sf _ _ _ _ => sf
  | .rscShiftReg _ sf _ _ _ _ _ => sf
  | .tstImm _ _ _ _ => false
  | .tstShiftImm _ _ _ _ => false
  | .tstShiftReg _ _ _ _ _ => false
  | .teqImm _ _ _ _ => false
  | .teqShiftImm _ _ _ _ => false
  | .teqShiftReg _ _ _ _ _ => false
  | .cmpImm _ _ _ _ => true
  | .cmpShiftImm _ _ _ _ => true
  | .cmpShiftReg _ _ _ _ _ => true
  | .cmnImm _ _ _ _ => true
  | .cmnShiftImm _ _ _ _ => true
  | .cmnShiftReg _ _ _ _ _ => true
  | .orrImm _ sf rd _ _ _ => sf && decide (rd = 15#4)
  | .orrShiftImm _ sf rd _ _ _ => sf && decide (rd = 15#4)
  | .orrShiftReg _ sf rd _ _ _ _ => sf && decide (rd = 15#4)
  | .movImm _ sf rd _ _ => sf && decide (rd = 15#4)
  | .movShiftImm _ sf rd _ _ => sf && decide (rd = 15#4)
  | .movShiftReg _ sf rd _ _ _ => sf && decide (rd = 15#4)
  | .bicImm _ sf rd _ _ _ => sf && decide (rd = 15#4)
  | .bicShiftImm _ sf rd _ _ _ => sf && decide (rd = 15#4)
  | .bicShiftReg _ sf rd _ _ _ _ => sf && decide (rd = 15#4)
  | .mvnImm _ sf rd _ _ => sf && decide (rd = 15#4)
  | .mvnShiftImm _ sf rd _ _ => sf && decide (rd = 15#4)
  | .mvnShiftReg _ sf rd _ _ _ => sf && decide (rd = 15#4)
  | .mrsCpsr _ _ => false
  | .mrsSpsr _ _ => false
  | .msrCpsrReg _ fields _ => fields.f
  | .msrSpsrReg _ _ _ => false
  | .msrCpsrImm _ fields _ _ => fields.f
  | .msrSpsrImm _ _ _ _ => false
  | .mul _ _ _ _ _ => false
  | .mla _ _ _ _ _ _ => false
  | .umull _ sf _ _ _ _ => sf
  | .umlal _ sf _ _ _ _ => sf
  | .smull _ sf _ _ _ _ => sf
  | .smlal _ sf _ _ _ _ => sf
  | .bx _ _ => false
  | .swp _ _ _ _ => false
  | .swpb _ _ _ _ => false
  | .ldrPreImm _ _ _ _ _ _ => false
  | .ldrPostImm _ _ _ _ _ => false
  | .ldrPreReg _ _ _ _ _ _ _ => false
  | .ldrPostReg _ _ _ _ _ _ => false
  | .ldrbPreImm _ _ _ _ _ _ => false
  | .ldrbPostImm _ _ _ _ _ => false
  | .ldrbPreReg _ _ _ _ _ _ _ => false
  | .ldrbPostReg _ _ _ _ _ _ => false
  | .strPreImm _ _ _ _ _ _ => false
  | .strPostImm _ _ _ _ _ => false
  | .strPreReg _ _ _ _ _ _ _ => false
  | .strPostReg _ _ _ _ _ _ => false
  | .strbPreImm _ _ _ _ _ _ => false
  | .strbPostImm _ _ _ _ _ => false
  | .strbPreReg _ _ _ _ _ _ _ => false
  | .strbPostReg _ _ _ _ _ _ => false
  | .ldrtImm _ _ _ _ _ => false
  | .ldrtReg _ _ _ _ _ _ => false
  | .ldrbtImm _ _ _ _ _ => false
  | .ldrbtReg _ _ _ _ _ _ => false
  | .strtImm _ _ _ _ _ => false
  | .strtReg _ _ _ _ _ _ => false
  | .strbtImm _ _ _ _ _ => false
  | .strbtReg _ _ _ _ _ _ => false
  | .ldrhPreImm _ _ _ _ _ _ => false
  | .ldrhPostImm _ _ _ _ _ => false
  | .ldrhPreReg _ _ _ _ _ _ => false
  | .ldrhPostReg _ _ _ _ _ => false
  | .ldrsbPreImm _ _ _ _ _ _ => false
  | .ldrsbPostImm _ _ _ _ _ => false
  | .ldrsbPreReg _ _ _ _ _ _ => false
  | .ldrsbPostReg _ _ _ _ _ => false
  | .ldrshPreImm _ _ _ _ _ _ => false
  | .ldrshPostImm _ _ _ _ _ => false
  | .ldrshPreReg _ _ _ _ _ _ => false
  | .ldrshPostReg _ _ _ _ _ => false
  | .strhPreImm _ _ _ _ _ _ => false
  | .strhPostImm _ _ _ _ _ => false
  | .strhPreReg _ _ _ _ _ _ => false
  | .strhPostReg _ _ _ _ _ => false
  | .ldm _ _ _ _ _ => false
  | .ldmUser _ _ _ _ _ => false
  | .ldmReturn _ _ _ _ _ => true
  | .stm _ _ _ _ _ => false
  | .stmUser _ _ _ _ _ => false
  | .b _ _ => false
  | .bl _ _ => false
  | .swi _ _ => false
  | .nop _ => false
  | .ldrLabel _ _ _ _ => false
  | .ldrConst _ _ _ _ _ => false
  | .adr _ _ _ _ _ => false
  | .adrl _ _ _ _ _ _ _ => false

/-- It may write I, F or the mode (R29, R31, R337). -/
def writesControl : Instr → Bool
  | .andImm _ sf rd _ _ _ => sf && decide (rd = 15#4)
  | .andShiftImm _ sf rd _ _ _ => sf && decide (rd = 15#4)
  | .andShiftReg _ sf rd _ _ _ _ => sf && decide (rd = 15#4)
  | .eorImm _ sf rd _ _ _ => sf && decide (rd = 15#4)
  | .eorShiftImm _ sf rd _ _ _ => sf && decide (rd = 15#4)
  | .eorShiftReg _ sf rd _ _ _ _ => sf && decide (rd = 15#4)
  | .subImm _ sf rd _ _ _ => sf && decide (rd = 15#4)
  | .subShiftImm _ sf rd _ _ _ => sf && decide (rd = 15#4)
  | .subShiftReg _ sf rd _ _ _ _ => sf && decide (rd = 15#4)
  | .rsbImm _ sf rd _ _ _ => sf && decide (rd = 15#4)
  | .rsbShiftImm _ sf rd _ _ _ => sf && decide (rd = 15#4)
  | .rsbShiftReg _ sf rd _ _ _ _ => sf && decide (rd = 15#4)
  | .addImm _ sf rd _ _ _ => sf && decide (rd = 15#4)
  | .addShiftImm _ sf rd _ _ _ => sf && decide (rd = 15#4)
  | .addShiftReg _ sf rd _ _ _ _ => sf && decide (rd = 15#4)
  | .adcImm _ sf rd _ _ _ => sf && decide (rd = 15#4)
  | .adcShiftImm _ sf rd _ _ _ => sf && decide (rd = 15#4)
  | .adcShiftReg _ sf rd _ _ _ _ => sf && decide (rd = 15#4)
  | .sbcImm _ sf rd _ _ _ => sf && decide (rd = 15#4)
  | .sbcShiftImm _ sf rd _ _ _ => sf && decide (rd = 15#4)
  | .sbcShiftReg _ sf rd _ _ _ _ => sf && decide (rd = 15#4)
  | .rscImm _ sf rd _ _ _ => sf && decide (rd = 15#4)
  | .rscShiftImm _ sf rd _ _ _ => sf && decide (rd = 15#4)
  | .rscShiftReg _ sf rd _ _ _ _ => sf && decide (rd = 15#4)
  | .tstImm _ _ _ _ => false
  | .tstShiftImm _ _ _ _ => false
  | .tstShiftReg _ _ _ _ _ => false
  | .teqImm _ _ _ _ => false
  | .teqShiftImm _ _ _ _ => false
  | .teqShiftReg _ _ _ _ _ => false
  | .cmpImm _ _ _ _ => false
  | .cmpShiftImm _ _ _ _ => false
  | .cmpShiftReg _ _ _ _ _ => false
  | .cmnImm _ _ _ _ => false
  | .cmnShiftImm _ _ _ _ => false
  | .cmnShiftReg _ _ _ _ _ => false
  | .orrImm _ sf rd _ _ _ => sf && decide (rd = 15#4)
  | .orrShiftImm _ sf rd _ _ _ => sf && decide (rd = 15#4)
  | .orrShiftReg _ sf rd _ _ _ _ => sf && decide (rd = 15#4)
  | .movImm _ sf rd _ _ => sf && decide (rd = 15#4)
  | .movShiftImm _ sf rd _ _ => sf && decide (rd = 15#4)
  | .movShiftReg _ sf rd _ _ _ => sf && decide (rd = 15#4)
  | .bicImm _ sf rd _ _ _ => sf && decide (rd = 15#4)
  | .bicShiftImm _ sf rd _ _ _ => sf && decide (rd = 15#4)
  | .bicShiftReg _ sf rd _ _ _ _ => sf && decide (rd = 15#4)
  | .mvnImm _ sf rd _ _ => sf && decide (rd = 15#4)
  | .mvnShiftImm _ sf rd _ _ => sf && decide (rd = 15#4)
  | .mvnShiftReg _ sf rd _ _ _ => sf && decide (rd = 15#4)
  | .mrsCpsr _ _ => false
  | .mrsSpsr _ _ => false
  | .msrCpsrReg _ fields _ => fields.c
  | .msrSpsrReg _ _ _ => false
  | .msrCpsrImm _ fields _ _ => fields.c
  | .msrSpsrImm _ _ _ _ => false
  | .mul _ _ _ _ _ => false
  | .mla _ _ _ _ _ _ => false
  | .umull _ _ _ _ _ _ => false
  | .umlal _ _ _ _ _ _ => false
  | .smull _ _ _ _ _ _ => false
  | .smlal _ _ _ _ _ _ => false
  | .bx _ _ => false
  | .swp _ _ _ _ => true
  | .swpb _ _ _ _ => true
  | .ldrPreImm _ _ _ _ _ _ => true
  | .ldrPostImm _ _ _ _ _ => true
  | .ldrPreReg _ _ _ _ _ _ _ => true
  | .ldrPostReg _ _ _ _ _ _ => true
  | .ldrbPreImm _ _ _ _ _ _ => true
  | .ldrbPostImm _ _ _ _ _ => true
  | .ldrbPreReg _ _ _ _ _ _ _ => true
  | .ldrbPostReg _ _ _ _ _ _ => true
  | .strPreImm _ _ _ _ _ _ => true
  | .strPostImm _ _ _ _ _ => true
  | .strPreReg _ _ _ _ _ _ _ => true
  | .strPostReg _ _ _ _ _ _ => true
  | .strbPreImm _ _ _ _ _ _ => true
  | .strbPostImm _ _ _ _ _ => true
  | .strbPreReg _ _ _ _ _ _ _ => true
  | .strbPostReg _ _ _ _ _ _ => true
  | .ldrtImm _ _ _ _ _ => true
  | .ldrtReg _ _ _ _ _ _ => true
  | .ldrbtImm _ _ _ _ _ => true
  | .ldrbtReg _ _ _ _ _ _ => true
  | .strtImm _ _ _ _ _ => true
  | .strtReg _ _ _ _ _ _ => true
  | .strbtImm _ _ _ _ _ => true
  | .strbtReg _ _ _ _ _ _ => true
  | .ldrhPreImm _ _ _ _ _ _ => true
  | .ldrhPostImm _ _ _ _ _ => true
  | .ldrhPreReg _ _ _ _ _ _ => true
  | .ldrhPostReg _ _ _ _ _ => true
  | .ldrsbPreImm _ _ _ _ _ _ => true
  | .ldrsbPostImm _ _ _ _ _ => true
  | .ldrsbPreReg _ _ _ _ _ _ => true
  | .ldrsbPostReg _ _ _ _ _ => true
  | .ldrshPreImm _ _ _ _ _ _ => true
  | .ldrshPostImm _ _ _ _ _ => true
  | .ldrshPreReg _ _ _ _ _ _ => true
  | .ldrshPostReg _ _ _ _ _ => true
  | .strhPreImm _ _ _ _ _ _ => true
  | .strhPostImm _ _ _ _ _ => true
  | .strhPreReg _ _ _ _ _ _ => true
  | .strhPostReg _ _ _ _ _ => true
  | .ldm _ _ _ _ _ => true
  | .ldmUser _ _ _ _ _ => true
  | .ldmReturn _ _ _ _ _ => true
  | .stm _ _ _ _ _ => true
  | .stmUser _ _ _ _ _ => true
  | .b _ _ => false
  | .bl _ _ => false
  | .swi _ _ => true
  | .nop _ => false
  | .ldrLabel _ _ _ _ => true
  | .ldrConst _ _ _ _ _ => true
  | .adr _ _ _ _ _ => false
  | .adrl _ _ _ _ _ _ _ => false

/-- The physical registers that a list of register numbers names in a mode; R15 names none (R23). -/
def physList (m : Mode) (l : List Reg) : List PhysReg :=
  l.filterMap (phys m)

/-- The registers of the User-mode bank that an instruction may write besides (R283). -/
def userWritesOf (i : Instr) : List Reg :=
  match i with
  | .ldmUser _ _ _ _ list => regsOf list
  | _ => []

/-- The physical registers an instruction may write: those it names in the current mode, those of the User bank, and the
link register of an exception it may take. -/
def mayWrite (i : Instr) (m : Mode) : List PhysReg :=
  physList m (writesOf i) ++ physList .usr (userWritesOf i) ++
    (match i with | .swi _ _ => [.r14Svc] | _ => []) ++ (if accessesData i then [.r14Abt] else [])

/-- The modes whose SPSR an instruction may write. -/
def mayWriteSpsr (i : Instr) (m : Mode) : List Mode :=
  (match i with
    | .msrSpsrReg _ _ _ => [m]
    | .msrSpsrImm _ _ _ _ => [m]
    | .swi _ _ => [.svc]
    | _ => []) ++ (if accessesData i then [.abt] else [])

end Sys2Proof.Machine
end

