-- ==== Sys2Proof/Certificates/Slice0/Obligations.lean ====
section
/-! DEFINITION. The statements for the provers, each about the machine for every state and every operand; which rules of
the spec each of them formalises is said in its docstring and in OBLIGATIONS.json. -/

open Sys2Proof Sys2Proof.Machine

/-! ### Words and instructions (R90 to R116) -/

/-- Decoding the words of a well-formed instruction gives it back, with every operand at every value the encoding admits; a
pseudo-instruction gives its expansion back (R116, R310 to R314). -/
def Obligations.DecodeAfterEncode : Prop :=
  ∀ i : Instr, i.wf = true → (encode i).map decodeWord = i.expand.map Decoded.instr

/-- A word that decodes to an instruction is the one word of that instruction, which is well-formed and no
pseudo-instruction: no bit of a word is dropped (R91 to R111). -/
def Obligations.EncodeAfterDecode : Prop :=
  ∀ (w : Word) (i : Instr), decodeWord w = .instr i → i.wf = true ∧ i.expand = [i] ∧ encode i = [w]

/-- The words that are no instruction, by the lines of R110 but its last one; where two lines claim a word, which reason the
refusal names is the model's choice (log 17). -/
def Obligations.WordsThatAreNoInstruction : Prop :=
  (∀ w : Word, decodeWord w = .refused .condNV ↔ field w 28 4 = 15#4) ∧
  (∀ (w : Word) (c : Cond), decodeWord w = .undefined c ↔
    Cond.ofBits (field w 28 4) = some c ∧
      ((field w 25 3 = 0b011#3 ∧ w.getLsbD 4 = true) ∨ (field w 23 5 = 0b00110#5 ∧ field w 20 2 = 0b00#2))) ∧
  (∀ w : Word, decodeWord w = .refused .coprocessorNotModelled ↔
    field w 28 4 ≠ 15#4 ∧ (field w 25 3 = 0b110#3 ∨ field w 24 4 = 0b1110#4)) ∧
  (∀ w : Word, field w 28 4 ≠ 15#4 → field w 24 4 = 0b0000#4 → field w 4 4 = 0b1001#4 → field w 22 2 = 0b01#2 →
    decodeWord w = .refused .unallocated) ∧
  (∀ w : Word, field w 28 4 ≠ 15#4 → field w 23 5 = 0b00010#5 → field w 4 4 = 0b1001#4 →
    (field w 20 2 ≠ 0b00#2 ∨ field w 8 4 ≠ 0#4) → decodeWord w = .refused .unallocated) ∧
  (∀ w : Word, field w 28 4 ≠ 15#4 → field w 23 5 = 0b00010#5 → w.getLsbD 20 = false →
    (w.getLsbD 7 = false ∨ w.getLsbD 4 = false) → field w 4 4 ≠ 0#4 → ¬(field w 4 4 = 1#4 ∧ field w 21 2 = 0b01#2) →
    decodeWord w = .refused .unallocated) ∧
  (∀ w : Word, field w 28 4 ≠ 15#4 → field w 25 3 = 0b000#3 → w.getLsbD 7 = true → w.getLsbD 4 = true →
    w.getLsbD 6 = true → w.getLsbD 20 = false → decodeWord w = .refused .unallocated) ∧
  (∀ w : Word, field w 28 4 ≠ 15#4 → field w 25 3 = 0b000#3 → w.getLsbD 7 = true → w.getLsbD 4 = true →
    (field w 5 2 = 0b01#2 ∨ (w.getLsbD 6 = true ∧ w.getLsbD 20 = true)) → w.getLsbD 24 = false → w.getLsbD 21 = true →
    decodeWord w = .refused .halfwordWriteBack)

/-- Words the spec writes out beside their assembly text decode to those instructions (95_test_vectors.md and the examples
of the instruction rules). -/
def Obligations.SpecWordsDecode : Prop :=
  decodeWord 0xE1B00081#32 = .instr (.movShiftImm .al true 0#4 1#4 (.lsl 1)) ∧
  decodeWord 0xE2510001#32 = .instr (.subImm .al true 0#4 1#4 0#4 1#8) ∧
  decodeWord 0xE10F0000#32 = .instr (.mrsCpsr .al 0#4) ∧
  decodeWord 0xE16FF000#32 = .instr (.msrSpsrReg .al ⟨true, true, true, true⟩ 0#4) ∧
  decodeWord 0xE0203291#32 = .instr (.mla .al false 0#4 1#4 2#4 3#4) ∧
  decodeWord 0x1AFFFFFC#32 = .instr (.b .ne 0xFFFFFC#24) ∧
  decodeWord 0xE12FFF1E#32 = .instr (.bx .al 14#4) ∧
  decodeWord 0xE7310102#32 = .instr (.ldrPreReg .al false true 1#4 0#4 2#4 (.lsl 2)) ∧
  decodeWord 0xE09100F2#32 = .instr (.ldrshPostReg .al true 1#4 0#4 2#4) ∧
  decodeWord 0xE92D4070#32 = .instr (.stm .al .db true 13#4 0x4070#16) ∧
  decodeWord 0xE1420091#32 = .instr (.swpb .al 0#4 1#4 2#4) ∧
  decodeWord 0xEF123456#32 = .instr (.swi .al 0x123456#24)

/-! ### The step (R321) -/

/-- When the step looks at the instruction at the PC, its fetch goes through, its bytes decode to an instruction and the
hazard of R375 does not arise, the step is that instruction's `exec`, in the state in which this step's sample of the
request inputs is taken and the mark of a User-bank `ldm` is gone (R67, R321; the list of samples is log 6). -/
def Obligations.StepRunsDecodedInstruction : Prop :=
  ∀ (s : State) (i : Instr), s.fetches → s.fetchGranted → s.decoded = .instr i → hazard i s = false →
    step s = exec i s.entering

/-- The stops of a step before an instruction executes: Thumb state, a fetch outside `Mapped`, a fetch of bytes stored to
since launch, and a word that is no instruction (R30, R67, R75, R110; that the fetch outside `Mapped`, where R67 by R64
says stuck, no step, is the fault `unmapped` is the model's choice, log 5). -/
def Obligations.StepStops : Prop :=
  (∀ s : State, s.cpsr.t = true → step s = .refused .thumbStateNotModelled) ∧
  (∀ s : State, s.fetches → Platform.abortsAccess s.platform s.pc.toNat 4 .fetch s.privilege = false →
    (Platform.maps s.platform s.pc.toNat 4 = false → step s = .fault (.unmapped s.pc 4)) ∧
    (Platform.maps s.platform s.pc.toNat 4 = true → (∃ a ∈ s.written, s.pc.toNat ≤ a ∧ a < s.pc.toNat + 4) →
      step s = .fault (.fetchModified s.pc))) ∧
  (∀ (s : State) (e : DecodeError), s.fetches → s.fetchGranted → s.decoded = .refused e →
    step s = .refused (.badWord e))

/-- An enabled fast request is entered, whatever else is pending; an enabled normal request is entered when no fast one is:
both before the fetch, with the link `pc + 4` (R321, R328, R329, R330; the list of samples is log 6). -/
def Obligations.InterruptEntry : Prop :=
  (∀ s : State, s.cpsr.t = false → s.request.fiq = true → s.cpsr.f = false →
    ∃ t, step s = .next t ∧ Entered .fiq (s.pc + 4#32) s.sampled t) ∧
  (∀ s : State, s.cpsr.t = false → (s.request.fiq = true → s.cpsr.f = true) → s.request.irq = true → s.cpsr.i = false →
    ∃ t, step s = .next t ∧ Entered .irq (s.pc + 4#32) s.sampled t)

/-- An aborted fetch takes the Prefetch abort with the link `A + 4` (R326), and a word of the Undefined instruction space
takes the Undefined instruction exception with the link `A + 4` if its condition passes and is skipped if not (R324). -/
def Obligations.FetchedExceptions : Prop :=
  (∀ s : State, s.fetches → Platform.abortsAccess s.platform s.pc.toNat 4 .fetch s.privilege = true →
    ∃ t, step s = .next t ∧ Entered .prefetchAbort (s.pc + 4#32) s.sampled t) ∧
  (∀ (s : State) (c : Cond), s.fetches → s.fetchGranted → s.decoded = .undefined c → Cond.passes c s.cpsr = true →
    ∃ t, step s = .next t ∧ Entered .undefinedInstruction (s.pc + 4#32) s.entering t) ∧
  (∀ (s : State) (c : Cond), s.fetches → s.fetchGranted → s.decoded = .undefined c → Cond.passes c s.cpsr = false →
    s.pc ≠ 0xFFFFFFFC#32 → step s = .next s.entering.onward)

/-- The entry sequence of every exception (R322), with the mode and the vector of the table (R320); R14 and SPSR of the new
mode hold the link and the old CPSR but at Reset, where R323 gives neither a value and which no step enters (log 20); no exception
has the vector 0x00000014 (R331). -/
def Obligations.EntrySequence : Prop :=
  (∀ (e : Exc) (link : Word) (s : State), EnteredMode e s (enter e link s)) ∧
  (∀ (e : Exc) (link : Word) (s : State), e ≠ .reset → Entered e link s (enter e link s)) ∧
  (Exc.reset.mode = .svc ∧ Exc.reset.vector = 0x00000000#32 ∧ Exc.reset.setsF = true) ∧
  (Exc.undefinedInstruction.mode = .und ∧ Exc.undefinedInstruction.vector = 0x00000004#32 ∧
    Exc.undefinedInstruction.setsF = false) ∧
  (Exc.swi.mode = .svc ∧ Exc.swi.vector = 0x00000008#32 ∧ Exc.swi.setsF = false) ∧
  (Exc.prefetchAbort.mode = .abt ∧ Exc.prefetchAbort.vector = 0x0000000C#32 ∧ Exc.prefetchAbort.setsF = false) ∧
  (Exc.dataAbort.mode = .abt ∧ Exc.dataAbort.vector = 0x00000010#32 ∧ Exc.dataAbort.setsF = false) ∧
  (Exc.irq.mode = .irq ∧ Exc.irq.vector = 0x00000018#32 ∧ Exc.irq.setsF = false) ∧
  (Exc.fiq.mode = .fiq ∧ Exc.fiq.vector = 0x0000001C#32 ∧ Exc.fiq.setsF = true) ∧
  (∀ e : Exc, e.vector ≠ 0x00000014#32)

/-- In the state an exception has just entered, `subs pc, lr, #k` goes on at the link minus `k` and `movs pc, lr` at the
link, with the whole CPSR as it was before the exception (R332, R333). -/
def Obligations.ExceptionReturn : Prop :=
  ∀ (e : Exc) (link : Word) (s : State), e ≠ .reset →
    (∀ k : BitVec 8, (s.cpsr.t = true ∨ (link - k.setWidth 32) &&& 3#32 = 0#32) →
      exec (.subImm .al true 15#4 14#4 0#4 k) (enter e link s) =
        .next { enter e link s with cpsr := s.cpsr, pc := link - k.setWidth 32 }) ∧
    ((s.cpsr.t = true ∨ link &&& 3#32 = 0#32) →
      exec (.movShiftImm .al true 15#4 14#4 (.lsl 0)) (enter e link s) =
        .next { enter e link s with cpsr := s.cpsr, pc := link })

/-- After a User-bank `ldm`, and after no other instruction, the machine remembers it; a step that would then execute an
instruction naming r13, r14, or r8 to r12 in FIQ mode is refused (R375; what "names" means, and that a failed condition
counts as not accessing, is the model's reading, log 15). -/
def Obligations.UserLdmHazard : Prop :=
  (∀ (i : Instr) (s t : State), s.afterUserLdm = false → exec i s = .next t →
    (t.afterUserLdm = true ↔
      (∃ c am w rn list, i = .ldmUser c am w rn list) ∧ Cond.passes (condOf i) s.cpsr = true)) ∧
  (∀ (s : State) (i : Instr) (r : Reg), s.fetches → s.fetchGranted → s.decoded = .instr i → s.afterUserLdm = true →
    Cond.passes (condOf i) s.cpsr = true → r ∈ operandRegs i →
    (r = 13#4 ∨ r = 14#4 ∨ (s.cpsr.mode = .fiq ∧ 8#4 ≤ r ∧ r ≤ 12#4)) → step s = .refused .bankedAfterUserLdm)

/-! ### What every step keeps -/

/-- Every step keeps the invariant: the canonical forms of memory and of the set of bytes stored to, every listed byte
inside the address space, and in ARM state a PC that is a multiple of 4 (R26, R36, R60, R75). -/
def Obligations.EveryStepKeepsInv : Prop :=
  ∀ s t : State, s.Inv → step s = .next t → t.Inv

/-- The state after Reset has the values R38 fixes, and it meets the invariant. -/
def Obligations.ResetState : Prop :=
  State.reset.pc = 0x00000000#32 ∧ State.reset.cpsr.mode.bits = 0b10011#5 ∧ State.reset.cpsr.i = true ∧
    State.reset.cpsr.f = true ∧ State.reset.cpsr.t = false ∧ State.reset.Inv

/-- No step changes the platform, and every step takes exactly one sample of the request inputs (R37, R68; that the platform
and the samples are data of the state is the model's, log 5 and log 6). -/
def Obligations.EnvironmentKept : Prop :=
  ∀ s t : State, step s = .next t → t.platform = s.platform ∧ t.requests = s.requests.tail

/-- From User mode a step stays in User mode or takes an exception: it goes to that exception's vector in its mode, with
the old CPSR in the mode's SPSR, interrupts disabled, and the link in the mode's R14 (R322, R332, R337). -/
def Obligations.UserModeIsLeftByExceptionOnly : Prop :=
  ∀ s t : State, s.cpsr.mode = .usr → step s = .next t →
    t.cpsr.mode = .usr ∨
    ∃ e : Exc, e ≠ .reset ∧ t.cpsr.mode = e.mode ∧ t.pc = e.vector ∧ t.cpsr.t = false ∧ t.cpsr.i = true ∧
      t.cpsr.f = (s.cpsr.f || e.setsF) ∧ t.spsr? e.mode = some s.cpsr.saved ∧
      t.gpr e.mode.r14 = (if e = .dataAbort then s.pc + 8#32 else s.pc + 4#32)

/-- From User mode no step changes I or F while User mode lasts, and no step changes a banked register or an SPSR but those
that an exception writes on entry, the new mode's R14 and SPSR (R24, R34, R336). -/
def Obligations.UserModeLeavesPrivilegedState : Prop :=
  ∀ s t : State, s.cpsr.mode = .usr → step s = .next t →
    (t.cpsr.mode = .usr → t.cpsr.i = s.cpsr.i ∧ t.cpsr.f = s.cpsr.f) ∧
    (∀ p : PhysReg, (∀ r : Reg, phys .usr r ≠ some p) → (t.cpsr.mode = .usr ∨ p ≠ t.cpsr.mode.r14) →
      t.gpr p = s.gpr p) ∧
    (∀ m : Mode, (t.cpsr.mode = .usr ∨ m ≠ t.cpsr.mode) → t.spsr? m = s.spsr? m)

/-- A byte that a step changes is recorded as stored to, and nothing is ever removed from that record, so that no later step
can fetch it (R75). -/
def Obligations.ChangedBytesAreRecorded : Prop :=
  ∀ s t : State, Memory.wf s.mem = true → step s = .next t →
    ∀ a : Nat, (t.byteAt a ≠ s.byteAt a → a ∈ t.written) ∧ (a ∈ s.written → a ∈ t.written)

/-! ### What every instruction leaves alone -/

/-- A register changes only if it is a destination, a written base, R14 of `bl`, a User register loaded by `ldm ^`, or the
link register of an exception the instruction may take (R132, R170, R196 to R201, R241, R250, R280, R300, R322). -/
def Obligations.RegisterFrame : Prop :=
  ∀ (i : Instr) (s t : State), exec i s = .next t →
    ∀ p : PhysReg, p ∉ mayWrite i s.cpsr.mode → t.gpr p = s.gpr p

/-- Flags change only by the forms whose rule names them, and V only by additions, subtractions, the long multiplies, `msr`
and exception returns; I, F and the mode change only by `msr` of the control field, by exception returns and by
exceptions; T changes besides only by `bx`; an SPSR changes only if it is the current mode's under `msr spsr` or that of an
exception the instruction may take (R28, R29, R30, R32). -/
def Obligations.StatusFrame : Prop :=
  ∀ (i : Instr) (s t : State), exec i s = .next t →
    (writesFlags i = false → t.cpsr.n = s.cpsr.n ∧ t.cpsr.z = s.cpsr.z ∧ t.cpsr.c = s.cpsr.c) ∧
    (writesOverflow i = false → t.cpsr.v = s.cpsr.v) ∧
    (writesControl i = false →
      t.cpsr.i = s.cpsr.i ∧ t.cpsr.f = s.cpsr.f ∧ t.cpsr.mode = s.cpsr.mode ∧
        ((∀ c rm, i ≠ .bx c rm) → t.cpsr.t = s.cpsr.t)) ∧
    (∀ m : Mode, m ∉ mayWriteSpsr i s.cpsr.mode → t.spsr? m = s.spsr? m)

/-- Every byte outside those the instruction stores to reads as before, and is recorded as stored to only if it was before;
of an instruction that stores nothing, that is every byte (R65, R75). -/
def Obligations.MemoryFrame : Prop :=
  ∀ (i : Instr) (s t : State), Memory.wf s.mem = true → exec i s = .next t →
    ∀ x : Nat, (∀ a n, (a, n) ∈ storesOf i s → x < a.toNat ∨ a.toNat + n ≤ x) →
      t.byteAt x = s.byteAt x ∧ (x ∈ t.written ↔ x ∈ s.written)

/-! ### Registers and conditions -/

/-- Which physical register a number names in each mode, which SPSR is a mode's, and that each is a register of its own: what
is written to one is read from it and from no other (R20, R22, R23, R25). -/
def Obligations.RegisterBanks : Prop :=
  ((List.range 15).map (fun k => phys .usr (BitVec.ofNat 4 k)) =
    [PhysReg.r0, .r1, .r2, .r3, .r4, .r5, .r6, .r7, .r8, .r9, .r10, .r11, .r12, .r13, .r14].map some) ∧
  ((List.range 15).map (fun k => phys .fiq (BitVec.ofNat 4 k)) =
    [PhysReg.r0, .r1, .r2, .r3, .r4, .r5, .r6, .r7, .r8Fiq, .r9Fiq, .r10Fiq, .r11Fiq, .r12Fiq, .r13Fiq, .r14Fiq].map
      some) ∧
  (∀ m : Mode, m ≠ .fiq → ∀ r : Reg, r.toNat < 13 → phys m r = phys .usr r) ∧
  (∀ m : Mode, phys m 13#4 = some (match m with
    | .usr => .r13 | .sys => .r13 | .fiq => .r13Fiq | .irq => .r13Irq | .svc => .r13Svc | .abt => .r13Abt
    | .und => .r13Und)) ∧
  (∀ m : Mode, phys m 14#4 = some (match m with
    | .usr => .r14 | .sys => .r14 | .fiq => .r14Fiq | .irq => .r14Irq | .svc => .r14Svc | .abt => .r14Abt
    | .und => .r14Und)) ∧
  (∀ (s : State) (p q : PhysReg) (v : Word), (s.setGpr p v).gpr q = if p = q then v else s.gpr q) ∧
  (∀ (s : State) (r : Reg) (v : Word) (p : PhysReg), phys s.cpsr.mode r = some p →
    s.reg r = s.gpr p ∧ s.setReg r v = s.setGpr p v) ∧
  (∀ (s : State) (v : Word), s.reg 15#4 = s.pc + 8#32 ∧ s.setReg 15#4 v = { s with pc := v }) ∧
  (∀ (s : State) (m k : Mode) (p : Psr), m.hasSpsr = true →
    (s.setSpsr m p).spsr? k = if m = k then some p else s.spsr? k) ∧
  (∀ (s : State) (m : Mode), s.spsr? m = none ↔ m = .usr ∨ m = .sys)

/-- The condition table (R130), with LE as corrected there. -/
def Obligations.ConditionTable : Prop :=
  ∀ p : Cpsr,
    (Cond.passes .eq p = true ↔ p.z = true) ∧ (Cond.passes .ne p = true ↔ p.z = false) ∧
    (Cond.passes .cs p = true ↔ p.c = true) ∧ (Cond.passes .cc p = true ↔ p.c = false) ∧
    (Cond.passes .mi p = true ↔ p.n = true) ∧ (Cond.passes .pl p = true ↔ p.n = false) ∧
    (Cond.passes .vs p = true ↔ p.v = true) ∧ (Cond.passes .vc p = true ↔ p.v = false) ∧
    (Cond.passes .hi p = true ↔ p.c = true ∧ p.z = false) ∧ (Cond.passes .ls p = true ↔ p.c = false ∨ p.z = true) ∧
    (Cond.passes .ge p = true ↔ p.n = p.v) ∧ (Cond.passes .lt p = true ↔ p.n ≠ p.v) ∧
    (Cond.passes .gt p = true ↔ p.z = false ∧ p.n = p.v) ∧ (Cond.passes .le p = true ↔ p.z = true ∨ p.n ≠ p.v) ∧
    Cond.passes .al p = true

/-- An instruction whose condition fails has no effect but `pc <- pc + 4`, refused where there is no such address (R26,
R132). Every instruction but `adrl`, which stands for two, is covered. -/
def Obligations.ConditionFailed : Prop :=
  ∀ (i : Instr) (s : State), i.expand.length = 1 → Cond.passes (condOf i) s.cpsr = false →
    (s.pc ≠ 0xFFFFFFFC#32 → exec i s = .next { s with pc := s.pc + 4#32 }) ∧
    (s.pc = 0xFFFFFFFC#32 → exec i s = .refused .pcWraps)

/-! ### The shifter operand (R133 to R145) -/

/-- A register shifted by an immediate amount: its value by arithmetic, and its carry-out (R135, R136, R138, R140, R142,
R144). -/
def Obligations.ShiftByImmediate : Prop :=
  ∀ (s : State) (rm : Reg),
    (shifter (.shiftImm rm (.lsl 0)) s = (s.reg rm, s.cpsr.c)) ∧
    (∀ n : Nat, 1 ≤ n → n ≤ 31 →
      shifter (.shiftImm rm (.lsl n)) s = (BitVec.ofNat 32 ((s.reg rm).toNat * 2 ^ n), (s.reg rm).getLsbD (32 - n))) ∧
    (∀ n : Nat, 1 ≤ n → n ≤ 32 →
      shifter (.shiftImm rm (.lsr n)) s = (BitVec.ofNat 32 ((s.reg rm).toNat / 2 ^ n), (s.reg rm).getLsbD (n - 1))) ∧
    (∀ n : Nat, 1 ≤ n → n ≤ 32 →
      shifter (.shiftImm rm (.asr n)) s = (BitVec.ofInt 32 ((s.reg rm).toInt / 2 ^ n), (s.reg rm).getLsbD (n - 1))) ∧
    (∀ n : Nat, 1 ≤ n → n ≤ 31 →
      (∀ k : Nat, k < 32 →
        (shifter (.shiftImm rm (.ror n)) s).1.getLsbD k = (s.reg rm).getLsbD ((k + n) % 32)) ∧
      (shifter (.shiftImm rm (.ror n)) s).2 = (s.reg rm).getLsbD (n - 1) ∧
      (shifter (.shiftImm rm (.ror n)) s).2 = (shifter (.shiftImm rm (.ror n)) s).1.getLsbD 31) ∧
    shifter (.shiftImm rm .rrx) s =
      (BitVec.ofNat 32 ((if s.cpsr.c then 2147483648 else 0) + (s.reg rm).toNat / 2), (s.reg rm).getLsbD 0)

/-- A register shifted by the low byte of another (R137, R139, R141, R143). -/
def Obligations.ShiftByRegister : Prop :=
  ∀ (s : State) (rm rs : Reg) (n : Nat), (s.reg rs).toNat % 256 = n →
    (n = 0 → ∀ k : ShiftKind, shifter (.shiftReg rm k rs) s = (s.reg rm, s.cpsr.c)) ∧
    (1 ≤ n → n ≤ 32 → shifter (.shiftReg rm .lsl rs) s =
      (BitVec.ofNat 32 ((s.reg rm).toNat * 2 ^ n), (s.reg rm).getLsbD (32 - n))) ∧
    (1 ≤ n → n ≤ 32 → shifter (.shiftReg rm .lsr rs) s =
      (BitVec.ofNat 32 ((s.reg rm).toNat / 2 ^ n), (s.reg rm).getLsbD (n - 1))) ∧
    (32 < n → shifter (.shiftReg rm .lsl rs) s = (0#32, false) ∧ shifter (.shiftReg rm .lsr rs) s = (0#32, false)) ∧
    (1 ≤ n → n ≤ 31 → shifter (.shiftReg rm .asr rs) s =
      (BitVec.ofInt 32 ((s.reg rm).toInt / 2 ^ n), (s.reg rm).getLsbD (n - 1))) ∧
    (32 ≤ n → shifter (.shiftReg rm .asr rs) s =
      (if (s.reg rm).toInt < 0 then 0xFFFFFFFF#32 else 0#32, (s.reg rm).getLsbD 31)) ∧
    (1 ≤ n → n % 32 = 0 → shifter (.shiftReg rm .ror rs) s = (s.reg rm, (s.reg rm).getLsbD 31)) ∧
    (n % 32 ≠ 0 →
      (∀ k : Nat, k < 32 →
        (shifter (.shiftReg rm .ror rs) s).1.getLsbD k = (s.reg rm).getLsbD ((k + n) % 32)) ∧
      (shifter (.shiftReg rm .ror rs) s).2 = (s.reg rm).getLsbD (n % 32 - 1))

/-- A rotated immediate: its value and its carry-out (R134); the assembler's pair of a value is the one with the smallest
rotation (R115). -/
def Obligations.ImmediateOperand : Prop :=
  (∀ (s : State) (rot : BitVec 4) (imm : BitVec 8),
    (∀ k : Nat, k < 32 →
      (shifter (.imm rot imm) s).1.getLsbD k = (imm.setWidth 32).getLsbD ((k + 2 * rot.toNat) % 32)) ∧
    (rot = 0#4 → (shifter (.imm rot imm) s).2 = s.cpsr.c) ∧
    (rot ≠ 0#4 → (shifter (.imm rot imm) s).2 = (shifter (.imm rot imm) s).1.getLsbD 31)) ∧
  (∀ (v : Word) (rot : BitVec 4) (imm : BitVec 8), immPair? v = some (rot, imm) →
    rotatedImm rot imm = v ∧ ∀ (rot' : BitVec 4) (imm' : BitVec 8), rotatedImm rot' imm' = v → rot ≤ rot') ∧
  (∀ v : Word, immPair? v = none → ∀ (rot : BitVec 4) (imm : BitVec 8), rotatedImm rot imm ≠ v)

/-- R15 in a shifter operand (R145): every form without `Rs` reads it as the instruction's address plus 8; the register
shifts refuse it in every place. -/
def Obligations.ShiftOperandR15 : Prop :=
  (∀ (s : State) (sh : ShiftImm), s.reg 15#4 = s.pc + 8#32 ∧
    shifter (.shiftImm 15#4 sh) s = shiftByImm (s.pc + 8#32) sh s.cpsr.c) ∧
  (∀ mk ∈ [Instr.andShiftReg, Instr.eorShiftReg, Instr.subShiftReg, Instr.rsbShiftReg, Instr.addShiftReg,
      Instr.adcShiftReg, Instr.sbcShiftReg, Instr.rscShiftReg, Instr.orrShiftReg, Instr.bicShiftReg],
    ∀ (c : Cond) (sf : Bool) (rd rn rm : Reg) (k : ShiftKind) (rs : Reg) (s : State), Cond.passes c s.cpsr = true →
      15#4 ∈ [rd, rn, rm, rs] → exec (mk c sf rd rn rm k rs) s = .refused .r15Operand) ∧
  (∀ mk ∈ [Instr.movShiftReg, Instr.mvnShiftReg],
    ∀ (c : Cond) (sf : Bool) (rd rm : Reg) (k : ShiftKind) (rs : Reg) (s : State), Cond.passes c s.cpsr = true →
      15#4 ∈ [rd, rm, rs] → exec (mk c sf rd rm k rs) s = .refused .r15Operand) ∧
  (∀ mk ∈ [Instr.tstShiftReg, Instr.teqShiftReg, Instr.cmpShiftReg, Instr.cmnShiftReg],
    ∀ (c : Cond) (rn rm : Reg) (k : ShiftKind) (rs : Reg) (s : State), Cond.passes c s.cpsr = true →
      15#4 ∈ [rn, rm, rs] → exec (mk c rn rm k rs) s = .refused .r15Operand)

/-! ### Data processing (R170 to R172, R190 to R195, R220 to R233) -/

/-- The logical instructions, the moves and the tests (R171, R172, R220 to R224, R232, R233): the result, N and Z of it, C
the shifter's carry-out, V unchanged; in every operand form, with every destination (R170). -/
def Obligations.LogicalResults : Prop :=
  DpFollows (fun a sv sc p => ⟨a &&& sv, sc, p.v⟩) Instr.andImm Instr.andShiftImm Instr.andShiftReg ∧
  DpFollows (fun a sv sc p => ⟨a ||| sv, sc, p.v⟩) Instr.orrImm Instr.orrShiftImm Instr.orrShiftReg ∧
  DpFollows (fun a sv sc p => ⟨a ^^^ sv, sc, p.v⟩) Instr.eorImm Instr.eorShiftImm Instr.eorShiftReg ∧
  DpFollows (fun a sv sc p => ⟨a &&& ~~~sv, sc, p.v⟩) Instr.bicImm Instr.bicShiftImm Instr.bicShiftReg ∧
  MoveFollows (fun _ sv sc p => ⟨sv, sc, p.v⟩) Instr.movImm Instr.movShiftImm Instr.movShiftReg ∧
  MoveFollows (fun _ sv sc p => ⟨~~~sv, sc, p.v⟩) Instr.mvnImm Instr.mvnShiftImm Instr.mvnShiftReg ∧
  CompareFollows (fun a sv sc p => ⟨a &&& sv, sc, p.v⟩) Instr.tstImm Instr.tstShiftImm Instr.tstShiftReg ∧
  CompareFollows (fun a sv sc p => ⟨a ^^^ sv, sc, p.v⟩) Instr.teqImm Instr.teqShiftImm Instr.teqShiftReg

/-- `add`, `adc` and `cmn` (R190, R191, R231): the sum modulo 2^32, C the unsigned carry out of it, V the signed overflow;
for the two-term sums V is written as "both operands have the same sign and the result has the other". -/
def Obligations.AddResults : Prop :=
  DpFollows (fun a sv _ _ =>
      ⟨a + sv, decide (4294967296 ≤ a.toNat + sv.toNat), a.msb == sv.msb && (a + sv).msb != a.msb⟩)
    Instr.addImm Instr.addShiftImm Instr.addShiftReg ∧
  DpFollows (fun a sv _ p =>
      ⟨if p.c then a + sv + 1#32 else a + sv,
        decide (4294967296 ≤ a.toNat + sv.toNat + (if p.c then 1 else 0)),
        decide (¬(-2147483648 ≤ a.toInt + sv.toInt + (if p.c then 1 else 0) ∧
          a.toInt + sv.toInt + (if p.c then 1 else 0) ≤ 2147483647))⟩)
    Instr.adcImm Instr.adcShiftImm Instr.adcShiftReg ∧
  CompareFollows (fun a sv _ _ =>
      ⟨a + sv, decide (4294967296 ≤ a.toNat + sv.toNat), a.msb == sv.msb && (a + sv).msb != a.msb⟩)
    Instr.cmnImm Instr.cmnShiftImm Instr.cmnShiftReg

/-- `sub`, `rsb`, `sbc`, `rsc` and `cmp` (R192 to R195, R230): the difference modulo 2^32, C set when no borrow occurs, V the
signed overflow; for the two-term differences V is written as "the operands have different signs and the result's sign
differs" from the first one's. -/
def Obligations.SubtractResults : Prop :=
  DpFollows (fun a sv _ _ =>
      ⟨a - sv, decide (sv.toNat ≤ a.toNat), a.msb != sv.msb && (a - sv).msb != a.msb⟩)
    Instr.subImm Instr.subShiftImm Instr.subShiftReg ∧
  DpFollows (fun a sv _ _ =>
      ⟨sv - a, decide (a.toNat ≤ sv.toNat), sv.msb != a.msb && (sv - a).msb != sv.msb⟩)
    Instr.rsbImm Instr.rsbShiftImm Instr.rsbShiftReg ∧
  DpFollows (fun a sv _ p =>
      ⟨if p.c then a - sv else a - sv - 1#32,
        decide ((0 : Int) ≤ a.toNat - sv.toNat - (if p.c then 0 else 1)),
        decide (¬(-2147483648 ≤ a.toInt - sv.toInt - (if p.c then 0 else 1) ∧
          a.toInt - sv.toInt - (if p.c then 0 else 1) ≤ 2147483647))⟩)
    Instr.sbcImm Instr.sbcShiftImm Instr.sbcShiftReg ∧
  DpFollows (fun a sv _ p =>
      ⟨if p.c then sv - a else sv - a - 1#32,
        decide ((0 : Int) ≤ sv.toNat - a.toNat - (if p.c then 0 else 1)),
        decide (¬(-2147483648 ≤ sv.toInt - a.toInt - (if p.c then 0 else 1) ∧
          sv.toInt - a.toInt - (if p.c then 0 else 1) ≤ 2147483647))⟩)
    Instr.rscImm Instr.rscShiftImm Instr.rscShiftReg ∧
  CompareFollows (fun a sv _ _ =>
      ⟨a - sv, decide (sv.toNat ≤ a.toNat), a.msb != sv.msb && (a - sv).msb != a.msb⟩)
    Instr.cmpImm Instr.cmpShiftImm Instr.cmpShiftReg

/-- What the conditions mean after `cmp Rn, shift_op` in its three forms (R230, R130): the unsigned and the signed comparisons
of the two operands as numbers, right even when the subtraction overflows. The shift by register is the one with every
register below R15; with R15 it is refused (R145). -/
def Obligations.CompareConditions : Prop :=
  ∀ (c : Cond) (rn : Reg),
    (∀ (rot : BitVec 4) (imm : BitVec 8), ComparesNumbers (.cmpImm c rn rot imm) rn (.imm rot imm)) ∧
    (∀ (rm : Reg) (sh : ShiftImm), ComparesNumbers (.cmpShiftImm c rn rm sh) rn (.shiftImm rm sh)) ∧
    (∀ (rm : Reg) (k : ShiftKind) (rs : Reg), 15#4 ∉ [rn, rm, rs] →
      ComparesNumbers (.cmpShiftReg c rn rm k rs) rn (.shiftReg rm k rs))

/-! ### Status registers (R173 to R178) -/

/-- `mrs` gives `Rd` the twelve defined bits of the CPSR, or of the current mode's SPSR, in their places; bits 27..8 are left
open, so they are only said to exist (R33, R173, R174). It writes nothing else but the model's count of free values. -/
def Obligations.MrsResults : Prop :=
  (∀ (c : Cond) (rd : Reg) (s : State), s.runs c → rd ≠ 15#4 →
    ∃ w, s.cpsr.saved.shownBy w ∧
      exec (.mrsCpsr c rd) s = .next (State.onward { s.setReg rd w with draws := s.draws + 1 })) ∧
  (∀ (c : Cond) (rd : Reg) (s : State) (p : Psr), s.runs c → rd ≠ 15#4 → s.spsr? s.cpsr.mode = some p →
    ∃ w, p.shownBy w ∧ exec (.mrsSpsr c rd) s = .next (State.onward { s.setReg rd w with draws := s.draws + 1 })) ∧
  (∀ c : Cpsr, c.saved.n = c.n ∧ c.saved.z = c.z ∧ c.saved.c = c.c ∧ c.saved.v = c.v ∧ c.saved.i = c.i ∧
    c.saved.f = c.f ∧ c.saved.t = c.t ∧ c.saved.m = c.mode.bits)

/-- `msr` writes the selected fields from a register or a rotated immediate: of the CPSR the flags in every mode and the
control field only in the privileged ones, of the current mode's SPSR any T and any five mode bits (R175 to R178; with
neither `f` nor `c` selected it changes nothing, R34, log 21). -/
def Obligations.MsrResults : Prop :=
  ∀ (c : Cond) (fields : PsrFields) (s : State), s.runs c →
    (∀ rm : Reg, rm ≠ 15#4 → MsrWritesCpsr (.msrCpsrReg c fields rm) fields (s.reg rm) s ∧
      MsrWritesSpsr (.msrSpsrReg c fields rm) fields (s.reg rm) s) ∧
    (∀ (rot : BitVec 4) (imm : BitVec 8),
      MsrWritesCpsr (.msrCpsrImm c fields rot imm) fields (shifter (.imm rot imm) s).1 s ∧
      MsrWritesSpsr (.msrSpsrImm c fields rot imm) fields (shifter (.imm rot imm) s).1 s)

/-- The status-register instructions with R15 as their register are refused, and so is `mrs` of an SPSR in User and System
mode (R173, R174, R175, R176). -/
def Obligations.StatusRegisterStops : Prop :=
  ∀ (c : Cond) (s : State), Cond.passes c s.cpsr = true →
    exec (.mrsCpsr c 15#4) s = .refused .r15Operand ∧
    (∀ fields : PsrFields, exec (.msrCpsrReg c fields 15#4) s = .refused .r15Operand ∧
      exec (.msrSpsrReg c fields 15#4) s = .refused .r15Operand) ∧
    (s.spsr? s.cpsr.mode = none → ∀ rd : Reg, exec (.mrsSpsr c rd) s = .refused .noSpsr) ∧
    (s.spsr? s.cpsr.mode ≠ none → exec (.mrsSpsr c 15#4) s = .refused .r15Operand)

/-! ### Multiplies (R196 to R203) -/

/-- `mul` and `mla` (R196, R197): the low 32 bits of the product, or of the product plus `Rn`; with `s` N and Z of it, V
unchanged, and C left open. -/
def Obligations.MultiplyResults : Prop :=
  (∀ (c : Cond) (sf : Bool) (rd rm rs : Reg) (s : State), s.runs c → 15#4 ∉ [rd, rm, rs] → rd ≠ rm →
    ∃ carry, exec (.mul c sf rd rm rs) s =
      .next (s.multiplied sf rd (BitVec.ofNat 32 ((s.reg rm).toNat * (s.reg rs).toNat)) carry)) ∧
  (∀ (c : Cond) (sf : Bool) (rd rm rs rn : Reg) (s : State), s.runs c → 15#4 ∉ [rd, rm, rs, rn] → rd ≠ rm →
    ∃ carry, exec (.mla c sf rd rm rs rn) s =
      .next (s.multiplied sf rd (BitVec.ofNat 32 ((s.reg rm).toNat * (s.reg rs).toNat + (s.reg rn).toNat)) carry))

/-- The long multiplies (R198 to R201): the exact unsigned or signed product, for the accumulating forms plus the pair
`RdHi : RdLo`, modulo 2^64, low word to `RdLo` and high word to `RdHi`; with `s` N and Z of the 64 bits, C and V left
open. -/
def Obligations.LongMultiplyResults : Prop :=
  ∀ (c : Cond) (sf : Bool) (rdLo rdHi rm rs : Reg) (s : State), s.runs c → 15#4 ∉ [rdLo, rdHi, rm, rs] →
    rdHi ≠ rdLo → rdHi ≠ rm → rdLo ≠ rm →
    (∃ carry overflow, exec (.umull c sf rdLo rdHi rm rs) s =
      .next (s.longMultiplied sf rdLo rdHi (BitVec.ofNat 64 ((s.reg rm).toNat * (s.reg rs).toNat)) carry overflow)) ∧
    (∃ carry overflow, exec (.umlal c sf rdLo rdHi rm rs) s =
      .next (s.longMultiplied sf rdLo rdHi
        (BitVec.ofNat 64 ((s.reg rm).toNat * (s.reg rs).toNat + s.pair rdLo rdHi)) carry overflow)) ∧
    (∃ carry overflow, exec (.smull c sf rdLo rdHi rm rs) s =
      .next (s.longMultiplied sf rdLo rdHi (BitVec.ofInt 64 ((s.reg rm).toInt * (s.reg rs).toInt)) carry overflow)) ∧
    (∃ carry overflow, exec (.smlal c sf rdLo rdHi rm rs) s =
      .next (s.longMultiplied sf rdLo rdHi
        (BitVec.ofInt 64 ((s.reg rm).toInt * (s.reg rs).toInt + s.pair rdLo rdHi)) carry overflow))

/-- The register combinations that R203 makes the model refuse. -/
def Obligations.MultiplyStops : Prop :=
  ∀ (c : Cond) (sf : Bool) (s : State), Cond.passes c s.cpsr = true →
    (∀ rd rm rs rn : Reg,
      (15#4 ∈ [rd, rm, rs] → exec (.mul c sf rd rm rs) s = .refused .r15Operand) ∧
      (15#4 ∈ [rd, rm, rs, rn] → exec (.mla c sf rd rm rs rn) s = .refused .r15Operand) ∧
      (15#4 ∉ [rd, rm, rs] → rd = rm → exec (.mul c sf rd rm rs) s = .refused .multiplyRegisters) ∧
      (15#4 ∉ [rd, rm, rs, rn] → rd = rm → exec (.mla c sf rd rm rs rn) s = .refused .multiplyRegisters)) ∧
    (∀ mk ∈ [Instr.umull, Instr.umlal, Instr.smull, Instr.smlal], ∀ rdLo rdHi rm rs : Reg,
      (15#4 ∈ [rdLo, rdHi, rm, rs] → exec (mk c sf rdLo rdHi rm rs) s = .refused .r15Operand) ∧
      (15#4 ∉ [rdLo, rdHi, rm, rs] → (rdHi = rdLo ∨ rdHi = rm ∨ rdLo = rm) →
        exec (mk c sf rdLo rdHi rm rs) s = .refused .multiplyRegisters))

/-! ### Branches and the software interrupt (R240 to R242, R302) -/

/-- `b` and `bl` go to `A + 8 + offset * 4` modulo 2^32, and `bl` writes the next instruction's address to R14 of the current
mode (R108, R240, R241). -/
def Obligations.BranchResults : Prop :=
  ∀ (c : Cond) (off : BitVec 24) (s : State), Cond.passes c s.cpsr = true →
    exec (.b c off) s = .next { s with pc := BitVec.ofInt 32 (s.pc.toNat + 8 + off.toInt * 4) } ∧
    exec (.bl c off) s =
      .next { s.setReg 14#4 (s.pc + 4#32) with pc := BitVec.ofInt 32 (s.pc.toNat + 8 + off.toInt * 4) }

/-- `bx` goes to Thumb state at an odd address with bit 0 removed, goes on in ARM state at a multiple of 4, and is refused at
the other addresses (R242). -/
def Obligations.BranchExchangeResults : Prop :=
  ∀ (c : Cond) (rm : Reg) (s : State), Cond.passes c s.cpsr = true →
    ((s.reg rm).toNat % 2 = 1 → exec (.bx c rm) s =
      .next { s with cpsr := { s.cpsr with t := true }, pc := BitVec.ofNat 32 ((s.reg rm).toNat - 1) }) ∧
    ((s.reg rm).toNat % 4 = 0 → exec (.bx c rm) s =
      .next { s with cpsr := { s.cpsr with t := false }, pc := s.reg rm }) ∧
    ((s.reg rm).toNat % 4 = 2 → exec (.bx c rm) s = .refused (.pcMisaligned (s.reg rm)))

/-- `swi` takes the Software interrupt exception with the link `A + 4`, whatever its immediate (R302, R325). -/
def Obligations.SoftwareInterrupt : Prop :=
  ∀ (c : Cond) (imm : BitVec 24) (s : State), Cond.passes c s.cpsr = true →
    ∃ t, exec (.swi c imm) s = .next t ∧ Entered .swi (s.pc + 4#32) s t

/-! ### Memory and single-register transfers (R62 to R66, R146 to R153, R250 to R262) -/

/-- The checks of an access in their order, alignment, `Aborts`, `Mapped`, and what it does when they pass: a read gives the
bytes as a little-endian number and a write leaves each byte of the value at its address and every other byte as it was
(R62, R64, R65) and records its bytes as stored to (R75). That an access outside `Mapped`, where R64 says stuck, no step, is
the fault `unmapped` is the model's choice (log 5). -/
def Obligations.MemoryAccess : Prop :=
  ∀ (s : State) (a v : Word) (n : Nat) (pr : Privilege), n ∈ [1, 2, 4] →
    (a.toNat % n ≠ 0 → s.readMem a n pr = .fault (.misaligned a n) ∧ s.writeMem a n v pr = .fault (.misaligned a n)) ∧
    (a.toNat % n = 0 →
      (Platform.abortsAccess s.platform a.toNat n .read pr = true → s.readMem a n pr = .abort) ∧
      (Platform.abortsAccess s.platform a.toNat n .write pr = true → s.writeMem a n v pr = .abort) ∧
      ((∃ k, k < n ∧ Platform.mapsByte s.platform (a.toNat + k) = false) →
        (Platform.abortsAccess s.platform a.toNat n .read pr = false → s.readMem a n pr = .fault (.unmapped a n)) ∧
        (Platform.abortsAccess s.platform a.toNat n .write pr = false →
          s.writeMem a n v pr = .fault (.unmapped a n))) ∧
      ((∀ k, k < n → Platform.mapsByte s.platform (a.toNat + k) = true) →
        (Platform.abortsAccess s.platform a.toNat n .read pr = false →
          s.readMem a n pr = .ok (BitVec.ofNat 32
            (((List.range n).map fun k => (s.byteAt (a.toNat + k)).toNat * 2 ^ (8 * k)).sum))) ∧
        (Platform.abortsAccess s.platform a.toNat n .write pr = false → Memory.wf s.mem = true →
          ∃ t, s.writeMem a n v pr = .ok t ∧ (∀ k, k < n → t.byteAt (a.toNat + k) = v.extractLsb' (8 * k) 8) ∧
            (∀ x, x < a.toNat ∨ a.toNat + n ≤ x → t.byteAt x = s.byteAt x) ∧
            (∀ x, x ∈ t.written ↔ (a.toNat ≤ x ∧ x < a.toNat + n) ∨ x ∈ s.written) ∧
            t = { s with mem := t.mem, written := t.written })))

/-- The mixed-width view of a stored word (R63). -/
def Obligations.MixedWidthView : Prop :=
  ∀ (s t : State) (a w : Word) (pr : Privilege), Memory.wf s.mem = true → s.writeMem a 4 w pr = .ok t →
    (∀ k : Nat, k < 4 → ∀ v, t.readMem (a + BitVec.ofNat 32 k) 1 pr = .ok v →
      v = (w.extractLsb' (8 * k) 8).setWidth 32) ∧
    (∀ k : Nat, k < 2 → ∀ v, t.readMem (a + BitVec.ofNat 32 (2 * k)) 2 pr = .ok v →
      v = (w.extractLsb' (16 * k) 16).setWidth 32) ∧
    (∀ v, t.readMem a 4 pr = .ok v → v = w)

/-- Where a transfer accesses memory and what it writes to its base (R147, R148, R149, R151, R153). -/
def Obligations.TransferAddresses : Prop :=
  (∀ (f : Transfer) (s : State), ∃ off : Word,
    (∀ v : Word, f.off = .imm v → off = v) ∧
    (∀ (rm : Reg) (sh : ShiftImm), f.off = .reg rm sh → off = (shifter (.shiftImm rm sh) s).1) ∧
    (f.idx = .offset → f.address s = (if f.u then s.reg f.rn + off else s.reg f.rn - off) ∧ f.based s = s) ∧
    (f.idx = .pre → f.address s = (if f.u then s.reg f.rn + off else s.reg f.rn - off) ∧
      f.based s = s.setReg f.rn (f.address s)) ∧
    (f.idx = .post → f.address s = s.reg f.rn ∧
      f.based s = s.setReg f.rn (if f.u then s.reg f.rn + off else s.reg f.rn - off))) ∧
  (∀ s : State, (s.privilege = .user ↔ s.cpsr.mode = .usr) ∧
    ∀ f : Transfer, f.privilege s = .user ↔ f.user = true ∨ s.cpsr.mode = .usr)

/-- A load into a register below R15 gives it the word, or the zero- or sign-extended half-word or byte, at the transfer's
address, after the base write (R250 to R257); `ldr` into R15 goes to the word with bits 1..0 cleared and leaves T
(R251). -/
def Obligations.LoadResults : Prop :=
  (∀ (i : Instr) (f : Transfer) (s : State), transferOf i = some f → f.load = true → f.allowed → s.runs (condOf i) →
    f.rd ≠ 15#4 → s.grants (f.address s) f.width .read (f.privilege s) →
    exec i s = .next (State.onward ((f.based s).setReg f.rd (f.loaded s.mem (f.address s).toNat)))) ∧
  (∀ (i : Instr) (f : Transfer) (s : State), transferOf i = some f → f.load = true → f.allowed →
    Cond.passes (condOf i) s.cpsr = true → f.rd = 15#4 → f.pcOk = true →
    s.grants (f.address s) f.width .read (f.privilege s) →
    exec i s = .next { f.based s with pc := s.wordAt (f.address s).toNat &&& 0xFFFFFFFC#32 })

/-- A store leaves the low bytes of `Rd` at the transfer's address, then writes the base (R250, R258 to R262); `str` of R15
stores the instruction's address plus 8 or plus 12, one and the same everywhere, which the spec leaves to the
implementation (R258, log 8). -/
def Obligations.StoreResults : Prop :=
  (∀ (i : Instr) (f : Transfer) (s : State), transferOf i = some f → f.load = false → f.allowed → s.runs (condOf i) →
    f.rd ≠ 15#4 → s.grants (f.address s) f.width .write (f.privilege s) →
    exec i s = .next (State.onward (f.based (s.stored (f.address s) f.width (s.reg f.rd))))) ∧
  (∃ k : Word, (k = 8#32 ∨ k = 12#32) ∧ ∀ (i : Instr) (f : Transfer) (s : State), transferOf i = some f →
    f.load = false → f.allowed → s.runs (condOf i) → f.rd = 15#4 → f.pcOk = true →
    s.grants (f.address s) f.width .write (f.privilege s) →
    exec i s = .next (State.onward (f.based (s.stored (f.address s) f.width (s.pc + k)))))

/-- What R150 allows and forbids: R15 as a base that is not written reads as the address plus 8, and (b) to (e) are refused;
and R15 as the transferred register is refused but by `ldr` and `str` (R252 to R262). -/
def Obligations.TransferStops : Prop :=
  (∀ (f : Transfer) (s : State) (v : Word), f.idx = .offset → f.rn = 15#4 → f.off = .imm v →
    f.address s = if f.u then s.pc + 8#32 + v else s.pc + 8#32 - v) ∧
  (∀ (i : Instr) (f : Transfer) (s : State), transferOf i = some f → Cond.passes (condOf i) s.cpsr = true →
    (Index.writesBase f.idx = true → f.rn = 15#4 → exec i s = .refused .r15Operand) ∧
    (∀ sh, f.off = .reg 15#4 sh → exec i s = .refused .r15Operand) ∧
    (∀ rm sh, f.off = .reg rm sh → Index.writesBase f.idx = true → rm = f.rn → rm ≠ 15#4 →
      exec i s = .refused .baseWriteBack) ∧
    (Index.writesBase f.idx = true → f.rd = f.rn → f.rn ≠ 15#4 → (∀ sh, f.off ≠ .reg 15#4 sh) →
      exec i s = .refused .baseWriteBack) ∧
    (f.allowed → f.rd = 15#4 → f.pcOk = false → exec i s = .refused .r15Operand))

/-- A transfer whose access the memory system aborts takes the Data abort with the link `A + 8`, with memory and `Rd` as
they were and the base as `ABORT_MODEL` says (R250, R327). -/
def Obligations.TransferAborts : Prop :=
  ∀ (i : Instr) (f : Transfer) (s : State), transferOf i = some f → f.allowed → Cond.passes (condOf i) s.cpsr = true →
    (f.rd = 15#4 → f.pcOk = true) → (f.address s).toNat % f.width = 0 →
    Platform.abortsAccess s.platform (f.address s).toNat f.width (if f.load then .read else .write) (f.privilege s) =
      true →
    ∃ t, exec i s = .next t ∧
      Entered .dataAbort (s.pc + 8#32) (if s.platform.abortModel = .baseUpdated then f.based s else s) t

/-- A misaligned half-word or word access of a single transfer or of `swp` is the model fault `misaligned`, a byte access
and a block transfer never are (R66). An aligned access of a single transfer, of a swap or of a block transfer (its first
that does not go through) that does not abort but reaches a byte outside `Mapped` is the fault `unmapped`, which is the
model's choice where R64, R65, R68 and R280 say stuck, no step (log 5). -/
def Obligations.AccessFaults : Prop :=
  (∀ (i : Instr) (f : Transfer) (s : State), transferOf i = some f → f.allowed → Cond.passes (condOf i) s.cpsr = true →
    (f.rd = 15#4 → f.pcOk = true) →
    ((f.address s).toNat % f.width ≠ 0 → exec i s = .fault (.misaligned (f.address s) f.width)) ∧
    ((f.address s).toNat % f.width = 0 →
      Platform.abortsAccess s.platform (f.address s).toNat f.width (if f.load then .read else .write) (f.privilege s) =
        false →
      Platform.maps s.platform (f.address s).toNat f.width = false →
      exec i s = .fault (.unmapped (f.address s) f.width))) ∧
  (∀ (c : Cond) (rd rm rn : Reg) (s : State), Cond.passes c s.cpsr = true → 15#4 ∉ [rd, rm, rn] → rn ≠ rm → rn ≠ rd →
    ((s.reg rn).toNat % 4 ≠ 0 → exec (.swp c rd rm rn) s = .fault (.misaligned (s.reg rn) 4)) ∧
    (∀ x ∈ [(Instr.swp c rd rm rn, 4), (Instr.swpb c rd rm rn, 1)], (s.reg rn).toNat % x.2 = 0 →
      Platform.abortsAccess s.platform (s.reg rn).toNat x.2 .read s.privilege = false →
      Platform.maps s.platform (s.reg rn).toNat x.2 = false → exec x.1 s = .fault (.unmapped (s.reg rn) x.2))) ∧
  (∀ (i : Instr) (s : State) (a : Word), exec i s ≠ .fault (.misaligned a 1)) ∧
  (∀ mk ∈ [Instr.ldm, Instr.ldmUser, Instr.ldmReturn, Instr.stm, Instr.stmUser],
    ∀ (c : Cond) (am : BlockMode) (w : Bool) (rn : Reg) (list : BitVec 16) (s : State) (a : Word) (n : Nat),
      exec (mk c am w rn list) s ≠ .fault (.misaligned a n)) ∧
  (∀ (c : Cond) (am : BlockMode) (w : Bool) (rn : Reg) (list : BitVec 16) (s : State) (j : Nat) (f : Fault),
    Cond.passes c s.cpsr = true → blockAllowed am rn list s → f = .unmapped (blockAddress am rn list s j) 4 →
    (blockUnmappedAt am rn list s .read j →
      ((w = true → list.getLsbD rn.toNat = false) →
        exec (.ldm c am w rn list) s = .fault f ∧
        (s.cpsr.mode.hasSpsr = true → exec (.ldmReturn c am w rn list) s = .fault f)) ∧
      (s.cpsr.mode.hasSpsr = true → exec (.ldmUser c am false rn list) s = .fault f)) ∧
    (blockUnmappedAt am rn list s .write j →
      ((w = true → list.getLsbD rn.toNat = true → listed list 0 rn) → exec (.stm c am w rn list) s = .fault f) ∧
      (s.cpsr.mode.hasSpsr = true → exec (.stmUser c am false rn list) s = .fault f)))

/-- `swp` and `swpb` exchange memory and a register in one step: the old word or byte goes to `Rd` and `Rm` to memory, also
when `Rd` is `Rm` (R300, R301). -/
def Obligations.SwapResults : Prop :=
  ∀ (c : Cond) (rd rm rn : Reg) (s : State), s.runs c → 15#4 ∉ [rd, rm, rn] → rn ≠ rm → rn ≠ rd →
    (s.grants (s.reg rn) 4 .read s.privilege → s.grants (s.reg rn) 4 .write s.privilege →
      exec (.swp c rd rm rn) s = .next (State.onward
        ((s.stored (s.reg rn) 4 (s.reg rm)).setReg rd (s.wordAt (s.reg rn).toNat)))) ∧
    (s.grants (s.reg rn) 1 .read s.privilege → s.grants (s.reg rn) 1 .write s.privilege →
      exec (.swpb c rd rm rn) s = .next (State.onward
        ((s.stored (s.reg rn) 1 (s.reg rm)).setReg rd ((s.byteAt (s.reg rn).toNat).setWidth 32))))

/-- What stops a swap: R15, `Rn = Rm` and `Rn = Rd` are refused, and an aborted read or write takes the Data abort with
nothing written (R300, R301, R327). -/
def Obligations.SwapStops : Prop :=
  ∀ (c : Cond) (rd rm rn : Reg) (s : State), Cond.passes c s.cpsr = true →
    (15#4 ∈ [rd, rm, rn] →
      exec (.swp c rd rm rn) s = .refused .r15Operand ∧ exec (.swpb c rd rm rn) s = .refused .r15Operand) ∧
    (15#4 ∉ [rd, rm, rn] → (rn = rm ∨ rn = rd) →
      exec (.swp c rd rm rn) s = .refused .swapRegisters ∧ exec (.swpb c rd rm rn) s = .refused .swapRegisters) ∧
    (15#4 ∉ [rd, rm, rn] → rn ≠ rm → rn ≠ rd →
      ∀ x ∈ [(Instr.swp c rd rm rn, 4), (Instr.swpb c rd rm rn, 1)], (s.reg rn).toNat % x.2 = 0 →
        (Platform.abortsAccess s.platform (s.reg rn).toNat x.2 .read s.privilege = true ∨
          (s.grants (s.reg rn) x.2 .read s.privilege ∧
            Platform.abortsAccess s.platform (s.reg rn).toNat x.2 .write s.privilege = true)) →
        ∃ t, exec x.1 s = .next t ∧ Entered .dataAbort (s.pc + 8#32) s t)

/-! ### Block transfers (R158 to R162, R280 to R287) -/

/-- The registers of a list in increasing number, the address of each, and the written-back base (R161). -/
def Obligations.BlockAddresses : Prop :=
  (∀ list : BitVec 16, (regsOf list).Pairwise (fun x y => x.toNat < y.toNat) ∧
    ∀ r : Reg, r ∈ regsOf list ↔ list.getLsbD r.toNat = true) ∧
  (∀ (rn : Reg) (list : BitVec 16) (s : State) (k : Nat) (b n : Int), b = (s.reg rn).toNat →
    n = (regsOf list).length →
    (blockAddress .ia rn list s k = BitVec.ofInt 32 (b / 4 * 4 + 4 * k)) ∧
    (blockAddress .ib rn list s k = BitVec.ofInt 32 ((b + 4) / 4 * 4 + 4 * k)) ∧
    (blockAddress .da rn list s k = BitVec.ofInt 32 ((b - 4 * n + 4) / 4 * 4 + 4 * k)) ∧
    (blockAddress .db rn list s k = BitVec.ofInt 32 ((b - 4 * n) / 4 * 4 + 4 * k)) ∧
    (∀ am ∈ [BlockMode.ia, .ib], blockBase am (s.reg rn) (regsOf list).length = BitVec.ofInt 32 (b + 4 * n)) ∧
    (∀ am ∈ [BlockMode.da, .db], blockBase am (s.reg rn) (regsOf list).length = BitVec.ofInt 32 (b - 4 * n)))

/-- `ldm` (R280, R281): every listed register holds the word at its address, R15 with bits 1..0 cleared, `!` leaves the new
base, and nothing else changes. -/
def Obligations.LoadMultipleResults : Prop :=
  ∀ (c : Cond) (am : BlockMode) (w : Bool) (rn : Reg) (list : BitVec 16) (s : State), Cond.passes c s.cpsr = true →
    blockAllowed am rn list s → blockGranted am rn list s .read → (w = true → list.getLsbD rn.toNat = false) →
    (list.getLsbD 15 = false → s.pc ≠ 0xFFFFFFFC#32) →
    ∃ t, exec (.ldm c am w rn list) s = .next t ∧
      (∀ (k : Nat) (r : Reg), listed list k r → r ≠ 15#4 →
        t.reg r = s.wordAt (blockAddress am rn list s k).toNat) ∧
      (∀ k : Nat, listed list k 15#4 → t.pc = s.wordAt (blockAddress am rn list s k).toNat &&& 0xFFFFFFFC#32) ∧
      (list.getLsbD 15 = false → t.pc = s.pc + 4#32) ∧
      (w = true → t.reg rn = blockBase am (s.reg rn) (regsOf list).length) ∧
      (∀ p : PhysReg, (∀ r : Reg, phys s.cpsr.mode r = some p → list.getLsbD r.toNat = false) →
        (w = true → phys s.cpsr.mode rn ≠ some p) → t.gpr p = s.gpr p) ∧
      t = { s with gprs := t.gprs, pc := t.pc }

/-- `ldm` with `^` and without R15 (R283): the User-mode copies of the listed registers hold the words, whatever the mode,
and no other register changes; the machine remembers the instruction for R375. -/
def Obligations.LoadUserRegistersResults : Prop :=
  ∀ (c : Cond) (am : BlockMode) (rn : Reg) (list : BitVec 16) (s : State), s.runs c → s.cpsr.mode.hasSpsr = true →
    list.getLsbD 15 = false → blockAllowed am rn list s → blockGranted am rn list s .read →
    ∃ t, exec (.ldmUser c am false rn list) s = .next t ∧
      (∀ (k : Nat) (r : Reg), listed list k r →
        t.regIn .usr r = s.wordAt (blockAddress am rn list s k).toNat) ∧
      (∀ p : PhysReg, (∀ r : Reg, phys .usr r = some p → list.getLsbD r.toNat = false) → t.gpr p = s.gpr p) ∧
      t = { s with gprs := t.gprs, pc := s.pc + 4#32, afterUserLdm := true }

/-- `ldm` with `^` and R15 (R284): the registers and the base are written in the old mode's bank, the CPSR is the old mode's
SPSR, and the PC is the last word, with the low bits cleared that the new state ignores. -/
def Obligations.LoadReturnResults : Prop :=
  ∀ (c : Cond) (am : BlockMode) (w : Bool) (rn : Reg) (list : BitVec 16) (s : State) (p : Psr) (new : Cpsr),
    Cond.passes c s.cpsr = true → s.spsr? s.cpsr.mode = some p → p.restored = some new → list.getLsbD 15 = true →
    blockAllowed am rn list s → blockGranted am rn list s .read → (w = true → list.getLsbD rn.toNat = false) →
    ∃ t, exec (.ldmReturn c am w rn list) s = .next t ∧
      (∀ (k : Nat) (r : Reg), listed list k r → r ≠ 15#4 →
        t.regIn s.cpsr.mode r = s.wordAt (blockAddress am rn list s k).toNat) ∧
      (∀ k : Nat, listed list k 15#4 → t.pc = s.wordAt (blockAddress am rn list s k).toNat &&&
        (if new.t then 0xFFFFFFFE#32 else 0xFFFFFFFC#32)) ∧
      (w = true → t.regIn s.cpsr.mode rn = blockBase am (s.reg rn) (regsOf list).length) ∧
      (∀ q : PhysReg, (∀ r : Reg, phys s.cpsr.mode r = some q → list.getLsbD r.toNat = false) →
        (w = true → phys s.cpsr.mode rn ≠ some q) → t.gpr q = s.gpr q) ∧
      t = { s with gprs := t.gprs, cpsr := new, pc := t.pc }

/-- `stm` and `stm` with `^` (R285, R286): every word of the block holds its register, of the current mode's or the User
bank, with the base as it was before the instruction, and R15 as the address plus 8 or plus 12 (log 8); `!` then leaves
the new base, and nothing else changes, no byte outside the block among them. -/
def Obligations.StoreMultipleResults : Prop :=
  ∀ (c : Cond) (am : BlockMode) (w : Bool) (rn : Reg) (list : BitVec 16) (s : State), s.runs c →
    blockAllowed am rn list s → blockGranted am rn list s .write → Memory.wf s.mem = true →
    ((w = true → list.getLsbD rn.toNat = true → listed list 0 rn) →
      ∃ t, exec (.stm c am w rn list) s = .next t ∧
        (∀ (k : Nat) (r : Reg), listed list k r → r ≠ 15#4 →
          t.wordAt (blockAddress am rn list s k).toNat = s.reg r) ∧
        (∀ k : Nat, listed list k 15#4 → t.wordAt (blockAddress am rn list s k).toNat = s.pc + 8#32 ∨
          t.wordAt (blockAddress am rn list s k).toNat = s.pc + 12#32) ∧
        StoredInBlock am rn list s t ∧
        t = { (if w then s.setReg rn (blockBase am (s.reg rn) (regsOf list).length) else s) with
          pc := s.pc + 4#32, mem := t.mem, written := t.written }) ∧
    (s.cpsr.mode.hasSpsr = true →
      ∃ t, exec (.stmUser c am false rn list) s = .next t ∧
        (∀ (k : Nat) (r : Reg), listed list k r → r ≠ 15#4 →
          t.wordAt (blockAddress am rn list s k).toNat = s.regIn .usr r) ∧
        (∀ k : Nat, listed list k 15#4 → t.wordAt (blockAddress am rn list s k).toNat = s.pc + 8#32 ∨
          t.wordAt (blockAddress am rn list s k).toNat = s.pc + 12#32) ∧
        StoredInBlock am rn list s t ∧
        t = { s with pc := s.pc + 4#32, mem := t.mem, written := t.written })

/-- The block transfers that are refused: an empty list, R15 as the base, a block across the top of memory, the base in the
list with `!` (but for an `stm` whose lowest register it is), a User-bank transfer with `!` or in User or System mode, and
a return without an SPSR or to no legal mode (R31, R77, R162, R283, R284, R286). -/
def Obligations.BlockStops : Prop :=
  ∀ (c : Cond) (am : BlockMode) (w : Bool) (rn : Reg) (list : BitVec 16) (s : State), Cond.passes c s.cpsr = true →
    (¬blockAllowed am rn list s →
      ∀ mk ∈ [Instr.ldm, Instr.ldmUser, Instr.ldmReturn, Instr.stm, Instr.stmUser],
        ∃ e, exec (mk c am w rn list) s = .refused e) ∧
    (w = true → list.getLsbD rn.toNat = true →
      exec (.ldm c am w rn list) s = .refused .baseInRegisterList ∧
      (s.cpsr.mode.hasSpsr = true → exec (.ldmReturn c am w rn list) s = .refused .baseInRegisterList) ∧
      (¬listed list 0 rn → exec (.stm c am w rn list) s = .refused .baseInRegisterList)) ∧
    (s.cpsr.mode = .usr ∨ s.cpsr.mode = .sys →
      exec (.ldmUser c am w rn list) s = .refused .userBankMode ∧
      exec (.stmUser c am w rn list) s = .refused .userBankMode ∧
      exec (.ldmReturn c am w rn list) s = .refused .noSpsr) ∧
    (s.cpsr.mode.hasSpsr = true → w = true →
      exec (.ldmUser c am w rn list) s = .refused .userBankWriteBack ∧
      exec (.stmUser c am w rn list) s = .refused .userBankWriteBack) ∧
    (∀ p : Psr, s.spsr? s.cpsr.mode = some p → p.restored = none → blockAllowed am rn list s →
      blockGranted am rn list s .read → (w = true → list.getLsbD rn.toNat = false) →
      exec (.ldmReturn c am w rn list) s = .refused (.illegalMode p.m))

/-- A Data abort at the `j`-th access of an `ldm` (R287): the exception is entered with the link `A + 8`; the base is as
before, or under `base_updated` written back (log 9); every register keeps its value or has the word read for it, and the
aborting one, R15, the base and the registers not listed keep theirs; memory is unchanged. -/
def Obligations.LoadBlockAborts : Prop :=
  ∀ (c : Cond) (am : BlockMode) (w : Bool) (rn : Reg) (list : BitVec 16) (s : State) (j : Nat) (m : Mode)
    (i : Instr), Cond.passes c s.cpsr = true → blockAllowed am rn list s → blockAbortsAt am rn list s .read j →
    (i = .ldm c am w rn list ∧ m = s.cpsr.mode ∧ (w = true → list.getLsbD rn.toNat = false) ∨
      i = .ldmUser c am w rn list ∧ m = .usr ∧ w = false ∧ s.cpsr.mode.hasSpsr = true ∨
      i = .ldmReturn c am w rn list ∧ m = s.cpsr.mode ∧ s.cpsr.mode.hasSpsr = true ∧
        (w = true → list.getLsbD rn.toNat = false)) →
    ∃ t, exec i s = .next t ∧ t.pc = Exc.dataAbort.vector ∧ t.gpr .r14Abt = s.pc + 8#32 ∧
      t.cpsr = { s.cpsr with mode := .abt, t := false, i := true } ∧ t.spsrAbt = s.cpsr.saved ∧
      t.mem = s.mem ∧ t.written = s.written ∧ (∀ k : Mode, k ≠ .abt → t.spsr? k = s.spsr? k) ∧
      (∀ p : PhysReg, p ≠ .r14Abt →
        (phys s.cpsr.mode rn = some p → t.gpr p =
          if w = true ∧ s.platform.abortModel = .baseUpdated then blockBase am (s.reg rn) (regsOf list).length
          else s.gpr p) ∧
        (phys s.cpsr.mode rn ≠ some p →
          (∀ k r, listed list k r → phys m r = some p →
            t.gpr p = s.gpr p ∨ (k ≠ j ∧ t.gpr p = s.wordAt (blockAddress am rn list s k).toNat)) ∧
          ((∀ r, phys m r = some p → list.getLsbD r.toNat = false) → t.gpr p = s.gpr p)))

/-- A Data abort at the `j`-th access of an `stm` (R287): the exception is entered with the link `A + 8`; the base is as
before, or under `base_updated` written back (log 9); no other register changes; every word of the block keeps its contents
or has its register's value, R15 as the address plus 8 or plus 12 (log 8), and the aborting one and the memory outside the block
keep theirs. -/
def Obligations.StoreBlockAborts : Prop :=
  ∀ (c : Cond) (am : BlockMode) (w : Bool) (rn : Reg) (list : BitVec 16) (s : State) (j : Nat) (m : Mode)
    (i : Instr), Cond.passes c s.cpsr = true → blockAllowed am rn list s → blockAbortsAt am rn list s .write j →
    Memory.wf s.mem = true →
    (i = .stm c am w rn list ∧ m = s.cpsr.mode ∧ (w = true → list.getLsbD rn.toNat = true → listed list 0 rn) ∨
      i = .stmUser c am w rn list ∧ m = .usr ∧ w = false ∧ s.cpsr.mode.hasSpsr = true) →
    ∃ t, exec i s = .next t ∧ t.pc = Exc.dataAbort.vector ∧ t.gpr .r14Abt = s.pc + 8#32 ∧
      t.cpsr = { s.cpsr with mode := .abt, t := false, i := true } ∧ t.spsrAbt = s.cpsr.saved ∧
      (∀ k : Mode, k ≠ .abt → t.spsr? k = s.spsr? k) ∧
      (∀ p : PhysReg, p ≠ .r14Abt → t.gpr p =
        if phys s.cpsr.mode rn = some p ∧ w = true ∧ s.platform.abortModel = .baseUpdated then
          blockBase am (s.reg rn) (regsOf list).length
        else s.gpr p) ∧
      (∀ k r, listed list k r →
        t.wordAt (blockAddress am rn list s k).toNat = s.wordAt (blockAddress am rn list s k).toNat ∨
        (k ≠ j ∧ ((r ≠ 15#4 ∧ t.wordAt (blockAddress am rn list s k).toNat = s.regIn m r) ∨
          (r = 15#4 ∧ (t.wordAt (blockAddress am rn list s k).toNat = s.pc + 8#32 ∨
            t.wordAt (blockAddress am rn list s k).toNat = s.pc + 12#32))))) ∧
      (∀ x : Nat, (∀ k, k < (regsOf list).length → x < (blockAddress am rn list s k).toNat ∨
        (blockAddress am rn list s k).toNat + 4 ≤ x) → t.byteAt x = s.byteAt x)

/-! ### Pseudo-instructions (R310 to R314) -/

/-- A pseudo-instruction does what its expansion does (R310 to R314; that `adrl` runs its two instructions in one `exec` is
the model's choice, log 18): `nop` nothing, `ldr Rd, label` loads the word at the label, `ldr Rd, =imm32` gives the
constant, `adr` and `adrl` give the label; an `adrl` whose condition fails only goes past its two words. -/
def Obligations.PseudoResults : Prop :=
  (∀ (i j : Instr) (s : State), i.expand = [j] → exec i s = exec j s) ∧
  (∀ (c : Cond) (s : State), s.runs c → exec (.nop c) s = .next s.onward) ∧
  (∀ (c : Cond) (u : Bool) (rd : Reg) (imm : BitVec 12) (s : State) (label : Word), s.runs c → rd ≠ 15#4 →
    label = (if u then s.pc + 8#32 + imm.setWidth 32 else s.pc + 8#32 - imm.setWidth 32) →
    s.grants label 4 .read s.privilege →
    exec (.ldrLabel c u rd imm) s = .next (State.onward (s.setReg rd (s.wordAt label.toNat)))) ∧
  (∀ (c : Cond) (rd : Reg) (imm32 : Word) (u : Bool) (pool : BitVec 12) (s : State) (label : Word), s.runs c →
    rd ≠ 15#4 → label = (if u then s.pc + 8#32 + pool.setWidth 32 else s.pc + 8#32 - pool.setWidth 32) →
    s.grants label 4 .read s.privilege → s.wordAt label.toNat = imm32 →
    exec (.ldrConst c rd imm32 u pool) s = .next (State.onward (s.setReg rd imm32))) ∧
  (∀ (c : Cond) (rd : Reg) (imm32 : Word) (u : Bool) (pool : BitVec 12) (s : State), s.runs c → rd ≠ 15#4 →
    (∃ rot imm, rotatedImm rot imm = imm32 ∨ rotatedImm rot imm = ~~~imm32) →
    exec (.ldrConst c rd imm32 u pool) s = .next (State.onward (s.setReg rd imm32))) ∧
  (∀ (c : Cond) (u : Bool) (rd : Reg) (rot : BitVec 4) (imm : BitVec 8) (s : State), s.runs c → rd ≠ 15#4 →
    exec (.adr c u rd rot imm) s = .next (State.onward (s.setReg rd
      (if u then s.pc + 8#32 + rotatedImm rot imm else s.pc + 8#32 - rotatedImm rot imm)))) ∧
  (∀ (c : Cond) (u : Bool) (rd : Reg) (rot1 rot2 : BitVec 4) (imm1 imm2 : BitVec 8) (s : State), s.runs c →
    s.pc ≠ 0xFFFFFFF8#32 → rd ≠ 15#4 →
    exec (.adrl c u rd rot1 imm1 rot2 imm2) s = .next { s.setReg rd
      (if u then s.pc + 8#32 + (rotatedImm rot1 imm1 + rotatedImm rot2 imm2)
        else s.pc + 8#32 - (rotatedImm rot1 imm1 + rotatedImm rot2 imm2)) with pc := s.pc + 8#32 }) ∧
  (∀ (c : Cond) (u : Bool) (rd : Reg) (rot1 rot2 : BitVec 4) (imm1 imm2 : BitVec 8) (s : State),
    Cond.passes c s.cpsr = false → s.pc ≠ 0xFFFFFFFC#32 → s.pc ≠ 0xFFFFFFF8#32 →
    exec (.adrl c u rd rot1 imm1 rot2 imm2) s = .next { s with pc := s.pc + 8#32 })
end

