-- ==== Sys2Proof/Laws/State.lean ====
section
/-! SUPPORT. One lemma for each field and each update of the state, so that no proof unfolds a record update. -/

namespace Sys2Proof.Machine

/-! ### `setGpr` writes `gprs` alone -/

@[simp] theorem State.setGpr_pc (s : State) (p : PhysReg) (v : Word) :
    (s.setGpr p v).pc = s.pc :=
  rfl

@[simp] theorem State.setGpr_cpsr (s : State) (p : PhysReg) (v : Word) :
    (s.setGpr p v).cpsr = s.cpsr :=
  rfl

@[simp] theorem State.setGpr_spsrFiq (s : State) (p : PhysReg) (v : Word) :
    (s.setGpr p v).spsrFiq = s.spsrFiq :=
  rfl

@[simp] theorem State.setGpr_spsrIrq (s : State) (p : PhysReg) (v : Word) :
    (s.setGpr p v).spsrIrq = s.spsrIrq :=
  rfl

@[simp] theorem State.setGpr_spsrSvc (s : State) (p : PhysReg) (v : Word) :
    (s.setGpr p v).spsrSvc = s.spsrSvc :=
  rfl

@[simp] theorem State.setGpr_spsrAbt (s : State) (p : PhysReg) (v : Word) :
    (s.setGpr p v).spsrAbt = s.spsrAbt :=
  rfl

@[simp] theorem State.setGpr_spsrUnd (s : State) (p : PhysReg) (v : Word) :
    (s.setGpr p v).spsrUnd = s.spsrUnd :=
  rfl

@[simp] theorem State.setGpr_mem (s : State) (p : PhysReg) (v : Word) :
    (s.setGpr p v).mem = s.mem :=
  rfl

@[simp] theorem State.setGpr_written (s : State) (p : PhysReg) (v : Word) :
    (s.setGpr p v).written = s.written :=
  rfl

@[simp] theorem State.setGpr_afterUserLdm (s : State) (p : PhysReg) (v : Word) :
    (s.setGpr p v).afterUserLdm = s.afterUserLdm :=
  rfl

@[simp] theorem State.setGpr_requests (s : State) (p : PhysReg) (v : Word) :
    (s.setGpr p v).requests = s.requests :=
  rfl

@[simp] theorem State.setGpr_draws (s : State) (p : PhysReg) (v : Word) :
    (s.setGpr p v).draws = s.draws :=
  rfl

@[simp] theorem State.setGpr_platform (s : State) (p : PhysReg) (v : Word) :
    (s.setGpr p v).platform = s.platform :=
  rfl

/-! ### `setRegIn` writes a general register or the PC -/

@[simp] theorem State.setRegIn_cpsr (s : State) (m : Mode) (i : Reg) (v : Word) :
    (s.setRegIn m i v).cpsr = s.cpsr := by
  unfold State.setRegIn; split <;> rfl

@[simp] theorem State.setRegIn_spsrFiq (s : State) (m : Mode) (i : Reg) (v : Word) :
    (s.setRegIn m i v).spsrFiq = s.spsrFiq := by
  unfold State.setRegIn; split <;> rfl

@[simp] theorem State.setRegIn_spsrIrq (s : State) (m : Mode) (i : Reg) (v : Word) :
    (s.setRegIn m i v).spsrIrq = s.spsrIrq := by
  unfold State.setRegIn; split <;> rfl

@[simp] theorem State.setRegIn_spsrSvc (s : State) (m : Mode) (i : Reg) (v : Word) :
    (s.setRegIn m i v).spsrSvc = s.spsrSvc := by
  unfold State.setRegIn; split <;> rfl

@[simp] theorem State.setRegIn_spsrAbt (s : State) (m : Mode) (i : Reg) (v : Word) :
    (s.setRegIn m i v).spsrAbt = s.spsrAbt := by
  unfold State.setRegIn; split <;> rfl

@[simp] theorem State.setRegIn_spsrUnd (s : State) (m : Mode) (i : Reg) (v : Word) :
    (s.setRegIn m i v).spsrUnd = s.spsrUnd := by
  unfold State.setRegIn; split <;> rfl

@[simp] theorem State.setRegIn_mem (s : State) (m : Mode) (i : Reg) (v : Word) :
    (s.setRegIn m i v).mem = s.mem := by
  unfold State.setRegIn; split <;> rfl

@[simp] theorem State.setRegIn_written (s : State) (m : Mode) (i : Reg) (v : Word) :
    (s.setRegIn m i v).written = s.written := by
  unfold State.setRegIn; split <;> rfl

@[simp] theorem State.setRegIn_afterUserLdm (s : State) (m : Mode) (i : Reg) (v : Word) :
    (s.setRegIn m i v).afterUserLdm = s.afterUserLdm := by
  unfold State.setRegIn; split <;> rfl

@[simp] theorem State.setRegIn_requests (s : State) (m : Mode) (i : Reg) (v : Word) :
    (s.setRegIn m i v).requests = s.requests := by
  unfold State.setRegIn; split <;> rfl

@[simp] theorem State.setRegIn_draws (s : State) (m : Mode) (i : Reg) (v : Word) :
    (s.setRegIn m i v).draws = s.draws := by
  unfold State.setRegIn; split <;> rfl

@[simp] theorem State.setRegIn_platform (s : State) (m : Mode) (i : Reg) (v : Word) :
    (s.setRegIn m i v).platform = s.platform := by
  unfold State.setRegIn; split <;> rfl

/-! ### `setReg` writes a general register or the PC -/

@[simp] theorem State.setReg_cpsr (s : State) (i : Reg) (v : Word) :
    (s.setReg i v).cpsr = s.cpsr := by
  simp [State.setReg]

@[simp] theorem State.setReg_spsrFiq (s : State) (i : Reg) (v : Word) :
    (s.setReg i v).spsrFiq = s.spsrFiq := by
  simp [State.setReg]

@[simp] theorem State.setReg_spsrIrq (s : State) (i : Reg) (v : Word) :
    (s.setReg i v).spsrIrq = s.spsrIrq := by
  simp [State.setReg]

@[simp] theorem State.setReg_spsrSvc (s : State) (i : Reg) (v : Word) :
    (s.setReg i v).spsrSvc = s.spsrSvc := by
  simp [State.setReg]

@[simp] theorem State.setReg_spsrAbt (s : State) (i : Reg) (v : Word) :
    (s.setReg i v).spsrAbt = s.spsrAbt := by
  simp [State.setReg]

@[simp] theorem State.setReg_spsrUnd (s : State) (i : Reg) (v : Word) :
    (s.setReg i v).spsrUnd = s.spsrUnd := by
  simp [State.setReg]

@[simp] theorem State.setReg_mem (s : State) (i : Reg) (v : Word) :
    (s.setReg i v).mem = s.mem := by
  simp [State.setReg]

@[simp] theorem State.setReg_written (s : State) (i : Reg) (v : Word) :
    (s.setReg i v).written = s.written := by
  simp [State.setReg]

@[simp] theorem State.setReg_afterUserLdm (s : State) (i : Reg) (v : Word) :
    (s.setReg i v).afterUserLdm = s.afterUserLdm := by
  simp [State.setReg]

@[simp] theorem State.setReg_requests (s : State) (i : Reg) (v : Word) :
    (s.setReg i v).requests = s.requests := by
  simp [State.setReg]

@[simp] theorem State.setReg_draws (s : State) (i : Reg) (v : Word) :
    (s.setReg i v).draws = s.draws := by
  simp [State.setReg]

@[simp] theorem State.setReg_platform (s : State) (i : Reg) (v : Word) :
    (s.setReg i v).platform = s.platform := by
  simp [State.setReg]

/-! ### `setSpsr` writes an SPSR -/

@[simp] theorem State.setSpsr_gprs (s : State) (m : Mode) (p : Psr) :
    (s.setSpsr m p).gprs = s.gprs := by
  cases m <;> rfl

@[simp] theorem State.setSpsr_pc (s : State) (m : Mode) (p : Psr) :
    (s.setSpsr m p).pc = s.pc := by
  cases m <;> rfl

@[simp] theorem State.setSpsr_cpsr (s : State) (m : Mode) (p : Psr) :
    (s.setSpsr m p).cpsr = s.cpsr := by
  cases m <;> rfl

@[simp] theorem State.setSpsr_mem (s : State) (m : Mode) (p : Psr) :
    (s.setSpsr m p).mem = s.mem := by
  cases m <;> rfl

@[simp] theorem State.setSpsr_written (s : State) (m : Mode) (p : Psr) :
    (s.setSpsr m p).written = s.written := by
  cases m <;> rfl

@[simp] theorem State.setSpsr_afterUserLdm (s : State) (m : Mode) (p : Psr) :
    (s.setSpsr m p).afterUserLdm = s.afterUserLdm := by
  cases m <;> rfl

@[simp] theorem State.setSpsr_requests (s : State) (m : Mode) (p : Psr) :
    (s.setSpsr m p).requests = s.requests := by
  cases m <;> rfl

@[simp] theorem State.setSpsr_draws (s : State) (m : Mode) (p : Psr) :
    (s.setSpsr m p).draws = s.draws := by
  cases m <;> rfl

@[simp] theorem State.setSpsr_platform (s : State) (m : Mode) (p : Psr) :
    (s.setSpsr m p).platform = s.platform := by
  cases m <;> rfl

/-! ### `setFlags` writes the CPSR alone -/

@[simp] theorem State.setFlags_gprs (s : State) (r : DpResult) :
    (s.setFlags r).gprs = s.gprs :=
  rfl

@[simp] theorem State.setFlags_pc (s : State) (r : DpResult) :
    (s.setFlags r).pc = s.pc :=
  rfl

@[simp] theorem State.setFlags_spsrFiq (s : State) (r : DpResult) :
    (s.setFlags r).spsrFiq = s.spsrFiq :=
  rfl

@[simp] theorem State.setFlags_spsrIrq (s : State) (r : DpResult) :
    (s.setFlags r).spsrIrq = s.spsrIrq :=
  rfl

@[simp] theorem State.setFlags_spsrSvc (s : State) (r : DpResult) :
    (s.setFlags r).spsrSvc = s.spsrSvc :=
  rfl

@[simp] theorem State.setFlags_spsrAbt (s : State) (r : DpResult) :
    (s.setFlags r).spsrAbt = s.spsrAbt :=
  rfl

@[simp] theorem State.setFlags_spsrUnd (s : State) (r : DpResult) :
    (s.setFlags r).spsrUnd = s.spsrUnd :=
  rfl

@[simp] theorem State.setFlags_mem (s : State) (r : DpResult) :
    (s.setFlags r).mem = s.mem :=
  rfl

@[simp] theorem State.setFlags_written (s : State) (r : DpResult) :
    (s.setFlags r).written = s.written :=
  rfl

@[simp] theorem State.setFlags_afterUserLdm (s : State) (r : DpResult) :
    (s.setFlags r).afterUserLdm = s.afterUserLdm :=
  rfl

@[simp] theorem State.setFlags_requests (s : State) (r : DpResult) :
    (s.setFlags r).requests = s.requests :=
  rfl

@[simp] theorem State.setFlags_draws (s : State) (r : DpResult) :
    (s.setFlags r).draws = s.draws :=
  rfl

@[simp] theorem State.setFlags_platform (s : State) (r : DpResult) :
    (s.setFlags r).platform = s.platform :=
  rfl

@[simp] theorem State.setFlags_cpsr (s : State) (r : DpResult) :
    (s.setFlags r).cpsr = s.cpsr.withResult r :=
  rfl

/-! ### `afterDraw` counts a draw -/

@[simp] theorem State.afterDraw_gprs (s : State) :
    (s.afterDraw).gprs = s.gprs :=
  rfl

@[simp] theorem State.afterDraw_pc (s : State) :
    (s.afterDraw).pc = s.pc :=
  rfl

@[simp] theorem State.afterDraw_cpsr (s : State) :
    (s.afterDraw).cpsr = s.cpsr :=
  rfl

@[simp] theorem State.afterDraw_spsrFiq (s : State) :
    (s.afterDraw).spsrFiq = s.spsrFiq :=
  rfl

@[simp] theorem State.afterDraw_spsrIrq (s : State) :
    (s.afterDraw).spsrIrq = s.spsrIrq :=
  rfl

@[simp] theorem State.afterDraw_spsrSvc (s : State) :
    (s.afterDraw).spsrSvc = s.spsrSvc :=
  rfl

@[simp] theorem State.afterDraw_spsrAbt (s : State) :
    (s.afterDraw).spsrAbt = s.spsrAbt :=
  rfl

@[simp] theorem State.afterDraw_spsrUnd (s : State) :
    (s.afterDraw).spsrUnd = s.spsrUnd :=
  rfl

@[simp] theorem State.afterDraw_mem (s : State) :
    (s.afterDraw).mem = s.mem :=
  rfl

@[simp] theorem State.afterDraw_written (s : State) :
    (s.afterDraw).written = s.written :=
  rfl

@[simp] theorem State.afterDraw_afterUserLdm (s : State) :
    (s.afterDraw).afterUserLdm = s.afterUserLdm :=
  rfl

@[simp] theorem State.afterDraw_requests (s : State) :
    (s.afterDraw).requests = s.requests :=
  rfl

@[simp] theorem State.afterDraw_platform (s : State) :
    (s.afterDraw).platform = s.platform :=
  rfl

@[simp] theorem State.afterDraw_draws (s : State) :
    s.afterDraw.draws = s.draws + 1 :=
  rfl

/-! ### `stored` writes memory and the set of bytes stored to -/

@[simp] theorem State.stored_gprs (s : State) (a : Word) (n : Nat) (v : Word) :
    (s.stored a n v).gprs = s.gprs :=
  rfl

@[simp] theorem State.stored_pc (s : State) (a : Word) (n : Nat) (v : Word) :
    (s.stored a n v).pc = s.pc :=
  rfl

@[simp] theorem State.stored_cpsr (s : State) (a : Word) (n : Nat) (v : Word) :
    (s.stored a n v).cpsr = s.cpsr :=
  rfl

@[simp] theorem State.stored_spsrFiq (s : State) (a : Word) (n : Nat) (v : Word) :
    (s.stored a n v).spsrFiq = s.spsrFiq :=
  rfl

@[simp] theorem State.stored_spsrIrq (s : State) (a : Word) (n : Nat) (v : Word) :
    (s.stored a n v).spsrIrq = s.spsrIrq :=
  rfl

@[simp] theorem State.stored_spsrSvc (s : State) (a : Word) (n : Nat) (v : Word) :
    (s.stored a n v).spsrSvc = s.spsrSvc :=
  rfl

@[simp] theorem State.stored_spsrAbt (s : State) (a : Word) (n : Nat) (v : Word) :
    (s.stored a n v).spsrAbt = s.spsrAbt :=
  rfl

@[simp] theorem State.stored_spsrUnd (s : State) (a : Word) (n : Nat) (v : Word) :
    (s.stored a n v).spsrUnd = s.spsrUnd :=
  rfl

@[simp] theorem State.stored_afterUserLdm (s : State) (a : Word) (n : Nat) (v : Word) :
    (s.stored a n v).afterUserLdm = s.afterUserLdm :=
  rfl

@[simp] theorem State.stored_requests (s : State) (a : Word) (n : Nat) (v : Word) :
    (s.stored a n v).requests = s.requests :=
  rfl

@[simp] theorem State.stored_draws (s : State) (a : Word) (n : Nat) (v : Word) :
    (s.stored a n v).draws = s.draws :=
  rfl

@[simp] theorem State.stored_platform (s : State) (a : Word) (n : Nat) (v : Word) :
    (s.stored a n v).platform = s.platform :=
  rfl

@[simp] theorem State.stored_mem (s : State) (a : Word) (n : Nat) (v : Word) :
    (s.stored a n v).mem = Memory.store s.mem a.toNat n v.toNat :=
  rfl

@[simp] theorem State.stored_written (s : State) (a : Word) (n : Nat) (v : Word) :
    (s.stored a n v).written = Written.add s.written a.toNat n :=
  rfl

/-! ### `writeBase` writes the base register -/

@[simp] theorem State.writeBase_cpsr (s : State) (idx : Index) (u : Bool) (rn : Reg) (off : Offset) :
    (s.writeBase idx u rn off).cpsr = s.cpsr := by
  unfold State.writeBase; split <;> simp

@[simp] theorem State.writeBase_spsrFiq (s : State) (idx : Index) (u : Bool) (rn : Reg) (off : Offset) :
    (s.writeBase idx u rn off).spsrFiq = s.spsrFiq := by
  unfold State.writeBase; split <;> simp

@[simp] theorem State.writeBase_spsrIrq (s : State) (idx : Index) (u : Bool) (rn : Reg) (off : Offset) :
    (s.writeBase idx u rn off).spsrIrq = s.spsrIrq := by
  unfold State.writeBase; split <;> simp

@[simp] theorem State.writeBase_spsrSvc (s : State) (idx : Index) (u : Bool) (rn : Reg) (off : Offset) :
    (s.writeBase idx u rn off).spsrSvc = s.spsrSvc := by
  unfold State.writeBase; split <;> simp

@[simp] theorem State.writeBase_spsrAbt (s : State) (idx : Index) (u : Bool) (rn : Reg) (off : Offset) :
    (s.writeBase idx u rn off).spsrAbt = s.spsrAbt := by
  unfold State.writeBase; split <;> simp

@[simp] theorem State.writeBase_spsrUnd (s : State) (idx : Index) (u : Bool) (rn : Reg) (off : Offset) :
    (s.writeBase idx u rn off).spsrUnd = s.spsrUnd := by
  unfold State.writeBase; split <;> simp

@[simp] theorem State.writeBase_mem (s : State) (idx : Index) (u : Bool) (rn : Reg) (off : Offset) :
    (s.writeBase idx u rn off).mem = s.mem := by
  unfold State.writeBase; split <;> simp

@[simp] theorem State.writeBase_written (s : State) (idx : Index) (u : Bool) (rn : Reg) (off : Offset) :
    (s.writeBase idx u rn off).written = s.written := by
  unfold State.writeBase; split <;> simp

@[simp] theorem State.writeBase_afterUserLdm (s : State) (idx : Index) (u : Bool) (rn : Reg) (off : Offset) :
    (s.writeBase idx u rn off).afterUserLdm = s.afterUserLdm := by
  unfold State.writeBase; split <;> simp

@[simp] theorem State.writeBase_requests (s : State) (idx : Index) (u : Bool) (rn : Reg) (off : Offset) :
    (s.writeBase idx u rn off).requests = s.requests := by
  unfold State.writeBase; split <;> simp

@[simp] theorem State.writeBase_draws (s : State) (idx : Index) (u : Bool) (rn : Reg) (off : Offset) :
    (s.writeBase idx u rn off).draws = s.draws := by
  unfold State.writeBase; split <;> simp

@[simp] theorem State.writeBase_platform (s : State) (idx : Index) (u : Bool) (rn : Reg) (off : Offset) :
    (s.writeBase idx u rn off).platform = s.platform := by
  unfold State.writeBase; split <;> simp

/-! ### `abortedBase` writes the base register or nothing -/

@[simp] theorem State.abortedBase_cpsr (s : State) (idx : Index) (u : Bool) (rn : Reg) (off : Offset) :
    (s.abortedBase idx u rn off).cpsr = s.cpsr := by
  unfold State.abortedBase; split <;> simp

@[simp] theorem State.abortedBase_spsrFiq (s : State) (idx : Index) (u : Bool) (rn : Reg) (off : Offset) :
    (s.abortedBase idx u rn off).spsrFiq = s.spsrFiq := by
  unfold State.abortedBase; split <;> simp

@[simp] theorem State.abortedBase_spsrIrq (s : State) (idx : Index) (u : Bool) (rn : Reg) (off : Offset) :
    (s.abortedBase idx u rn off).spsrIrq = s.spsrIrq := by
  unfold State.abortedBase; split <;> simp

@[simp] theorem State.abortedBase_spsrSvc (s : State) (idx : Index) (u : Bool) (rn : Reg) (off : Offset) :
    (s.abortedBase idx u rn off).spsrSvc = s.spsrSvc := by
  unfold State.abortedBase; split <;> simp

@[simp] theorem State.abortedBase_spsrAbt (s : State) (idx : Index) (u : Bool) (rn : Reg) (off : Offset) :
    (s.abortedBase idx u rn off).spsrAbt = s.spsrAbt := by
  unfold State.abortedBase; split <;> simp

@[simp] theorem State.abortedBase_spsrUnd (s : State) (idx : Index) (u : Bool) (rn : Reg) (off : Offset) :
    (s.abortedBase idx u rn off).spsrUnd = s.spsrUnd := by
  unfold State.abortedBase; split <;> simp

@[simp] theorem State.abortedBase_mem (s : State) (idx : Index) (u : Bool) (rn : Reg) (off : Offset) :
    (s.abortedBase idx u rn off).mem = s.mem := by
  unfold State.abortedBase; split <;> simp

@[simp] theorem State.abortedBase_written (s : State) (idx : Index) (u : Bool) (rn : Reg) (off : Offset) :
    (s.abortedBase idx u rn off).written = s.written := by
  unfold State.abortedBase; split <;> simp

@[simp] theorem State.abortedBase_afterUserLdm (s : State) (idx : Index) (u : Bool) (rn : Reg) (off : Offset) :
    (s.abortedBase idx u rn off).afterUserLdm = s.afterUserLdm := by
  unfold State.abortedBase; split <;> simp

@[simp] theorem State.abortedBase_requests (s : State) (idx : Index) (u : Bool) (rn : Reg) (off : Offset) :
    (s.abortedBase idx u rn off).requests = s.requests := by
  unfold State.abortedBase; split <;> simp

@[simp] theorem State.abortedBase_draws (s : State) (idx : Index) (u : Bool) (rn : Reg) (off : Offset) :
    (s.abortedBase idx u rn off).draws = s.draws := by
  unfold State.abortedBase; split <;> simp

@[simp] theorem State.abortedBase_platform (s : State) (idx : Index) (u : Bool) (rn : Reg) (off : Offset) :
    (s.abortedBase idx u rn off).platform = s.platform := by
  unfold State.abortedBase; split <;> simp

/-! ### `writeBlockBase` writes the base register -/

@[simp] theorem State.writeBlockBase_cpsr (s : State) (am : BlockMode) (w : Bool) (rn : Reg) (n : Nat) :
    (s.writeBlockBase am w rn n).cpsr = s.cpsr := by
  unfold State.writeBlockBase; split <;> simp

@[simp] theorem State.writeBlockBase_spsrFiq (s : State) (am : BlockMode) (w : Bool) (rn : Reg) (n : Nat) :
    (s.writeBlockBase am w rn n).spsrFiq = s.spsrFiq := by
  unfold State.writeBlockBase; split <;> simp

@[simp] theorem State.writeBlockBase_spsrIrq (s : State) (am : BlockMode) (w : Bool) (rn : Reg) (n : Nat) :
    (s.writeBlockBase am w rn n).spsrIrq = s.spsrIrq := by
  unfold State.writeBlockBase; split <;> simp

@[simp] theorem State.writeBlockBase_spsrSvc (s : State) (am : BlockMode) (w : Bool) (rn : Reg) (n : Nat) :
    (s.writeBlockBase am w rn n).spsrSvc = s.spsrSvc := by
  unfold State.writeBlockBase; split <;> simp

@[simp] theorem State.writeBlockBase_spsrAbt (s : State) (am : BlockMode) (w : Bool) (rn : Reg) (n : Nat) :
    (s.writeBlockBase am w rn n).spsrAbt = s.spsrAbt := by
  unfold State.writeBlockBase; split <;> simp

@[simp] theorem State.writeBlockBase_spsrUnd (s : State) (am : BlockMode) (w : Bool) (rn : Reg) (n : Nat) :
    (s.writeBlockBase am w rn n).spsrUnd = s.spsrUnd := by
  unfold State.writeBlockBase; split <;> simp

@[simp] theorem State.writeBlockBase_mem (s : State) (am : BlockMode) (w : Bool) (rn : Reg) (n : Nat) :
    (s.writeBlockBase am w rn n).mem = s.mem := by
  unfold State.writeBlockBase; split <;> simp

@[simp] theorem State.writeBlockBase_written (s : State) (am : BlockMode) (w : Bool) (rn : Reg) (n : Nat) :
    (s.writeBlockBase am w rn n).written = s.written := by
  unfold State.writeBlockBase; split <;> simp

@[simp] theorem State.writeBlockBase_afterUserLdm (s : State) (am : BlockMode) (w : Bool) (rn : Reg) (n : Nat) :
    (s.writeBlockBase am w rn n).afterUserLdm = s.afterUserLdm := by
  unfold State.writeBlockBase; split <;> simp

@[simp] theorem State.writeBlockBase_requests (s : State) (am : BlockMode) (w : Bool) (rn : Reg) (n : Nat) :
    (s.writeBlockBase am w rn n).requests = s.requests := by
  unfold State.writeBlockBase; split <;> simp

@[simp] theorem State.writeBlockBase_draws (s : State) (am : BlockMode) (w : Bool) (rn : Reg) (n : Nat) :
    (s.writeBlockBase am w rn n).draws = s.draws := by
  unfold State.writeBlockBase; split <;> simp

@[simp] theorem State.writeBlockBase_platform (s : State) (am : BlockMode) (w : Bool) (rn : Reg) (n : Nat) :
    (s.writeBlockBase am w rn n).platform = s.platform := by
  unfold State.writeBlockBase; split <;> simp

/-! ### `abortedBlockBase` writes the base register or nothing -/

@[simp] theorem State.abortedBlockBase_cpsr (s : State) (am : BlockMode) (w : Bool) (rn : Reg) (n : Nat) :
    (s.abortedBlockBase am w rn n).cpsr = s.cpsr := by
  unfold State.abortedBlockBase; split <;> simp

@[simp] theorem State.abortedBlockBase_spsrFiq (s : State) (am : BlockMode) (w : Bool) (rn : Reg) (n : Nat) :
    (s.abortedBlockBase am w rn n).spsrFiq = s.spsrFiq := by
  unfold State.abortedBlockBase; split <;> simp

@[simp] theorem State.abortedBlockBase_spsrIrq (s : State) (am : BlockMode) (w : Bool) (rn : Reg) (n : Nat) :
    (s.abortedBlockBase am w rn n).spsrIrq = s.spsrIrq := by
  unfold State.abortedBlockBase; split <;> simp

@[simp] theorem State.abortedBlockBase_spsrSvc (s : State) (am : BlockMode) (w : Bool) (rn : Reg) (n : Nat) :
    (s.abortedBlockBase am w rn n).spsrSvc = s.spsrSvc := by
  unfold State.abortedBlockBase; split <;> simp

@[simp] theorem State.abortedBlockBase_spsrAbt (s : State) (am : BlockMode) (w : Bool) (rn : Reg) (n : Nat) :
    (s.abortedBlockBase am w rn n).spsrAbt = s.spsrAbt := by
  unfold State.abortedBlockBase; split <;> simp

@[simp] theorem State.abortedBlockBase_spsrUnd (s : State) (am : BlockMode) (w : Bool) (rn : Reg) (n : Nat) :
    (s.abortedBlockBase am w rn n).spsrUnd = s.spsrUnd := by
  unfold State.abortedBlockBase; split <;> simp

@[simp] theorem State.abortedBlockBase_mem (s : State) (am : BlockMode) (w : Bool) (rn : Reg) (n : Nat) :
    (s.abortedBlockBase am w rn n).mem = s.mem := by
  unfold State.abortedBlockBase; split <;> simp

@[simp] theorem State.abortedBlockBase_written (s : State) (am : BlockMode) (w : Bool) (rn : Reg) (n : Nat) :
    (s.abortedBlockBase am w rn n).written = s.written := by
  unfold State.abortedBlockBase; split <;> simp

@[simp] theorem State.abortedBlockBase_afterUserLdm (s : State) (am : BlockMode) (w : Bool) (rn : Reg) (n : Nat) :
    (s.abortedBlockBase am w rn n).afterUserLdm = s.afterUserLdm := by
  unfold State.abortedBlockBase; split <;> simp

@[simp] theorem State.abortedBlockBase_requests (s : State) (am : BlockMode) (w : Bool) (rn : Reg) (n : Nat) :
    (s.abortedBlockBase am w rn n).requests = s.requests := by
  unfold State.abortedBlockBase; split <;> simp

@[simp] theorem State.abortedBlockBase_draws (s : State) (am : BlockMode) (w : Bool) (rn : Reg) (n : Nat) :
    (s.abortedBlockBase am w rn n).draws = s.draws := by
  unfold State.abortedBlockBase; split <;> simp

@[simp] theorem State.abortedBlockBase_platform (s : State) (am : BlockMode) (w : Bool) (rn : Reg) (n : Nat) :
    (s.abortedBlockBase am w rn n).platform = s.platform := by
  unfold State.abortedBlockBase; split <;> simp

/-! ### `multiplyFlags` writes the CPSR and draws -/

@[simp] theorem State.multiplyFlags_gprs (s : State) (p : Word) :
    (s.multiplyFlags p).gprs = s.gprs :=
  rfl

@[simp] theorem State.multiplyFlags_pc (s : State) (p : Word) :
    (s.multiplyFlags p).pc = s.pc :=
  rfl

@[simp] theorem State.multiplyFlags_spsrFiq (s : State) (p : Word) :
    (s.multiplyFlags p).spsrFiq = s.spsrFiq :=
  rfl

@[simp] theorem State.multiplyFlags_spsrIrq (s : State) (p : Word) :
    (s.multiplyFlags p).spsrIrq = s.spsrIrq :=
  rfl

@[simp] theorem State.multiplyFlags_spsrSvc (s : State) (p : Word) :
    (s.multiplyFlags p).spsrSvc = s.spsrSvc :=
  rfl

@[simp] theorem State.multiplyFlags_spsrAbt (s : State) (p : Word) :
    (s.multiplyFlags p).spsrAbt = s.spsrAbt :=
  rfl

@[simp] theorem State.multiplyFlags_spsrUnd (s : State) (p : Word) :
    (s.multiplyFlags p).spsrUnd = s.spsrUnd :=
  rfl

@[simp] theorem State.multiplyFlags_mem (s : State) (p : Word) :
    (s.multiplyFlags p).mem = s.mem :=
  rfl

@[simp] theorem State.multiplyFlags_written (s : State) (p : Word) :
    (s.multiplyFlags p).written = s.written :=
  rfl

@[simp] theorem State.multiplyFlags_afterUserLdm (s : State) (p : Word) :
    (s.multiplyFlags p).afterUserLdm = s.afterUserLdm :=
  rfl

@[simp] theorem State.multiplyFlags_requests (s : State) (p : Word) :
    (s.multiplyFlags p).requests = s.requests :=
  rfl

@[simp] theorem State.multiplyFlags_platform (s : State) (p : Word) :
    (s.multiplyFlags p).platform = s.platform :=
  rfl

@[simp] theorem State.multiplyFlags_draws (s : State) (p : Word) :
    (s.multiplyFlags p).draws = s.draws + 1 :=
  rfl

/-! ### `longMultiplyFlags` writes the CPSR and draws -/

@[simp] theorem State.longMultiplyFlags_gprs (s : State) (p : BitVec 64) :
    (s.longMultiplyFlags p).gprs = s.gprs :=
  rfl

@[simp] theorem State.longMultiplyFlags_pc (s : State) (p : BitVec 64) :
    (s.longMultiplyFlags p).pc = s.pc :=
  rfl

@[simp] theorem State.longMultiplyFlags_spsrFiq (s : State) (p : BitVec 64) :
    (s.longMultiplyFlags p).spsrFiq = s.spsrFiq :=
  rfl

@[simp] theorem State.longMultiplyFlags_spsrIrq (s : State) (p : BitVec 64) :
    (s.longMultiplyFlags p).spsrIrq = s.spsrIrq :=
  rfl

@[simp] theorem State.longMultiplyFlags_spsrSvc (s : State) (p : BitVec 64) :
    (s.longMultiplyFlags p).spsrSvc = s.spsrSvc :=
  rfl

@[simp] theorem State.longMultiplyFlags_spsrAbt (s : State) (p : BitVec 64) :
    (s.longMultiplyFlags p).spsrAbt = s.spsrAbt :=
  rfl

@[simp] theorem State.longMultiplyFlags_spsrUnd (s : State) (p : BitVec 64) :
    (s.longMultiplyFlags p).spsrUnd = s.spsrUnd :=
  rfl

@[simp] theorem State.longMultiplyFlags_mem (s : State) (p : BitVec 64) :
    (s.longMultiplyFlags p).mem = s.mem :=
  rfl

@[simp] theorem State.longMultiplyFlags_written (s : State) (p : BitVec 64) :
    (s.longMultiplyFlags p).written = s.written :=
  rfl

@[simp] theorem State.longMultiplyFlags_afterUserLdm (s : State) (p : BitVec 64) :
    (s.longMultiplyFlags p).afterUserLdm = s.afterUserLdm :=
  rfl

@[simp] theorem State.longMultiplyFlags_requests (s : State) (p : BitVec 64) :
    (s.longMultiplyFlags p).requests = s.requests :=
  rfl

@[simp] theorem State.longMultiplyFlags_platform (s : State) (p : BitVec 64) :
    (s.longMultiplyFlags p).platform = s.platform :=
  rfl

@[simp] theorem State.longMultiplyFlags_draws (s : State) (p : BitVec 64) :
    (s.longMultiplyFlags p).draws = s.draws + 1 :=
  rfl

/-! ### `onward` moves the PC alone -/

@[simp] theorem State.onward_gprs (s : State) :
    (s.onward).gprs = s.gprs :=
  rfl

@[simp] theorem State.onward_cpsr (s : State) :
    (s.onward).cpsr = s.cpsr :=
  rfl

@[simp] theorem State.onward_spsrFiq (s : State) :
    (s.onward).spsrFiq = s.spsrFiq :=
  rfl

@[simp] theorem State.onward_spsrIrq (s : State) :
    (s.onward).spsrIrq = s.spsrIrq :=
  rfl

@[simp] theorem State.onward_spsrSvc (s : State) :
    (s.onward).spsrSvc = s.spsrSvc :=
  rfl

@[simp] theorem State.onward_spsrAbt (s : State) :
    (s.onward).spsrAbt = s.spsrAbt :=
  rfl

@[simp] theorem State.onward_spsrUnd (s : State) :
    (s.onward).spsrUnd = s.spsrUnd :=
  rfl

@[simp] theorem State.onward_mem (s : State) :
    (s.onward).mem = s.mem :=
  rfl

@[simp] theorem State.onward_written (s : State) :
    (s.onward).written = s.written :=
  rfl

@[simp] theorem State.onward_afterUserLdm (s : State) :
    (s.onward).afterUserLdm = s.afterUserLdm :=
  rfl

@[simp] theorem State.onward_requests (s : State) :
    (s.onward).requests = s.requests :=
  rfl

@[simp] theorem State.onward_draws (s : State) :
    (s.onward).draws = s.draws :=
  rfl

@[simp] theorem State.onward_platform (s : State) :
    (s.onward).platform = s.platform :=
  rfl

@[simp] theorem State.onward_pc (s : State) :
    s.onward.pc = s.pc + 4#32 :=
  rfl

/-! ### `sampled` takes an interrupt sample -/

@[simp] theorem State.sampled_gprs (s : State) :
    (s.sampled).gprs = s.gprs :=
  rfl

@[simp] theorem State.sampled_pc (s : State) :
    (s.sampled).pc = s.pc :=
  rfl

@[simp] theorem State.sampled_cpsr (s : State) :
    (s.sampled).cpsr = s.cpsr :=
  rfl

@[simp] theorem State.sampled_spsrFiq (s : State) :
    (s.sampled).spsrFiq = s.spsrFiq :=
  rfl

@[simp] theorem State.sampled_spsrIrq (s : State) :
    (s.sampled).spsrIrq = s.spsrIrq :=
  rfl

@[simp] theorem State.sampled_spsrSvc (s : State) :
    (s.sampled).spsrSvc = s.spsrSvc :=
  rfl

@[simp] theorem State.sampled_spsrAbt (s : State) :
    (s.sampled).spsrAbt = s.spsrAbt :=
  rfl

@[simp] theorem State.sampled_spsrUnd (s : State) :
    (s.sampled).spsrUnd = s.spsrUnd :=
  rfl

@[simp] theorem State.sampled_mem (s : State) :
    (s.sampled).mem = s.mem :=
  rfl

@[simp] theorem State.sampled_written (s : State) :
    (s.sampled).written = s.written :=
  rfl

@[simp] theorem State.sampled_afterUserLdm (s : State) :
    (s.sampled).afterUserLdm = s.afterUserLdm :=
  rfl

@[simp] theorem State.sampled_draws (s : State) :
    (s.sampled).draws = s.draws :=
  rfl

@[simp] theorem State.sampled_platform (s : State) :
    (s.sampled).platform = s.platform :=
  rfl

@[simp] theorem State.sampled_requests (s : State) :
    s.sampled.requests = s.requests.tail :=
  rfl

/-! ### `executing` clears the mark of a User-bank `ldm` -/

@[simp] theorem State.executing_gprs (s : State) :
    (s.executing).gprs = s.gprs :=
  rfl

@[simp] theorem State.executing_pc (s : State) :
    (s.executing).pc = s.pc :=
  rfl

@[simp] theorem State.executing_cpsr (s : State) :
    (s.executing).cpsr = s.cpsr :=
  rfl

@[simp] theorem State.executing_spsrFiq (s : State) :
    (s.executing).spsrFiq = s.spsrFiq :=
  rfl

@[simp] theorem State.executing_spsrIrq (s : State) :
    (s.executing).spsrIrq = s.spsrIrq :=
  rfl

@[simp] theorem State.executing_spsrSvc (s : State) :
    (s.executing).spsrSvc = s.spsrSvc :=
  rfl

@[simp] theorem State.executing_spsrAbt (s : State) :
    (s.executing).spsrAbt = s.spsrAbt :=
  rfl

@[simp] theorem State.executing_spsrUnd (s : State) :
    (s.executing).spsrUnd = s.spsrUnd :=
  rfl

@[simp] theorem State.executing_mem (s : State) :
    (s.executing).mem = s.mem :=
  rfl

@[simp] theorem State.executing_written (s : State) :
    (s.executing).written = s.written :=
  rfl

@[simp] theorem State.executing_requests (s : State) :
    (s.executing).requests = s.requests :=
  rfl

@[simp] theorem State.executing_draws (s : State) :
    (s.executing).draws = s.draws :=
  rfl

@[simp] theorem State.executing_platform (s : State) :
    (s.executing).platform = s.platform :=
  rfl

@[simp] theorem State.executing_afterUserLdm (s : State) :
    s.executing.afterUserLdm = false :=
  rfl

/-! ### `enter` writes a link register, an SPSR, the CPSR and the PC -/

@[simp] theorem enter_mem (e : Exc) (link : Word) (s : State) :
    (enter e link s).mem = s.mem := by
  simp [enter]

@[simp] theorem enter_written (e : Exc) (link : Word) (s : State) :
    (enter e link s).written = s.written := by
  simp [enter]

@[simp] theorem enter_afterUserLdm (e : Exc) (link : Word) (s : State) :
    (enter e link s).afterUserLdm = s.afterUserLdm := by
  simp [enter]

@[simp] theorem enter_requests (e : Exc) (link : Word) (s : State) :
    (enter e link s).requests = s.requests := by
  simp [enter]

@[simp] theorem enter_draws (e : Exc) (link : Word) (s : State) :
    (enter e link s).draws = s.draws := by
  simp [enter]

@[simp] theorem enter_platform (e : Exc) (link : Word) (s : State) :
    (enter e link s).platform = s.platform := by
  simp [enter]

@[simp] theorem enter_cpsr (e : Exc) (link : Word) (s : State) :
    (enter e link s).cpsr = s.cpsr.entered e :=
  rfl

@[simp] theorem enter_pc (e : Exc) (link : Word) (s : State) :
    (enter e link s).pc = e.vector :=
  rfl

end Sys2Proof.Machine
end

