-- ==== Sys2Proof/Laws/Memory.lean ====
section
/-! SUPPORT. Memory: reading after writing, and the canonical form, which every operation keeps (R36, R60, R62, R75). -/

namespace Sys2Proof.Machine

/-! ### The canonical form -/

/-- Below the least listed address every byte is an unlisted one. -/
theorem Memory.byte_of_wfFrom (m : Memory) (lo x : Nat) (h : Memory.wfFrom lo m = true) (hx : x < lo) :
    Memory.byte m x = Config.initialByte := by
  induction m generalizing lo with
  | nil => rfl
  | cons cell rest ih =>
    obtain ⟨y, v⟩ := cell
    simp only [Memory.wfFrom, Bool.and_eq_true, decide_eq_true_eq] at h
    have hne : x ≠ y := by omega
    simp only [Memory.byte, if_neg hne]
    exact ih (y + 1) h.2 (by omega)

theorem Memory.wfFrom_mono (m : Memory) (lo lo' : Nat) (h : Memory.wfFrom lo' m = true) (hle : lo ≤ lo') :
    Memory.wfFrom lo m = true := by
  cases m with
  | nil => rfl
  | cons cell rest =>
    obtain ⟨y, v⟩ := cell
    simp only [Memory.wfFrom, Bool.and_eq_true, decide_eq_true_eq] at h ⊢
    exact ⟨⟨by omega, h.1.2⟩, h.2⟩

theorem Memory.wfFrom_setByte (m : Memory) (lo a : Nat) (b : Byte) (h : Memory.wfFrom lo m = true) (ha : lo ≤ a) :
    Memory.wfFrom lo (Memory.setByte m a b) = true := by
  induction m generalizing lo with
  | nil =>
    simp only [Memory.setByte]
    split
    · rfl
    · simp [Memory.wfFrom, *]
  | cons cell rest ih =>
    obtain ⟨y, v⟩ := cell
    have h' := h
    simp only [Memory.wfFrom, Bool.and_eq_true, decide_eq_true_eq] at h
    simp only [Memory.setByte]
    split
    · split
      · exact h'
      · simp only [Memory.wfFrom, Bool.and_eq_true, decide_eq_true_eq]
        exact ⟨⟨ha, ‹_›⟩, ⟨⟨by omega, h.1.2⟩, h.2⟩⟩
    · split
      · split
        · exact Memory.wfFrom_mono rest lo (y + 1) h.2 (by omega)
        · simp only [Memory.wfFrom, Bool.and_eq_true, decide_eq_true_eq]
          exact ⟨⟨ha, ‹_›⟩, by subst_vars; exact h.2⟩
      · simp only [Memory.wfFrom, Bool.and_eq_true, decide_eq_true_eq]
        exact ⟨h.1, ih (y + 1) h.2 (by omega)⟩

/-- Storing a byte keeps the canonical form. -/
theorem Memory.wf_setByte (m : Memory) (a : Nat) (b : Byte) (h : Memory.wf m = true) :
    Memory.wf (Memory.setByte m a b) = true :=
  Memory.wfFrom_setByte m 0 a b h (Nat.zero_le a)

/-- Storing keeps the canonical form. -/
theorem Memory.wf_store (m : Memory) (a n v : Nat) (h : Memory.wf m = true) : Memory.wf (Memory.store m a n v) = true := by
  induction n generalizing m a v with
  | zero => exact h
  | succ n ih => exact ih _ _ _ (Memory.wf_setByte m a _ h)

/-- Placing a word keeps the canonical form. -/
theorem placeWord_wf (m : Memory) (a : Nat) (w : Word) (h : Memory.wf m = true) : Memory.wf (placeWord m a w) = true :=
  Memory.wf_setByte _ _ _ (Memory.wf_setByte _ _ _ (Memory.wf_setByte _ _ _ (Memory.wf_setByte _ _ _ h)))

/-- Memory at reset is in the canonical form. -/
theorem State.reset_mem_wf : Memory.wf State.reset.mem = true :=
  rfl

/-! ### Addresses stay below 2^32 -/

theorem Memory.mem_setByte (m : Memory) (a : Nat) (b : Byte) (cell : Host.Cell) (h : cell ∈ Memory.setByte m a b) :
    cell ∈ m ∨ cell = (a, b) := by
  induction m with
  | nil =>
    simp only [Memory.setByte] at h
    split at h <;> simp_all
  | cons head rest ih =>
    obtain ⟨y, v⟩ := head
    simp only [Memory.setByte] at h
    split at h
    · split at h
      · exact .inl h
      · rcases List.mem_cons.1 h with rfl | h
        · exact .inr rfl
        · exact .inl h
    · split at h
      · split at h
        · exact .inl (List.mem_cons_of_mem _ h)
        · rcases List.mem_cons.1 h with rfl | h
          · exact .inr rfl
          · exact .inl (List.mem_cons_of_mem _ h)
      · rcases List.mem_cons.1 h with rfl | h
        · exact .inl List.mem_cons_self
        · rcases ih h with h | h
          · exact .inl (List.mem_cons_of_mem _ h)
          · exact .inr h

theorem Memory.inSpace_setByte (m : Memory) (a : Nat) (b : Byte) (h : Memory.inSpace m = true) (ha : a < 4294967296) :
    Memory.inSpace (Memory.setByte m a b) = true := by
  unfold Memory.inSpace at h ⊢
  rw [List.all_eq_true] at h ⊢
  intro cell hc
  rcases Memory.mem_setByte m a b cell hc with hm | rfl
  · exact h cell hm
  · exact decide_eq_true ha

theorem Memory.inSpace_store (m : Memory) (a n v : Nat) (h : Memory.inSpace m = true) (ha : a + n ≤ 4294967296) :
    Memory.inSpace (Memory.store m a n v) = true := by
  induction n generalizing m a v with
  | zero => exact h
  | succ n ih => exact ih _ _ _ (Memory.inSpace_setByte m a _ h (by omega)) (by omega)

/-! ### Reading after writing -/

theorem Memory.byte_setByte_from (m : Memory) (lo a x : Nat) (b : Byte) (h : Memory.wfFrom lo m = true) :
    Memory.byte (Memory.setByte m a b) x = if x = a then b else Memory.byte m x := by
  induction m generalizing lo with
  | nil =>
    by_cases hb : b = Config.initialByte <;> by_cases hx : x = a <;> simp [Memory.setByte, Memory.byte, hb, hx]
  | cons cell rest ih =>
    obtain ⟨y, v⟩ := cell
    simp only [Memory.wfFrom, Bool.and_eq_true, decide_eq_true_eq] at h
    simp only [Memory.setByte]
    split
    · rename_i hlt
      split
      · rename_i hb
        by_cases hx : x = a
        · have hne : x ≠ y := by omega
          have hr := Memory.byte_of_wfFrom rest (y + 1) x h.2 (by omega)
          rw [if_pos hx, hb, Memory.byte, if_neg hne, hr]
        · simp [hx]
      · simp [Memory.byte]
    · split
      · rename_i hlt ha
        subst ha
        split
        · rename_i hb
          by_cases hx : x = a
          · have hr := Memory.byte_of_wfFrom rest (a + 1) x h.2 (by omega)
            simp [hx, hb]; simpa [hx] using hr
          · simp [Memory.byte, hx]
        · by_cases hx : x = a <;> simp [Memory.byte, hx]
      · rename_i hlt ha
        by_cases hy : x = y
        · have hne : x ≠ a := by omega
          simp [Memory.byte, hy]; omega
        · simp only [Memory.byte, if_neg hy]
          exact ih (y + 1) h.2

/-- A byte reads as it was stored, and every other byte as before. -/
theorem Memory.byte_setByte (m : Memory) (a x : Nat) (b : Byte) (h : Memory.wf m = true) :
    Memory.byte (Memory.setByte m a b) x = if x = a then b else Memory.byte m x :=
  Memory.byte_setByte_from m 0 a x b h

/-- The bytes a store changes, and what they become (R62, R65). -/
theorem Memory.byte_store (m : Memory) (a n v x : Nat) (h : Memory.wf m = true) :
    Memory.byte (Memory.store m a n v) x =
      if a ≤ x ∧ x < a + n then BitVec.ofNat 8 (v / 256 ^ (x - a)) else Memory.byte m x := by
  induction n generalizing m a v with
  | zero => rw [if_neg (by omega)]; rfl
  | succ n ih =>
    rw [Memory.store, ih _ _ _ (Memory.wf_setByte m a _ h)]
    by_cases hx : x = a
    · subst hx
      rw [if_neg (by omega), Memory.byte_setByte m x x _ h, if_pos rfl, if_pos (by omega)]
      simp
    · by_cases hin : a + 1 ≤ x ∧ x < a + 1 + n
      · rw [if_pos hin, if_pos (by omega), Nat.div_div_eq_div_mul, ← Nat.pow_succ',
          show (x - (a + 1)).succ = x - a by omega]
      · rw [if_neg hin, Memory.byte_setByte m a x _ h, if_neg hx, if_neg (by omega)]

/-- A store leaves every byte outside it alone. -/
theorem Memory.byte_store_outside (m : Memory) (a n v x : Nat) (h : Memory.wf m = true) (hx : x < a ∨ a + n ≤ x) :
    Memory.byte (Memory.store m a n v) x = Memory.byte m x := by
  rw [Memory.byte_store m a n v x h, if_neg (by omega)]

/-- A read depends on the bytes it reads alone. -/
theorem Memory.load_congr (m k : Memory) (a n : Nat) (h : ∀ x, a ≤ x → x < a + n → Memory.byte m x = Memory.byte k x) :
    Memory.load m a n = Memory.load k a n := by
  induction n generalizing a with
  | zero => rfl
  | succ n ih =>
    rw [Memory.load, Memory.load, h a (by omega) (by omega), ih (a + 1) fun x h1 h2 => h x (by omega) (by omega)]

theorem Memory.load_lt (m : Memory) (a n : Nat) : Memory.load m a n < 256 ^ n := by
  induction n generalizing a with
  | zero => simp [Memory.load]
  | succ n ih =>
    have h1 := (Memory.byte m a).isLt
    have h2 := ih (a + 1)
    rw [Memory.load, Nat.pow_succ]
    omega

/-- What is stored is read back, as far as its width goes (R64, R65). -/
theorem Memory.load_store (m : Memory) (a n v : Nat) (h : Memory.wf m = true) :
    Memory.load (Memory.store m a n v) a n = v % 256 ^ n := by
  induction n generalizing m a v with
  | zero => simp [Memory.load, Nat.mod_one]
  | succ n ih =>
    have hb : Memory.byte (Memory.store m a (n + 1) v) a = BitVec.ofNat 8 v := by
      rw [Memory.byte_store m a (n + 1) v a h, if_pos (by omega)]; simp
    rw [Memory.load, hb, Memory.store, ih _ _ _ (Memory.wf_setByte m a _ h), Nat.pow_succ', BitVec.toNat_ofNat,
      Nat.mod_mul]

/-- A read of bytes that a store leaves alone answers as before. -/
theorem Memory.load_store_outside (m : Memory) (a n v b k : Nat) (h : Memory.wf m = true)
    (hd : b + k ≤ a ∨ a + n ≤ b) : Memory.load (Memory.store m a n v) b k = Memory.load m b k :=
  Memory.load_congr _ _ _ _ fun x h1 h2 => Memory.byte_store_outside m a n v x h (by omega)

/-- Equal memories are equal data: two canonical memories with the same bytes are the same list. -/
theorem Memory.eq_of_byte_from (m k : Memory) (lo : Nat) (hm : Memory.wfFrom lo m = true)
    (hk : Memory.wfFrom lo k = true) (h : ∀ x, Memory.byte m x = Memory.byte k x) : m = k := by
  induction m generalizing k lo with
  | nil =>
    cases k with
    | nil => rfl
    | cons cell rest =>
      obtain ⟨y, v⟩ := cell
      simp only [Memory.wfFrom, Bool.and_eq_true, decide_eq_true_eq] at hk
      exact absurd (by simpa [Memory.byte] using (h y).symm) hk.1.2
  | cons cell rest ih =>
    obtain ⟨y, v⟩ := cell
    have hm' := hm
    simp only [Memory.wfFrom, Bool.and_eq_true, decide_eq_true_eq] at hm
    cases k with
    | nil => exact absurd (by simpa [Memory.byte] using h y) hm.1.2
    | cons cell' rest' =>
      obtain ⟨z, w⟩ := cell'
      have hk' := hk
      simp only [Memory.wfFrom, Bool.and_eq_true, decide_eq_true_eq] at hk
      have hyz : y = z := by
        rcases Nat.lt_trichotomy y z with hlt | heq | hlt
        · have hb : Memory.byte ((z, w) :: rest') y = Config.initialByte := by
            simp only [Memory.byte, if_neg (show y ≠ z by omega)]
            exact Memory.byte_of_wfFrom rest' (z + 1) y hk.2 (by omega)
          exact absurd (by have e := h y; rwa [hb, Memory.byte, if_pos rfl] at e) hm.1.2
        · exact heq
        · have hb : Memory.byte ((y, v) :: rest) z = Config.initialByte := by
            simp only [Memory.byte, if_neg (show z ≠ y by omega)]
            exact Memory.byte_of_wfFrom rest (y + 1) z hm.2 (by omega)
          exact absurd (by have e := (h z).symm; rwa [hb, Memory.byte, if_pos rfl] at e) hk.1.2
      subst hyz
      have hvw : v = w := by simpa [Memory.byte] using h y
      subst hvw
      rw [ih rest' (y + 1) hm.2 hk.2 ?_]
      intro x
      by_cases hx : x = y
      · rw [Memory.byte_of_wfFrom rest (y + 1) x hm.2 (by omega),
          Memory.byte_of_wfFrom rest' (y + 1) x hk.2 (by omega)]
      · simpa [Memory.byte, hx] using h x

theorem Memory.eq_of_byte (m k : Memory) (hm : Memory.wf m = true) (hk : Memory.wf k = true)
    (h : ∀ x, Memory.byte m x = Memory.byte k x) : m = k :=
  Memory.eq_of_byte_from m k 0 hm hk h

/-! ### The bytes of a word (R62) -/

/-- The four bytes of a placed word are its bytes, the least significant first. -/
theorem fourBytes_placeWord (m : Memory) (a : Nat) (w : Word) (h : Memory.wf m = true) :
    Memory.fourBytes (placeWord m a w) a = wordBytes w := by
  have h1 := Memory.wf_setByte m a (field w 0 8) h
  have h2 := Memory.wf_setByte _ (a + 1) (field w 8 8) h1
  have h3 := Memory.wf_setByte _ (a + 2) (field w 16 8) h2
  simp [Memory.fourBytes, placeWord, wordBytes, Memory.byte_setByte, h, h1, h2, h3]

/-- The four bytes of a word put together again are the word. -/
theorem decodeBytes_wordBytes (w : Word) : decodeBytes (wordBytes w) = decodeWord w := by
  have h : field w 24 8 ++ field w 16 8 ++ field w 8 8 ++ field w 0 8 = w := by
    ext i hi
    simp only [field, BitVec.getElem_append, BitVec.getElem_extractLsb']
    split
    · simp [BitVec.getLsbD_eq_getElem hi]
    · split
      · simp only [BitVec.getLsbD_eq_getElem hi, show 8 + (i - 8) = i by omega]
      · split
        · simp only [show 16 + (i - 8 - 8) = i by omega, BitVec.getLsbD_eq_getElem hi]
        · simp only [show 24 + (i - 8 - 8 - 8) = i by omega, BitVec.getLsbD_eq_getElem hi]
  simp only [wordBytes, decodeBytes, h]

/-! ### The set of bytes stored to (R75) -/

theorem Written.mem_insert (l : List Nat) (a x : Nat) : x ∈ Written.insert l a ↔ x = a ∨ x ∈ l := by
  induction l with
  | nil => simp [Written.insert]
  | cons y rest ih =>
    simp only [Written.insert]
    split
    · simp
    · split
      · subst_vars; simp
      · simp only [List.mem_cons, ih]; tauto

theorem Written.mem_add (l : List Nat) (a n x : Nat) : x ∈ Written.add l a n ↔ (a ≤ x ∧ x < a + n) ∨ x ∈ l := by
  induction n generalizing l a with
  | zero => simp only [Written.add]; exact ⟨.inr, fun h => h.resolve_left (by omega)⟩
  | succ n ih =>
    rw [Written.add, ih, Written.mem_insert]
    constructor
    · rintro (h | rfl | h)
      · exact .inl (by omega)
      · exact .inl (by omega)
      · exact .inr h
    · rintro (h | h)
      · by_cases hx : x = a
        · exact .inr (.inl hx)
        · exact .inl (by omega)
      · exact .inr (.inr h)

theorem Written.wfFrom_mono (l : List Nat) (lo lo' : Nat) (h : Written.wfFrom lo' l = true) (hle : lo ≤ lo') :
    Written.wfFrom lo l = true := by
  cases l with
  | nil => rfl
  | cons y rest =>
    simp only [Written.wfFrom, Bool.and_eq_true, decide_eq_true_eq] at h ⊢
    exact ⟨by omega, h.2⟩

theorem Written.wfFrom_insert (l : List Nat) (lo a : Nat) (h : Written.wfFrom lo l = true) (ha : lo ≤ a) :
    Written.wfFrom lo (Written.insert l a) = true := by
  induction l generalizing lo with
  | nil => simp [Written.insert, Written.wfFrom, ha]
  | cons y rest ih =>
    have h' := h
    simp only [Written.wfFrom, Bool.and_eq_true, decide_eq_true_eq] at h
    simp only [Written.insert]
    split
    · simp only [Written.wfFrom, Bool.and_eq_true, decide_eq_true_eq]
      exact ⟨ha, by omega, h.2⟩
    · split
      · exact h'
      · simp only [Written.wfFrom, Bool.and_eq_true, decide_eq_true_eq]
        exact ⟨h.1, ih (y + 1) h.2 (by omega)⟩

/-- Adding a range keeps the list strictly rising. -/
theorem Written.wf_add (l : List Nat) (a n : Nat) (h : Written.wf l = true) : Written.wf (Written.add l a n) = true := by
  induction n generalizing l a with
  | zero => exact h
  | succ n ih => exact ih _ _ (Written.wfFrom_insert l 0 a h (Nat.zero_le a))

theorem Written.touches_iff (l : List Nat) (a n : Nat) :
    Written.touches l a n = true ↔ ∃ x, x ∈ l ∧ a ≤ x ∧ x < a + n := by
  simp [Written.touches]

/-- A byte that has been stored to stays one (R75). -/
theorem Written.mem_add_of_mem (l : List Nat) (a n x : Nat) (h : x ∈ l) : x ∈ Written.add l a n :=
  (Written.mem_add l a n x).2 (.inr h)

/-! ### The platform (R68) -/

theorem Platform.maps_iff (p : Platform) (a n : Nat) :
    Platform.maps p a n = true ↔ ∀ x, a ≤ x → x < a + n → Platform.mapsByte p x = true := by
  induction n generalizing a with
  | zero => simp [Platform.maps]; omega
  | succ n ih =>
    rw [Platform.maps, Bool.and_eq_true, ih]
    constructor
    · rintro ⟨h1, h2⟩ x hx hlt
      by_cases hxa : x = a
      · exact hxa ▸ h1
      · exact h2 x (by omega) (by omega)
    · intro h
      exact ⟨h a (by omega) (by omega), fun x h1 h2 => h x (by omega) (by omega)⟩

/-- A mapped range lies inside the address space. -/
theorem Platform.maps_le (p : Platform) (a n : Nat) (h : Platform.maps p a n = true) (hn : 0 < n) :
    a + n ≤ 4294967296 := by
  have hb := (Platform.maps_iff p a n).1 h (a + n - 1) (by omega) (by omega)
  simp only [Platform.mapsByte, Bool.and_eq_true, decide_eq_true_eq] at hb
  omega

end Sys2Proof.Machine
end

