-- ==== Sys2Proof/Laws/Registers.lean ====
section
/-! SUPPORT. Reading a register after writing one, in any bank (R22, R23, R25). -/

namespace Sys2Proof.Machine

/-! ### Physical registers -/

theorem PhysReg.index_injective (p q : PhysReg) (h : p.index = q.index) : p = q := by
  cases p <;> cases q <;> first | rfl | (revert h; decide)

@[simp] theorem State.gpr_setGpr (s : State) (p q : PhysReg) (v : Word) :
    (s.setGpr p v).gpr q = if q = p then v else s.gpr q := by
  unfold State.gpr State.setGpr
  by_cases h : q = p
  · subst h; simp
  · have hne : (p.index : Nat) ≠ q.index := fun e => h (PhysReg.index_injective p q (Fin.ext e)).symm
    simp [h, hne]

/-- Two states with the same registers give the same value for each. -/
theorem State.gpr_congr {s t : State} (h : t.gprs = s.gprs) (p : PhysReg) : t.gpr p = s.gpr p := by
  unfold State.gpr; rw [h]

@[simp] theorem State.gpr_withPc (s : State) (x : Word) (p : PhysReg) : State.gpr { s with pc := x } p = s.gpr p :=
  rfl

@[simp] theorem State.gpr_withCpsr (s : State) (c : Cpsr) (p : PhysReg) :
    State.gpr { s with cpsr := c } p = s.gpr p :=
  rfl

@[simp] theorem State.gpr_onward (s : State) (p : PhysReg) : s.onward.gpr p = s.gpr p :=
  rfl

@[simp] theorem State.gpr_setFlags (s : State) (r : DpResult) (p : PhysReg) : (s.setFlags r).gpr p = s.gpr p :=
  rfl

@[simp] theorem State.gpr_afterDraw (s : State) (p : PhysReg) : s.afterDraw.gpr p = s.gpr p :=
  rfl

@[simp] theorem State.gpr_stored (s : State) (a : Word) (n : Nat) (v : Word) (p : PhysReg) :
    (s.stored a n v).gpr p = s.gpr p :=
  rfl

@[simp] theorem State.gpr_setSpsr (s : State) (m : Mode) (q : Psr) (p : PhysReg) :
    (s.setSpsr m q).gpr p = s.gpr p := by
  cases m <;> rfl

@[simp] theorem State.gpr_multiplyFlags (s : State) (x : Word) (p : PhysReg) :
    (s.multiplyFlags x).gpr p = s.gpr p :=
  rfl

@[simp] theorem State.gpr_longMultiplyFlags (s : State) (x : BitVec 64) (p : PhysReg) :
    (s.longMultiplyFlags x).gpr p = s.gpr p :=
  rfl

@[simp] theorem State.gpr_sampled (s : State) (p : PhysReg) : s.sampled.gpr p = s.gpr p :=
  rfl

@[simp] theorem State.gpr_executing (s : State) (p : PhysReg) : s.executing.gpr p = s.gpr p :=
  rfl

/-! ### The bank tables -/

theorem phys_eq_none_iff (m : Mode) (i : Reg) : phys m i = none ↔ i = 15#4 := by
  revert i; cases m <;> decide

theorem phys_injective (m : Mode) (i j : Reg) (p : PhysReg) (hi : phys m i = some p) (hj : phys m j = some p) :
    i = j := by
  revert i j; cases m <;> cases p <;> decide

theorem phys_inj_iff (m : Mode) (i j : Reg) (hi : i ≠ 15#4) : phys m i = phys m j ↔ i = j := by
  constructor
  · intro h
    cases hp : phys m i with
    | none => exact absurd ((phys_eq_none_iff m i).1 hp) hi
    | some p => exact phys_injective m i j p hp (h ▸ hp)
  · rintro rfl; rfl

/-! ### `x[i]` -/

@[simp] theorem State.regIn_fifteen (s : State) (m : Mode) : s.regIn m 15#4 = s.pc + 8#32 := by
  unfold State.regIn
  rw [(phys_eq_none_iff m 15#4).2 rfl]

@[simp] theorem State.reg_fifteen (s : State) : s.reg 15#4 = s.pc + 8#32 :=
  s.regIn_fifteen s.cpsr.mode

theorem State.setRegIn_fifteen (s : State) (m : Mode) (v : Word) : s.setRegIn m 15#4 v = { s with pc := v } := by
  unfold State.setRegIn
  rw [(phys_eq_none_iff m 15#4).2 rfl]

theorem State.setReg_fifteen (s : State) (v : Word) : s.setReg 15#4 v = { s with pc := v } :=
  s.setRegIn_fifteen s.cpsr.mode v

/-- Below R15 a read goes to the physical register of the bank (R23). -/
theorem State.regIn_eq_gpr (s : State) (m : Mode) (i : Reg) (p : PhysReg) (h : phys m i = some p) :
    s.regIn m i = s.gpr p := by
  unfold State.regIn; rw [h]

/-- Below R15 a write goes to the physical register of the bank (R23). -/
theorem State.setRegIn_eq_setGpr (s : State) (m : Mode) (i : Reg) (v : Word) (p : PhysReg) (h : phys m i = some p) :
    s.setRegIn m i v = s.setGpr p v := by
  unfold State.setRegIn; rw [h]

theorem State.setRegIn_pc (s : State) (m : Mode) (i : Reg) (v : Word) (h : i ≠ 15#4) : (s.setRegIn m i v).pc = s.pc := by
  unfold State.setRegIn
  split
  · rfl
  · exact absurd ((phys_eq_none_iff m i).1 ‹_›) h

theorem State.setReg_pc (s : State) (i : Reg) (v : Word) (h : i ≠ 15#4) : (s.setReg i v).pc = s.pc :=
  s.setRegIn_pc s.cpsr.mode i v h

theorem State.gpr_setRegIn (s : State) (m : Mode) (i : Reg) (v : Word) (q : PhysReg) :
    (s.setRegIn m i v).gpr q = if phys m i = some q then v else s.gpr q := by
  cases hp : phys m i with
  | none => unfold State.setRegIn; simp [hp]
  | some p => simp [State.setRegIn_eq_setGpr s m i v p hp, eq_comm]

theorem State.gpr_setReg (s : State) (i : Reg) (v : Word) (q : PhysReg) :
    (s.setReg i v).gpr q = if phys s.cpsr.mode i = some q then v else s.gpr q :=
  s.gpr_setRegIn s.cpsr.mode i v q

theorem State.regIn_setRegIn (s : State) (m : Mode) (i j : Reg) (v : Word) (hi : i ≠ 15#4) (hj : j ≠ 15#4) :
    (s.setRegIn m i v).regIn m j = if j = i then v else s.regIn m j := by
  cases hp : phys m j with
  | none => exact absurd ((phys_eq_none_iff m j).1 hp) hj
  | some p =>
    rw [State.regIn_eq_gpr _ m j p hp, State.regIn_eq_gpr s m j p hp, State.gpr_setRegIn, ← hp]
    simp only [phys_inj_iff m i j hi, eq_comm]

theorem State.reg_setReg (s : State) (i j : Reg) (v : Word) (hi : i ≠ 15#4) (hj : j ≠ 15#4) :
    (s.setReg i v).reg j = if j = i then v else s.reg j := by
  unfold State.reg State.setReg
  rw [State.setRegIn_cpsr]
  exact s.regIn_setRegIn s.cpsr.mode i j v hi hj

/-- A register read depends on the registers, the PC and the mode alone. -/
theorem State.regIn_congr {s t : State} (hg : t.gprs = s.gprs) (hp : t.pc = s.pc) (m : Mode) (i : Reg) :
    t.regIn m i = s.regIn m i := by
  unfold State.regIn
  split
  · exact State.gpr_congr hg _
  · rw [hp]

theorem State.reg_congr {s t : State} (hg : t.gprs = s.gprs) (hp : t.pc = s.pc) (hm : t.cpsr.mode = s.cpsr.mode)
    (i : Reg) : t.reg i = s.reg i := by
  unfold State.reg; rw [hm]; exact State.regIn_congr hg hp s.cpsr.mode i

/-! ### SPSRs -/

theorem State.spsr?_setSpsr (s : State) (m k : Mode) (p : Psr) :
    (s.setSpsr m p).spsr? k = if k = m ∧ m.hasSpsr = true then some p else s.spsr? k := by
  cases m <;> cases k <;> rfl

@[simp] theorem State.spsr?_setRegIn (s : State) (m : Mode) (i : Reg) (v : Word) (k : Mode) :
    (s.setRegIn m i v).spsr? k = s.spsr? k := by
  cases k <;> simp [State.spsr?]

@[simp] theorem State.spsr?_setReg (s : State) (i : Reg) (v : Word) (k : Mode) :
    (s.setReg i v).spsr? k = s.spsr? k := by
  cases k <;> simp [State.spsr?]

theorem State.spsr?_isSome (s : State) (m : Mode) : (s.spsr? m).isSome = m.hasSpsr := by
  cases m <;> rfl

/-- The mode table read both ways (R31). -/
@[simp] theorem Mode.ofBits_bits (m : Mode) : Mode.ofBits m.bits = some m := by
  cases m <;> rfl

theorem Mode.bits_of_ofBits (b : BitVec 5) (m : Mode) (h : Mode.ofBits b = some m) : m.bits = b := by
  revert b; cases m <;> decide

/-- A CPSR saved in an SPSR comes back whole (R32, R322, R333). -/
@[simp] theorem Psr.restored_saved (c : Cpsr) : c.saved.restored = some c := by
  simp [Psr.restored, Cpsr.saved]

/-- What a restored CPSR is saved as. -/
theorem Cpsr.saved_of_restored (p : Psr) (c : Cpsr) (h : p.restored = some c) : c.saved = p := by
  unfold Psr.restored at h
  split at h
  · exact absurd h (by simp)
  · rename_i m hm
    obtain rfl := Option.some.inj h
    simp [Cpsr.saved, Mode.bits_of_ofBits _ _ hm]

/-! ### Exception entry (R322) -/

@[simp] theorem enter_gprs (e : Exc) (link : Word) (s : State) :
    (enter e link s).gprs = (s.setGpr e.mode.r14 link).gprs := by
  cases e <;> rfl

theorem gpr_enter (e : Exc) (link : Word) (s : State) (p : PhysReg) :
    (enter e link s).gpr p = if p = e.mode.r14 then link else s.gpr p := by
  rw [State.gpr_congr (enter_gprs e link s) p, State.gpr_setGpr]

theorem spsr?_enter (e : Exc) (link : Word) (s : State) (m : Mode) :
    (enter e link s).spsr? m = if m = e.mode then some s.cpsr.saved else s.spsr? m := by
  cases e <;> cases m <;> rfl

/-- A PSR as a word shows its twelve bits, whatever its undefined bits are (R27, R33). -/
theorem Psr.word_shownBy (p : Psr) (u : BitVec 20) : p.shownBy (p.word u) := by
  cases p
  refine ⟨?_, ?_, ?_, ?_, ?_, ?_, ?_, BitVec.eq_of_getLsbD_eq fun i hi => ?_⟩ <;>
    simp only [Psr.word, BitVec.getLsbD_append, BitVec.getLsbD_extractLsb', BitVec.getLsbD_ofBool] <;> simp [*]

end Sys2Proof.Machine
end

