-- ==== Sys2Proof/Laws/Ops.lean ====
section
/-! SUPPORT. What each shared operation can answer, said once: conditional execution, control transfers, exception entry
and return, data accesses and the operand forms. -/

namespace Sys2Proof.Machine

/-! ### The end of an instruction (R26, R132) -/

theorem advance_eq (s : State) (h : s.pc ≠ 0xFFFFFFFC#32) : advance s = .next s.onward := by
  simp [advance, h, State.onward]

theorem advance_next {s t : State} (h : advance s = .next t) : s.pc ≠ 0xFFFFFFFC#32 ∧ t = s.onward := by
  unfold advance at h
  split at h
  · exact absurd h (by simp)
  · exact ⟨‹_›, by simpa [State.onward] using h.symm⟩

theorem conditional_passes (c : Cond) (s : State) (body : State → Out) (h : Cond.passes c s.cpsr = true) :
    conditional c s body = body s := by
  simp [conditional, h]

theorem conditional_fails (c : Cond) (s : State) (body : State → Out) (h : Cond.passes c s.cpsr = false) :
    conditional c s body = advance s := by
  simp [conditional, h]

theorem conditional_next {c : Cond} {s t : State} {body : State → Out} (h : conditional c s body = .next t) :
    (Cond.passes c s.cpsr = true ∧ body s = .next t) ∨
      (Cond.passes c s.cpsr = false ∧ s.pc ≠ 0xFFFFFFFC#32 ∧ t = s.onward) := by
  cases hc : Cond.passes c s.cpsr
  · rw [conditional_fails c s body hc] at h
    exact .inr ⟨rfl, advance_next h⟩
  · rw [conditional_passes c s body hc] at h
    exact .inl ⟨rfl, h⟩

theorem jump_eq (s : State) (a : Word) (h : a &&& 3#32 = 0#32) : jump s a = .next { s with pc := a } := by
  simp [jump, h]

theorem jump_next {s t : State} {a : Word} (h : jump s a = .next t) :
    a &&& 3#32 = 0#32 ∧ t = { s with pc := a } := by
  unfold jump at h
  split at h
  · exact ⟨‹_›, by simpa using h.symm⟩
  · exact absurd h (by simp)

/-! ### Exceptions (R322, R327, R333) -/

theorem dataAbort_next {s t : State} (h : dataAbort s = .next t) : t = enter .dataAbort (s.pc + 8#32) s := by
  simpa [dataAbort] using h.symm

theorem returnCpsr_ok {s t : State} (h : returnCpsr s = .ok t) :
    ∃ p c, s.spsr? s.cpsr.mode = some p ∧ p.restored = some c ∧ t = { s with cpsr := c } := by
  unfold returnCpsr at h
  split at h
  · exact absurd h (by simp)
  · rename_i p hp
    split at h
    · exact absurd h (by simp)
    · rename_i c hc
      exact ⟨p, c, hp, hc, by simpa using h.symm⟩

theorem returnCpsr_eq (s : State) (p : Psr) (c : Cpsr) (hp : s.spsr? s.cpsr.mode = some p) (hc : p.restored = some c) :
    returnCpsr s = .ok { s with cpsr := c } := by
  simp [returnCpsr, hp, hc]

/-! ### Data accesses (R64 to R66, R68) -/

theorem checkAccess_ok_iff (s : State) (a : Word) (n : Nat) (k : AccessKind) (pr : Privilege) (x : Unit) :
    s.checkAccess a n k pr = .ok x ↔
      a.toNat % n = 0 ∧ Platform.abortsAccess s.platform a.toNat n k pr = false ∧
        Platform.maps s.platform a.toNat n = true := by
  unfold State.checkAccess
  split
  · simp_all
  · split
    · simp_all
    · split <;> simp_all

theorem checkAccess_abort_iff (s : State) (a : Word) (n : Nat) (k : AccessKind) (pr : Privilege) :
    s.checkAccess a n k pr = .abort ↔
      a.toNat % n = 0 ∧ Platform.abortsAccess s.platform a.toNat n k pr = true := by
  unfold State.checkAccess
  split
  · simp_all
  · split
    · simp_all
    · split <;> simp_all

theorem checkAccess_congr {s t : State} (h : t.platform = s.platform) (a : Word) (n : Nat) (k : AccessKind)
    (pr : Privilege) : t.checkAccess a n k pr = s.checkAccess a n k pr := by
  unfold State.checkAccess; rw [h]

theorem readMem_ok_iff (s : State) (a : Word) (n : Nat) (pr : Privilege) (v : Word) :
    s.readMem a n pr = .ok v ↔
      (a.toNat % n = 0 ∧ Platform.abortsAccess s.platform a.toNat n .read pr = false ∧
        Platform.maps s.platform a.toNat n = true) ∧ v = BitVec.ofNat 32 (Memory.load s.mem a.toNat n) := by
  rw [← checkAccess_ok_iff s a n .read pr ()]
  unfold State.readMem
  cases s.checkAccess a n .read pr <;> simp [eq_comm]

theorem readMem_abort_iff (s : State) (a : Word) (n : Nat) (pr : Privilege) :
    s.readMem a n pr = .abort ↔
      a.toNat % n = 0 ∧ Platform.abortsAccess s.platform a.toNat n .read pr = true := by
  rw [← checkAccess_abort_iff s a n .read pr]
  unfold State.readMem
  cases s.checkAccess a n .read pr <;> simp

theorem writeMem_ok_iff (s t : State) (a : Word) (n : Nat) (v : Word) (pr : Privilege) :
    s.writeMem a n v pr = .ok t ↔
      (a.toNat % n = 0 ∧ Platform.abortsAccess s.platform a.toNat n .write pr = false ∧
        Platform.maps s.platform a.toNat n = true) ∧ t = s.stored a n v := by
  rw [← checkAccess_ok_iff s a n .write pr ()]
  unfold State.writeMem
  cases s.checkAccess a n .write pr <;> simp [eq_comm]

theorem writeMem_abort_iff (s : State) (a : Word) (n : Nat) (v : Word) (pr : Privilege) :
    s.writeMem a n v pr = .abort ↔
      a.toNat % n = 0 ∧ Platform.abortsAccess s.platform a.toNat n .write pr = true := by
  rw [← checkAccess_abort_iff s a n .write pr]
  unfold State.writeMem
  cases s.checkAccess a n .write pr <;> simp

/-- A byte read is the byte (R64, R253). -/
theorem load_one (m : Memory) (a : Nat) : BitVec.ofNat 32 (Memory.load m a 1) = (m.byte a).setWidth 32 := by
  apply BitVec.eq_of_toNat_eq
  have h := (m.byte a).isLt
  simp [Memory.load]

/-- A half-word read is two bytes, the lower address less significant (R62, R64). -/
theorem load_two (m : Memory) (a : Nat) :
    BitVec.ofNat 32 (Memory.load m a 2) = (m.byte (a + 1) ++ m.byte a).setWidth 32 := by
  apply BitVec.eq_of_toNat_eq
  have h0 := (m.byte a).isLt
  have h1 := (m.byte (a + 1)).isLt
  simp only [Memory.load, BitVec.toNat_ofNat, BitVec.toNat_setWidth, BitVec.toNat_append]
  rw [← Nat.shiftLeft_add_eq_or_of_lt h0, Nat.shiftLeft_eq]
  omega

/-- A word read is four bytes, the lowest address least significant (R62, R64). -/
theorem load_four (m : Memory) (a : Nat) :
    BitVec.ofNat 32 (Memory.load m a 4) = m.byte (a + 3) ++ m.byte (a + 2) ++ m.byte (a + 1) ++ m.byte a := by
  apply BitVec.eq_of_toNat_eq
  have h0 := (m.byte a).isLt
  have h1 := (m.byte (a + 1)).isLt
  have h2 := (m.byte (a + 2)).isLt
  have h3 := (m.byte (a + 3)).isLt
  simp only [Memory.load, BitVec.toNat_ofNat, BitVec.toNat_append]
  rw [← Nat.shiftLeft_add_eq_or_of_lt h2, ← Nat.shiftLeft_add_eq_or_of_lt h1, ← Nat.shiftLeft_add_eq_or_of_lt h0]
  simp only [Nat.shiftLeft_eq, show a + 1 + 1 = a + 2 from rfl, show a + 2 + 1 = a + 3 from rfl]
  omega

/-- Storing then reading the same place gives the value, as far as the width goes (R64, R65). -/
theorem readMem_stored (s : State) (a : Word) (n : Nat) (v : Word) (pr : Privilege) (hw : Memory.wf s.mem = true)
    (h : a.toNat % n = 0) (hab : Platform.abortsAccess s.platform a.toNat n .read pr = false)
    (hm : Platform.maps s.platform a.toNat n = true) :
    (s.stored a n v).readMem a n pr = .ok (BitVec.ofNat 32 (v.toNat % 256 ^ n)) := by
  rw [readMem_ok_iff]
  exact ⟨⟨h, hab, hm⟩, by rw [State.stored_mem, Memory.load_store s.mem a.toNat n v.toNat hw]⟩

/-! ### Single transfers (R147 to R150) -/

theorem transferRefusal_none_iff (idx : Index) (rn rd : Reg) (off : Offset) :
    transferRefusal idx rn rd off = none ↔
      (∀ rm sh, off = .reg rm sh → rm ≠ 15#4 ∧ (Index.writesBase idx = true → rm ≠ rn)) ∧
        (Index.writesBase idx = true → rn ≠ 15#4 ∧ rd ≠ rn) := by
  cases off <;> cases idx <;> simp only [transferRefusal, Index.writesBase] <;>
    by_cases h1 : rn = 15#4 <;> by_cases h2 : rd = rn <;> simp [h1, h2]
  all_goals
    rename_i rm _
    by_cases h3 : rm = 15#4 <;> by_cases h4 : rm = rn <;> simp_all

theorem State.writeBase_offset (s : State) (u : Bool) (rn : Reg) (off : Offset) : s.writeBase .offset u rn off = s :=
  rfl

theorem State.writeBase_pre (s : State) (u : Bool) (rn : Reg) (off : Offset) :
    s.writeBase .pre u rn off = s.setReg rn (offsetBase u (s.reg rn) (offsetValue off s)) :=
  rfl

theorem State.writeBase_post (s : State) (u : Bool) (rn : Reg) (off : Offset) :
    s.writeBase .post u rn off = s.setReg rn (offsetBase u (s.reg rn) (offsetValue off s)) :=
  rfl

theorem State.writeBase_pc (s : State) (idx : Index) (u : Bool) (rn : Reg) (off : Offset)
    (h : Index.writesBase idx = true → rn ≠ 15#4) : (s.writeBase idx u rn off).pc = s.pc := by
  unfold State.writeBase
  split
  · exact State.setReg_pc s rn _ (h ‹_›)
  · rfl

/-- The base write touches at most the base register (R148, R149). -/
theorem State.gpr_writeBase (s : State) (idx : Index) (u : Bool) (rn : Reg) (off : Offset) (p : PhysReg) :
    (s.writeBase idx u rn off).gpr p =
      if Index.writesBase idx = true ∧ phys s.cpsr.mode rn = some p then offsetBase u (s.reg rn) (offsetValue off s)
      else s.gpr p := by
  unfold State.writeBase
  split <;> simp_all [State.gpr_setReg]

theorem abortedBase_eq (s : State) (idx : Index) (u : Bool) (rn : Reg) (off : Offset) :
    s.abortedBase idx u rn off = s ∨ s.abortedBase idx u rn off = s.writeBase idx u rn off := by
  unfold State.abortedBase; split
  · exact .inr rfl
  · exact .inl rfl

/-- What a load can answer as a next state (R250, R251, R327). -/
theorem loadSingle_next {n : Nat} {ext : Word → Word} {pcOk : Bool} {pr : Privilege} {idx : Index} {u : Bool}
    {rn rd : Reg} {off : Offset} {s t : State} (h : loadSingle n ext pcOk pr idx u rn rd off s = .next t) :
    transferRefusal idx rn rd off = none ∧ (rd = 15#4 → pcOk = true) ∧
      ((s.readMem (transferAddress idx u rn off s) n pr = .abort ∧
          t = enter .dataAbort ((s.abortedBase idx u rn off).pc + 8#32) (s.abortedBase idx u rn off)) ∨
        ∃ v, s.readMem (transferAddress idx u rn off s) n pr = .ok v ∧
          ((rd = 15#4 ∧ t = { s.writeBase idx u rn off with pc := v &&& 0xFFFFFFFC#32 }) ∨
            (rd ≠ 15#4 ∧ ((s.writeBase idx u rn off).setReg rd (ext v)).pc ≠ 0xFFFFFFFC#32 ∧
              t = ((s.writeBase idx u rn off).setReg rd (ext v)).onward))) := by
  unfold loadSingle at h
  split at h
  · exact absurd h (by simp)
  · rename_i hr
    split at h
    · exact absurd h (by simp)
    · rename_i hpc
      refine ⟨hr, fun e => by simpa [e] using hpc, ?_⟩
      split at h
      · exact absurd h (by simp)
      · rename_i ha
        exact .inl ⟨ha, dataAbort_next h⟩
      · rename_i v hv
        refine .inr ⟨v, hv, ?_⟩
        split at h
        · exact .inl ⟨‹_›, by simpa using h.symm⟩
        · exact .inr ⟨‹_›, advance_next h⟩

/-- What a store can answer as a next state (R250, R258, R327). -/
theorem storeSingle_next {n : Nat} {pcOk : Bool} {pr : Privilege} {idx : Index} {u : Bool} {rn rd : Reg} {off : Offset}
    {s t : State} (h : storeSingle n pcOk pr idx u rn rd off s = .next t) :
    transferRefusal idx rn rd off = none ∧ (rd = 15#4 → pcOk = true) ∧
      ((s.writeMem (transferAddress idx u rn off s) n (if rd = 15#4 then s.storedPc else s.reg rd) pr = .abort ∧
          t = enter .dataAbort ((s.abortedBase idx u rn off).pc + 8#32) (s.abortedBase idx u rn off)) ∨
        ∃ k, s.writeMem (transferAddress idx u rn off s) n (if rd = 15#4 then s.storedPc else s.reg rd) pr = .ok k ∧
          (k.writeBase idx u rn off).pc ≠ 0xFFFFFFFC#32 ∧ t = (k.writeBase idx u rn off).onward) := by
  unfold storeSingle at h
  split at h
  · exact absurd h (by simp)
  · rename_i hr
    split at h
    · exact absurd h (by simp)
    · rename_i hpc
      refine ⟨hr, fun e => by simpa [e] using hpc, ?_⟩
      split at h
      · exact absurd h (by simp)
      · rename_i ha
        exact .inl ⟨ha, dataAbort_next h⟩
      · rename_i k hk
        exact .inr ⟨k, hk, advance_next h⟩

/-- What a swap can answer as a next state (R300, R301). -/
theorem swap_next {n : Nat} {ext : Word → Word} {rd rm rn : Reg} {s t : State} (h : swap n ext rd rm rn s = .next t) :
    swapRefusal rd rm rn = none ∧
      (t = enter .dataAbort (s.pc + 8#32) s ∨
        ∃ v k, s.readMem (s.reg rn) n s.privilege = .ok v ∧
          s.writeMem (s.reg rn) n (s.reg rm) s.privilege = .ok k ∧
          (k.setReg rd (ext v)).pc ≠ 0xFFFFFFFC#32 ∧ t = (k.setReg rd (ext v)).onward) := by
  unfold swap at h
  split at h
  · exact absurd h (by simp)
  · refine ⟨‹_›, ?_⟩
    split at h
    · exact absurd h (by simp)
    · exact .inl (dataAbort_next h)
    · rename_i v hv
      split at h
      · exact absurd h (by simp)
      · exact .inl (dataAbort_next h)
      · rename_i k hk
        exact .inr ⟨v, k, hv, hk, advance_next h⟩

/-! ### Data processing (R145, R170) -/

/-- What the end of a data-processing instruction can answer as a next state (R170). -/
theorem finishDp_next {sf : Bool} {rd : Reg} {r : DpResult} {s t : State} (h : finishDp sf rd r s = .next t) :
    (rd ≠ 15#4 ∧ s.pc ≠ 0xFFFFFFFC#32 ∧
        t = (if sf then (s.setReg rd r.value).setFlags r else s.setReg rd r.value).onward) ∨
      (rd = 15#4 ∧ sf = false ∧ r.value &&& 3#32 = 0#32 ∧ t = { s with pc := r.value }) ∨
      (rd = 15#4 ∧ sf = true ∧ ∃ p c, s.spsr? s.cpsr.mode = some p ∧ p.restored = some c ∧
        (c.t = false → r.value &&& 3#32 = 0#32) ∧ t = { s with cpsr := c, pc := r.value }) := by
  unfold finishDp at h
  split at h
  · rename_i hrd
    right
    split at h
    · rename_i hsf
      right
      split at h
      · exact absurd h (by simp)
      · rename_i u hu
        obtain ⟨p, c, hp, hc, rfl⟩ := returnCpsr_ok hu
        refine ⟨hrd, hsf, p, c, hp, hc, ?_⟩
        split at h
        · rename_i ht
          refine ⟨fun hf => ?_, by simpa using h.symm⟩
          rw [show c.t = true from ht] at hf
          exact absurd hf (by simp)
        · obtain ⟨ha, he⟩ := jump_next h
          exact ⟨fun _ => ha, he⟩
    · rename_i hsf
      left
      exact ⟨hrd, by simpa using hsf, jump_next h⟩
  · rename_i hrd
    left
    split at h
    · rename_i hsf
      have ha := advance_next h
      rw [State.setFlags_pc, State.setReg_pc s rd _ hrd] at ha
      exact ⟨hrd, ha.1, by rw [if_pos hsf]; exact ha.2⟩
    · rename_i hsf
      have ha := advance_next h
      rw [State.setReg_pc s rd _ hrd] at ha
      exact ⟨hrd, ha.1, by rw [if_neg hsf]; exact ha.2⟩

theorem dataProc_next {op : DpOp} {sf : Bool} {rd rn : Reg} {so : ShiftOp} {s t : State}
    (h : dataProc op sf rd rn so s = .next t) :
    regShiftWithPc so [rd, rn] = false ∧
      finishDp sf rd (dpResult op (s.reg rn) (shifter so s).1 (shifter so s).2 s.cpsr) s = .next t := by
  unfold dataProc at h
  split at h
  · exact absurd h (by simp)
  · exact ⟨eq_false_of_ne_true ‹_›, h⟩

theorem dataMove_next {op : DpOp} {sf : Bool} {rd : Reg} {so : ShiftOp} {s t : State}
    (h : dataMove op sf rd so s = .next t) :
    regShiftWithPc so [rd] = false ∧
      finishDp sf rd (dpResult op 0#32 (shifter so s).1 (shifter so s).2 s.cpsr) s = .next t := by
  unfold dataMove at h
  split at h
  · exact absurd h (by simp)
  · exact ⟨eq_false_of_ne_true ‹_›, h⟩

theorem dataCompare_next {op : DpOp} {rn : Reg} {so : ShiftOp} {s t : State} (h : dataCompare op rn so s = .next t) :
    regShiftWithPc so [rn] = false ∧ s.pc ≠ 0xFFFFFFFC#32 ∧
      t = (s.setFlags (dpResult op (s.reg rn) (shifter so s).1 (shifter so s).2 s.cpsr)).onward := by
  unfold dataCompare at h
  split at h
  · exact absurd h (by simp)
  · exact ⟨eq_false_of_ne_true ‹_›, advance_next h⟩

/-! ### Status registers (R173 to R178) -/

theorem readPsr_next {rd : Reg} {p : Psr} {s t : State} (h : readPsr rd p s = .next t) :
    rd ≠ 15#4 ∧ s.pc ≠ 0xFFFFFFFC#32 ∧ t = (s.setReg rd (p.word (s.drawn.extractLsb' 8 20))).afterDraw.onward := by
  unfold readPsr at h
  split at h
  · exact absurd h (by simp)
  · rename_i hrd
    have ha := advance_next h
    rw [State.afterDraw_pc, State.setReg_pc s rd _ hrd] at ha
    exact ⟨hrd, ha⟩

/-- A write of the CPSR leaves T alone, and in User mode the control bits too (R175). -/
theorem writeCpsr_next {fields : PsrFields} {v : Word} {s t : State} (h : writeCpsr fields v s = .next t) :
    s.pc ≠ 0xFFFFFFFC#32 ∧ ∃ p, t = State.onward { s with cpsr := p } ∧ p.t = s.cpsr.t ∧
      (s.cpsr.mode = .usr → p.mode = s.cpsr.mode ∧ p.i = s.cpsr.i ∧ p.f = s.cpsr.f) := by
  unfold writeCpsr at h
  simp only at h
  split at h
  · rename_i hc
    split at h
    · exact absurd h (by simp)
    · rename_i p hp
      obtain ⟨h1, h2⟩ := advance_next h
      refine ⟨h1, p, h2, ?_, ?_⟩
      · unfold Cpsr.withControlOf at hp
        split at hp
        · exact absurd hp (by simp)
        · split at hp
          · exact absurd hp (by simp)
          · have e := Except.ok.inj hp
            subst e
            cases fields.f <;> rfl
      · intro hu
        simp [Mode.privileged, hu] at hc
  · obtain ⟨h1, h2⟩ := advance_next h
    refine ⟨h1, _, h2, ?_, fun _ => ?_⟩ <;> cases fields.f <;> simp [Cpsr.withFlagsOf]

theorem writeSpsr_next {fields : PsrFields} {v : Word} {s t : State} (h : writeSpsr fields v s = .next t) :
    s.pc ≠ 0xFFFFFFFC#32 ∧ ∃ p q, s.spsr? s.cpsr.mode = some p ∧ t = (s.setSpsr s.cpsr.mode q).onward := by
  unfold writeSpsr at h
  split at h
  · exact absurd h (by simp)
  · rename_i p hp
    have ha := advance_next h
    rw [State.setSpsr_pc] at ha
    exact ⟨ha.1, p, _, hp, ha.2⟩

/-! ### Multiplies and branches (R196 to R203, R242) -/

theorem multiply_next {sf : Bool} {rd : Reg} {p : Word} {s t : State} (hrd : rd ≠ 15#4)
    (h : multiply sf rd p s = .next t) :
    s.pc ≠ 0xFFFFFFFC#32 ∧ t = (if sf then (s.setReg rd p).multiplyFlags p else s.setReg rd p).onward := by
  unfold multiply at h
  split at h
  · have ha := advance_next h
    rw [State.multiplyFlags_pc, State.setReg_pc s rd _ hrd] at ha
    exact ⟨ha.1, by simp [*]⟩
  · have ha := advance_next h
    rw [State.setReg_pc s rd _ hrd] at ha
    exact ⟨ha.1, by simp [*]⟩

theorem longMultiply_next {sf : Bool} {rdLo rdHi : Reg} {p : BitVec 64} {s t : State} (hlo : rdLo ≠ 15#4)
    (hhi : rdHi ≠ 15#4) (h : longMultiply sf rdLo rdHi p s = .next t) :
    s.pc ≠ 0xFFFFFFFC#32 ∧
      t = (if sf then
        ((s.setReg rdLo (p.extractLsb' 0 32)).setReg rdHi (p.extractLsb' 32 32)).longMultiplyFlags p
        else (s.setReg rdLo (p.extractLsb' 0 32)).setReg rdHi (p.extractLsb' 32 32)).onward := by
  unfold longMultiply at h
  simp only at h
  split at h
  · have ha := advance_next h
    rw [State.longMultiplyFlags_pc, State.setReg_pc _ rdHi _ hhi, State.setReg_pc s rdLo _ hlo] at ha
    exact ⟨ha.1, by simp [*]⟩
  · have ha := advance_next h
    rw [State.setReg_pc _ rdHi _ hhi, State.setReg_pc s rdLo _ hlo] at ha
    exact ⟨ha.1, by simp [*]⟩

theorem longMultiplyRefusal_none {rdLo rdHi rm rs : Reg} (h : longMultiplyRefusal rdLo rdHi rm rs = none) :
    (rdLo ≠ 15#4 ∧ rdHi ≠ 15#4 ∧ rm ≠ 15#4 ∧ rs ≠ 15#4) ∧ rdHi ≠ rdLo ∧ rdHi ≠ rm ∧ rdLo ≠ rm := by
  unfold longMultiplyRefusal at h
  split at h
  · exact absurd h (by simp)
  · split at h
    · exact absurd h (by simp)
    · simp_all [anyPc]

theorem branchExchange_next {s t : State} {a : Word} (h : branchExchange s a = .next t) :
    (a.getLsbD 0 = true ∧ t = { s with cpsr := { s.cpsr with t := true }, pc := a &&& 0xFFFFFFFE#32 }) ∨
      (a.getLsbD 0 = false ∧ a.getLsbD 1 = false ∧ t = { s with cpsr := { s.cpsr with t := false }, pc := a }) := by
  unfold branchExchange at h
  split at h
  · exact .inl ⟨‹_›, by simpa using h.symm⟩
  · split at h
    · exact absurd h (by simp)
    · rename_i h0 h1
      exact .inr ⟨eq_false_of_ne_true h0, eq_false_of_ne_true h1, by simpa using h.symm⟩

end Sys2Proof.Machine
end

