-- ==== Sys2Proof/Laws/Block.lean ====
section
/-! SUPPORT. What the block transfers and the step can answer, said once (R161, R280 to R287, R321 to R329). -/

namespace Sys2Proof.Machine

/-! ### The registers and addresses of a block (R161, R280) -/

theorem mem_regsOf (list : BitVec 16) (r : Reg) : r ∈ regsOf list ↔ list.getLsbD r.toNat = true := by
  unfold regsOf
  rw [List.mem_filter]
  constructor
  · exact fun h => h.2
  · refine fun h => ⟨?_, h⟩
    clear h
    revert r
    decide

theorem length_wordsFrom (a : Word) (n : Nat) : (wordsFrom a n).length = n := by
  induction n generalizing a with
  | zero => rfl
  | succ n ih => simp [wordsFrom, ih]

/-- The `k`-th word of a block stands `4 * k` above its first. -/
theorem getElem?_wordsFrom (a : Word) (n k : Nat) (h : k < n) : (wordsFrom a n)[k]? = some (a + BitVec.ofNat 32 (4 * k)) := by
  induction n generalizing a k with
  | zero => omega
  | succ n ih =>
    cases k with
    | zero => simp [wordsFrom]
    | succ k =>
      rw [wordsFrom, List.getElem?_cons_succ, ih (a + 4#32) k (by omega)]
      congr 1
      apply BitVec.eq_of_toNat_eq
      simp only [BitVec.toNat_add, BitVec.toNat_ofNat]
      omega

/-! ### Reading and writing a block -/

/-- The words read are those in memory, one for each address. -/
theorem readBlock_ok {s : State} {as : List Word} {k : Nat} {vs : List Word} (h : readBlock s as k = .ok vs) :
    vs = as.map (fun a => BitVec.ofNat 32 (Memory.load s.mem a.toNat 4)) ∧
      ∀ a ∈ as, a.toNat % 4 = 0 ∧ Platform.abortsAccess s.platform a.toNat 4 .read s.privilege = false ∧
        Platform.maps s.platform a.toNat 4 = true := by
  induction as generalizing k vs with
  | nil => simp [readBlock] at h; simp [h]
  | cons a as ih =>
    unfold readBlock at h
    split at h
    · exact absurd h (by simp)
    · exact absurd h (by simp)
    · rename_i v hv
      split at h
      · rename_i ws hws
        obtain ⟨h1, h2⟩ := ih hws
        obtain ⟨h3, h4⟩ := (readMem_ok_iff s a 4 s.privilege v).1 hv
        injection h with h
        subst h
        exact ⟨by rw [List.map_cons, ← h4, ← h1], fun b hb => by
          rcases List.mem_cons.1 hb with rfl | hb
          · exact h3
          · exact h2 b hb⟩
      · exact absurd h (by simp)
      · exact absurd h (by simp)

/-- When every word of a block can be read, the reads answer the words in memory. -/
theorem readBlock_eq (s : State) (as : List Word) (k : Nat)
    (h : ∀ a ∈ as, a.toNat % 4 = 0 ∧ Platform.abortsAccess s.platform a.toNat 4 .read s.privilege = false ∧
      Platform.maps s.platform a.toNat 4 = true) :
    readBlock s as k = .ok (as.map fun a => BitVec.ofNat 32 (Memory.load s.mem a.toNat 4)) := by
  induction as generalizing k with
  | nil => rfl
  | cons a as ih =>
    have hr : s.readMem a 4 s.privilege = .ok (BitVec.ofNat 32 (Memory.load s.mem a.toNat 4)) :=
      (readMem_ok_iff s a 4 s.privilege _).2 ⟨h a List.mem_cons_self, rfl⟩
    simp only [readBlock, hr, ih (k + 1) fun b hb => h b (List.mem_cons_of_mem a hb), List.map_cons]

/-- A block whose `j`-th word is the first that cannot be read answers what that access answers. -/
theorem readBlock_stops (s : State) (as : List Word) (k j : Nat) (a : Word) (ha : as[j]? = some a)
    (h : ∀ i b, i < j → as[i]? = some b → b.toNat % 4 = 0 ∧
      Platform.abortsAccess s.platform b.toNat 4 .read s.privilege = false ∧ Platform.maps s.platform b.toNat 4 = true) :
    (∀ f, s.readMem a 4 s.privilege = .fault f → readBlock s as k = .fault f) ∧
      (s.readMem a 4 s.privilege = .abort → readBlock s as k = .abort (k + j)) := by
  induction as generalizing k j with
  | nil => simp at ha
  | cons b bs ih =>
    cases j with
    | zero =>
      obtain rfl : b = a := by simpa using ha
      exact ⟨fun f hf => by simp [readBlock, hf], fun hf => by simp [readBlock, hf]⟩
    | succ j =>
      have hr := (readMem_ok_iff s b 4 s.privilege _).2 ⟨h 0 b (by omega) rfl, rfl⟩
      obtain ⟨h1, h2⟩ := ih (k + 1) j (by simpa using ha) fun i c hi hc => h (i + 1) c (by omega) (by simpa using hc)
      exact ⟨fun f hf => by simp [readBlock, hr, h1 f hf],
        fun hf => by simp only [readBlock, hr, h2 hf]; congr 1; omega⟩

/-- The state after the stores of a list. -/
def State.storedAll (s : State) : List (Word × Word) → State
  | [] => s
  | (a, v) :: rest => (s.stored a 4 v).storedAll rest

theorem writeBlock_ok {s t : State} {l : List (Word × Word)} {k : Nat} (h : writeBlock s l k = .ok t) :
    t = s.storedAll l ∧
      ∀ x ∈ l, x.1.toNat % 4 = 0 ∧ Platform.abortsAccess s.platform x.1.toNat 4 .write s.privilege = false ∧
        Platform.maps s.platform x.1.toNat 4 = true := by
  induction l generalizing s k with
  | nil => simp [writeBlock] at h; simp [State.storedAll, h]
  | cons x rest ih =>
    obtain ⟨a, v⟩ := x
    unfold writeBlock at h
    split at h
    · exact absurd h (by simp)
    · exact absurd h (by simp)
    · rename_i u hu
      obtain ⟨h1, rfl⟩ := (writeMem_ok_iff s u a 4 v s.privilege).1 hu
      obtain ⟨h2, h3⟩ := ih h
      refine ⟨h2, fun y hy => ?_⟩
      rcases List.mem_cons.1 hy with rfl | hy
      · exact h1
      · exact h3 y hy

theorem writeBlock_eq (s : State) (l : List (Word × Word)) (k : Nat)
    (h : ∀ x ∈ l, x.1.toNat % 4 = 0 ∧ Platform.abortsAccess s.platform x.1.toNat 4 .write s.privilege = false ∧
      Platform.maps s.platform x.1.toNat 4 = true) :
    writeBlock s l k = .ok (s.storedAll l) := by
  induction l generalizing s k with
  | nil => rfl
  | cons x rest ih =>
    obtain ⟨a, v⟩ := x
    have hw : s.writeMem a 4 v s.privilege = .ok (s.stored a 4 v) :=
      (writeMem_ok_iff s _ a 4 v s.privilege).2 ⟨h (a, v) List.mem_cons_self, rfl⟩
    simp only [writeBlock, hw, State.storedAll]
    exact ih _ _ fun y hy => h y (List.mem_cons_of_mem _ hy)

/-- A block whose `j`-th word is the first that cannot be written answers what that access answers: the writes before it
change neither the platform nor the mode. -/
theorem writeBlock_stops (s : State) (l : List (Word × Word)) (k j : Nat) (a v : Word) (ha : l[j]? = some (a, v))
    (h : ∀ i b, i < j → l[i]? = some b → b.1.toNat % 4 = 0 ∧
      Platform.abortsAccess s.platform b.1.toNat 4 .write s.privilege = false ∧
        Platform.maps s.platform b.1.toNat 4 = true) :
    (∀ f, s.checkAccess a 4 .write s.privilege = .fault f → writeBlock s l k = .fault f) ∧
      (s.checkAccess a 4 .write s.privilege = .abort → writeBlock s l k = .abort (k + j)) := by
  induction l generalizing k j s with
  | nil => simp at ha
  | cons b bs ih =>
    obtain ⟨b, w⟩ := b
    cases j with
    | zero =>
      obtain ⟨rfl, rfl⟩ : b = a ∧ w = v := by simpa using ha
      exact ⟨fun f hf => by simp [writeBlock, State.writeMem, hf], fun hf => by simp [writeBlock, State.writeMem, hf]⟩
    | succ j =>
      have hr := (writeMem_ok_iff s _ b 4 w s.privilege).2 ⟨h 0 (b, w) (by omega) rfl, rfl⟩
      obtain ⟨h1, h2⟩ := ih (s.stored b 4 w) (k + 1) j (by simpa using ha) fun i c hi hc =>
        h (i + 1) c (by omega) (by simpa using hc)
      refine ⟨fun f hf => ?_, fun hf => ?_⟩
      · simp only [writeBlock, hr]; exact h1 f hf
      · simp only [writeBlock, hr]; exact (h2 hf).trans (by congr 1; omega)

/-- The stores of a list record the bytes of its words, and nothing else. -/
theorem mem_written_storedAll (s : State) (l : List (Word × Word)) (x : Nat) :
    x ∈ (s.storedAll l).written ↔ (∃ y ∈ l, y.1.toNat ≤ x ∧ x < y.1.toNat + 4) ∨ x ∈ s.written := by
  induction l generalizing s with
  | nil => simp [State.storedAll]
  | cons y l ih =>
    obtain ⟨a, v⟩ := y
    rw [State.storedAll, ih]
    simp only [State.stored_written, Written.mem_add, List.exists_mem_cons_iff, or_assoc]
    exact or_left_comm

/-- The stores of a list leave every byte outside its words alone. -/
theorem byte_storedAll (s : State) (l : List (Word × Word)) (x : Nat) (h : Memory.wf s.mem = true)
    (hx : ¬∃ y ∈ l, y.1.toNat ≤ x ∧ x < y.1.toNat + 4) :
    Memory.byte (s.storedAll l).mem x = Memory.byte s.mem x := by
  induction l generalizing s with
  | nil => rfl
  | cons y l ih =>
    obtain ⟨a, v⟩ := y
    rw [List.exists_mem_cons_iff, not_or] at hx
    rw [State.storedAll, ih _ (Memory.wf_store _ _ _ _ h) hx.2]
    exact Memory.byte_store_outside _ _ _ _ _ h (by have := hx.1; simp only at this; omega)

/-! ### The fields a list of register writes leaves alone -/

theorem loadRegs_frame (m : Mode) (l : List (Reg × Word)) (s : State) :
    (loadRegs m l s).cpsr = s.cpsr ∧ (loadRegs m l s).mem = s.mem ∧ (loadRegs m l s).written = s.written ∧
      (loadRegs m l s).platform = s.platform ∧ (loadRegs m l s).requests = s.requests ∧
      (loadRegs m l s).afterUserLdm = s.afterUserLdm ∧ (loadRegs m l s).draws = s.draws ∧
      (∀ k, (loadRegs m l s).spsr? k = s.spsr? k) := by
  induction l generalizing s with
  | nil => simp [loadRegs]
  | cons x rest ih =>
    obtain ⟨r, v⟩ := x
    simpa [loadRegs] using ih (s.setRegIn m r (if r = 15#4 then v &&& 0xFFFFFFFC#32 else v))

theorem loadRegs_pc (m : Mode) (l : List (Reg × Word)) (s : State) (h : ∀ x ∈ l, x.1 ≠ 15#4) :
    (loadRegs m l s).pc = s.pc := by
  induction l generalizing s with
  | nil => rfl
  | cons x rest ih =>
    obtain ⟨r, v⟩ := x
    rw [loadRegs, ih _ fun y hy => h y (List.mem_cons_of_mem _ hy), State.setRegIn_pc s m r _ (h (r, v) List.mem_cons_self)]

/-- A list of register writes leaves a physical register alone that none of them names. -/
theorem gpr_loadRegs_of_not_mem (m : Mode) (l : List (Reg × Word)) (s : State) (p : PhysReg)
    (h : ∀ x ∈ l, phys m x.1 ≠ some p) : (loadRegs m l s).gpr p = s.gpr p := by
  induction l generalizing s with
  | nil => rfl
  | cons x rest ih =>
    obtain ⟨r, v⟩ := x
    rw [loadRegs, ih _ fun y hy => h y (List.mem_cons_of_mem _ hy), State.gpr_setRegIn,
      if_neg (h (r, v) List.mem_cons_self)]

/-- With register numbers that differ, each register holds its word. -/
theorem gpr_loadRegs_of_mem (m : Mode) (l : List (Reg × Word)) (s : State) (hn : (l.map Prod.fst).Nodup) (r : Reg)
    (v : Word) (hm : (r, v) ∈ l) (p : PhysReg) (hp : phys m r = some p) : (loadRegs m l s).gpr p = v := by
  have hr : r ≠ 15#4 := fun e => by rw [(phys_eq_none_iff m r).2 e] at hp; exact absurd hp (by simp)
  induction l generalizing s with
  | nil => exact absurd hm (by simp)
  | cons x rest ih =>
    obtain ⟨q, w⟩ := x
    simp only [List.map_cons, List.nodup_cons] at hn
    rcases List.mem_cons.1 hm with he | hm
    · obtain ⟨rfl, rfl⟩ := Prod.mk.inj he
      rw [loadRegs, gpr_loadRegs_of_not_mem m rest _ p, State.gpr_setRegIn, if_pos hp, if_neg hr]
      intro y hy hyp
      exact hn.1 (phys_injective m r y.1 p hp hyp ▸ List.mem_map_of_mem hy)
    · rw [loadRegs]; exact ih _ hn.2 hm

theorem abortedLoads_frame (old : State) (m : Mode) (rn : Reg) (j : Nat) (choice : BitVec 32) (l : List (Reg × Word))
    (k : Nat) (s : State) :
    (abortedLoads old m rn j choice l k s).pc = s.pc ∧ (abortedLoads old m rn j choice l k s).cpsr = s.cpsr ∧
      (abortedLoads old m rn j choice l k s).mem = s.mem ∧
      (abortedLoads old m rn j choice l k s).written = s.written ∧
      (abortedLoads old m rn j choice l k s).platform = s.platform ∧
      (abortedLoads old m rn j choice l k s).requests = s.requests ∧
      (abortedLoads old m rn j choice l k s).afterUserLdm = s.afterUserLdm ∧
      (∀ i, (abortedLoads old m rn j choice l k s).spsr? i = s.spsr? i) := by
  induction l generalizing s k with
  | nil => simp [abortedLoads]
  | cons x rest ih =>
    obtain ⟨r, a⟩ := x
    rw [abortedLoads]
    split
    · exact ih (k + 1) s
    · rename_i hn
      have hr : r ≠ 15#4 := fun e => hn (.inr (.inl e))
      split
      · rename_i v _
        simpa [State.setRegIn_pc s m r v hr] using ih (k + 1) (s.setRegIn m r v)
      · exact ih (k + 1) s
      · exact ih (k + 1) s

/-- An aborted load changes a register only if the block names it, and never the base or the aborting one (R287). -/
theorem gpr_abortedLoads (old : State) (m : Mode) (rn : Reg) (j : Nat) (choice : BitVec 32) (l : List (Reg × Word))
    (k : Nat) (s : State) (p : PhysReg)
    (h : (∀ x ∈ l, phys m x.1 ≠ some p) ∨ phys old.cpsr.mode rn = some p) :
    (abortedLoads old m rn j choice l k s).gpr p = s.gpr p := by
  induction l generalizing s k with
  | nil => rfl
  | cons x rest ih =>
    obtain ⟨r, a⟩ := x
    have h' : (∀ x ∈ rest, phys m x.1 ≠ some p) ∨ phys old.cpsr.mode rn = some p :=
      h.imp_left fun h y hy => h y (List.mem_cons_of_mem _ hy)
    rw [abortedLoads, ih _ _ h']
    split
    · rfl
    · rename_i hn
      split
      · rw [State.gpr_setRegIn, if_neg]
        rcases h with h | h
        · exact h (r, a) List.mem_cons_self
        · exact fun e => hn (.inr (.inr (.inl (e.trans h.symm))))
      · rfl
      · rfl

/-! ### The block transfers -/

theorem blockRefusal_none {am : BlockMode} {rn : Reg} {list : BitVec 16} {s : State}
    (h : blockRefusal am rn list s = none) :
    list ≠ 0#16 ∧ rn ≠ 15#4 ∧ blockCrossesTop am (s.reg rn) (regsOf list).length = false := by
  unfold blockRefusal at h
  split at h
  · exact absurd h (by simp)
  · split at h
    · exact absurd h (by simp)
    · split at h
      · exact absurd h (by simp)
      · exact ⟨‹_›, ‹_›, eq_false_of_ne_true ‹_›⟩

/-- What an `ldm` can answer as a next state (R280, R287). -/
theorem loadBlock_next {am : BlockMode} {w : Bool} {rn : Reg} {list : BitVec 16} {m : Mode}
    {finish : List (Reg × Word) → State → Out} {s t : State} (h : loadBlock am w rn list m finish s = .next t) :
    blockRefusal am rn list s = none ∧
      ((∃ j, readBlock s (blockAddresses am rn list s) 0 = .abort j ∧
          dataAbort ((abortedLoads s m rn j s.drawn ((regsOf list).zip (blockAddresses am rn list s)) 0
            (s.abortedBlockBase am w rn (regsOf list).length)).afterDraw) = .next t) ∨
        ∃ vs, readBlock s (blockAddresses am rn list s) 0 = .ok vs ∧
          finish ((regsOf list).zip vs) (s.writeBlockBase am w rn (regsOf list).length) = .next t) := by
  unfold loadBlock at h
  split at h
  · exact absurd h (by simp)
  · refine ⟨‹_›, ?_⟩
    split at h
    · exact absurd h (by simp)
    · exact .inl ⟨_, ‹_›, h⟩
    · exact .inr ⟨_, ‹_›, h⟩

/-- What an `stm` can answer as a next state (R280, R287). -/
theorem storeBlock_next {am : BlockMode} {w : Bool} {rn : Reg} {list : BitVec 16} {m : Mode} {s t : State}
    (h : storeBlock am w rn list m s = .next t) :
    blockRefusal am rn list s = none ∧
      ((∃ j, writeBlock s (blockStores am rn list m s) 0 = .abort j ∧
          dataAbort ((abortedStores s.privilege j s.drawn (blockStores am rn list m s) 0
            (s.abortedBlockBase am w rn (regsOf list).length)).afterDraw) = .next t) ∨
        ∃ u, writeBlock s (blockStores am rn list m s) 0 = .ok u ∧
          advance (u.writeBlockBase am w rn (regsOf list).length) = .next t) := by
  unfold storeBlock at h
  split at h
  · exact absurd h (by simp)
  · refine ⟨‹_›, ?_⟩
    split at h
    · exact absurd h (by simp)
    · exact .inl ⟨_, ‹_›, h⟩
    · exact .inr ⟨_, ‹_›, h⟩

theorem State.writeBlockBase_pc (s : State) (am : BlockMode) (w : Bool) (rn : Reg) (n : Nat) (h : rn ≠ 15#4) :
    (s.writeBlockBase am w rn n).pc = s.pc := by
  unfold State.writeBlockBase
  split
  · exact State.setReg_pc s rn _ h
  · rfl

theorem State.gpr_writeBlockBase (s : State) (am : BlockMode) (w : Bool) (rn : Reg) (n : Nat) (p : PhysReg) :
    (s.writeBlockBase am w rn n).gpr p =
      if w = true ∧ phys s.cpsr.mode rn = some p then blockBase am (s.reg rn) n else s.gpr p := by
  unfold State.writeBlockBase
  split <;> simp_all [State.gpr_setReg]

theorem abortedBlockBase_eq (s : State) (am : BlockMode) (w : Bool) (rn : Reg) (n : Nat) :
    s.abortedBlockBase am w rn n = s ∨ s.abortedBlockBase am w rn n = s.writeBlockBase am w rn n := by
  unfold State.abortedBlockBase; split
  · exact .inr rfl
  · exact .inl rfl

theorem markUserLdm_next {o : Out} {t : State} (h : markUserLdm o = .next t) :
    ∃ u, o = .next u ∧ t = { u with afterUserLdm := true } := by
  cases o with
  | next u => exact ⟨u, rfl, by simpa [markUserLdm] using h.symm⟩
  | fault f => exact absurd h (by simp [markUserLdm])
  | refused e => exact absurd h (by simp [markUserLdm])

theorem finishLoadReturn_next {l : List (Reg × Word)} {s t : State} (h : finishLoadReturn l s = .next t) :
    ∃ p c, s.spsr? s.cpsr.mode = some p ∧ p.restored = some c ∧
      ((l.getLast? = none ∧
          t = { loadRegs s.cpsr.mode (l.filter fun x => decide (x.1 ≠ 15#4)) s with cpsr := c }) ∨
        ∃ x, l.getLast? = some x ∧
          t = { loadRegs s.cpsr.mode (l.filter fun x => decide (x.1 ≠ 15#4)) s with
            cpsr := c, pc := x.2 &&& (if c.t then 0xFFFFFFFE#32 else 0xFFFFFFFC#32) }) := by
  unfold finishLoadReturn at h
  split at h
  · exact absurd h (by simp)
  · rename_i u hu
    obtain ⟨p, c, hp, hc, rfl⟩ := returnCpsr_ok hu
    obtain ⟨h1, -, -, -, -, -, -, h2⟩ :=
      loadRegs_frame s.cpsr.mode (l.filter fun x => decide (x.1 ≠ 15#4)) s
    rw [h2, h1] at hp
    refine ⟨p, c, hp, hc, ?_⟩
    split at h
    · exact .inl ⟨‹_›, by simpa using h.symm⟩
    · exact .inr ⟨_, ‹_›, by simpa using h.symm⟩

/-! ### Two instructions in a row (R314) -/

theorem sequence_next {f g : State → Out} {s t : State} (h : sequence f g s = .next t) :
    ∃ u, f s = .next u ∧ ((u.pc = s.pc + 4#32 ∧ g u = .next t) ∨ (u.pc ≠ s.pc + 4#32 ∧ t = u)) := by
  unfold sequence at h
  split at h
  · rename_i u hu
    refine ⟨u, hu, ?_⟩
    split at h
    · exact .inl ⟨‹_›, h⟩
    · exact .inr ⟨‹_›, by simpa using h.symm⟩
  · exact absurd h (by simp)
  · exact absurd h (by simp)

/-! ### The step (R67, R321, R326) -/

theorem fetch_bytes_iff (s : State) (l : List Byte) :
    fetch s = .bytes l ↔
      Platform.abortsAccess s.platform s.pc.toNat 4 .fetch s.privilege = false ∧
        Platform.maps s.platform s.pc.toNat 4 = true ∧ Written.touches s.written s.pc.toNat 4 = false ∧
        l = Memory.fourBytes s.mem s.pc.toNat := by
  unfold fetch
  split
  · simp_all
  · split
    · simp_all
    · split
      · simp_all
      · simp_all only [Fetched.bytes.injEq, true_and]
        constructor <;> intro h
        · simp_all
        · simp_all

theorem fetch_abort_iff (s : State) :
    fetch s = .abort ↔ Platform.abortsAccess s.platform s.pc.toNat 4 .fetch s.privilege = true := by
  unfold fetch
  split
  · simp_all
  · split
    · simp_all
    · split <;> simp_all

theorem runBytes_next {l : List Byte} {s t : State} (h : runBytes l s = .next t) :
    (∃ c, decodeBytes l = .undefined c ∧ undefinedWord c s.executing = .next t) ∨
      ∃ i, decodeBytes l = .instr i ∧ hazard i s = false ∧ exec i s.executing = .next t := by
  unfold runBytes at h
  split at h
  · exact absurd h (by simp)
  · exact .inl ⟨_, ‹_›, h⟩
  · split at h
    · exact absurd h (by simp)
    · exact .inr ⟨_, ‹_›, eq_false_of_ne_true ‹_›, h⟩

theorem undefinedWord_next {c : Cond} {s t : State} (h : undefinedWord c s = .next t) :
    (Cond.passes c s.cpsr = true ∧ t = enter .undefinedInstruction (s.pc + 4#32) s) ∨
      (Cond.passes c s.cpsr = false ∧ s.pc ≠ 0xFFFFFFFC#32 ∧ t = s.onward) := by
  rcases conditional_next h with ⟨h1, h2⟩ | h1
  · exact .inl ⟨h1, by simpa using h2.symm⟩
  · exact .inr h1

/-- The five things a step that answers a next state can be (R321): the entry of an FIQ, an IRQ or a Prefetch abort, a
word of the Undefined space, or an instruction. -/
theorem step_next {s t : State} (h : step s = .next t) :
    s.cpsr.t = false ∧
      ((s.request.fiq = true ∧ s.cpsr.f = false ∧ t = enter .fiq (s.pc + 4#32) s.sampled) ∨
        (s.request.irq = true ∧ s.cpsr.i = false ∧ t = enter .irq (s.pc + 4#32) s.sampled) ∨
        (fetch s.sampled = .abort ∧ t = enter .prefetchAbort (s.pc + 4#32) s.sampled) ∨
        (∃ l c, fetch s.sampled = .bytes l ∧ decodeBytes l = .undefined c ∧
          undefinedWord c s.sampled.executing = .next t) ∨
        ∃ l i, fetch s.sampled = .bytes l ∧ decodeBytes l = .instr i ∧ hazard i s.sampled = false ∧
          exec i s.sampled.executing = .next t) := by
  unfold step cycle at h
  split at h
  · exact absurd h (by simp)
  · rename_i ht
    refine ⟨eq_false_of_ne_true ht, ?_⟩
    split at h
    · rename_i hf
      simp only [Bool.and_eq_true, Bool.not_eq_true'] at hf
      exact .inl ⟨hf.1, hf.2, by simpa using h.symm⟩
    · right
      split at h
      · rename_i hi
        simp only [Bool.and_eq_true, Bool.not_eq_true'] at hi
        exact .inl ⟨hi.1, hi.2, by simpa using h.symm⟩
      · right
        unfold runAtPc at h
        split at h
        · exact .inl ⟨‹_›, by simpa using h.symm⟩
        · exact absurd h (by simp)
        · right
          rcases runBytes_next h with ⟨c, h1, h2⟩ | ⟨i, h1, h2, h3⟩
          · exact .inl ⟨_, c, ‹_›, h1, h2⟩
          · exact .inr ⟨_, i, ‹_›, h1, h2, h3⟩

end Sys2Proof.Machine
end

