-- ==== Sys2Proof/Laws/Exec.lean ====
section
/-! SUPPORT. What `exec` does with each instruction, over the shared operations: one lemma for each constructor. -/

namespace Sys2Proof.Machine

theorem exec_andImm (c : Cond) (sf : Bool) (rd rn : Reg) (rot : BitVec 4) (imm : BitVec 8) (s : State) :
    exec (.andImm c sf rd rn rot imm) s =
      conditional c s (dataProc .and sf rd rn (.imm rot imm)) :=
  rfl

theorem exec_andShiftImm (c : Cond) (sf : Bool) (rd rn rm : Reg) (sh : ShiftImm) (s : State) :
    exec (.andShiftImm c sf rd rn rm sh) s =
      conditional c s (dataProc .and sf rd rn (.shiftImm rm sh)) :=
  rfl

theorem exec_andShiftReg (c : Cond) (sf : Bool) (rd rn rm : Reg) (k : ShiftKind) (rs : Reg) (s : State) :
    exec (.andShiftReg c sf rd rn rm k rs) s =
      conditional c s (dataProc .and sf rd rn (.shiftReg rm k rs)) :=
  rfl

theorem exec_eorImm (c : Cond) (sf : Bool) (rd rn : Reg) (rot : BitVec 4) (imm : BitVec 8) (s : State) :
    exec (.eorImm c sf rd rn rot imm) s =
      conditional c s (dataProc .eor sf rd rn (.imm rot imm)) :=
  rfl

theorem exec_eorShiftImm (c : Cond) (sf : Bool) (rd rn rm : Reg) (sh : ShiftImm) (s : State) :
    exec (.eorShiftImm c sf rd rn rm sh) s =
      conditional c s (dataProc .eor sf rd rn (.shiftImm rm sh)) :=
  rfl

theorem exec_eorShiftReg (c : Cond) (sf : Bool) (rd rn rm : Reg) (k : ShiftKind) (rs : Reg) (s : State) :
    exec (.eorShiftReg c sf rd rn rm k rs) s =
      conditional c s (dataProc .eor sf rd rn (.shiftReg rm k rs)) :=
  rfl

theorem exec_subImm (c : Cond) (sf : Bool) (rd rn : Reg) (rot : BitVec 4) (imm : BitVec 8) (s : State) :
    exec (.subImm c sf rd rn rot imm) s =
      conditional c s (dataProc .sub sf rd rn (.imm rot imm)) :=
  rfl

theorem exec_subShiftImm (c : Cond) (sf : Bool) (rd rn rm : Reg) (sh : ShiftImm) (s : State) :
    exec (.subShiftImm c sf rd rn rm sh) s =
      conditional c s (dataProc .sub sf rd rn (.shiftImm rm sh)) :=
  rfl

theorem exec_subShiftReg (c : Cond) (sf : Bool) (rd rn rm : Reg) (k : ShiftKind) (rs : Reg) (s : State) :
    exec (.subShiftReg c sf rd rn rm k rs) s =
      conditional c s (dataProc .sub sf rd rn (.shiftReg rm k rs)) :=
  rfl

theorem exec_rsbImm (c : Cond) (sf : Bool) (rd rn : Reg) (rot : BitVec 4) (imm : BitVec 8) (s : State) :
    exec (.rsbImm c sf rd rn rot imm) s =
      conditional c s (dataProc .rsb sf rd rn (.imm rot imm)) :=
  rfl

theorem exec_rsbShiftImm (c : Cond) (sf : Bool) (rd rn rm : Reg) (sh : ShiftImm) (s : State) :
    exec (.rsbShiftImm c sf rd rn rm sh) s =
      conditional c s (dataProc .rsb sf rd rn (.shiftImm rm sh)) :=
  rfl

theorem exec_rsbShiftReg (c : Cond) (sf : Bool) (rd rn rm : Reg) (k : ShiftKind) (rs : Reg) (s : State) :
    exec (.rsbShiftReg c sf rd rn rm k rs) s =
      conditional c s (dataProc .rsb sf rd rn (.shiftReg rm k rs)) :=
  rfl

theorem exec_addImm (c : Cond) (sf : Bool) (rd rn : Reg) (rot : BitVec 4) (imm : BitVec 8) (s : State) :
    exec (.addImm c sf rd rn rot imm) s =
      conditional c s (dataProc .add sf rd rn (.imm rot imm)) :=
  rfl

theorem exec_addShiftImm (c : Cond) (sf : Bool) (rd rn rm : Reg) (sh : ShiftImm) (s : State) :
    exec (.addShiftImm c sf rd rn rm sh) s =
      conditional c s (dataProc .add sf rd rn (.shiftImm rm sh)) :=
  rfl

theorem exec_addShiftReg (c : Cond) (sf : Bool) (rd rn rm : Reg) (k : ShiftKind) (rs : Reg) (s : State) :
    exec (.addShiftReg c sf rd rn rm k rs) s =
      conditional c s (dataProc .add sf rd rn (.shiftReg rm k rs)) :=
  rfl

theorem exec_adcImm (c : Cond) (sf : Bool) (rd rn : Reg) (rot : BitVec 4) (imm : BitVec 8) (s : State) :
    exec (.adcImm c sf rd rn rot imm) s =
      conditional c s (dataProc .adc sf rd rn (.imm rot imm)) :=
  rfl

theorem exec_adcShiftImm (c : Cond) (sf : Bool) (rd rn rm : Reg) (sh : ShiftImm) (s : State) :
    exec (.adcShiftImm c sf rd rn rm sh) s =
      conditional c s (dataProc .adc sf rd rn (.shiftImm rm sh)) :=
  rfl

theorem exec_adcShiftReg (c : Cond) (sf : Bool) (rd rn rm : Reg) (k : ShiftKind) (rs : Reg) (s : State) :
    exec (.adcShiftReg c sf rd rn rm k rs) s =
      conditional c s (dataProc .adc sf rd rn (.shiftReg rm k rs)) :=
  rfl

theorem exec_sbcImm (c : Cond) (sf : Bool) (rd rn : Reg) (rot : BitVec 4) (imm : BitVec 8) (s : State) :
    exec (.sbcImm c sf rd rn rot imm) s =
      conditional c s (dataProc .sbc sf rd rn (.imm rot imm)) :=
  rfl

theorem exec_sbcShiftImm (c : Cond) (sf : Bool) (rd rn rm : Reg) (sh : ShiftImm) (s : State) :
    exec (.sbcShiftImm c sf rd rn rm sh) s =
      conditional c s (dataProc .sbc sf rd rn (.shiftImm rm sh)) :=
  rfl

theorem exec_sbcShiftReg (c : Cond) (sf : Bool) (rd rn rm : Reg) (k : ShiftKind) (rs : Reg) (s : State) :
    exec (.sbcShiftReg c sf rd rn rm k rs) s =
      conditional c s (dataProc .sbc sf rd rn (.shiftReg rm k rs)) :=
  rfl

theorem exec_rscImm (c : Cond) (sf : Bool) (rd rn : Reg) (rot : BitVec 4) (imm : BitVec 8) (s : State) :
    exec (.rscImm c sf rd rn rot imm) s =
      conditional c s (dataProc .rsc sf rd rn (.imm rot imm)) :=
  rfl

theorem exec_rscShiftImm (c : Cond) (sf : Bool) (rd rn rm : Reg) (sh : ShiftImm) (s : State) :
    exec (.rscShiftImm c sf rd rn rm sh) s =
      conditional c s (dataProc .rsc sf rd rn (.shiftImm rm sh)) :=
  rfl

theorem exec_rscShiftReg (c : Cond) (sf : Bool) (rd rn rm : Reg) (k : ShiftKind) (rs : Reg) (s : State) :
    exec (.rscShiftReg c sf rd rn rm k rs) s =
      conditional c s (dataProc .rsc sf rd rn (.shiftReg rm k rs)) :=
  rfl

theorem exec_tstImm (c : Cond) (rn : Reg) (rot : BitVec 4) (imm : BitVec 8) (s : State) :
    exec (.tstImm c rn rot imm) s =
      conditional c s (dataCompare .tst rn (.imm rot imm)) :=
  rfl

theorem exec_tstShiftImm (c : Cond) (rn rm : Reg) (sh : ShiftImm) (s : State) :
    exec (.tstShiftImm c rn rm sh) s =
      conditional c s (dataCompare .tst rn (.shiftImm rm sh)) :=
  rfl

theorem exec_tstShiftReg (c : Cond) (rn rm : Reg) (k : ShiftKind) (rs : Reg) (s : State) :
    exec (.tstShiftReg c rn rm k rs) s =
      conditional c s (dataCompare .tst rn (.shiftReg rm k rs)) :=
  rfl

theorem exec_teqImm (c : Cond) (rn : Reg) (rot : BitVec 4) (imm : BitVec 8) (s : State) :
    exec (.teqImm c rn rot imm) s =
      conditional c s (dataCompare .teq rn (.imm rot imm)) :=
  rfl

theorem exec_teqShiftImm (c : Cond) (rn rm : Reg) (sh : ShiftImm) (s : State) :
    exec (.teqShiftImm c rn rm sh) s =
      conditional c s (dataCompare .teq rn (.shiftImm rm sh)) :=
  rfl

theorem exec_teqShiftReg (c : Cond) (rn rm : Reg) (k : ShiftKind) (rs : Reg) (s : State) :
    exec (.teqShiftReg c rn rm k rs) s =
      conditional c s (dataCompare .teq rn (.shiftReg rm k rs)) :=
  rfl

theorem exec_cmpImm (c : Cond) (rn : Reg) (rot : BitVec 4) (imm : BitVec 8) (s : State) :
    exec (.cmpImm c rn rot imm) s =
      conditional c s (dataCompare .cmp rn (.imm rot imm)) :=
  rfl

theorem exec_cmpShiftImm (c : Cond) (rn rm : Reg) (sh : ShiftImm) (s : State) :
    exec (.cmpShiftImm c rn rm sh) s =
      conditional c s (dataCompare .cmp rn (.shiftImm rm sh)) :=
  rfl

theorem exec_cmpShiftReg (c : Cond) (rn rm : Reg) (k : ShiftKind) (rs : Reg) (s : State) :
    exec (.cmpShiftReg c rn rm k rs) s =
      conditional c s (dataCompare .cmp rn (.shiftReg rm k rs)) :=
  rfl

theorem exec_cmnImm (c : Cond) (rn : Reg) (rot : BitVec 4) (imm : BitVec 8) (s : State) :
    exec (.cmnImm c rn rot imm) s =
      conditional c s (dataCompare .cmn rn (.imm rot imm)) :=
  rfl

theorem exec_cmnShiftImm (c : Cond) (rn rm : Reg) (sh : ShiftImm) (s : State) :
    exec (.cmnShiftImm c rn rm sh) s =
      conditional c s (dataCompare .cmn rn (.shiftImm rm sh)) :=
  rfl

theorem exec_cmnShiftReg (c : Cond) (rn rm : Reg) (k : ShiftKind) (rs : Reg) (s : State) :
    exec (.cmnShiftReg c rn rm k rs) s =
      conditional c s (dataCompare .cmn rn (.shiftReg rm k rs)) :=
  rfl

theorem exec_orrImm (c : Cond) (sf : Bool) (rd rn : Reg) (rot : BitVec 4) (imm : BitVec 8) (s : State) :
    exec (.orrImm c sf rd rn rot imm) s =
      conditional c s (dataProc .orr sf rd rn (.imm rot imm)) :=
  rfl

theorem exec_orrShiftImm (c : Cond) (sf : Bool) (rd rn rm : Reg) (sh : ShiftImm) (s : State) :
    exec (.orrShiftImm c sf rd rn rm sh) s =
      conditional c s (dataProc .orr sf rd rn (.shiftImm rm sh)) :=
  rfl

theorem exec_orrShiftReg (c : Cond) (sf : Bool) (rd rn rm : Reg) (k : ShiftKind) (rs : Reg) (s : State) :
    exec (.orrShiftReg c sf rd rn rm k rs) s =
      conditional c s (dataProc .orr sf rd rn (.shiftReg rm k rs)) :=
  rfl

theorem exec_movImm (c : Cond) (sf : Bool) (rd : Reg) (rot : BitVec 4) (imm : BitVec 8) (s : State) :
    exec (.movImm c sf rd rot imm) s =
      conditional c s (dataMove .mov sf rd (.imm rot imm)) :=
  rfl

theorem exec_movShiftImm (c : Cond) (sf : Bool) (rd rm : Reg) (sh : ShiftImm) (s : State) :
    exec (.movShiftImm c sf rd rm sh) s =
      conditional c s (dataMove .mov sf rd (.shiftImm rm sh)) :=
  rfl

theorem exec_movShiftReg (c : Cond) (sf : Bool) (rd rm : Reg) (k : ShiftKind) (rs : Reg) (s : State) :
    exec (.movShiftReg c sf rd rm k rs) s =
      conditional c s (dataMove .mov sf rd (.shiftReg rm k rs)) :=
  rfl

theorem exec_bicImm (c : Cond) (sf : Bool) (rd rn : Reg) (rot : BitVec 4) (imm : BitVec 8) (s : State) :
    exec (.bicImm c sf rd rn rot imm) s =
      conditional c s (dataProc .bic sf rd rn (.imm rot imm)) :=
  rfl

theorem exec_bicShiftImm (c : Cond) (sf : Bool) (rd rn rm : Reg) (sh : ShiftImm) (s : State) :
    exec (.bicShiftImm c sf rd rn rm sh) s =
      conditional c s (dataProc .bic sf rd rn (.shiftImm rm sh)) :=
  rfl

theorem exec_bicShiftReg (c : Cond) (sf : Bool) (rd rn rm : Reg) (k : ShiftKind) (rs : Reg) (s : State) :
    exec (.bicShiftReg c sf rd rn rm k rs) s =
      conditional c s (dataProc .bic sf rd rn (.shiftReg rm k rs)) :=
  rfl

theorem exec_mvnImm (c : Cond) (sf : Bool) (rd : Reg) (rot : BitVec 4) (imm : BitVec 8) (s : State) :
    exec (.mvnImm c sf rd rot imm) s =
      conditional c s (dataMove .mvn sf rd (.imm rot imm)) :=
  rfl

theorem exec_mvnShiftImm (c : Cond) (sf : Bool) (rd rm : Reg) (sh : ShiftImm) (s : State) :
    exec (.mvnShiftImm c sf rd rm sh) s =
      conditional c s (dataMove .mvn sf rd (.shiftImm rm sh)) :=
  rfl

theorem exec_mvnShiftReg (c : Cond) (sf : Bool) (rd rm : Reg) (k : ShiftKind) (rs : Reg) (s : State) :
    exec (.mvnShiftReg c sf rd rm k rs) s =
      conditional c s (dataMove .mvn sf rd (.shiftReg rm k rs)) :=
  rfl

theorem exec_mrsCpsr (c : Cond) (rd : Reg) (s : State) :
    exec (.mrsCpsr c rd) s =
      conditional c s fun t => readPsr rd t.cpsr.saved t :=
  rfl

theorem exec_mrsSpsr (c : Cond) (rd : Reg) (s : State) :
    exec (.mrsSpsr c rd) s =
      conditional c s fun t =>
        match t.spsr? t.cpsr.mode with
        | none => .refused .noSpsr
        | some p => readPsr rd p t :=
  rfl

theorem exec_msrCpsrReg (c : Cond) (fields : PsrFields) (rm : Reg) (s : State) :
    exec (.msrCpsrReg c fields rm) s =
      conditional c s fun t => if rm = 15#4 then .refused .r15Operand else writeCpsr fields (t.reg rm) t :=
  rfl

theorem exec_msrSpsrReg (c : Cond) (fields : PsrFields) (rm : Reg) (s : State) :
    exec (.msrSpsrReg c fields rm) s =
      conditional c s fun t => if rm = 15#4 then .refused .r15Operand else writeSpsr fields (t.reg rm) t :=
  rfl

theorem exec_msrCpsrImm (c : Cond) (fields : PsrFields) (rot : BitVec 4) (imm : BitVec 8) (s : State) :
    exec (.msrCpsrImm c fields rot imm) s =
      conditional c s (writeCpsr fields (rotatedImm rot imm)) :=
  rfl

theorem exec_msrSpsrImm (c : Cond) (fields : PsrFields) (rot : BitVec 4) (imm : BitVec 8) (s : State) :
    exec (.msrSpsrImm c fields rot imm) s =
      conditional c s (writeSpsr fields (rotatedImm rot imm)) :=
  rfl

theorem exec_mul (c : Cond) (sf : Bool) (rd rm rs : Reg) (s : State) :
    exec (.mul c sf rd rm rs) s =
      conditional c s fun t =>
        if anyPc [rd, rm, rs] then .refused .r15Operand
        else if rd = rm then .refused .multiplyRegisters
        else multiply sf rd (t.reg rm * t.reg rs) t :=
  rfl

theorem exec_mla (c : Cond) (sf : Bool) (rd rm rs rn : Reg) (s : State) :
    exec (.mla c sf rd rm rs rn) s =
      conditional c s fun t =>
        if anyPc [rd, rm, rs, rn] then .refused .r15Operand
        else if rd = rm then .refused .multiplyRegisters
        else multiply sf rd (t.reg rm * t.reg rs + t.reg rn) t :=
  rfl

theorem exec_umull (c : Cond) (sf : Bool) (rdLo rdHi rm rs : Reg) (s : State) :
    exec (.umull c sf rdLo rdHi rm rs) s =
      conditional c s fun t =>
        match longMultiplyRefusal rdLo rdHi rm rs with
        | some e => .refused e
        | none => longMultiply sf rdLo rdHi (unsignedProduct (t.reg rm) (t.reg rs)) t :=
  rfl

theorem exec_umlal (c : Cond) (sf : Bool) (rdLo rdHi rm rs : Reg) (s : State) :
    exec (.umlal c sf rdLo rdHi rm rs) s =
      conditional c s fun t =>
        match longMultiplyRefusal rdLo rdHi rm rs with
        | some e => .refused e
        | none => longMultiply sf rdLo rdHi (unsignedProduct (t.reg rm) (t.reg rs) + t.accumulator rdLo rdHi) t :=
  rfl

theorem exec_smull (c : Cond) (sf : Bool) (rdLo rdHi rm rs : Reg) (s : State) :
    exec (.smull c sf rdLo rdHi rm rs) s =
      conditional c s fun t =>
        match longMultiplyRefusal rdLo rdHi rm rs with
        | some e => .refused e
        | none => longMultiply sf rdLo rdHi (signedProduct (t.reg rm) (t.reg rs)) t :=
  rfl

theorem exec_smlal (c : Cond) (sf : Bool) (rdLo rdHi rm rs : Reg) (s : State) :
    exec (.smlal c sf rdLo rdHi rm rs) s =
      conditional c s fun t =>
        match longMultiplyRefusal rdLo rdHi rm rs with
        | some e => .refused e
        | none => longMultiply sf rdLo rdHi (signedProduct (t.reg rm) (t.reg rs) + t.accumulator rdLo rdHi) t :=
  rfl

theorem exec_bx (c : Cond) (rm : Reg) (s : State) :
    exec (.bx c rm) s =
      conditional c s fun t => branchExchange t (t.reg rm) :=
  rfl

theorem exec_swp (c : Cond) (rd rm rn : Reg) (s : State) :
    exec (.swp c rd rm rn) s =
      conditional c s (swap 4 extWord rd rm rn) :=
  rfl

theorem exec_swpb (c : Cond) (rd rm rn : Reg) (s : State) :
    exec (.swpb c rd rm rn) s =
      conditional c s (swap 1 extByte rd rm rn) :=
  rfl

theorem exec_ldrPreImm (c : Cond) (u w : Bool) (rn rd : Reg) (imm : BitVec 12) (s : State) :
    exec (.ldrPreImm c u w rn rd imm) s =
      conditional c s fun t => loadSingle 4 extWord true t.privilege (preIndex w) u rn rd (.imm (imm.setWidth 32)) t :=
  rfl

theorem exec_ldrPostImm (c : Cond) (u : Bool) (rn rd : Reg) (imm : BitVec 12) (s : State) :
    exec (.ldrPostImm c u rn rd imm) s =
      conditional c s fun t => loadSingle 4 extWord true t.privilege .post u rn rd (.imm (imm.setWidth 32)) t :=
  rfl

theorem exec_ldrPreReg (c : Cond) (u w : Bool) (rn rd rm : Reg) (sh : ShiftImm) (s : State) :
    exec (.ldrPreReg c u w rn rd rm sh) s =
      conditional c s fun t => loadSingle 4 extWord true t.privilege (preIndex w) u rn rd (.reg rm sh) t :=
  rfl

theorem exec_ldrPostReg (c : Cond) (u : Bool) (rn rd rm : Reg) (sh : ShiftImm) (s : State) :
    exec (.ldrPostReg c u rn rd rm sh) s =
      conditional c s fun t => loadSingle 4 extWord true t.privilege .post u rn rd (.reg rm sh) t :=
  rfl

theorem exec_ldrbPreImm (c : Cond) (u w : Bool) (rn rd : Reg) (imm : BitVec 12) (s : State) :
    exec (.ldrbPreImm c u w rn rd imm) s =
      conditional c s fun t => loadSingle 1 extByte false t.privilege (preIndex w) u rn rd (.imm (imm.setWidth 32)) t :=
  rfl

theorem exec_ldrbPostImm (c : Cond) (u : Bool) (rn rd : Reg) (imm : BitVec 12) (s : State) :
    exec (.ldrbPostImm c u rn rd imm) s =
      conditional c s fun t => loadSingle 1 extByte false t.privilege .post u rn rd (.imm (imm.setWidth 32)) t :=
  rfl

theorem exec_ldrbPreReg (c : Cond) (u w : Bool) (rn rd rm : Reg) (sh : ShiftImm) (s : State) :
    exec (.ldrbPreReg c u w rn rd rm sh) s =
      conditional c s fun t => loadSingle 1 extByte false t.privilege (preIndex w) u rn rd (.reg rm sh) t :=
  rfl

theorem exec_ldrbPostReg (c : Cond) (u : Bool) (rn rd rm : Reg) (sh : ShiftImm) (s : State) :
    exec (.ldrbPostReg c u rn rd rm sh) s =
      conditional c s fun t => loadSingle 1 extByte false t.privilege .post u rn rd (.reg rm sh) t :=
  rfl

theorem exec_strPreImm (c : Cond) (u w : Bool) (rn rd : Reg) (imm : BitVec 12) (s : State) :
    exec (.strPreImm c u w rn rd imm) s =
      conditional c s fun t => storeSingle 4 true t.privilege (preIndex w) u rn rd (.imm (imm.setWidth 32)) t :=
  rfl

theorem exec_strPostImm (c : Cond) (u : Bool) (rn rd : Reg) (imm : BitVec 12) (s : State) :
    exec (.strPostImm c u rn rd imm) s =
      conditional c s fun t => storeSingle 4 true t.privilege .post u rn rd (.imm (imm.setWidth 32)) t :=
  rfl

theorem exec_strPreReg (c : Cond) (u w : Bool) (rn rd rm : Reg) (sh : ShiftImm) (s : State) :
    exec (.strPreReg c u w rn rd rm sh) s =
      conditional c s fun t => storeSingle 4 true t.privilege (preIndex w) u rn rd (.reg rm sh) t :=
  rfl

theorem exec_strPostReg (c : Cond) (u : Bool) (rn rd rm : Reg) (sh : ShiftImm) (s : State) :
    exec (.strPostReg c u rn rd rm sh) s =
      conditional c s fun t => storeSingle 4 true t.privilege .post u rn rd (.reg rm sh) t :=
  rfl

theorem exec_strbPreImm (c : Cond) (u w : Bool) (rn rd : Reg) (imm : BitVec 12) (s : State) :
    exec (.strbPreImm c u w rn rd imm) s =
      conditional c s fun t => storeSingle 1 false t.privilege (preIndex w) u rn rd (.imm (imm.setWidth 32)) t :=
  rfl

theorem exec_strbPostImm (c : Cond) (u : Bool) (rn rd : Reg) (imm : BitVec 12) (s : State) :
    exec (.strbPostImm c u rn rd imm) s =
      conditional c s fun t => storeSingle 1 false t.privilege .post u rn rd (.imm (imm.setWidth 32)) t :=
  rfl

theorem exec_strbPreReg (c : Cond) (u w : Bool) (rn rd rm : Reg) (sh : ShiftImm) (s : State) :
    exec (.strbPreReg c u w rn rd rm sh) s =
      conditional c s fun t => storeSingle 1 false t.privilege (preIndex w) u rn rd (.reg rm sh) t :=
  rfl

theorem exec_strbPostReg (c : Cond) (u : Bool) (rn rd rm : Reg) (sh : ShiftImm) (s : State) :
    exec (.strbPostReg c u rn rd rm sh) s =
      conditional c s fun t => storeSingle 1 false t.privilege .post u rn rd (.reg rm sh) t :=
  rfl

theorem exec_ldrtImm (c : Cond) (u : Bool) (rn rd : Reg) (imm : BitVec 12) (s : State) :
    exec (.ldrtImm c u rn rd imm) s =
      conditional c s fun t => loadSingle 4 extWord false .user .post u rn rd (.imm (imm.setWidth 32)) t :=
  rfl

theorem exec_ldrtReg (c : Cond) (u : Bool) (rn rd rm : Reg) (sh : ShiftImm) (s : State) :
    exec (.ldrtReg c u rn rd rm sh) s =
      conditional c s fun t => loadSingle 4 extWord false .user .post u rn rd (.reg rm sh) t :=
  rfl

theorem exec_ldrbtImm (c : Cond) (u : Bool) (rn rd : Reg) (imm : BitVec 12) (s : State) :
    exec (.ldrbtImm c u rn rd imm) s =
      conditional c s fun t => loadSingle 1 extByte false .user .post u rn rd (.imm (imm.setWidth 32)) t :=
  rfl

theorem exec_ldrbtReg (c : Cond) (u : Bool) (rn rd rm : Reg) (sh : ShiftImm) (s : State) :
    exec (.ldrbtReg c u rn rd rm sh) s =
      conditional c s fun t => loadSingle 1 extByte false .user .post u rn rd (.reg rm sh) t :=
  rfl

theorem exec_strtImm (c : Cond) (u : Bool) (rn rd : Reg) (imm : BitVec 12) (s : State) :
    exec (.strtImm c u rn rd imm) s =
      conditional c s fun t => storeSingle 4 false .user .post u rn rd (.imm (imm.setWidth 32)) t :=
  rfl

theorem exec_strtReg (c : Cond) (u : Bool) (rn rd rm : Reg) (sh : ShiftImm) (s : State) :
    exec (.strtReg c u rn rd rm sh) s =
      conditional c s fun t => storeSingle 4 false .user .post u rn rd (.reg rm sh) t :=
  rfl

theorem exec_strbtImm (c : Cond) (u : Bool) (rn rd : Reg) (imm : BitVec 12) (s : State) :
    exec (.strbtImm c u rn rd imm) s =
      conditional c s fun t => storeSingle 1 false .user .post u rn rd (.imm (imm.setWidth 32)) t :=
  rfl

theorem exec_strbtReg (c : Cond) (u : Bool) (rn rd rm : Reg) (sh : ShiftImm) (s : State) :
    exec (.strbtReg c u rn rd rm sh) s =
      conditional c s fun t => storeSingle 1 false .user .post u rn rd (.reg rm sh) t :=
  rfl

theorem exec_ldrhPreImm (c : Cond) (u w : Bool) (rn rd : Reg) (imm : BitVec 8) (s : State) :
    exec (.ldrhPreImm c u w rn rd imm) s =
      conditional c s fun t => loadSingle 2 extHalf false t.privilege (preIndex w) u rn rd (.imm (imm.setWidth 32)) t :=
  rfl

theorem exec_ldrhPostImm (c : Cond) (u : Bool) (rn rd : Reg) (imm : BitVec 8) (s : State) :
    exec (.ldrhPostImm c u rn rd imm) s =
      conditional c s fun t => loadSingle 2 extHalf false t.privilege .post u rn rd (.imm (imm.setWidth 32)) t :=
  rfl

theorem exec_ldrhPreReg (c : Cond) (u w : Bool) (rn rd rm : Reg) (s : State) :
    exec (.ldrhPreReg c u w rn rd rm) s =
      conditional c s fun t => loadSingle 2 extHalf false t.privilege (preIndex w) u rn rd (.reg rm (.lsl 0)) t :=
  rfl

theorem exec_ldrhPostReg (c : Cond) (u : Bool) (rn rd rm : Reg) (s : State) :
    exec (.ldrhPostReg c u rn rd rm) s =
      conditional c s fun t => loadSingle 2 extHalf false t.privilege .post u rn rd (.reg rm (.lsl 0)) t :=
  rfl

theorem exec_ldrsbPreImm (c : Cond) (u w : Bool) (rn rd : Reg) (imm : BitVec 8) (s : State) :
    exec (.ldrsbPreImm c u w rn rd imm) s =
      conditional c s fun t => loadSingle 1 extSignedByte false t.privilege (preIndex w) u rn rd (.imm (imm.setWidth 32)) t :=
  rfl

theorem exec_ldrsbPostImm (c : Cond) (u : Bool) (rn rd : Reg) (imm : BitVec 8) (s : State) :
    exec (.ldrsbPostImm c u rn rd imm) s =
      conditional c s fun t => loadSingle 1 extSignedByte false t.privilege .post u rn rd (.imm (imm.setWidth 32)) t :=
  rfl

theorem exec_ldrsbPreReg (c : Cond) (u w : Bool) (rn rd rm : Reg) (s : State) :
    exec (.ldrsbPreReg c u w rn rd rm) s =
      conditional c s fun t => loadSingle 1 extSignedByte false t.privilege (preIndex w) u rn rd (.reg rm (.lsl 0)) t :=
  rfl

theorem exec_ldrsbPostReg (c : Cond) (u : Bool) (rn rd rm : Reg) (s : State) :
    exec (.ldrsbPostReg c u rn rd rm) s =
      conditional c s fun t => loadSingle 1 extSignedByte false t.privilege .post u rn rd (.reg rm (.lsl 0)) t :=
  rfl

theorem exec_ldrshPreImm (c : Cond) (u w : Bool) (rn rd : Reg) (imm : BitVec 8) (s : State) :
    exec (.ldrshPreImm c u w rn rd imm) s =
      conditional c s fun t => loadSingle 2 extSignedHalf false t.privilege (preIndex w) u rn rd (.imm (imm.setWidth 32)) t :=
  rfl

theorem exec_ldrshPostImm (c : Cond) (u : Bool) (rn rd : Reg) (imm : BitVec 8) (s : State) :
    exec (.ldrshPostImm c u rn rd imm) s =
      conditional c s fun t => loadSingle 2 extSignedHalf false t.privilege .post u rn rd (.imm (imm.setWidth 32)) t :=
  rfl

theorem exec_ldrshPreReg (c : Cond) (u w : Bool) (rn rd rm : Reg) (s : State) :
    exec (.ldrshPreReg c u w rn rd rm) s =
      conditional c s fun t => loadSingle 2 extSignedHalf false t.privilege (preIndex w) u rn rd (.reg rm (.lsl 0)) t :=
  rfl

theorem exec_ldrshPostReg (c : Cond) (u : Bool) (rn rd rm : Reg) (s : State) :
    exec (.ldrshPostReg c u rn rd rm) s =
      conditional c s fun t => loadSingle 2 extSignedHalf false t.privilege .post u rn rd (.reg rm (.lsl 0)) t :=
  rfl

theorem exec_strhPreImm (c : Cond) (u w : Bool) (rn rd : Reg) (imm : BitVec 8) (s : State) :
    exec (.strhPreImm c u w rn rd imm) s =
      conditional c s fun t => storeSingle 2 false t.privilege (preIndex w) u rn rd (.imm (imm.setWidth 32)) t :=
  rfl

theorem exec_strhPostImm (c : Cond) (u : Bool) (rn rd : Reg) (imm : BitVec 8) (s : State) :
    exec (.strhPostImm c u rn rd imm) s =
      conditional c s fun t => storeSingle 2 false t.privilege .post u rn rd (.imm (imm.setWidth 32)) t :=
  rfl

theorem exec_strhPreReg (c : Cond) (u w : Bool) (rn rd rm : Reg) (s : State) :
    exec (.strhPreReg c u w rn rd rm) s =
      conditional c s fun t => storeSingle 2 false t.privilege (preIndex w) u rn rd (.reg rm (.lsl 0)) t :=
  rfl

theorem exec_strhPostReg (c : Cond) (u : Bool) (rn rd rm : Reg) (s : State) :
    exec (.strhPostReg c u rn rd rm) s =
      conditional c s fun t => storeSingle 2 false t.privilege .post u rn rd (.reg rm (.lsl 0)) t :=
  rfl

theorem exec_ldm (c : Cond) (am : BlockMode) (w : Bool) (rn : Reg) (list : BitVec 16) (s : State) :
    exec (.ldm c am w rn list) s =
      conditional c s fun t =>
        match loadBaseRefusal w rn list with
        | some e => .refused e
        | none => loadBlock am w rn list t.cpsr.mode (finishLoad list) t :=
  rfl

theorem exec_ldmUser (c : Cond) (am : BlockMode) (w : Bool) (rn : Reg) (list : BitVec 16) (s : State) :
    exec (.ldmUser c am w rn list) s =
      conditional c s fun t =>
        match userBankRefusal w t with
        | some e => .refused e
        | none => markUserLdm (loadBlock am w rn list .usr finishLoadUser t) :=
  rfl

theorem exec_ldmReturn (c : Cond) (am : BlockMode) (w : Bool) (rn : Reg) (list : BitVec 16) (s : State) :
    exec (.ldmReturn c am w rn list) s =
      conditional c s fun t =>
        if !t.cpsr.mode.hasSpsr then .refused .noSpsr
        else
          match loadBaseRefusal w rn list with
          | some e => .refused e
          | none => loadBlock am w rn list t.cpsr.mode finishLoadReturn t :=
  rfl

theorem exec_stm (c : Cond) (am : BlockMode) (w : Bool) (rn : Reg) (list : BitVec 16) (s : State) :
    exec (.stm c am w rn list) s =
      conditional c s fun t =>
        match storeBaseRefusal w rn list with
        | some e => .refused e
        | none => storeBlock am w rn list t.cpsr.mode t :=
  rfl

theorem exec_stmUser (c : Cond) (am : BlockMode) (w : Bool) (rn : Reg) (list : BitVec 16) (s : State) :
    exec (.stmUser c am w rn list) s =
      conditional c s fun t =>
        match userBankRefusal w t with
        | some e => .refused e
        | none => storeBlock am w rn list .usr t :=
  rfl

theorem exec_b (c : Cond) (off : BitVec 24) (s : State) :
    exec (.b c off) s =
      conditional c s fun t => .next { t with pc := branchTarget t.pc off } :=
  rfl

theorem exec_bl (c : Cond) (off : BitVec 24) (s : State) :
    exec (.bl c off) s =
      conditional c s fun t => .next { t.setReg 14#4 (t.pc + 4#32) with pc := branchTarget t.pc off } :=
  rfl

theorem exec_swi (c : Cond) (imm : BitVec 24) (s : State) :
    exec (.swi c imm) s =
      conditional c s fun t => .next (enter .swi (t.pc + 4#32) t) :=
  rfl

theorem exec_nop (c : Cond) (s : State) :
    exec (.nop c) s =
      execMovShiftImm c false 0#4 0#4 (.lsl 0) s :=
  rfl

theorem exec_ldrLabel (c : Cond) (u : Bool) (rd : Reg) (imm : BitVec 12) (s : State) :
    exec (.ldrLabel c u rd imm) s =
      execLdrPreImm c u false 15#4 rd imm s :=
  rfl

theorem exec_ldrConst (c : Cond) (rd : Reg) (imm32 : Word) (u : Bool) (pool : BitVec 12) (s : State) :
    exec (.ldrConst c rd imm32 u pool) s =
      match immPair? imm32 with
      | some (rot, imm) => execMovImm c false rd rot imm s
      | none =>
        match immPair? (~~~imm32) with
        | some (rot, imm) => execMvnImm c false rd rot imm s
        | none => execLdrPreImm c u false 15#4 rd pool s :=
  rfl

theorem exec_adr (c : Cond) (u : Bool) (rd : Reg) (rot : BitVec 4) (imm : BitVec 8) (s : State) :
    exec (.adr c u rd rot imm) s =
      if u then execAddImm c false rd 15#4 rot imm s else execSubImm c false rd 15#4 rot imm s :=
  rfl

theorem exec_adrl (c : Cond) (u : Bool) (rd : Reg) (rot1 : BitVec 4) (imm1 : BitVec 8) (rot2 : BitVec 4) (imm2 : BitVec 8) (s : State) :
    exec (.adrl c u rd rot1 imm1 rot2 imm2) s =
      if u then sequence (execAddImm c false rd 15#4 rot1 imm1) (execAddImm c false rd rd rot2 imm2) s
      else sequence (execSubImm c false rd 15#4 rot1 imm1) (execSubImm c false rd rd rot2 imm2) s :=
  rfl

end Sys2Proof.Machine
end

