-- ==== Sys2Proof/Laws/Effects.lean ====
section
/-! SUPPORT. How an instruction can change memory, said once for every instruction: by stores inside the address space and
in no other way (R36, R65, R75), never the platform or the interrupt samples. -/

namespace Sys2Proof.Machine

/-- Memory and the set of bytes stored to went from those of `s` to those of `t` by stores inside the address space, and
the platform and the interrupt samples are as before. -/
inductive StoresOnly (s : State) : State → Prop
  | same {t : State} (hm : t.mem = s.mem) (hw : t.written = s.written) (hp : t.platform = s.platform)
      (hr : t.requests = s.requests) : StoresOnly s t
  | store {u t : State} (h : StoresOnly s u) (a : Word) (n : Nat) (v : Word) (hle : a.toNat + n ≤ 4294967296)
      (hm : t.mem = Memory.store u.mem a.toNat n v.toNat) (hw : t.written = Written.add u.written a.toNat n)
      (hp : t.platform = u.platform) (hr : t.requests = u.requests) : StoresOnly s t

theorem StoresOnly.refl (s : State) : StoresOnly s s :=
  .same rfl rfl rfl rfl

theorem StoresOnly.trans {s t u : State} (h : StoresOnly s t) (k : StoresOnly t u) : StoresOnly s u := by
  induction k with
  | same hm hw hp hr =>
    cases h with
    | same hm' hw' hp' hr' => exact .same (hm.trans hm') (hw.trans hw') (hp.trans hp') (hr.trans hr')
    | store h a n v hle hm' hw' hp' hr' =>
      exact .store h a n v hle (hm.trans hm') (hw.trans hw') (hp.trans hp') (hr.trans hr')
  | store _ a n v hle hm hw hp hr ih => exact .store ih a n v hle hm hw hp hr

/-- A change of other fields after stores. -/
theorem StoresOnly.andThen {s t u : State} (h : StoresOnly s t) (hm : u.mem = t.mem) (hw : u.written = t.written)
    (hp : u.platform = t.platform) (hr : u.requests = t.requests) : StoresOnly s u :=
  h.trans (.same hm hw hp hr)

/-! ### What follows of stores only -/

theorem StoresOnly.platform {s t : State} (h : StoresOnly s t) : t.platform = s.platform := by
  induction h with
  | same _ _ hp _ => exact hp
  | store _ _ _ _ _ _ _ hp _ ih => exact hp.trans ih

theorem StoresOnly.requests {s t : State} (h : StoresOnly s t) : t.requests = s.requests := by
  induction h with
  | same _ _ _ hr => exact hr
  | store _ _ _ _ _ _ _ _ hr ih => exact hr.trans ih

theorem StoresOnly.mem_wf {s t : State} (h : StoresOnly s t) (hs : Memory.wf s.mem = true) :
    Memory.wf t.mem = true := by
  induction h with
  | same hm _ _ _ => rw [hm]; exact hs
  | store _ _ _ _ _ hm _ _ _ ih => rw [hm]; exact Memory.wf_store _ _ _ _ ih

theorem StoresOnly.mem_inSpace {s t : State} (h : StoresOnly s t) (hs : Memory.inSpace s.mem = true) :
    Memory.inSpace t.mem = true := by
  induction h with
  | same hm _ _ _ => rw [hm]; exact hs
  | store _ _ _ _ hle hm _ _ _ ih => rw [hm]; exact Memory.inSpace_store _ _ _ _ ih hle

theorem StoresOnly.written_wf {s t : State} (h : StoresOnly s t) (hs : Written.wf s.written = true) :
    Written.wf t.written = true := by
  induction h with
  | same _ hw _ _ => rw [hw]; exact hs
  | store _ _ _ _ _ _ hw _ _ ih => rw [hw]; exact Written.wf_add _ _ _ ih

/-- A byte stored to stays one. -/
theorem StoresOnly.written_mono {s t : State} (h : StoresOnly s t) (x : Nat) (hx : x ∈ s.written) : x ∈ t.written := by
  induction h with
  | same _ hw _ _ => rw [hw]; exact hx
  | store _ _ _ _ _ _ hw _ _ ih => rw [hw]; exact Written.mem_add_of_mem _ _ _ _ ih

/-- A byte that changed has been stored to. -/
theorem StoresOnly.changed_written {s t : State} (h : StoresOnly s t) (hs : Memory.wf s.mem = true) (x : Nat)
    (hx : Memory.byte t.mem x ≠ Memory.byte s.mem x) : x ∈ t.written := by
  induction h with
  | same hm _ _ _ => rw [hm] at hx; exact absurd rfl hx
  | store h a n v _ hm hw _ _ ih =>
    rw [hw, Written.mem_add]
    by_cases hin : a.toNat ≤ x ∧ x < a.toNat + n
    · exact .inl hin
    · rw [hm, Memory.byte_store_outside _ _ _ _ _ (h.mem_wf hs) (by omega)] at hx
      exact .inr (ih hx)

/-! ### The shared operations -/

theorem storesOnly_advance {s t : State} (h : advance s = .next t) : StoresOnly s t := by
  obtain ⟨-, rfl⟩ := advance_next h
  exact .same rfl rfl rfl rfl

theorem storesOnly_conditional {c : Cond} {s t : State} {body : State → Out} (h : conditional c s body = .next t)
    (hb : ∀ u, body s = .next u → StoresOnly s u) : StoresOnly s t := by
  rcases conditional_next h with ⟨-, h⟩ | ⟨-, -, rfl⟩
  · exact hb t h
  · exact .same rfl rfl rfl rfl

theorem storesOnly_enter (e : Exc) (link : Word) (s : State) : StoresOnly s (enter e link s) :=
  .same (by simp) (by simp) (by simp) (by simp)

theorem storesOnly_dataAbort {s t : State} (h : dataAbort s = .next t) : StoresOnly s t := by
  rw [dataAbort_next h]; exact storesOnly_enter _ _ s

theorem storesOnly_writeMem {s t : State} {a : Word} {n : Nat} {v : Word} {pr : Privilege} (hn : 0 < n)
    (h : s.writeMem a n v pr = .ok t) : StoresOnly s t := by
  obtain ⟨⟨-, -, hm⟩, rfl⟩ := (writeMem_ok_iff s t a n v pr).1 h
  exact .store (.refl s) a n v (Platform.maps_le _ _ _ hm hn) rfl rfl rfl rfl

theorem storesOnly_finishDp {sf : Bool} {rd : Reg} {r : DpResult} {s t : State} (h : finishDp sf rd r s = .next t) :
    StoresOnly s t := by
  rcases finishDp_next h with ⟨-, -, rfl⟩ | ⟨-, -, -, rfl⟩ | ⟨-, -, p, c, -, -, -, rfl⟩
  · cases sf <;> exact .same (by simp) (by simp) (by simp) (by simp)
  · exact .same rfl rfl rfl rfl
  · exact .same rfl rfl rfl rfl

theorem storesOnly_dataProc {op : DpOp} {sf : Bool} {rd rn : Reg} {so : ShiftOp} {s t : State}
    (h : dataProc op sf rd rn so s = .next t) : StoresOnly s t :=
  storesOnly_finishDp (dataProc_next h).2

theorem storesOnly_dataMove {op : DpOp} {sf : Bool} {rd : Reg} {so : ShiftOp} {s t : State}
    (h : dataMove op sf rd so s = .next t) : StoresOnly s t :=
  storesOnly_finishDp (dataMove_next h).2

theorem storesOnly_dataCompare {op : DpOp} {rn : Reg} {so : ShiftOp} {s t : State}
    (h : dataCompare op rn so s = .next t) : StoresOnly s t := by
  obtain ⟨-, -, rfl⟩ := dataCompare_next h
  exact .same rfl rfl rfl rfl

theorem storesOnly_readPsr {rd : Reg} {p : Psr} {s t : State} (h : readPsr rd p s = .next t) : StoresOnly s t := by
  obtain ⟨-, -, rfl⟩ := readPsr_next h
  exact .same (by simp) (by simp) (by simp) (by simp)

theorem storesOnly_writeCpsr {fields : PsrFields} {v : Word} {s t : State} (h : writeCpsr fields v s = .next t) :
    StoresOnly s t := by
  obtain ⟨-, p, rfl, -, -⟩ := writeCpsr_next h
  exact .same rfl rfl rfl rfl

theorem storesOnly_writeSpsr {fields : PsrFields} {v : Word} {s t : State} (h : writeSpsr fields v s = .next t) :
    StoresOnly s t := by
  obtain ⟨-, p, q, -, rfl⟩ := writeSpsr_next h
  exact .same (by simp) (by simp) (by simp) (by simp)

theorem storesOnly_multiply {sf : Bool} {rd : Reg} {p : Word} {s t : State} (h : multiply sf rd p s = .next t) :
    StoresOnly s t := by
  unfold multiply at h
  split at h <;> obtain ⟨-, rfl⟩ := advance_next h <;> exact .same (by simp) (by simp) (by simp) (by simp)

theorem storesOnly_longMultiply {sf : Bool} {rdLo rdHi : Reg} {p : BitVec 64} {s t : State}
    (h : longMultiply sf rdLo rdHi p s = .next t) : StoresOnly s t := by
  unfold longMultiply at h
  simp only at h
  split at h <;> obtain ⟨-, rfl⟩ := advance_next h <;> exact .same (by simp) (by simp) (by simp) (by simp)

theorem storesOnly_branchExchange {s t : State} {a : Word} (h : branchExchange s a = .next t) : StoresOnly s t := by
  rcases branchExchange_next h with ⟨-, rfl⟩ | ⟨-, -, rfl⟩ <;> exact .same rfl rfl rfl rfl

theorem storesOnly_abortedBase (s : State) (idx : Index) (u : Bool) (rn : Reg) (off : Offset) :
    StoresOnly s (s.abortedBase idx u rn off) :=
  .same (by simp) (by simp) (by simp) (by simp)

theorem storesOnly_loadSingle {n : Nat} {ext : Word → Word} {pcOk : Bool} {pr : Privilege} {idx : Index} {u : Bool}
    {rn rd : Reg} {off : Offset} {s t : State} (h : loadSingle n ext pcOk pr idx u rn rd off s = .next t) :
    StoresOnly s t := by
  obtain ⟨-, -, ⟨-, rfl⟩ | ⟨v, -, ⟨-, rfl⟩ | ⟨-, -, rfl⟩⟩⟩ := loadSingle_next h
  · exact (storesOnly_abortedBase s idx u rn off).trans (storesOnly_enter _ _ _)
  · exact .same (by simp) (by simp) (by simp) (by simp)
  · exact .same (by simp) (by simp) (by simp) (by simp)

theorem storesOnly_storeSingle {n : Nat} {pcOk : Bool} {pr : Privilege} {idx : Index} {u : Bool} {rn rd : Reg}
    {off : Offset} {s t : State} (hn : 0 < n) (h : storeSingle n pcOk pr idx u rn rd off s = .next t) :
    StoresOnly s t := by
  obtain ⟨-, -, ⟨-, rfl⟩ | ⟨k, hk, -, rfl⟩⟩ := storeSingle_next h
  · exact (storesOnly_abortedBase s idx u rn off).trans (storesOnly_enter _ _ _)
  · exact (storesOnly_writeMem hn hk).andThen (by simp) (by simp) (by simp) (by simp)

theorem storesOnly_swap {n : Nat} {ext : Word → Word} {rd rm rn : Reg} {s t : State} (hn : 0 < n)
    (h : swap n ext rd rm rn s = .next t) : StoresOnly s t := by
  obtain ⟨-, rfl | ⟨v, k, -, hk, -, rfl⟩⟩ := swap_next h
  · exact storesOnly_enter _ _ _
  · exact (storesOnly_writeMem hn hk).andThen (by simp) (by simp) (by simp) (by simp)

theorem storesOnly_writeBlockBase (s : State) (am : BlockMode) (w : Bool) (rn : Reg) (n : Nat) :
    StoresOnly s (s.writeBlockBase am w rn n) :=
  .same (by simp) (by simp) (by simp) (by simp)

theorem storesOnly_loadRegs (m : Mode) (l : List (Reg × Word)) (s : State) : StoresOnly s (loadRegs m l s) := by
  obtain ⟨-, h1, h2, h3, h4, -, -, -⟩ := loadRegs_frame m l s
  exact .same h1 h2 h3 h4

theorem storesOnly_loadBlock {am : BlockMode} {w : Bool} {rn : Reg} {list : BitVec 16} {m : Mode}
    {finish : List (Reg × Word) → State → Out} {s t : State} (h : loadBlock am w rn list m finish s = .next t)
    (hf : ∀ l u k, finish l u = .next k → StoresOnly u k) : StoresOnly s t := by
  obtain ⟨-, ⟨j, -, h⟩ | ⟨vs, -, h⟩⟩ := loadBlock_next h
  · obtain ⟨-, -, h1, h2, h3, h4, -, -⟩ := abortedLoads_frame s m rn j s.drawn
      ((regsOf list).zip (blockAddresses am rn list s)) 0 (s.abortedBlockBase am w rn (regsOf list).length)
    refine StoresOnly.trans ?_ (storesOnly_dataAbort h)
    exact .same (by simp [h1]) (by simp [h2]) (by simp [h3]) (by simp [h4])
  · exact (storesOnly_writeBlockBase s am w rn _).trans (hf _ _ _ h)

theorem storesOnly_writeBlock {s t : State} {l : List (Word × Word)} {k : Nat} (h : writeBlock s l k = .ok t) :
    StoresOnly s t := by
  induction l generalizing s k with
  | nil => simp [writeBlock] at h; exact h ▸ .refl s
  | cons x rest ih =>
    obtain ⟨a, v⟩ := x
    unfold writeBlock at h
    split at h
    · exact absurd h (by simp)
    · exact absurd h (by simp)
    · exact (storesOnly_writeMem (n := 4) (by omega) ‹_›).trans (ih h)

theorem storesOnly_abortedStores (pr : Privilege) (j : Nat) (choice : BitVec 32) (l : List (Word × Word)) (k : Nat)
    (s : State) : StoresOnly s (abortedStores pr j choice l k s) := by
  induction l generalizing s k with
  | nil => exact .refl s
  | cons x rest ih =>
    obtain ⟨a, v⟩ := x
    rw [abortedStores]
    split
    · exact ih (k + 1) s
    · split
      · exact (storesOnly_writeMem (n := 4) (by omega) ‹_›).trans (ih (k + 1) _)
      · exact ih (k + 1) s
      · exact ih (k + 1) s

theorem storesOnly_storeBlock {am : BlockMode} {w : Bool} {rn : Reg} {list : BitVec 16} {m : Mode} {s t : State}
    (h : storeBlock am w rn list m s = .next t) : StoresOnly s t := by
  obtain ⟨-, ⟨j, -, h⟩ | ⟨u, hu, h⟩⟩ := storeBlock_next h
  · have hb : StoresOnly s (s.abortedBlockBase am w rn (regsOf list).length) :=
      .same (by simp) (by simp) (by simp) (by simp)
    refine StoresOnly.trans ?_ (storesOnly_dataAbort h)
    exact (hb.trans (storesOnly_abortedStores _ _ _ _ _ _)).andThen rfl rfl rfl rfl
  · exact ((storesOnly_writeBlock hu).trans (storesOnly_writeBlockBase u am w rn _)).trans (storesOnly_advance h)

theorem storesOnly_finishLoad (list : BitVec 16) (l : List (Reg × Word)) (s t : State)
    (h : finishLoad list l s = .next t) : StoresOnly s t := by
  unfold finishLoad at h
  split at h
  · injection h with h; exact h ▸ storesOnly_loadRegs _ l s
  · exact (storesOnly_loadRegs _ l s).trans (storesOnly_advance h)

theorem storesOnly_finishLoadUser (l : List (Reg × Word)) (s t : State) (h : finishLoadUser l s = .next t) :
    StoresOnly s t :=
  (storesOnly_loadRegs .usr l s).trans (storesOnly_advance h)

theorem storesOnly_finishLoadReturn (l : List (Reg × Word)) (s t : State) (h : finishLoadReturn l s = .next t) :
    StoresOnly s t := by
  obtain ⟨p, c, -, -, ⟨-, rfl⟩ | ⟨x, -, rfl⟩⟩ := finishLoadReturn_next h
  · exact (storesOnly_loadRegs _ _ s).andThen rfl rfl rfl rfl
  · exact (storesOnly_loadRegs _ _ s).andThen rfl rfl rfl rfl

/-! ### Every instruction -/

theorem storesOnly_sequence {f g : State → Out} {s t : State} (h : sequence f g s = .next t)
    (hf : ∀ u, f s = .next u → StoresOnly s u) (hg : ∀ u k, g u = .next k → StoresOnly u k) : StoresOnly s t := by
  obtain ⟨u, hu, ⟨-, h⟩ | ⟨-, rfl⟩⟩ := sequence_next h
  · exact (hf u hu).trans (hg u t h)
  · exact hf t hu

/-- Every instruction changes memory by stores alone and never the platform or the interrupt samples. -/
theorem storesOnly_exec (i : Instr) {s t : State} (h : exec i s = .next t) : StoresOnly s t := by
  cases i
  case ldm =>
    simp only [exec_ldm] at h
    refine storesOnly_conditional h fun u h => ?_
    split at h
    · exact absurd h (by simp)
    · exact storesOnly_loadBlock h fun _ _ _ => storesOnly_finishLoad _ _ _ _
  case ldmUser =>
    simp only [exec_ldmUser] at h
    refine storesOnly_conditional h fun u h => ?_
    split at h
    · exact absurd h (by simp)
    · obtain ⟨k, hk, rfl⟩ := markUserLdm_next h
      exact (storesOnly_loadBlock hk fun _ _ _ => storesOnly_finishLoadUser _ _ _).andThen rfl rfl rfl rfl
  case ldmReturn =>
    simp only [exec_ldmReturn] at h
    refine storesOnly_conditional h fun u h => ?_
    split at h
    · exact absurd h (by simp)
    · split at h
      · exact absurd h (by simp)
      · exact storesOnly_loadBlock h fun _ _ _ => storesOnly_finishLoadReturn _ _ _
  case stm =>
    simp only [exec_stm] at h
    refine storesOnly_conditional h fun u h => ?_
    split at h
    · exact absurd h (by simp)
    · exact storesOnly_storeBlock h
  case stmUser =>
    simp only [exec_stmUser] at h
    refine storesOnly_conditional h fun u h => ?_
    split at h
    · exact absurd h (by simp)
    · exact storesOnly_storeBlock h
  case mul =>
    simp only [exec_mul] at h
    refine storesOnly_conditional h fun u h => ?_
    split at h
    · exact absurd h (by simp)
    · split at h
      · exact absurd h (by simp)
      · exact storesOnly_multiply h
  case mla =>
    simp only [exec_mla] at h
    refine storesOnly_conditional h fun u h => ?_
    split at h
    · exact absurd h (by simp)
    · split at h
      · exact absurd h (by simp)
      · exact storesOnly_multiply h
  case umull | umlal | smull | smlal =>
    simp only [exec_umull, exec_umlal, exec_smull, exec_smlal] at h
    refine storesOnly_conditional h fun u h => ?_
    split at h
    · exact absurd h (by simp)
    · exact storesOnly_longMultiply h
  case mrsSpsr =>
    simp only [exec_mrsSpsr] at h
    refine storesOnly_conditional h fun u h => ?_
    split at h
    · exact absurd h (by simp)
    · exact storesOnly_readPsr h
  case msrCpsrReg =>
    simp only [exec_msrCpsrReg] at h
    refine storesOnly_conditional h fun u h => ?_
    split at h
    · exact absurd h (by simp)
    · exact storesOnly_writeCpsr h
  case msrSpsrReg =>
    simp only [exec_msrSpsrReg] at h
    refine storesOnly_conditional h fun u h => ?_
    split at h
    · exact absurd h (by simp)
    · exact storesOnly_writeSpsr h
  case swi =>
    simp only [exec_swi] at h
    refine storesOnly_conditional h fun u h => ?_
    injection h with h
    exact h ▸ storesOnly_enter _ _ s
  case b =>
    simp only [exec_b] at h
    refine storesOnly_conditional h fun u h => ?_
    injection h with h
    exact h ▸ .same rfl rfl rfl rfl
  case bl =>
    simp only [exec_bl] at h
    refine storesOnly_conditional h fun u h => ?_
    injection h with h
    exact h ▸ .same (by simp) (by simp) (by simp) (by simp)
  case ldrConst =>
    simp only [exec_ldrConst, execMovImm, execMvnImm, execLdrPreImm] at h
    split at h
    · exact storesOnly_conditional h fun _ => storesOnly_dataMove
    · split at h
      · exact storesOnly_conditional h fun _ => storesOnly_dataMove
      · exact storesOnly_conditional h fun _ => storesOnly_loadSingle
  case adr =>
    simp only [exec_adr, execAddImm, execSubImm] at h
    split at h <;> exact storesOnly_conditional h fun _ => storesOnly_dataProc
  case adrl =>
    rw [exec_adrl] at h
    split at h <;>
      exact storesOnly_sequence h (fun _ h => storesOnly_conditional h fun _ => storesOnly_dataProc)
        fun _ _ h => storesOnly_conditional h fun _ => storesOnly_dataProc
  case andImm | andShiftImm | andShiftReg | eorImm | eorShiftImm | eorShiftReg | subImm | subShiftImm |
    subShiftReg | rsbImm | rsbShiftImm | rsbShiftReg | addImm | addShiftImm | addShiftReg | adcImm | adcShiftImm |
    adcShiftReg | sbcImm | sbcShiftImm | sbcShiftReg | rscImm | rscShiftImm | rscShiftReg | orrImm | orrShiftImm |
    orrShiftReg | bicImm | bicShiftImm | bicShiftReg =>
    simp only [exec_andImm, exec_andShiftImm, exec_andShiftReg, exec_eorImm, exec_eorShiftImm, exec_eorShiftReg,
      exec_subImm, exec_subShiftImm, exec_subShiftReg, exec_rsbImm, exec_rsbShiftImm, exec_rsbShiftReg,
      exec_addImm, exec_addShiftImm, exec_addShiftReg, exec_adcImm, exec_adcShiftImm, exec_adcShiftReg,
      exec_sbcImm, exec_sbcShiftImm, exec_sbcShiftReg, exec_rscImm, exec_rscShiftImm, exec_rscShiftReg,
      exec_orrImm, exec_orrShiftImm, exec_orrShiftReg, exec_bicImm, exec_bicShiftImm, exec_bicShiftReg] at h
    exact storesOnly_conditional h fun _ => storesOnly_dataProc
  case tstImm | tstShiftImm | tstShiftReg | teqImm | teqShiftImm | teqShiftReg | cmpImm | cmpShiftImm |
    cmpShiftReg | cmnImm | cmnShiftImm | cmnShiftReg =>
    simp only [exec_tstImm, exec_tstShiftImm, exec_tstShiftReg, exec_teqImm, exec_teqShiftImm, exec_teqShiftReg,
      exec_cmpImm, exec_cmpShiftImm, exec_cmpShiftReg, exec_cmnImm, exec_cmnShiftImm, exec_cmnShiftReg] at h
    exact storesOnly_conditional h fun _ => storesOnly_dataCompare
  case movImm | movShiftImm | movShiftReg | mvnImm | mvnShiftImm | mvnShiftReg =>
    simp only [exec_movImm, exec_movShiftImm, exec_movShiftReg, exec_mvnImm, exec_mvnShiftImm, exec_mvnShiftReg] at h
    exact storesOnly_conditional h fun _ => storesOnly_dataMove
  case ldrPreImm | ldrPostImm | ldrPreReg | ldrPostReg | ldrbPreImm | ldrbPostImm | ldrbPreReg | ldrbPostReg |
    ldrtImm | ldrtReg | ldrbtImm | ldrbtReg | ldrhPreImm | ldrhPostImm | ldrhPreReg | ldrhPostReg | ldrsbPreImm |
    ldrsbPostImm | ldrsbPreReg | ldrsbPostReg | ldrshPreImm | ldrshPostImm | ldrshPreReg | ldrshPostReg =>
    simp only [exec_ldrPreImm, exec_ldrPostImm, exec_ldrPreReg, exec_ldrPostReg, exec_ldrbPreImm, exec_ldrbPostImm,
      exec_ldrbPreReg, exec_ldrbPostReg, exec_ldrtImm, exec_ldrtReg, exec_ldrbtImm, exec_ldrbtReg, exec_ldrhPreImm,
      exec_ldrhPostImm, exec_ldrhPreReg, exec_ldrhPostReg, exec_ldrsbPreImm, exec_ldrsbPostImm, exec_ldrsbPreReg,
      exec_ldrsbPostReg, exec_ldrshPreImm, exec_ldrshPostImm, exec_ldrshPreReg, exec_ldrshPostReg] at h
    exact storesOnly_conditional h fun _ => storesOnly_loadSingle
  case strPreImm | strPostImm | strPreReg | strPostReg | strbPreImm | strbPostImm | strbPreReg | strbPostReg |
    strtImm | strtReg | strbtImm | strbtReg | strhPreImm | strhPostImm | strhPreReg | strhPostReg =>
    simp only [exec_strPreImm, exec_strPostImm, exec_strPreReg, exec_strPostReg, exec_strbPreImm, exec_strbPostImm,
      exec_strbPreReg, exec_strbPostReg, exec_strtImm, exec_strtReg, exec_strbtImm, exec_strbtReg, exec_strhPreImm,
      exec_strhPostImm, exec_strhPreReg, exec_strhPostReg] at h
    exact storesOnly_conditional h fun _ => storesOnly_storeSingle (by decide)
  case swp | swpb =>
    simp only [exec_swp, exec_swpb] at h
    exact storesOnly_conditional h fun _ => storesOnly_swap (by decide)
  case mrsCpsr =>
    simp only [exec_mrsCpsr] at h
    exact storesOnly_conditional h fun _ => storesOnly_readPsr
  case msrCpsrImm =>
    simp only [exec_msrCpsrImm] at h
    exact storesOnly_conditional h fun _ => storesOnly_writeCpsr
  case msrSpsrImm =>
    simp only [exec_msrSpsrImm] at h
    exact storesOnly_conditional h fun _ => storesOnly_writeSpsr
  case bx =>
    simp only [exec_bx] at h
    exact storesOnly_conditional h fun _ => storesOnly_branchExchange
  case nop =>
    simp only [exec_nop, execMovShiftImm] at h
    exact storesOnly_conditional h fun _ => storesOnly_dataMove
  case ldrLabel =>
    simp only [exec_ldrLabel, execLdrPreImm] at h
    exact storesOnly_conditional h fun _ => storesOnly_loadSingle

end Sys2Proof.Machine
end

