-- ==== Sys2Proof/Laws/PerInstr.lean ====
section
/-! SUPPORT. Laws about every instruction as syntax, one lemma for each constructor. -/

namespace Sys2Proof.Laws

/-- An instruction stands for at least one core instruction and has one word for each of them (R116, R310 to R314). -/
def Expansion.Statement (i : Instr) : Prop :=
  i.expand ≠ [] ∧ (encode i).length = i.expand.length

theorem Expansion.andImm (c : Cond) (sf : Bool) (rd : Reg) (rn : Reg) (rot : BitVec 4) (imm : BitVec 8) :
    Expansion.Statement (.andImm c sf rd rn rot imm) :=
  ⟨List.cons_ne_nil _ _, rfl⟩

theorem Expansion.andShiftImm (c : Cond) (sf : Bool) (rd : Reg) (rn : Reg) (rm : Reg) (sh : ShiftImm) :
    Expansion.Statement (.andShiftImm c sf rd rn rm sh) :=
  ⟨List.cons_ne_nil _ _, rfl⟩

theorem Expansion.andShiftReg (c : Cond) (sf : Bool) (rd : Reg) (rn : Reg) (rm : Reg) (k : ShiftKind) (rs : Reg) :
    Expansion.Statement (.andShiftReg c sf rd rn rm k rs) :=
  ⟨List.cons_ne_nil _ _, rfl⟩

theorem Expansion.eorImm (c : Cond) (sf : Bool) (rd : Reg) (rn : Reg) (rot : BitVec 4) (imm : BitVec 8) :
    Expansion.Statement (.eorImm c sf rd rn rot imm) :=
  ⟨List.cons_ne_nil _ _, rfl⟩

theorem Expansion.eorShiftImm (c : Cond) (sf : Bool) (rd : Reg) (rn : Reg) (rm : Reg) (sh : ShiftImm) :
    Expansion.Statement (.eorShiftImm c sf rd rn rm sh) :=
  ⟨List.cons_ne_nil _ _, rfl⟩

theorem Expansion.eorShiftReg (c : Cond) (sf : Bool) (rd : Reg) (rn : Reg) (rm : Reg) (k : ShiftKind) (rs : Reg) :
    Expansion.Statement (.eorShiftReg c sf rd rn rm k rs) :=
  ⟨List.cons_ne_nil _ _, rfl⟩

theorem Expansion.subImm (c : Cond) (sf : Bool) (rd : Reg) (rn : Reg) (rot : BitVec 4) (imm : BitVec 8) :
    Expansion.Statement (.subImm c sf rd rn rot imm) :=
  ⟨List.cons_ne_nil _ _, rfl⟩

theorem Expansion.subShiftImm (c : Cond) (sf : Bool) (rd : Reg) (rn : Reg) (rm : Reg) (sh : ShiftImm) :
    Expansion.Statement (.subShiftImm c sf rd rn rm sh) :=
  ⟨List.cons_ne_nil _ _, rfl⟩

theorem Expansion.subShiftReg (c : Cond) (sf : Bool) (rd : Reg) (rn : Reg) (rm : Reg) (k : ShiftKind) (rs : Reg) :
    Expansion.Statement (.subShiftReg c sf rd rn rm k rs) :=
  ⟨List.cons_ne_nil _ _, rfl⟩

theorem Expansion.rsbImm (c : Cond) (sf : Bool) (rd : Reg) (rn : Reg) (rot : BitVec 4) (imm : BitVec 8) :
    Expansion.Statement (.rsbImm c sf rd rn rot imm) :=
  ⟨List.cons_ne_nil _ _, rfl⟩

theorem Expansion.rsbShiftImm (c : Cond) (sf : Bool) (rd : Reg) (rn : Reg) (rm : Reg) (sh : ShiftImm) :
    Expansion.Statement (.rsbShiftImm c sf rd rn rm sh) :=
  ⟨List.cons_ne_nil _ _, rfl⟩

theorem Expansion.rsbShiftReg (c : Cond) (sf : Bool) (rd : Reg) (rn : Reg) (rm : Reg) (k : ShiftKind) (rs : Reg) :
    Expansion.Statement (.rsbShiftReg c sf rd rn rm k rs) :=
  ⟨List.cons_ne_nil _ _, rfl⟩

theorem Expansion.addImm (c : Cond) (sf : Bool) (rd : Reg) (rn : Reg) (rot : BitVec 4) (imm : BitVec 8) :
    Expansion.Statement (.addImm c sf rd rn rot imm) :=
  ⟨List.cons_ne_nil _ _, rfl⟩

theorem Expansion.addShiftImm (c : Cond) (sf : Bool) (rd : Reg) (rn : Reg) (rm : Reg) (sh : ShiftImm) :
    Expansion.Statement (.addShiftImm c sf rd rn rm sh) :=
  ⟨List.cons_ne_nil _ _, rfl⟩

theorem Expansion.addShiftReg (c : Cond) (sf : Bool) (rd : Reg) (rn : Reg) (rm : Reg) (k : ShiftKind) (rs : Reg) :
    Expansion.Statement (.addShiftReg c sf rd rn rm k rs) :=
  ⟨List.cons_ne_nil _ _, rfl⟩

theorem Expansion.adcImm (c : Cond) (sf : Bool) (rd : Reg) (rn : Reg) (rot : BitVec 4) (imm : BitVec 8) :
    Expansion.Statement (.adcImm c sf rd rn rot imm) :=
  ⟨List.cons_ne_nil _ _, rfl⟩

theorem Expansion.adcShiftImm (c : Cond) (sf : Bool) (rd : Reg) (rn : Reg) (rm : Reg) (sh : ShiftImm) :
    Expansion.Statement (.adcShiftImm c sf rd rn rm sh) :=
  ⟨List.cons_ne_nil _ _, rfl⟩

theorem Expansion.adcShiftReg (c : Cond) (sf : Bool) (rd : Reg) (rn : Reg) (rm : Reg) (k : ShiftKind) (rs : Reg) :
    Expansion.Statement (.adcShiftReg c sf rd rn rm k rs) :=
  ⟨List.cons_ne_nil _ _, rfl⟩

theorem Expansion.sbcImm (c : Cond) (sf : Bool) (rd : Reg) (rn : Reg) (rot : BitVec 4) (imm : BitVec 8) :
    Expansion.Statement (.sbcImm c sf rd rn rot imm) :=
  ⟨List.cons_ne_nil _ _, rfl⟩

theorem Expansion.sbcShiftImm (c : Cond) (sf : Bool) (rd : Reg) (rn : Reg) (rm : Reg) (sh : ShiftImm) :
    Expansion.Statement (.sbcShiftImm c sf rd rn rm sh) :=
  ⟨List.cons_ne_nil _ _, rfl⟩

theorem Expansion.sbcShiftReg (c : Cond) (sf : Bool) (rd : Reg) (rn : Reg) (rm : Reg) (k : ShiftKind) (rs : Reg) :
    Expansion.Statement (.sbcShiftReg c sf rd rn rm k rs) :=
  ⟨List.cons_ne_nil _ _, rfl⟩

theorem Expansion.rscImm (c : Cond) (sf : Bool) (rd : Reg) (rn : Reg) (rot : BitVec 4) (imm : BitVec 8) :
    Expansion.Statement (.rscImm c sf rd rn rot imm) :=
  ⟨List.cons_ne_nil _ _, rfl⟩

theorem Expansion.rscShiftImm (c : Cond) (sf : Bool) (rd : Reg) (rn : Reg) (rm : Reg) (sh : ShiftImm) :
    Expansion.Statement (.rscShiftImm c sf rd rn rm sh) :=
  ⟨List.cons_ne_nil _ _, rfl⟩

theorem Expansion.rscShiftReg (c : Cond) (sf : Bool) (rd : Reg) (rn : Reg) (rm : Reg) (k : ShiftKind) (rs : Reg) :
    Expansion.Statement (.rscShiftReg c sf rd rn rm k rs) :=
  ⟨List.cons_ne_nil _ _, rfl⟩

theorem Expansion.tstImm (c : Cond) (rn : Reg) (rot : BitVec 4) (imm : BitVec 8) :
    Expansion.Statement (.tstImm c rn rot imm) :=
  ⟨List.cons_ne_nil _ _, rfl⟩

theorem Expansion.tstShiftImm (c : Cond) (rn : Reg) (rm : Reg) (sh : ShiftImm) :
    Expansion.Statement (.tstShiftImm c rn rm sh) :=
  ⟨List.cons_ne_nil _ _, rfl⟩

theorem Expansion.tstShiftReg (c : Cond) (rn : Reg) (rm : Reg) (k : ShiftKind) (rs : Reg) :
    Expansion.Statement (.tstShiftReg c rn rm k rs) :=
  ⟨List.cons_ne_nil _ _, rfl⟩

theorem Expansion.teqImm (c : Cond) (rn : Reg) (rot : BitVec 4) (imm : BitVec 8) :
    Expansion.Statement (.teqImm c rn rot imm) :=
  ⟨List.cons_ne_nil _ _, rfl⟩

theorem Expansion.teqShiftImm (c : Cond) (rn : Reg) (rm : Reg) (sh : ShiftImm) :
    Expansion.Statement (.teqShiftImm c rn rm sh) :=
  ⟨List.cons_ne_nil _ _, rfl⟩

theorem Expansion.teqShiftReg (c : Cond) (rn : Reg) (rm : Reg) (k : ShiftKind) (rs : Reg) :
    Expansion.Statement (.teqShiftReg c rn rm k rs) :=
  ⟨List.cons_ne_nil _ _, rfl⟩

theorem Expansion.cmpImm (c : Cond) (rn : Reg) (rot : BitVec 4) (imm : BitVec 8) :
    Expansion.Statement (.cmpImm c rn rot imm) :=
  ⟨List.cons_ne_nil _ _, rfl⟩

theorem Expansion.cmpShiftImm (c : Cond) (rn : Reg) (rm : Reg) (sh : ShiftImm) :
    Expansion.Statement (.cmpShiftImm c rn rm sh) :=
  ⟨List.cons_ne_nil _ _, rfl⟩

theorem Expansion.cmpShiftReg (c : Cond) (rn : Reg) (rm : Reg) (k : ShiftKind) (rs : Reg) :
    Expansion.Statement (.cmpShiftReg c rn rm k rs) :=
  ⟨List.cons_ne_nil _ _, rfl⟩

theorem Expansion.cmnImm (c : Cond) (rn : Reg) (rot : BitVec 4) (imm : BitVec 8) :
    Expansion.Statement (.cmnImm c rn rot imm) :=
  ⟨List.cons_ne_nil _ _, rfl⟩

theorem Expansion.cmnShiftImm (c : Cond) (rn : Reg) (rm : Reg) (sh : ShiftImm) :
    Expansion.Statement (.cmnShiftImm c rn rm sh) :=
  ⟨List.cons_ne_nil _ _, rfl⟩

theorem Expansion.cmnShiftReg (c : Cond) (rn : Reg) (rm : Reg) (k : ShiftKind) (rs : Reg) :
    Expansion.Statement (.cmnShiftReg c rn rm k rs) :=
  ⟨List.cons_ne_nil _ _, rfl⟩

theorem Expansion.orrImm (c : Cond) (sf : Bool) (rd : Reg) (rn : Reg) (rot : BitVec 4) (imm : BitVec 8) :
    Expansion.Statement (.orrImm c sf rd rn rot imm) :=
  ⟨List.cons_ne_nil _ _, rfl⟩

theorem Expansion.orrShiftImm (c : Cond) (sf : Bool) (rd : Reg) (rn : Reg) (rm : Reg) (sh : ShiftImm) :
    Expansion.Statement (.orrShiftImm c sf rd rn rm sh) :=
  ⟨List.cons_ne_nil _ _, rfl⟩

theorem Expansion.orrShiftReg (c : Cond) (sf : Bool) (rd : Reg) (rn : Reg) (rm : Reg) (k : ShiftKind) (rs : Reg) :
    Expansion.Statement (.orrShiftReg c sf rd rn rm k rs) :=
  ⟨List.cons_ne_nil _ _, rfl⟩

theorem Expansion.movImm (c : Cond) (sf : Bool) (rd : Reg) (rot : BitVec 4) (imm : BitVec 8) :
    Expansion.Statement (.movImm c sf rd rot imm) :=
  ⟨List.cons_ne_nil _ _, rfl⟩

theorem Expansion.movShiftImm (c : Cond) (sf : Bool) (rd : Reg) (rm : Reg) (sh : ShiftImm) :
    Expansion.Statement (.movShiftImm c sf rd rm sh) :=
  ⟨List.cons_ne_nil _ _, rfl⟩

theorem Expansion.movShiftReg (c : Cond) (sf : Bool) (rd : Reg) (rm : Reg) (k : ShiftKind) (rs : Reg) :
    Expansion.Statement (.movShiftReg c sf rd rm k rs) :=
  ⟨List.cons_ne_nil _ _, rfl⟩

theorem Expansion.bicImm (c : Cond) (sf : Bool) (rd : Reg) (rn : Reg) (rot : BitVec 4) (imm : BitVec 8) :
    Expansion.Statement (.bicImm c sf rd rn rot imm) :=
  ⟨List.cons_ne_nil _ _, rfl⟩

theorem Expansion.bicShiftImm (c : Cond) (sf : Bool) (rd : Reg) (rn : Reg) (rm : Reg) (sh : ShiftImm) :
    Expansion.Statement (.bicShiftImm c sf rd rn rm sh) :=
  ⟨List.cons_ne_nil _ _, rfl⟩

theorem Expansion.bicShiftReg (c : Cond) (sf : Bool) (rd : Reg) (rn : Reg) (rm : Reg) (k : ShiftKind) (rs : Reg) :
    Expansion.Statement (.bicShiftReg c sf rd rn rm k rs) :=
  ⟨List.cons_ne_nil _ _, rfl⟩

theorem Expansion.mvnImm (c : Cond) (sf : Bool) (rd : Reg) (rot : BitVec 4) (imm : BitVec 8) :
    Expansion.Statement (.mvnImm c sf rd rot imm) :=
  ⟨List.cons_ne_nil _ _, rfl⟩

theorem Expansion.mvnShiftImm (c : Cond) (sf : Bool) (rd : Reg) (rm : Reg) (sh : ShiftImm) :
    Expansion.Statement (.mvnShiftImm c sf rd rm sh) :=
  ⟨List.cons_ne_nil _ _, rfl⟩

theorem Expansion.mvnShiftReg (c : Cond) (sf : Bool) (rd : Reg) (rm : Reg) (k : ShiftKind) (rs : Reg) :
    Expansion.Statement (.mvnShiftReg c sf rd rm k rs) :=
  ⟨List.cons_ne_nil _ _, rfl⟩

theorem Expansion.mrsCpsr (c : Cond) (rd : Reg) : Expansion.Statement (.mrsCpsr c rd) :=
  ⟨List.cons_ne_nil _ _, rfl⟩

theorem Expansion.mrsSpsr (c : Cond) (rd : Reg) : Expansion.Statement (.mrsSpsr c rd) :=
  ⟨List.cons_ne_nil _ _, rfl⟩

theorem Expansion.msrCpsrReg (c : Cond) (fields : PsrFields) (rm : Reg) :
    Expansion.Statement (.msrCpsrReg c fields rm) :=
  ⟨List.cons_ne_nil _ _, rfl⟩

theorem Expansion.msrSpsrReg (c : Cond) (fields : PsrFields) (rm : Reg) :
    Expansion.Statement (.msrSpsrReg c fields rm) :=
  ⟨List.cons_ne_nil _ _, rfl⟩

theorem Expansion.msrCpsrImm (c : Cond) (fields : PsrFields) (rot : BitVec 4) (imm : BitVec 8) :
    Expansion.Statement (.msrCpsrImm c fields rot imm) :=
  ⟨List.cons_ne_nil _ _, rfl⟩

theorem Expansion.msrSpsrImm (c : Cond) (fields : PsrFields) (rot : BitVec 4) (imm : BitVec 8) :
    Expansion.Statement (.msrSpsrImm c fields rot imm) :=
  ⟨List.cons_ne_nil _ _, rfl⟩

theorem Expansion.mul (c : Cond) (sf : Bool) (rd : Reg) (rm : Reg) (rs : Reg) :
    Expansion.Statement (.mul c sf rd rm rs) :=
  ⟨List.cons_ne_nil _ _, rfl⟩

theorem Expansion.mla (c : Cond) (sf : Bool) (rd : Reg) (rm : Reg) (rs : Reg) (rn : Reg) :
    Expansion.Statement (.mla c sf rd rm rs rn) :=
  ⟨List.cons_ne_nil _ _, rfl⟩

theorem Expansion.umull (c : Cond) (sf : Bool) (rdLo : Reg) (rdHi : Reg) (rm : Reg) (rs : Reg) :
    Expansion.Statement (.umull c sf rdLo rdHi rm rs) :=
  ⟨List.cons_ne_nil _ _, rfl⟩

theorem Expansion.umlal (c : Cond) (sf : Bool) (rdLo : Reg) (rdHi : Reg) (rm : Reg) (rs : Reg) :
    Expansion.Statement (.umlal c sf rdLo rdHi rm rs) :=
  ⟨List.cons_ne_nil _ _, rfl⟩

theorem Expansion.smull (c : Cond) (sf : Bool) (rdLo : Reg) (rdHi : Reg) (rm : Reg) (rs : Reg) :
    Expansion.Statement (.smull c sf rdLo rdHi rm rs) :=
  ⟨List.cons_ne_nil _ _, rfl⟩

theorem Expansion.smlal (c : Cond) (sf : Bool) (rdLo : Reg) (rdHi : Reg) (rm : Reg) (rs : Reg) :
    Expansion.Statement (.smlal c sf rdLo rdHi rm rs) :=
  ⟨List.cons_ne_nil _ _, rfl⟩

theorem Expansion.bx (c : Cond) (rm : Reg) : Expansion.Statement (.bx c rm) :=
  ⟨List.cons_ne_nil _ _, rfl⟩

theorem Expansion.swp (c : Cond) (rd : Reg) (rm : Reg) (rn : Reg) : Expansion.Statement (.swp c rd rm rn) :=
  ⟨List.cons_ne_nil _ _, rfl⟩

theorem Expansion.swpb (c : Cond) (rd : Reg) (rm : Reg) (rn : Reg) : Expansion.Statement (.swpb c rd rm rn) :=
  ⟨List.cons_ne_nil _ _, rfl⟩

theorem Expansion.ldrPreImm (c : Cond) (u : Bool) (w : Bool) (rn : Reg) (rd : Reg) (imm : BitVec 12) :
    Expansion.Statement (.ldrPreImm c u w rn rd imm) :=
  ⟨List.cons_ne_nil _ _, rfl⟩

theorem Expansion.ldrPostImm (c : Cond) (u : Bool) (rn : Reg) (rd : Reg) (imm : BitVec 12) :
    Expansion.Statement (.ldrPostImm c u rn rd imm) :=
  ⟨List.cons_ne_nil _ _, rfl⟩

theorem Expansion.ldrPreReg (c : Cond) (u : Bool) (w : Bool) (rn : Reg) (rd : Reg) (rm : Reg) (sh : ShiftImm) :
    Expansion.Statement (.ldrPreReg c u w rn rd rm sh) :=
  ⟨List.cons_ne_nil _ _, rfl⟩

theorem Expansion.ldrPostReg (c : Cond) (u : Bool) (rn : Reg) (rd : Reg) (rm : Reg) (sh : ShiftImm) :
    Expansion.Statement (.ldrPostReg c u rn rd rm sh) :=
  ⟨List.cons_ne_nil _ _, rfl⟩

theorem Expansion.ldrbPreImm (c : Cond) (u : Bool) (w : Bool) (rn : Reg) (rd : Reg) (imm : BitVec 12) :
    Expansion.Statement (.ldrbPreImm c u w rn rd imm) :=
  ⟨List.cons_ne_nil _ _, rfl⟩

theorem Expansion.ldrbPostImm (c : Cond) (u : Bool) (rn : Reg) (rd : Reg) (imm : BitVec 12) :
    Expansion.Statement (.ldrbPostImm c u rn rd imm) :=
  ⟨List.cons_ne_nil _ _, rfl⟩

theorem Expansion.ldrbPreReg (c : Cond) (u : Bool) (w : Bool) (rn : Reg) (rd : Reg) (rm : Reg) (sh : ShiftImm) :
    Expansion.Statement (.ldrbPreReg c u w rn rd rm sh) :=
  ⟨List.cons_ne_nil _ _, rfl⟩

theorem Expansion.ldrbPostReg (c : Cond) (u : Bool) (rn : Reg) (rd : Reg) (rm : Reg) (sh : ShiftImm) :
    Expansion.Statement (.ldrbPostReg c u rn rd rm sh) :=
  ⟨List.cons_ne_nil _ _, rfl⟩

theorem Expansion.strPreImm (c : Cond) (u : Bool) (w : Bool) (rn : Reg) (rd : Reg) (imm : BitVec 12) :
    Expansion.Statement (.strPreImm c u w rn rd imm) :=
  ⟨List.cons_ne_nil _ _, rfl⟩

theorem Expansion.strPostImm (c : Cond) (u : Bool) (rn : Reg) (rd : Reg) (imm : BitVec 12) :
    Expansion.Statement (.strPostImm c u rn rd imm) :=
  ⟨List.cons_ne_nil _ _, rfl⟩

theorem Expansion.strPreReg (c : Cond) (u : Bool) (w : Bool) (rn : Reg) (rd : Reg) (rm : Reg) (sh : ShiftImm) :
    Expansion.Statement (.strPreReg c u w rn rd rm sh) :=
  ⟨List.cons_ne_nil _ _, rfl⟩

theorem Expansion.strPostReg (c : Cond) (u : Bool) (rn : Reg) (rd : Reg) (rm : Reg) (sh : ShiftImm) :
    Expansion.Statement (.strPostReg c u rn rd rm sh) :=
  ⟨List.cons_ne_nil _ _, rfl⟩

theorem Expansion.strbPreImm (c : Cond) (u : Bool) (w : Bool) (rn : Reg) (rd : Reg) (imm : BitVec 12) :
    Expansion.Statement (.strbPreImm c u w rn rd imm) :=
  ⟨List.cons_ne_nil _ _, rfl⟩

theorem Expansion.strbPostImm (c : Cond) (u : Bool) (rn : Reg) (rd : Reg) (imm : BitVec 12) :
    Expansion.Statement (.strbPostImm c u rn rd imm) :=
  ⟨List.cons_ne_nil _ _, rfl⟩

theorem Expansion.strbPreReg (c : Cond) (u : Bool) (w : Bool) (rn : Reg) (rd : Reg) (rm : Reg) (sh : ShiftImm) :
    Expansion.Statement (.strbPreReg c u w rn rd rm sh) :=
  ⟨List.cons_ne_nil _ _, rfl⟩

theorem Expansion.strbPostReg (c : Cond) (u : Bool) (rn : Reg) (rd : Reg) (rm : Reg) (sh : ShiftImm) :
    Expansion.Statement (.strbPostReg c u rn rd rm sh) :=
  ⟨List.cons_ne_nil _ _, rfl⟩

theorem Expansion.ldrtImm (c : Cond) (u : Bool) (rn : Reg) (rd : Reg) (imm : BitVec 12) :
    Expansion.Statement (.ldrtImm c u rn rd imm) :=
  ⟨List.cons_ne_nil _ _, rfl⟩

theorem Expansion.ldrtReg (c : Cond) (u : Bool) (rn : Reg) (rd : Reg) (rm : Reg) (sh : ShiftImm) :
    Expansion.Statement (.ldrtReg c u rn rd rm sh) :=
  ⟨List.cons_ne_nil _ _, rfl⟩

theorem Expansion.ldrbtImm (c : Cond) (u : Bool) (rn : Reg) (rd : Reg) (imm : BitVec 12) :
    Expansion.Statement (.ldrbtImm c u rn rd imm) :=
  ⟨List.cons_ne_nil _ _, rfl⟩

theorem Expansion.ldrbtReg (c : Cond) (u : Bool) (rn : Reg) (rd : Reg) (rm : Reg) (sh : ShiftImm) :
    Expansion.Statement (.ldrbtReg c u rn rd rm sh) :=
  ⟨List.cons_ne_nil _ _, rfl⟩

theorem Expansion.strtImm (c : Cond) (u : Bool) (rn : Reg) (rd : Reg) (imm : BitVec 12) :
    Expansion.Statement (.strtImm c u rn rd imm) :=
  ⟨List.cons_ne_nil _ _, rfl⟩

theorem Expansion.strtReg (c : Cond) (u : Bool) (rn : Reg) (rd : Reg) (rm : Reg) (sh : ShiftImm) :
    Expansion.Statement (.strtReg c u rn rd rm sh) :=
  ⟨List.cons_ne_nil _ _, rfl⟩

theorem Expansion.strbtImm (c : Cond) (u : Bool) (rn : Reg) (rd : Reg) (imm : BitVec 12) :
    Expansion.Statement (.strbtImm c u rn rd imm) :=
  ⟨List.cons_ne_nil _ _, rfl⟩

theorem Expansion.strbtReg (c : Cond) (u : Bool) (rn : Reg) (rd : Reg) (rm : Reg) (sh : ShiftImm) :
    Expansion.Statement (.strbtReg c u rn rd rm sh) :=
  ⟨List.cons_ne_nil _ _, rfl⟩

theorem Expansion.ldrhPreImm (c : Cond) (u : Bool) (w : Bool) (rn : Reg) (rd : Reg) (imm : BitVec 8) :
    Expansion.Statement (.ldrhPreImm c u w rn rd imm) :=
  ⟨List.cons_ne_nil _ _, rfl⟩

theorem Expansion.ldrhPostImm (c : Cond) (u : Bool) (rn : Reg) (rd : Reg) (imm : BitVec 8) :
    Expansion.Statement (.ldrhPostImm c u rn rd imm) :=
  ⟨List.cons_ne_nil _ _, rfl⟩

theorem Expansion.ldrhPreReg (c : Cond) (u : Bool) (w : Bool) (rn : Reg) (rd : Reg) (rm : Reg) :
    Expansion.Statement (.ldrhPreReg c u w rn rd rm) :=
  ⟨List.cons_ne_nil _ _, rfl⟩

theorem Expansion.ldrhPostReg (c : Cond) (u : Bool) (rn : Reg) (rd : Reg) (rm : Reg) :
    Expansion.Statement (.ldrhPostReg c u rn rd rm) :=
  ⟨List.cons_ne_nil _ _, rfl⟩

theorem Expansion.ldrsbPreImm (c : Cond) (u : Bool) (w : Bool) (rn : Reg) (rd : Reg) (imm : BitVec 8) :
    Expansion.Statement (.ldrsbPreImm c u w rn rd imm) :=
  ⟨List.cons_ne_nil _ _, rfl⟩

theorem Expansion.ldrsbPostImm (c : Cond) (u : Bool) (rn : Reg) (rd : Reg) (imm : BitVec 8) :
    Expansion.Statement (.ldrsbPostImm c u rn rd imm) :=
  ⟨List.cons_ne_nil _ _, rfl⟩

theorem Expansion.ldrsbPreReg (c : Cond) (u : Bool) (w : Bool) (rn : Reg) (rd : Reg) (rm : Reg) :
    Expansion.Statement (.ldrsbPreReg c u w rn rd rm) :=
  ⟨List.cons_ne_nil _ _, rfl⟩

theorem Expansion.ldrsbPostReg (c : Cond) (u : Bool) (rn : Reg) (rd : Reg) (rm : Reg) :
    Expansion.Statement (.ldrsbPostReg c u rn rd rm) :=
  ⟨List.cons_ne_nil _ _, rfl⟩

theorem Expansion.ldrshPreImm (c : Cond) (u : Bool) (w : Bool) (rn : Reg) (rd : Reg) (imm : BitVec 8) :
    Expansion.Statement (.ldrshPreImm c u w rn rd imm) :=
  ⟨List.cons_ne_nil _ _, rfl⟩

theorem Expansion.ldrshPostImm (c : Cond) (u : Bool) (rn : Reg) (rd : Reg) (imm : BitVec 8) :
    Expansion.Statement (.ldrshPostImm c u rn rd imm) :=
  ⟨List.cons_ne_nil _ _, rfl⟩

theorem Expansion.ldrshPreReg (c : Cond) (u : Bool) (w : Bool) (rn : Reg) (rd : Reg) (rm : Reg) :
    Expansion.Statement (.ldrshPreReg c u w rn rd rm) :=
  ⟨List.cons_ne_nil _ _, rfl⟩

theorem Expansion.ldrshPostReg (c : Cond) (u : Bool) (rn : Reg) (rd : Reg) (rm : Reg) :
    Expansion.Statement (.ldrshPostReg c u rn rd rm) :=
  ⟨List.cons_ne_nil _ _, rfl⟩

theorem Expansion.strhPreImm (c : Cond) (u : Bool) (w : Bool) (rn : Reg) (rd : Reg) (imm : BitVec 8) :
    Expansion.Statement (.strhPreImm c u w rn rd imm) :=
  ⟨List.cons_ne_nil _ _, rfl⟩

theorem Expansion.strhPostImm (c : Cond) (u : Bool) (rn : Reg) (rd : Reg) (imm : BitVec 8) :
    Expansion.Statement (.strhPostImm c u rn rd imm) :=
  ⟨List.cons_ne_nil _ _, rfl⟩

theorem Expansion.strhPreReg (c : Cond) (u : Bool) (w : Bool) (rn : Reg) (rd : Reg) (rm : Reg) :
    Expansion.Statement (.strhPreReg c u w rn rd rm) :=
  ⟨List.cons_ne_nil _ _, rfl⟩

theorem Expansion.strhPostReg (c : Cond) (u : Bool) (rn : Reg) (rd : Reg) (rm : Reg) :
    Expansion.Statement (.strhPostReg c u rn rd rm) :=
  ⟨List.cons_ne_nil _ _, rfl⟩

theorem Expansion.ldm (c : Cond) (am : BlockMode) (w : Bool) (rn : Reg) (list : BitVec 16) :
    Expansion.Statement (.ldm c am w rn list) :=
  ⟨List.cons_ne_nil _ _, rfl⟩

theorem Expansion.ldmUser (c : Cond) (am : BlockMode) (w : Bool) (rn : Reg) (list : BitVec 16) :
    Expansion.Statement (.ldmUser c am w rn list) :=
  ⟨List.cons_ne_nil _ _, rfl⟩

theorem Expansion.ldmReturn (c : Cond) (am : BlockMode) (w : Bool) (rn : Reg) (list : BitVec 16) :
    Expansion.Statement (.ldmReturn c am w rn list) :=
  ⟨List.cons_ne_nil _ _, rfl⟩

theorem Expansion.stm (c : Cond) (am : BlockMode) (w : Bool) (rn : Reg) (list : BitVec 16) :
    Expansion.Statement (.stm c am w rn list) :=
  ⟨List.cons_ne_nil _ _, rfl⟩

theorem Expansion.stmUser (c : Cond) (am : BlockMode) (w : Bool) (rn : Reg) (list : BitVec 16) :
    Expansion.Statement (.stmUser c am w rn list) :=
  ⟨List.cons_ne_nil _ _, rfl⟩

theorem Expansion.b (c : Cond) (off : BitVec 24) : Expansion.Statement (.b c off) :=
  ⟨List.cons_ne_nil _ _, rfl⟩

theorem Expansion.bl (c : Cond) (off : BitVec 24) : Expansion.Statement (.bl c off) :=
  ⟨List.cons_ne_nil _ _, rfl⟩

theorem Expansion.swi (c : Cond) (imm : BitVec 24) : Expansion.Statement (.swi c imm) :=
  ⟨List.cons_ne_nil _ _, rfl⟩

theorem Expansion.nop (c : Cond) : Expansion.Statement (.nop c) :=
  ⟨List.cons_ne_nil _ _, rfl⟩

theorem Expansion.ldrLabel (c : Cond) (u : Bool) (rd : Reg) (imm : BitVec 12) :
    Expansion.Statement (.ldrLabel c u rd imm) :=
  ⟨List.cons_ne_nil _ _, rfl⟩

theorem Expansion.ldrConst (c : Cond) (rd : Reg) (imm32 : Word) (u : Bool) (pool : BitVec 12) :
    Expansion.Statement (.ldrConst c rd imm32 u pool) := by
  simp only [Expansion.Statement, encode, Instr.expand]
  split
  · exact ⟨List.cons_ne_nil _ _, rfl⟩
  · split <;> exact ⟨List.cons_ne_nil _ _, rfl⟩

theorem Expansion.adr (c : Cond) (u : Bool) (rd : Reg) (rot : BitVec 4) (imm : BitVec 8) :
    Expansion.Statement (.adr c u rd rot imm) := by
  cases u <;> exact ⟨List.cons_ne_nil _ _, rfl⟩

theorem Expansion.adrl (c : Cond) (u : Bool) (rd : Reg) (rot1 : BitVec 4) (imm1 : BitVec 8) (rot2 : BitVec 4) (imm2 : BitVec 8) :
    Expansion.Statement (.adrl c u rd rot1 imm1 rot2 imm2) := by
  cases u <;> exact ⟨List.cons_ne_nil _ _, rfl⟩

end Sys2Proof.Laws
end

