-- ==== Sys2Proof/Tests/Slice0.lean ====
section
/-! SUPPORT. Tests: ill-formed terms, the decoding of a word of every constructor, one or two steps of every instruction, and
a witness for the hypotheses of every statement. Words are written from the encoding tables of 30_encoding.md and
opcode_table.json, expected results from 95_test_vectors.md or worked out by hand from the rule named. -/

namespace Sys2Proof.Tests

open Sys2Proof Sys2Proof.Machine

/-! ### Ill-formed terms -/

theorem test_wf_lsl : Instr.wf (.movShiftImm .al false 0#4 1#4 (.lsl 32)) = false := by decide
theorem test_wf_lsr : Instr.wf (.addShiftImm .al false 0#4 1#4 2#4 (.lsr 0)) = false := by decide
theorem test_wf_asr : Instr.wf (.cmpShiftImm .al 0#4 1#4 (.asr 33)) = false := by decide
theorem test_wf_ror : Instr.wf (.ldrPreReg .al true false 0#4 1#4 2#4 (.ror 0)) = false := by decide
theorem test_wf_ldmUser : Instr.wf (.ldmUser .al .ia false 0#4 0x8002#16) = false := by decide
theorem test_wf_ldmReturn : Instr.wf (.ldmReturn .al .ia false 0#4 0x0002#16) = false := by decide
theorem test_wf_adrl : Instr.wf (.adrl .al true 15#4 0#4 1#8 0#4 1#8) = false := by decide

/-! ### A word of every constructor -/

theorem test_decode_andImm :
    decodeWord 0x02051381#32 = .instr (.andImm .eq false 1#4 5#4 3#4 0x81#8) := by
  decide

theorem test_decode_andShiftImm :
    decodeWord 0x101623AA#32 = .instr (.andShiftImm .ne true 2#4 6#4 10#4 (.lsr 7)) := by
  decide

theorem test_decode_andShiftReg :
    decodeWord 0x2007345B#32 = .instr (.andShiftReg .cs false 3#4 7#4 11#4 .asr 4#4) := by
  decide

theorem test_decode_eorImm :
    decodeWord 0x323848F0#32 = .instr (.eorImm .cc true 4#4 8#4 8#4 0xF0#8) := by
  decide

theorem test_decode_eorShiftImm :
    decodeWord 0x40295B0D#32 = .instr (.eorShiftImm .mi false 5#4 9#4 13#4 (.lsl 22)) := by
  decide

theorem test_decode_eorShiftReg :
    decodeWord 0x503A673E#32 = .instr (.eorShiftReg .pl true 6#4 10#4 14#4 .lsr 7#4) := by
  decide

theorem test_decode_subImm :
    decodeWord 0x624B7D5F#32 = .instr (.subImm .vs false 7#4 11#4 13#4 0x5F#8) := by
  decide

theorem test_decode_subShiftImm :
    decodeWord 0x705C8361#32 = .instr (.subShiftImm .vc true 8#4 12#4 1#4 (.ror 6)) := by
  decide

theorem test_decode_subShiftReg :
    decodeWord 0x804D9A12#32 = .instr (.subShiftReg .hi false 9#4 13#4 2#4 .lsl 10#4) := by
  decide

theorem test_decode_rsbImm :
    decodeWord 0x9270A2CE#32 = .instr (.rsbImm .ls true 10#4 0#4 2#4 0xCE#8) := by
  decide

theorem test_decode_rsbShiftImm :
    decodeWord 0xA061BAC4#32 = .instr (.rsbShiftImm .ge false 11#4 1#4 4#4 (.asr 21)) := by
  decide

theorem test_decode_rsbShiftReg :
    decodeWord 0xB072CD75#32 = .instr (.rsbShiftReg .lt true 12#4 2#4 5#4 .ror 13#4) := by
  decide

theorem test_decode_addImm :
    decodeWord 0xC283D73D#32 = .instr (.addImm .gt false 13#4 3#4 7#4 0x3D#8) := by
  decide

theorem test_decode_addShiftImm :
    decodeWord 0xD09412A7#32 = .instr (.addShiftImm .le true 1#4 4#4 7#4 (.lsr 5)) := by
  decide

theorem test_decode_addShiftReg :
    decodeWord 0xE0852258#32 = .instr (.addShiftReg .al false 2#4 5#4 8#4 .asr 2#4) := by
  decide

theorem test_decode_adcImm :
    decodeWord 0x02B63CAC#32 = .instr (.adcImm .eq true 3#4 6#4 12#4 0xAC#8) := by
  decide

theorem test_decode_adcShiftImm :
    decodeWord 0x10A74A0A#32 = .instr (.adcShiftImm .ne false 4#4 7#4 10#4 (.lsl 20)) := by
  decide

theorem test_decode_adcShiftReg :
    decodeWord 0x20B8553B#32 = .instr (.adcShiftReg .cs true 5#4 8#4 11#4 .lsr 5#4) := by
  decide

theorem test_decode_sbcImm :
    decodeWord 0x32C9611B#32 = .instr (.sbcImm .cc false 6#4 9#4 1#4 0x1B#8) := by
  decide

theorem test_decode_sbcShiftImm :
    decodeWord 0x40DA726D#32 = .instr (.sbcShiftImm .mi true 7#4 10#4 13#4 (.ror 4)) := by
  decide

theorem test_decode_sbcShiftReg :
    decodeWord 0x50CB881E#32 = .instr (.sbcShiftReg .pl false 8#4 11#4 14#4 .lsl 8#4) := by
  decide

theorem test_decode_rscImm :
    decodeWord 0x62FC968A#32 = .instr (.rscImm .vs true 9#4 12#4 6#4 0x8A#8) := by
  decide

theorem test_decode_rscShiftImm :
    decodeWord 0x70EDA9C1#32 = .instr (.rscShiftImm .vc false 10#4 13#4 1#4 (.asr 19)) := by
  decide

theorem test_decode_rscShiftReg :
    decodeWord 0x80F0BB72#32 = .instr (.rscShiftReg .hi true 11#4 0#4 2#4 .ror 11#4) := by
  decide

theorem test_decode_tstImm :
    decodeWord 0x93110BF9#32 = .instr (.tstImm .ls 1#4 11#4 0xF9#8) := by
  decide

theorem test_decode_tstShiftImm :
    decodeWord 0xA11201A4#32 = .instr (.tstShiftImm .ge 2#4 4#4 (.lsr 3)) := by
  decide

theorem test_decode_tstShiftReg :
    decodeWord 0xB1130055#32 = .instr (.tstShiftReg .lt 3#4 5#4 .asr 0#4) := by
  decide

theorem test_decode_teqImm :
    decodeWord 0xC3340068#32 = .instr (.teqImm .gt 4#4 0#4 0x68#8) := by
  decide

theorem test_decode_teqShiftImm :
    decodeWord 0xD1350907#32 = .instr (.teqShiftImm .le 5#4 7#4 (.lsl 18)) := by
  decide

theorem test_decode_teqShiftReg :
    decodeWord 0xE1360338#32 = .instr (.teqShiftReg .al 6#4 8#4 .lsr 3#4) := by
  decide

theorem test_decode_cmpImm :
    decodeWord 0x035705D7#32 = .instr (.cmpImm .eq 7#4 5#4 0xD7#8) := by
  decide

theorem test_decode_cmpShiftImm :
    decodeWord 0x1158016A#32 = .instr (.cmpShiftImm .ne 8#4 10#4 (.ror 2)) := by
  decide

theorem test_decode_cmpShiftReg :
    decodeWord 0x2159061B#32 = .instr (.cmpShiftReg .cs 9#4 11#4 .lsl 6#4) := by
  decide

theorem test_decode_cmnImm :
    decodeWord 0x337A0A46#32 = .instr (.cmnImm .cc 10#4 10#4 0x46#8) := by
  decide

theorem test_decode_cmnShiftImm :
    decodeWord 0x417B08CD#32 = .instr (.cmnShiftImm .mi 11#4 13#4 (.asr 17)) := by
  decide

theorem test_decode_cmnShiftReg :
    decodeWord 0x517C097E#32 = .instr (.cmnShiftReg .pl 12#4 14#4 .ror 9#4) := by
  decide

theorem test_decode_orrImm :
    decodeWord 0x638DBFB5#32 = .instr (.orrImm .vs false 11#4 13#4 15#4 0xB5#8) := by
  decide

theorem test_decode_orrShiftImm :
    decodeWord 0x7190C0A1#32 = .instr (.orrShiftImm .vc true 12#4 0#4 1#4 (.lsr 1)) := by
  decide

theorem test_decode_orrShiftReg :
    decodeWord 0x8181DC52#32 = .instr (.orrShiftReg .hi false 13#4 1#4 2#4 .asr 12#4) := by
  decide

theorem test_decode_movImm :
    decodeWord 0x93B01424#32 = .instr (.movImm .ls true 1#4 4#4 0x24#8) := by
  decide

theorem test_decode_movShiftImm :
    decodeWord 0xA1A02804#32 = .instr (.movShiftImm .ge false 2#4 4#4 (.lsl 16)) := by
  decide

theorem test_decode_movShiftReg :
    decodeWord 0xB1B03135#32 = .instr (.movShiftReg .lt true 3#4 5#4 .lsr 1#4) := by
  decide

theorem test_decode_bicImm :
    decodeWord 0xC3C54993#32 = .instr (.bicImm .gt false 4#4 5#4 9#4 0x93#8) := by
  decide

theorem test_decode_bicShiftImm :
    decodeWord 0xD1D65FE7#32 = .instr (.bicShiftImm .le true 5#4 6#4 7#4 (.ror 31)) := by
  decide

theorem test_decode_bicShiftReg :
    decodeWord 0xE1C76418#32 = .instr (.bicShiftReg .al false 6#4 7#4 8#4 .lsl 4#4) := by
  decide

theorem test_decode_mvnImm :
    decodeWord 0x03F07E02#32 = .instr (.mvnImm .eq true 7#4 14#4 0x02#8) := by
  decide

theorem test_decode_mvnShiftImm :
    decodeWord 0x11E087CA#32 = .instr (.mvnShiftImm .ne false 8#4 10#4 (.asr 15)) := by
  decide

theorem test_decode_mvnShiftReg :
    decodeWord 0x21F0977B#32 = .instr (.mvnShiftReg .cs true 9#4 11#4 .ror 7#4) := by
  decide

theorem test_decode_mrsCpsr :
    decodeWord 0x310FA000#32 = .instr (.mrsCpsr .cc 10#4) := by
  decide

theorem test_decode_mrsSpsr :
    decodeWord 0x414FB000#32 = .instr (.mrsSpsr .mi 11#4) := by
  decide

theorem test_decode_msrCpsrReg :
    decodeWord 0x512FF00E#32 = .instr (.msrCpsrReg .pl ⟨true, true, true, true⟩ 14#4) := by
  decide

theorem test_decode_msrSpsrReg :
    decodeWord 0x6162F000#32 = .instr (.msrSpsrReg .vs ⟨false, false, true, false⟩ 0#4) := by
  decide

theorem test_decode_msrCpsrImm :
    decodeWord 0x7325FF05#32 = .instr (.msrCpsrImm .vc ⟨false, true, false, true⟩ 15#4 0x05#8) := by
  decide

theorem test_decode_msrSpsrImm :
    decodeWord 0x8368F62A#32 = .instr (.msrSpsrImm .hi ⟨true, false, false, false⟩ 6#4 0x2A#8) := by
  decide

theorem test_decode_mul :
    decodeWord 0x90030093#32 = .instr (.mul .ls false 3#4 3#4 0#4) := by
  decide

theorem test_decode_mla :
    decodeWord 0xA0344194#32 = .instr (.mla .ge true 4#4 4#4 1#4 4#4) := by
  decide

theorem test_decode_umull :
    decodeWord 0xB0855295#32 = .instr (.umull .lt false 5#4 5#4 5#4 2#4) := by
  decide

theorem test_decode_umlal :
    decodeWord 0xC0B66396#32 = .instr (.umlal .gt true 6#4 6#4 6#4 3#4) := by
  decide

theorem test_decode_smull :
    decodeWord 0xD0C77497#32 = .instr (.smull .le false 7#4 7#4 7#4 4#4) := by
  decide

theorem test_decode_smlal :
    decodeWord 0xE0F88598#32 = .instr (.smlal .al true 8#4 8#4 8#4 5#4) := by
  decide

theorem test_decode_bx :
    decodeWord 0x012FFF19#32 = .instr (.bx .eq 9#4) := by
  decide

theorem test_decode_swp :
    decodeWord 0x110AA09A#32 = .instr (.swp .ne 10#4 10#4 10#4) := by
  decide

theorem test_decode_swpb :
    decodeWord 0x214BB09B#32 = .instr (.swpb .cs 11#4 11#4 11#4) := by
  decide

theorem test_decode_ldrPreImm :
    decodeWord 0x35BCC238#32 = .instr (.ldrPreImm .cc true true 12#4 12#4 0x238#12) := by
  decide

theorem test_decode_ldrPostImm :
    decodeWord 0x441DD365#32 = .instr (.ldrPostImm .mi false 13#4 13#4 0x365#12) := by
  decide

theorem test_decode_ldrPreReg :
    decodeWord 0x573018AE#32 = .instr (.ldrPreReg .pl false true 0#4 1#4 14#4 (.lsr 17)) := by
  decide

theorem test_decode_ldrPostReg :
    decodeWord 0x66912B40#32 = .instr (.ldrPostReg .vs true 1#4 2#4 0#4 (.asr 22)) := by
  decide

theorem test_decode_ldrbPreImm :
    decodeWord 0x75F236EC#32 = .instr (.ldrbPreImm .vc true true 2#4 3#4 0x6EC#12) := by
  decide

theorem test_decode_ldrbPostImm :
    decodeWord 0x84534819#32 = .instr (.ldrbPostImm .hi false 3#4 4#4 0x819#12) := by
  decide

theorem test_decode_ldrbPreReg :
    decodeWord 0x97745323#32 = .instr (.ldrbPreReg .ls false true 4#4 5#4 3#4 (.lsr 6)) := by
  decide

theorem test_decode_ldrbPostReg :
    decodeWord 0xA6D565C4#32 = .instr (.ldrbPostReg .ge true 5#4 6#4 4#4 (.asr 11)) := by
  decide

theorem test_decode_strPreImm :
    decodeWord 0xB5A67BA0#32 = .instr (.strPreImm .lt true true 6#4 7#4 0xBA0#12) := by
  decide

theorem test_decode_strPostImm :
    decodeWord 0xC4078CCD#32 = .instr (.strPostImm .gt false 7#4 8#4 0xCCD#12) := by
  decide

theorem test_decode_strPreReg :
    decodeWord 0xD7289D27#32 = .instr (.strPreReg .le false true 8#4 9#4 7#4 (.lsr 26)) := by
  decide

theorem test_decode_strPostReg :
    decodeWord 0xE689AFC8#32 = .instr (.strPostReg .al true 9#4 10#4 8#4 (.asr 31)) := by
  decide

theorem test_decode_strbPreImm :
    decodeWord 0x05EAB054#32 = .instr (.strbPreImm .eq true true 10#4 11#4 0x054#12) := by
  decide

theorem test_decode_strbPostImm :
    decodeWord 0x144BC181#32 = .instr (.strbPostImm .ne false 11#4 12#4 0x181#12) := by
  decide

theorem test_decode_strbPreReg :
    decodeWord 0x276CD7AB#32 = .instr (.strbPreReg .cs false true 12#4 13#4 11#4 (.lsr 15)) := by
  decide

theorem test_decode_strbPostReg :
    decodeWord 0x36CD1A4C#32 = .instr (.strbPostReg .cc true 13#4 1#4 12#4 (.asr 20)) := by
  decide

theorem test_decode_ldrtImm :
    decodeWord 0x44B02508#32 = .instr (.ldrtImm .mi true 0#4 2#4 0x508#12) := by
  decide

theorem test_decode_ldrtReg :
    decodeWord 0x56313F0E#32 = .instr (.ldrtReg .pl false 1#4 3#4 14#4 (.lsl 30)) := by
  decide

theorem test_decode_ldrbtImm :
    decodeWord 0x64724762#32 = .instr (.ldrbtImm .vs false 2#4 4#4 0x762#12) := by
  decide

theorem test_decode_ldrbtReg :
    decodeWord 0x76F354C1#32 = .instr (.ldrbtReg .vc true 3#4 5#4 1#4 (.asr 9)) := by
  decide

theorem test_decode_strtImm :
    decodeWord 0x84A469BC#32 = .instr (.strtImm .hi true 4#4 6#4 0x9BC#12) := by
  decide

theorem test_decode_strtReg :
    decodeWord 0x96257983#32 = .instr (.strtReg .ls false 5#4 7#4 3#4 (.lsl 19)) := by
  decide

theorem test_decode_strbtImm :
    decodeWord 0xA4668C16#32 = .instr (.strbtImm .ge false 6#4 8#4 0xC16#12) := by
  decide

theorem test_decode_strbtReg :
    decodeWord 0xB6E79EC5#32 = .instr (.strbtReg .lt true 7#4 9#4 5#4 (.asr 29)) := by
  decide

theorem test_decode_ldrhPreImm :
    decodeWord 0xC1F8A1B4#32 = .instr (.ldrhPreImm .gt true true 8#4 10#4 0x14#8) := by
  decide

theorem test_decode_ldrhPostImm :
    decodeWord 0xD059B3B9#32 = .instr (.ldrhPostImm .le false 9#4 11#4 0x39#8) := by
  decide

theorem test_decode_ldrhPreReg :
    decodeWord 0xE13AC0B8#32 = .instr (.ldrhPreReg .al false true 10#4 12#4 8#4) := by
  decide

theorem test_decode_ldrhPostReg :
    decodeWord 0x009BD0B9#32 = .instr (.ldrhPostReg .eq true 11#4 13#4 9#4) := by
  decide

theorem test_decode_ldrsbPreImm :
    decodeWord 0x11FC1AD8#32 = .instr (.ldrsbPreImm .ne true true 12#4 1#4 0xA8#8) := by
  decide

theorem test_decode_ldrsbPostImm :
    decodeWord 0x205D2CDD#32 = .instr (.ldrsbPostImm .cs false 13#4 2#4 0xCD#8) := by
  decide

theorem test_decode_ldrsbPreReg :
    decodeWord 0x313030DC#32 = .instr (.ldrsbPreReg .cc false true 0#4 3#4 12#4) := by
  decide

theorem test_decode_ldrsbPostReg :
    decodeWord 0x409140DD#32 = .instr (.ldrsbPostReg .mi true 1#4 4#4 13#4) := by
  decide

theorem test_decode_ldrshPreImm :
    decodeWord 0x51F253FC#32 = .instr (.ldrshPreImm .pl true true 2#4 5#4 0x3C#8) := by
  decide

theorem test_decode_ldrshPostImm :
    decodeWord 0x605366F1#32 = .instr (.ldrshPostImm .vs false 3#4 6#4 0x61#8) := by
  decide

theorem test_decode_ldrshPreReg :
    decodeWord 0x713470F1#32 = .instr (.ldrshPreReg .vc false true 4#4 7#4 1#4) := by
  decide

theorem test_decode_ldrshPostReg :
    decodeWord 0x809580F2#32 = .instr (.ldrshPostReg .hi true 5#4 8#4 2#4) := by
  decide

theorem test_decode_strhPreImm :
    decodeWord 0x91E69DB0#32 = .instr (.strhPreImm .ls true true 6#4 9#4 0xD0#8) := by
  decide

theorem test_decode_strhPostImm :
    decodeWord 0xA047AFB5#32 = .instr (.strhPostImm .ge false 7#4 10#4 0xF5#8) := by
  decide

theorem test_decode_strhPreReg :
    decodeWord 0xB128B0B5#32 = .instr (.strhPreReg .lt false true 8#4 11#4 5#4) := by
  decide

theorem test_decode_strhPostReg :
    decodeWord 0xC089C0B6#32 = .instr (.strhPostReg .gt true 9#4 12#4 6#4) := by
  decide

theorem test_decode_ldm :
    decodeWord 0xD9BA845D#32 = .instr (.ldm .le .ib true 10#4 0x845D#16) := by
  decide

theorem test_decode_ldmUser :
    decodeWord 0xE85B234C#32 = .instr (.ldmUser .al .da false 11#4 0x234C#16) := by
  decide

theorem test_decode_ldmReturn :
    decodeWord 0x08FCC23B#32 = .instr (.ldmReturn .eq .ia true 12#4 0xC23B#16) := by
  decide

theorem test_decode_stm :
    decodeWord 0x190DE12A#32 = .instr (.stm .ne .db false 13#4 0xE12A#16) := by
  decide

theorem test_decode_stmUser :
    decodeWord 0x29E00019#32 = .instr (.stmUser .cs .ib true 0#4 0x0019#16) := by
  decide

theorem test_decode_b :
    decodeWord 0x3A7280F5#32 = .instr (.b .cc 0x7280F5#24) := by
  decide

theorem test_decode_bl :
    decodeWord 0x4B85577C#32 = .instr (.bl .mi 0x85577C#24) := by
  decide

theorem test_decode_swi :
    decodeWord 0x5F982E03#32 = .instr (.swi .pl 0x982E03#24) := by
  decide

/-- The expansions of the pseudo-instructions, as words (R310 to R314). -/
theorem test_encode_pseudo :
    encode (.nop .al) = [0xE1A00000#32] ∧ encode (.ldrLabel .al false 0#4 8#12) = [0xE51F0008#32] ∧
      encode (.ldrConst .al 0#4 0xFF000000#32 true 0#12) = [0xE3A004FF#32] ∧
      encode (.ldrConst .al 0#4 0xFFFFFFFF#32 true 0#12) = [0xE3E00000#32] ∧
      encode (.ldrConst .al 0#4 0xCAFEBABE#32 true 0#12) = [0xE59F0000#32] ∧
      encode (.adr .al true 0#4 0#4 8#8) = [0xE28F0008#32] ∧ encode (.adr .al false 0#4 0#4 16#8) = [0xE24F0010#32] ∧
      encode (.adrl .al true 0#4 12#4 1#8 0#4 8#8) = [0xE28F0C01#32, 0xE2800008#32] := by
  decide

/-- The words that are no instruction: V8, V208, a coprocessor word and a half-word word with bit 5 clear of the space R110
refuses. -/
theorem test_refused_words :
    decodeWord 0xF1A00000#32 = .refused .condNV ∧ decodeWord 0xE7F000F0#32 = .undefined .al ∧
      decodeWord 0xEE000000#32 = .refused .coprocessorNotModelled ∧
      decodeWord 0xE0400090#32 = .refused .unallocated := by
  decide

/-! ### One step -/

/-- A CPSR from its word. -/
def cpsrOf (w : Word) : Cpsr where
  n := w.getLsbD 31
  z := w.getLsbD 30
  c := w.getLsbD 29
  v := w.getLsbD 28
  i := w.getLsbD 7
  f := w.getLsbD 6
  t := w.getLsbD 5
  mode := (Mode.ofBits (w.extractLsb' 0 5)).getD .svc

/-- A PSR from its word. -/
def psrOf (w : Word) : Psr where
  n := w.getLsbD 31
  z := w.getLsbD 30
  c := w.getLsbD 29
  v := w.getLsbD 28
  i := w.getLsbD 7
  f := w.getLsbD 6
  t := w.getLsbD 5
  m := w.extractLsb' 0 5

/-- A state with a PC, a CPSR, registers and words of memory. -/
def small (pc cpsr : Word) (regs : List (Reg × Word)) (mem : List (Nat × Word)) : State :=
  regs.foldl (fun s x => s.setReg x.1 x.2)
    { State.reset with
      pc := pc
      cpsr := cpsrOf cpsr
      mem := mem.foldl (fun m x => Memory.store m x.1 4 x.2.toNat) [] }

/-- What is seen of the next state of a step. -/
def seen (o : Out) (f : State → List Word) : Option (List Word) :=
  match o with
  | .next t => some (f t)
  | .fault _ => none
  | .refused _ => none

/-- The step that runs a word. -/
def ran (w : Word) (s : State) (f : State → List Word) : Option (List Word) :=
  seen (step (s.withFetchWord 32 w.toNat)) f

/-- The four flags. -/
def nzcv (s : State) : Word :=
  s.cpsr.saved.word 0#20 >>> 28

/-- One flag, where another is a free value. -/
def flag (b : Bool) : Word :=
  if b then 1#32 else 0#32

/-- Bits 7..0 of the CPSR. -/
def controlOf (s : State) : Word :=
  (BitVec.ofBool s.cpsr.i ++ BitVec.ofBool s.cpsr.f ++ BitVec.ofBool s.cpsr.t ++ s.cpsr.mode.bits).setWidth 32

/-- An SPSR as a word. -/
def savedWord (s : State) (m : Mode) : Word :=
  match s.spsr? m with
  | some p => p.word 0#20
  | none => 0#32

/-- V115 of 95_test_vectors.md: `and r0, r1, #0xFF`. -/
theorem test_V115_andImm :
    ran 0xE20100FF#32
      (small 0x8000#32 0x000000D3#32 [(1#4, 0x12345678#32)] [])
      (fun t => [t.reg 0#4, nzcv t, controlOf t, t.pc]) =
    some [0x00000078#32, 0b0000#32, 0xD3#32, 0x8004#32] := by
  decide

/-- V116 of 95_test_vectors.md: `ands r0, r1, r2, lsl #1`. -/
theorem test_V116_andShiftImm :
    ran 0xE0110082#32
      (small 0x8000#32 0x100000D3#32 [(1#4, 0xFFFFFFFF#32), (2#4, 0xC0000000#32)] [])
      (fun t => [t.reg 0#4, nzcv t, controlOf t, t.pc]) =
    some [0x80000000#32, 0b1011#32, 0xD3#32, 0x8004#32] := by
  decide

/-- Worked out from R220: `ands r0, r1, r2, lsl r3`. -/
theorem test_andShiftReg :
    ran 0xE0110312#32
      (small 0x8000#32 0x300000D3#32 [(1#4, 0x000000FF#32), (2#4, 0x0000000F#32), (3#4, 0x00000004#32)] [])
      (fun t => [t.reg 0#4, nzcv t, controlOf t, t.pc]) =
    some [0x000000F0#32, 0b0001#32, 0xD3#32, 0x8004#32] := by
  decide

/-- Worked out from R222: `eors r0, r1, #0xF0`. -/
theorem test_eorImm :
    ran 0xE23100F0#32
      (small 0x8000#32 0x300000D3#32 [(1#4, 0x000000FF#32)] [])
      (fun t => [t.reg 0#4, nzcv t, controlOf t, t.pc]) =
    some [0x0000000F#32, 0b0011#32, 0xD3#32, 0x8004#32] := by
  decide

/-- V120 of 95_test_vectors.md: `eor r0, r1, r2`. -/
theorem test_V120_eorShiftImm :
    ran 0xE0210002#32
      (small 0x8000#32 0x000000D3#32 [(1#4, 0xFF00FF00#32), (2#4, 0x0FF00FF0#32)] [])
      (fun t => [t.reg 0#4, nzcv t, controlOf t, t.pc]) =
    some [0xF0F0F0F0#32, 0b0000#32, 0xD3#32, 0x8004#32] := by
  decide

/-- Worked out from R222: `eors r0, r1, r2, lsr r3`. -/
theorem test_eorShiftReg :
    ran 0xE0310332#32
      (small 0x8000#32 0x100000D3#32 [(1#4, 0x00000001#32), (2#4, 0x80000001#32), (3#4, 0x00000001#32)] [])
      (fun t => [t.reg 0#4, nzcv t, controlOf t, t.pc]) =
    some [0x40000001#32, 0b0011#32, 0xD3#32, 0x8004#32] := by
  decide

/-- V81 of 95_test_vectors.md: `subs r0, r1, #1`. -/
theorem test_V81_subImm :
    ran 0xE2510001#32
      (small 0x8000#32 0x000000D3#32 [(1#4, 0x00000000#32)] [])
      (fun t => [t.reg 0#4, nzcv t, controlOf t, t.pc]) =
    some [0xFFFFFFFF#32, 0b1000#32, 0xD3#32, 0x8004#32] := by
  decide

/-- V94 of 95_test_vectors.md: `subs pc, lr, #4`. -/
theorem test_V94_subImm :
    ran 0xE25EF004#32
      ((small 0x8000#32 0x000000D2#32 [(14#4, 0x00008018#32)] []).setSpsr .irq (psrOf 0x20000010#32))
      (fun t => [nzcv t, controlOf t, t.pc]) =
    some [0b0010#32, 0x10#32, 0x00008014#32] := by
  decide

/-- V84 of 95_test_vectors.md: `subs r0, r1, r2`. -/
theorem test_V84_subShiftImm :
    ran 0xE0510002#32
      (small 0x8000#32 0x000000D3#32 [(1#4, 0x7FFFFFFF#32), (2#4, 0xFFFFFFFF#32)] [])
      (fun t => [t.reg 0#4, nzcv t, controlOf t, t.pc]) =
    some [0x80000000#32, 0b1001#32, 0xD3#32, 0x8004#32] := by
  decide

/-- Worked out from R192: `subs r0, r1, r2, lsl r3`. -/
theorem test_subShiftReg :
    ran 0xE0510312#32
      (small 0x8000#32 0x000000D3#32 [(1#4, 0x00000005#32), (2#4, 0x00000001#32), (3#4, 0x00000002#32)] [])
      (fun t => [t.reg 0#4, nzcv t, controlOf t, t.pc]) =
    some [0x00000001#32, 0b0010#32, 0xD3#32, 0x8004#32] := by
  decide

/-- V90 of 95_test_vectors.md: `rsbs r0, r0, #0`. -/
theorem test_V90_rsbImm :
    ran 0xE2700000#32
      (small 0x8000#32 0x000000D3#32 [(0#4, 0x80000000#32)] [])
      (fun t => [t.reg 0#4, nzcv t, controlOf t, t.pc]) =
    some [0x80000000#32, 0b1001#32, 0xD3#32, 0x8004#32] := by
  decide

/-- Worked out from R194: `rsbs r0, r1, r2, lsl #1`. -/
theorem test_rsbShiftImm :
    ran 0xE0710082#32
      (small 0x8000#32 0x000000D3#32 [(1#4, 0x00000003#32), (2#4, 0x00000002#32)] [])
      (fun t => [t.reg 0#4, nzcv t, controlOf t, t.pc]) =
    some [0x00000001#32, 0b0010#32, 0xD3#32, 0x8004#32] := by
  decide

/-- Worked out from R194: `rsbs r0, r1, r2, lsl r3`. -/
theorem test_rsbShiftReg :
    ran 0xE0710312#32
      (small 0x8000#32 0x000000D3#32 [(1#4, 0x00000004#32), (2#4, 0x00000001#32), (3#4, 0x00000001#32)] [])
      (fun t => [t.reg 0#4, nzcv t, controlOf t, t.pc]) =
    some [0xFFFFFFFE#32, 0b1000#32, 0xD3#32, 0x8004#32] := by
  decide

/-- V75 of 95_test_vectors.md: `add r0, pc, #8`. -/
theorem test_V75_addImm :
    ran 0xE28F0008#32
      (small 0x8000#32 0x000000D3#32 [] [])
      (fun t => [t.reg 0#4, nzcv t, controlOf t, t.pc]) =
    some [0x00008010#32, 0b0000#32, 0xD3#32, 0x8004#32] := by
  decide

/-- V71 of 95_test_vectors.md: `adds r0, r1, r2`. -/
theorem test_V71_addShiftImm :
    ran 0xE0910002#32
      (small 0x8000#32 0x000000D3#32 [(1#4, 0xFFFFFFFF#32), (2#4, 0x00000001#32)] [])
      (fun t => [t.reg 0#4, nzcv t, controlOf t, t.pc]) =
    some [0x00000000#32, 0b0110#32, 0xD3#32, 0x8004#32] := by
  decide

/-- V72 of 95_test_vectors.md: `adds r0, r1, r2`. -/
theorem test_V72_addShiftImm :
    ran 0xE0910002#32
      (small 0x8000#32 0x000000D3#32 [(1#4, 0x7FFFFFFF#32), (2#4, 0x00000001#32)] [])
      (fun t => [t.reg 0#4, nzcv t, controlOf t, t.pc]) =
    some [0x80000000#32, 0b1001#32, 0xD3#32, 0x8004#32] := by
  decide

/-- Worked out from R190: `adds r0, r1, r2, lsl r3`. -/
theorem test_addShiftReg :
    ran 0xE0910312#32
      (small 0x8000#32 0x000000D3#32 [(1#4, 0xFFFFFFF0#32), (2#4, 0x00000001#32), (3#4, 0x00000004#32)] [])
      (fun t => [t.reg 0#4, nzcv t, controlOf t, t.pc]) =
    some [0x00000000#32, 0b0110#32, 0xD3#32, 0x8004#32] := by
  decide

/-- Worked out from R191: `adcs r0, r1, #1`. -/
theorem test_adcImm :
    ran 0xE2B10001#32
      (small 0x8000#32 0x200000D3#32 [(1#4, 0xFFFFFFFE#32)] [])
      (fun t => [t.reg 0#4, nzcv t, controlOf t, t.pc]) =
    some [0x00000000#32, 0b0110#32, 0xD3#32, 0x8004#32] := by
  decide

/-- V80 of 95_test_vectors.md: `adcs r1, r3, r5`. -/
theorem test_V80_adcShiftImm :
    ran 0xE0B31005#32
      (small 0x8000#32 0x200000D3#32 [(3#4, 0x7FFFFFFF#32), (5#4, 0x7FFFFFFF#32)] [])
      (fun t => [t.reg 1#4, nzcv t, controlOf t, t.pc]) =
    some [0xFFFFFFFF#32, 0b1001#32, 0xD3#32, 0x8004#32] := by
  decide

/-- Worked out from R191: `adcs r0, r1, r2, lsl r3`. -/
theorem test_adcShiftReg :
    ran 0xE0B10312#32
      (small 0x8000#32 0x200000D3#32 [(1#4, 0x7FFFFFFF#32), (2#4, 0x00000000#32), (3#4, 0x00000000#32)] [])
      (fun t => [t.reg 0#4, nzcv t, controlOf t, t.pc]) =
    some [0x80000000#32, 0b1001#32, 0xD3#32, 0x8004#32] := by
  decide

/-- Worked out from R193: `sbcs r0, r1, #2`. -/
theorem test_sbcImm :
    ran 0xE2D10002#32
      (small 0x8000#32 0x000000D3#32 [(1#4, 0x00000005#32)] [])
      (fun t => [t.reg 0#4, nzcv t, controlOf t, t.pc]) =
    some [0x00000002#32, 0b0010#32, 0xD3#32, 0x8004#32] := by
  decide

/-- V87 of 95_test_vectors.md: `sbcs r1, r3, r5`. -/
theorem test_V87_sbcShiftImm :
    ran 0xE0D31005#32
      (small 0x8000#32 0x000000D3#32 [(3#4, 0x00000000#32), (5#4, 0x00000000#32)] [])
      (fun t => [t.reg 1#4, nzcv t, controlOf t, t.pc]) =
    some [0xFFFFFFFF#32, 0b1000#32, 0xD3#32, 0x8004#32] := by
  decide

/-- V88 of 95_test_vectors.md: `sbcs r1, r3, r5`. -/
theorem test_V88_sbcShiftImm :
    ran 0xE0D31005#32
      (small 0x8000#32 0x000000D3#32 [(3#4, 0x00000000#32), (5#4, 0xFFFFFFFF#32)] [])
      (fun t => [t.reg 1#4, nzcv t, controlOf t, t.pc]) =
    some [0x00000000#32, 0b0100#32, 0xD3#32, 0x8004#32] := by
  decide

/-- Worked out from R193: `sbcs r0, r1, r2, lsl r3`. -/
theorem test_sbcShiftReg :
    ran 0xE0D10312#32
      (small 0x8000#32 0x000000D3#32 [(1#4, 0x00000002#32), (2#4, 0x00000001#32), (3#4, 0x00000001#32)] [])
      (fun t => [t.reg 0#4, nzcv t, controlOf t, t.pc]) =
    some [0xFFFFFFFF#32, 0b1000#32, 0xD3#32, 0x8004#32] := by
  decide

/-- V92 of 95_test_vectors.md: `rsc r1, r1, #0`. -/
theorem test_V92_rscImm :
    ran 0xE2E11000#32
      (small 0x8000#32 0x000000D3#32 [(1#4, 0x00000000#32)] [])
      (fun t => [t.reg 1#4, nzcv t, controlOf t, t.pc]) =
    some [0xFFFFFFFF#32, 0b0000#32, 0xD3#32, 0x8004#32] := by
  decide

/-- Worked out from R195: `rscs r0, r1, r2, lsl #1`. -/
theorem test_rscShiftImm :
    ran 0xE0F10082#32
      (small 0x8000#32 0x000000D3#32 [(1#4, 0x00000001#32), (2#4, 0x00000002#32)] [])
      (fun t => [t.reg 0#4, nzcv t, controlOf t, t.pc]) =
    some [0x00000002#32, 0b0010#32, 0xD3#32, 0x8004#32] := by
  decide

/-- Worked out from R195: `rscs r0, r1, r2, lsl r3`. -/
theorem test_rscShiftReg :
    ran 0xE0F10312#32
      (small 0x8000#32 0x200000D3#32 [(1#4, 0x00000004#32), (2#4, 0x00000001#32), (3#4, 0x00000001#32)] [])
      (fun t => [t.reg 0#4, nzcv t, controlOf t, t.pc]) =
    some [0xFFFFFFFE#32, 0b1000#32, 0xD3#32, 0x8004#32] := by
  decide

/-- V131 of 95_test_vectors.md: `tst r0, #0x80000000`. -/
theorem test_V131_tstImm :
    ran 0xE3100102#32
      (small 0x8000#32 0x000000D3#32 [(0#4, 0x80000000#32)] [])
      (fun t => [nzcv t, controlOf t, t.pc]) =
    some [0b1010#32, 0xD3#32, 0x8004#32] := by
  decide

/-- Worked out from R232: `tst r1, r2, lsl #31`. -/
theorem test_tstShiftImm :
    ran 0xE1110F82#32
      (small 0x8000#32 0x300000D3#32 [(1#4, 0x80000000#32), (2#4, 0x00000001#32)] [])
      (fun t => [nzcv t, controlOf t, t.pc]) =
    some [0b1001#32, 0xD3#32, 0x8004#32] := by
  decide

/-- Worked out from R232: `tst r1, r2, lsr r3`. -/
theorem test_tstShiftReg :
    ran 0xE1110332#32
      (small 0x8000#32 0x000000D3#32 [(1#4, 0x00000001#32), (2#4, 0x00000002#32), (3#4, 0x00000002#32)] [])
      (fun t => [nzcv t, controlOf t, t.pc]) =
    some [0b0110#32, 0xD3#32, 0x8004#32] := by
  decide

/-- Worked out from R233: `teq r1, #0xF`. -/
theorem test_teqImm :
    ran 0xE331000F#32
      (small 0x8000#32 0x300000D3#32 [(1#4, 0x0000000F#32)] [])
      (fun t => [nzcv t, controlOf t, t.pc]) =
    some [0b0111#32, 0xD3#32, 0x8004#32] := by
  decide

/-- V133 of 95_test_vectors.md: `teq r0, r1`. -/
theorem test_V133_teqShiftImm :
    ran 0xE1300001#32
      (small 0x8000#32 0x000000D3#32 [(0#4, 0x80000000#32), (1#4, 0x00000000#32)] [])
      (fun t => [nzcv t, controlOf t, t.pc]) =
    some [0b1000#32, 0xD3#32, 0x8004#32] := by
  decide

/-- Worked out from R233: `teq r1, r2, asr r3`. -/
theorem test_teqShiftReg :
    ran 0xE1310352#32
      (small 0x8000#32 0x200000D3#32 [(1#4, 0x00000000#32), (2#4, 0x80000000#32), (3#4, 0x00000001#32)] [])
      (fun t => [nzcv t, controlOf t, t.pc]) =
    some [0b1000#32, 0xD3#32, 0x8004#32] := by
  decide

/-- V124 of 95_test_vectors.md: `cmp r0, #10`. -/
theorem test_V124_cmpImm :
    ran 0xE350000A#32
      (small 0x8000#32 0x000000D3#32 [(0#4, 0x00000009#32)] [])
      (fun t => [nzcv t, controlOf t, t.pc]) =
    some [0b1000#32, 0xD3#32, 0x8004#32] := by
  decide

/-- V127 of 95_test_vectors.md: `cmp r0, r1`. -/
theorem test_V127_cmpShiftImm :
    ran 0xE1500001#32
      (small 0x8000#32 0x000000D3#32 [(0#4, 0x00000001#32), (1#4, 0xFFFFFFFF#32)] [])
      (fun t => [nzcv t, controlOf t, t.pc]) =
    some [0b0000#32, 0xD3#32, 0x8004#32] := by
  decide

/-- Worked out from R230: `cmp r1, r2, lsl r3`. -/
theorem test_cmpShiftReg :
    ran 0xE1510312#32
      (small 0x8000#32 0x000000D3#32 [(1#4, 0x80000000#32), (2#4, 0x00000001#32), (3#4, 0x00000000#32)] [])
      (fun t => [nzcv t, controlOf t, t.pc]) =
    some [0b0011#32, 0xD3#32, 0x8004#32] := by
  decide

/-- V129 of 95_test_vectors.md: `cmn r0, #1`. -/
theorem test_V129_cmnImm :
    ran 0xE3700001#32
      (small 0x8000#32 0x000000D3#32 [(0#4, 0x7FFFFFFF#32)] [])
      (fun t => [nzcv t, controlOf t, t.pc]) =
    some [0b1001#32, 0xD3#32, 0x8004#32] := by
  decide

/-- Worked out from R231: `cmn r1, r2, lsl #1`. -/
theorem test_cmnShiftImm :
    ran 0xE1710082#32
      (small 0x8000#32 0x000000D3#32 [(1#4, 0xFFFFFFFE#32), (2#4, 0x00000001#32)] [])
      (fun t => [nzcv t, controlOf t, t.pc]) =
    some [0b0110#32, 0xD3#32, 0x8004#32] := by
  decide

/-- Worked out from R231: `cmn r1, r2, lsl r3`. -/
theorem test_cmnShiftReg :
    ran 0xE1710312#32
      (small 0x8000#32 0x000000D3#32 [(1#4, 0x7FFFFFFF#32), (2#4, 0x00000001#32), (3#4, 0x00000000#32)] [])
      (fun t => [nzcv t, controlOf t, t.pc]) =
    some [0b1001#32, 0xD3#32, 0x8004#32] := by
  decide

/-- V118 of 95_test_vectors.md: `orrs r0, r1, #0x80000000`. -/
theorem test_V118_orrImm :
    ran 0xE3910102#32
      (small 0x8000#32 0x000000D3#32 [(1#4, 0x00000001#32)] [])
      (fun t => [t.reg 0#4, nzcv t, controlOf t, t.pc]) =
    some [0x80000001#32, 0b1010#32, 0xD3#32, 0x8004#32] := by
  decide

/-- V117 of 95_test_vectors.md: `orr r0, r0, r1, lsl #8`. -/
theorem test_V117_orrShiftImm :
    ran 0xE1800401#32
      (small 0x8000#32 0x000000D3#32 [(0#4, 0x000000AA#32), (1#4, 0x000000BB#32)] [])
      (fun t => [t.reg 0#4, nzcv t, controlOf t, t.pc]) =
    some [0x0000BBAA#32, 0b0000#32, 0xD3#32, 0x8004#32] := by
  decide

/-- Worked out from R221: `orrs r0, r1, r2, ror r3`. -/
theorem test_orrShiftReg :
    ran 0xE1910372#32
      (small 0x8000#32 0x000000D3#32 [(1#4, 0x00000001#32), (2#4, 0x0000000F#32), (3#4, 0x00000004#32)] [])
      (fun t => [t.reg 0#4, nzcv t, controlOf t, t.pc]) =
    some [0xF0000001#32, 0b1010#32, 0xD3#32, 0x8004#32] := by
  decide

/-- V10 of 95_test_vectors.md: `movs r0, #0xFF000000`. -/
theorem test_V10_movImm :
    ran 0xE3B004FF#32
      (small 0x8000#32 0x000000D3#32 [] [])
      (fun t => [t.reg 0#4, nzcv t, controlOf t, t.pc]) =
    some [0xFF000000#32, 0b1010#32, 0xD3#32, 0x8004#32] := by
  decide

/-- V17 of 95_test_vectors.md: `movs r0, r1, lsr #32`. -/
theorem test_V17_movShiftImm :
    ran 0xE1B00021#32
      (small 0x8000#32 0x000000D3#32 [(1#4, 0x80000001#32)] [])
      (fun t => [t.reg 0#4, nzcv t, controlOf t, t.pc]) =
    some [0x00000000#32, 0b0110#32, 0xD3#32, 0x8004#32] := by
  decide

/-- V50 of 95_test_vectors.md: `movs pc, lr`. -/
theorem test_V50_movShiftImm :
    ran 0xE1B0F00E#32
      ((small 0x8000#32 0x000000D3#32 [(14#4, 0x00008104#32)] []).setSpsr .svc (psrOf 0x60000010#32))
      (fun t => [nzcv t, controlOf t, t.pc]) =
    some [0b0110#32, 0x10#32, 0x00008104#32] := by
  decide

/-- V28 of 95_test_vectors.md: `movs r0, r1, lsl r2`. -/
theorem test_V28_movShiftReg :
    ran 0xE1B00211#32
      (small 0x8000#32 0x200000D3#32 [(1#4, 0xFFFFFFFF#32), (2#4, 0x00000021#32)] [])
      (fun t => [t.reg 0#4, nzcv t, controlOf t, t.pc]) =
    some [0x00000000#32, 0b0100#32, 0xD3#32, 0x8004#32] := by
  decide

/-- V38 of 95_test_vectors.md: `movs r0, r1, ror r2`. -/
theorem test_V38_movShiftReg :
    ran 0xE1B00271#32
      (small 0x8000#32 0x000000D3#32 [(1#4, 0x80000001#32), (2#4, 0x00000021#32)] [])
      (fun t => [t.reg 0#4, nzcv t, controlOf t, t.pc]) =
    some [0xC0000000#32, 0b1010#32, 0xD3#32, 0x8004#32] := by
  decide

/-- V121 of 95_test_vectors.md: `bic r0, r0, #0x1F`. -/
theorem test_V121_bicImm :
    ran 0xE3C0001F#32
      (small 0x8000#32 0x000000D3#32 [(0#4, 0x600000D3#32)] [])
      (fun t => [t.reg 0#4, nzcv t, controlOf t, t.pc]) =
    some [0x600000C0#32, 0b0000#32, 0xD3#32, 0x8004#32] := by
  decide

/-- V122 of 95_test_vectors.md: `bics r0, r1, r2`. -/
theorem test_V122_bicShiftImm :
    ran 0xE1D10002#32
      (small 0x8000#32 0x200000D3#32 [(1#4, 0x0000FFFF#32), (2#4, 0x0000FFFF#32)] [])
      (fun t => [t.reg 0#4, nzcv t, controlOf t, t.pc]) =
    some [0x00000000#32, 0b0110#32, 0xD3#32, 0x8004#32] := by
  decide

/-- Worked out from R223: `bics r0, r1, r2, lsl r3`. -/
theorem test_bicShiftReg :
    ran 0xE1D10312#32
      (small 0x8000#32 0x300000D3#32 [(1#4, 0x000000FF#32), (2#4, 0x0000000F#32), (3#4, 0x00000004#32)] [])
      (fun t => [t.reg 0#4, nzcv t, controlOf t, t.pc]) =
    some [0x0000000F#32, 0b0001#32, 0xD3#32, 0x8004#32] := by
  decide

/-- V46 of 95_test_vectors.md: `mvns r1, #0xFF`. -/
theorem test_V46_mvnImm :
    ran 0xE3F010FF#32
      (small 0x8000#32 0x000000D3#32 [] [])
      (fun t => [t.reg 1#4, nzcv t, controlOf t, t.pc]) =
    some [0xFFFFFF00#32, 0b1000#32, 0xD3#32, 0x8004#32] := by
  decide

/-- V47 of 95_test_vectors.md: `mvn r0, r1, lsl #4`. -/
theorem test_V47_mvnShiftImm :
    ran 0xE1E00201#32
      (small 0x8000#32 0x000000D3#32 [(1#4, 0x0000000F#32)] [])
      (fun t => [t.reg 0#4, nzcv t, controlOf t, t.pc]) =
    some [0xFFFFFF0F#32, 0b0000#32, 0xD3#32, 0x8004#32] := by
  decide

/-- Worked out from R172: `mvns r0, r2, lsl r3`. -/
theorem test_mvnShiftReg :
    ran 0xE1F00312#32
      (small 0x8000#32 0x200000D3#32 [(2#4, 0x00000000#32), (3#4, 0x00000000#32)] [])
      (fun t => [t.reg 0#4, nzcv t, controlOf t, t.pc]) =
    some [0xFFFFFFFF#32, 0b1010#32, 0xD3#32, 0x8004#32] := by
  decide

/-- V60 of 95_test_vectors.md: `msr cpsr_c, r0`. -/
theorem test_V60_msrCpsrReg :
    ran 0xE121F000#32
      (small 0x8000#32 0x600000D3#32 [(0#4, 0x000000D2#32)] [])
      (fun t => [nzcv t, controlOf t, t.pc]) =
    some [0b0110#32, 0xD2#32, 0x8004#32] := by
  decide

/-- V61 of 95_test_vectors.md: `msr cpsr_c, r0`. -/
theorem test_V61_msrCpsrReg :
    ran 0xE121F000#32
      (small 0x8000#32 0x00000010#32 [(0#4, 0xF000001F#32)] [])
      (fun t => [nzcv t, controlOf t, t.pc]) =
    some [0b0000#32, 0x10#32, 0x8004#32] := by
  decide

/-- V68 of 95_test_vectors.md: `msr spsr_cxsf, r0`. -/
theorem test_V68_msrSpsrReg :
    ran 0xE16FF000#32
      ((small 0x8000#32 0x000000D3#32 [(0#4, 0x90000030#32)] []).setSpsr .svc (psrOf 0x00000000#32))
      (fun t => [savedWord t .svc, nzcv t, controlOf t, t.pc]) =
    some [0x90000030#32, 0b0000#32, 0xD3#32, 0x8004#32] := by
  decide

/-- V66 of 95_test_vectors.md: `msr cpsr_f, #0xF0000000`. -/
theorem test_V66_msrCpsrImm :
    ran 0xE328F20F#32
      (small 0x8000#32 0x000000D3#32 [] [])
      (fun t => [nzcv t, controlOf t, t.pc]) =
    some [0b1111#32, 0xD3#32, 0x8004#32] := by
  decide

/-- V69 of 95_test_vectors.md: `msr spsr_c, #0x1F`. -/
theorem test_V69_msrSpsrImm :
    ran 0xE361F01F#32
      ((small 0x8000#32 0x000000D7#32 [] []).setSpsr .abt (psrOf 0xF00000D3#32))
      (fun t => [savedWord t .abt, nzcv t, controlOf t, t.pc]) =
    some [0xF000001F#32, 0b0000#32, 0xD7#32, 0x8004#32] := by
  decide

/-- V97 of 95_test_vectors.md: `muls r0, r1, r2`. -/
theorem test_V97_mul :
    ran 0xE0100291#32
      (small 0x8000#32 0x100000D3#32 [(1#4, 0x00010000#32), (2#4, 0x00010000#32)] [])
      (fun t => [t.reg 0#4, flag t.cpsr.n, flag t.cpsr.z, flag t.cpsr.v, controlOf t, t.pc]) =
    some [0x00000000#32, 0#32, 1#32, 1#32, 0xD3#32, 0x8004#32] := by
  decide

/-- V101 of 95_test_vectors.md: `mla r0, r1, r2, r0`. -/
theorem test_V101_mla :
    ran 0xE0200291#32
      (small 0x8000#32 0x000000D3#32 [(0#4, 0xFFFFFFFF#32), (1#4, 0x00000002#32), (2#4, 0x00000001#32)] [])
      (fun t => [t.reg 0#4, nzcv t, controlOf t, t.pc]) =
    some [0x00000001#32, 0b0000#32, 0xD3#32, 0x8004#32] := by
  decide

/-- V104 of 95_test_vectors.md: `umulls r0, r1, r2, r3`. -/
theorem test_V104_umull :
    ran 0xE0910392#32
      (small 0x8000#32 0x000000D3#32 [(2#4, 0x80000000#32), (3#4, 0x00000002#32)] [])
      (fun t => [t.reg 0#4, t.reg 1#4, flag t.cpsr.n, flag t.cpsr.z, controlOf t, t.pc]) =
    some [0x00000000#32, 0x00000001#32, 0#32, 0#32, 0xD3#32, 0x8004#32] := by
  decide

/-- V105 of 95_test_vectors.md: `umlal r0, r1, r2, r3`. -/
theorem test_V105_umlal :
    ran 0xE0A10392#32
      (small 0x8000#32 0x000000D3#32 [(0#4, 0xFFFFFFFF#32), (1#4, 0xFFFFFFFF#32), (2#4, 0x00000001#32), (3#4,
        0x00000001#32)] [])
      (fun t => [t.reg 0#4, t.reg 1#4, nzcv t, controlOf t, t.pc]) =
    some [0x00000000#32, 0x00000000#32, 0b0000#32, 0xD3#32, 0x8004#32] := by
  decide

/-- V109 of 95_test_vectors.md: `smull r0, r1, r2, r3`. -/
theorem test_V109_smull :
    ran 0xE0C10392#32
      (small 0x8000#32 0x000000D3#32 [(2#4, 0x00000002#32), (3#4, 0xFFFFFFFD#32)] [])
      (fun t => [t.reg 0#4, t.reg 1#4, nzcv t, controlOf t, t.pc]) =
    some [0xFFFFFFFA#32, 0xFFFFFFFF#32, 0b0000#32, 0xD3#32, 0x8004#32] := by
  decide

/-- V113 of 95_test_vectors.md: `smlal r0, r1, r2, r3`. -/
theorem test_V113_smlal :
    ran 0xE0E10392#32
      (small 0x8000#32 0x000000D3#32 [(0#4, 0x00000000#32), (1#4, 0x00000000#32), (2#4, 0xFFFFFFFF#32), (3#4,
        0x00000001#32)] [])
      (fun t => [t.reg 0#4, t.reg 1#4, nzcv t, controlOf t, t.pc]) =
    some [0xFFFFFFFF#32, 0xFFFFFFFF#32, 0b0000#32, 0xD3#32, 0x8004#32] := by
  decide

/-- V140 of 95_test_vectors.md: `bx lr`. -/
theorem test_V140_bx :
    ran 0xE12FFF1E#32
      (small 0x8100#32 0x000000D3#32 [(14#4, 0x00008004#32)] [])
      (fun t => [nzcv t, controlOf t, t.pc]) =
    some [0b0000#32, 0xD3#32, 0x00008004#32] := by
  decide

/-- V142 of 95_test_vectors.md: `bx r0`. -/
theorem test_V142_bx :
    ran 0xE12FFF10#32
      (small 0x8000#32 0x000000D3#32 [(0#4, 0x00009001#32)] [])
      (fun t => [nzcv t, controlOf t, t.pc]) =
    some [0b0000#32, 0xF3#32, 0x00009000#32] := by
  decide

/-- V199 of 95_test_vectors.md: `swp r0, r0, [r2]`. -/
theorem test_V199_swp :
    ran 0xE1020090#32
      (small 0x8000#32 0x000000D3#32 [(0#4, 0xAAAAAAAA#32), (2#4, 0x00001000#32)] [(0x1000, 0x12345678#32)])
      (fun t => [t.reg 0#4, t.wordAt 0x1000, nzcv t, controlOf t, t.pc]) =
    some [0x12345678#32, 0xAAAAAAAA#32, 0b0000#32, 0xD3#32, 0x8004#32] := by
  decide

/-- V200 of 95_test_vectors.md: `swpb r0, r1, [r2]`. -/
theorem test_V200_swpb :
    ran 0xE1420091#32
      (small 0x8000#32 0x000000D3#32 [(1#4, 0xAAAAAABB#32), (2#4, 0x00001001#32)] [(0x1000, 0x12345678#32)])
      (fun t => [t.reg 0#4, t.wordAt 0x1000, nzcv t, controlOf t, t.pc]) =
    some [0x00000056#32, 0x1234BB78#32, 0b0000#32, 0xD3#32, 0x8004#32] := by
  decide

/-- V146 of 95_test_vectors.md: `ldr r0, [r1, #4]!`. -/
theorem test_V146_ldrPreImm :
    ran 0xE5B10004#32
      (small 0x8000#32 0x000000D3#32 [(1#4, 0x00001000#32)] [(0x1000, 0x12345678#32), (0x1004, 0x9ABCDEF0#32)])
      (fun t => [t.reg 0#4, t.reg 1#4, nzcv t, controlOf t, t.pc]) =
    some [0x9ABCDEF0#32, 0x00001004#32, 0b0000#32, 0xD3#32, 0x8004#32] := by
  decide

/-- V154 of 95_test_vectors.md: `ldr pc, [r1]`. -/
theorem test_V154_ldrPreImm :
    ran 0xE591F000#32
      (small 0x8000#32 0x000000D3#32 [(1#4, 0x00001008#32)] [(0x1000, 0x12345678#32), (0x1004, 0x9ABCDEF0#32),
        (0x1008, 0x8107#32)])
      (fun t => [nzcv t, controlOf t, t.pc]) =
    some [0b0000#32, 0xD3#32, 0x00008104#32] := by
  decide

/-- V153 of 95_test_vectors.md: `ldr pc, [sp], #4`. -/
theorem test_V153_ldrPostImm :
    ran 0xE49DF004#32
      (small 0x8000#32 0x000000D3#32 [(13#4, 0x00001008#32)] [(0x1000, 0x12345678#32), (0x1004, 0x9ABCDEF0#32),
        (0x1008, 0x8104#32)])
      (fun t => [t.reg 13#4, nzcv t, controlOf t, t.pc]) =
    some [0x0000100C#32, 0b0000#32, 0xD3#32, 0x00008104#32] := by
  decide

/-- V149 of 95_test_vectors.md: `ldr r0, [r1, -r2, lsl #2]!`. -/
theorem test_V149_ldrPreReg :
    ran 0xE7310102#32
      (small 0x8000#32 0x000000D3#32 [(1#4, 0x00001008#32), (2#4, 0x00000001#32)] [(0x1000, 0x12345678#32), (0x1004,
        0x9ABCDEF0#32)])
      (fun t => [t.reg 0#4, t.reg 1#4, nzcv t, controlOf t, t.pc]) =
    some [0x9ABCDEF0#32, 0x00001004#32, 0b0000#32, 0xD3#32, 0x8004#32] := by
  decide

/-- Worked out from R251: `ldr r0, [r1], r2, lsl #2`. -/
theorem test_ldrPostReg :
    ran 0xE6910102#32
      (small 0x8000#32 0x000000D3#32 [(1#4, 0x00001000#32), (2#4, 0x00000001#32)] [(0x1000, 0x12345678#32), (0x1004,
        0x9ABCDEF0#32)])
      (fun t => [t.reg 0#4, t.reg 1#4, nzcv t, controlOf t, t.pc]) =
    some [0x12345678#32, 0x00001004#32, 0b0000#32, 0xD3#32, 0x8004#32] := by
  decide

/-- V158 of 95_test_vectors.md: `ldrb r0, [r1, #7]`. -/
theorem test_V158_ldrbPreImm :
    ran 0xE5D10007#32
      (small 0x8000#32 0x000000D3#32 [(1#4, 0x00001000#32)] [(0x1000, 0x12345678#32), (0x1004, 0x9ABCDEF0#32)])
      (fun t => [t.reg 0#4, nzcv t, controlOf t, t.pc]) =
    some [0x0000009A#32, 0b0000#32, 0xD3#32, 0x8004#32] := by
  decide

/-- Worked out from R253: `ldrb r0, [r1], #-1`. -/
theorem test_ldrbPostImm :
    ran 0xE4510001#32
      (small 0x8000#32 0x000000D3#32 [(1#4, 0x00001007#32)] [(0x1000, 0x12345678#32), (0x1004, 0x9ABCDEF0#32)])
      (fun t => [t.reg 0#4, t.reg 1#4, nzcv t, controlOf t, t.pc]) =
    some [0x0000009A#32, 0x00001006#32, 0b0000#32, 0xD3#32, 0x8004#32] := by
  decide

/-- Worked out from R253: `ldrb r0, [r1, r2, lsr #1]!`. -/
theorem test_ldrbPreReg :
    ran 0xE7F100A2#32
      (small 0x8000#32 0x000000D3#32 [(1#4, 0x00001000#32), (2#4, 0x00000004#32)] [(0x1000, 0x12345678#32), (0x1004,
        0x9ABCDEF0#32)])
      (fun t => [t.reg 0#4, t.reg 1#4, nzcv t, controlOf t, t.pc]) =
    some [0x00000034#32, 0x00001002#32, 0b0000#32, 0xD3#32, 0x8004#32] := by
  decide

/-- Worked out from R253: `ldrb r0, [r1], -r2`. -/
theorem test_ldrbPostReg :
    ran 0xE6510002#32
      (small 0x8000#32 0x000000D3#32 [(1#4, 0x00001003#32), (2#4, 0x00000003#32)] [(0x1000, 0x12345678#32), (0x1004,
        0x9ABCDEF0#32)])
      (fun t => [t.reg 0#4, t.reg 1#4, nzcv t, controlOf t, t.pc]) =
    some [0x00000012#32, 0x00001000#32, 0b0000#32, 0xD3#32, 0x8004#32] := by
  decide

/-- V168 of 95_test_vectors.md: `str r0, [r1, #4]!`. -/
theorem test_V168_strPreImm :
    ran 0xE5A10004#32
      (small 0x8000#32 0x000000D3#32 [(0#4, 0xAABBCCDD#32), (1#4, 0x00001004#32)] [(0x1000, 0x12345678#32), (0x1004,
        0x9ABCDEF0#32)])
      (fun t => [t.reg 1#4, t.wordAt 0x1008, nzcv t, controlOf t, t.pc]) =
    some [0x00001008#32, 0xAABBCCDD#32, 0b0000#32, 0xD3#32, 0x8004#32] := by
  decide

/-- Worked out from R258: `str r0, [r1], #4`. -/
theorem test_strPostImm :
    ran 0xE4810004#32
      (small 0x8000#32 0x000000D3#32 [(0#4, 0xAABBCCDD#32), (1#4, 0x00001000#32)] [(0x1000, 0x12345678#32), (0x1004,
        0x9ABCDEF0#32)])
      (fun t => [t.reg 1#4, t.wordAt 0x1000, nzcv t, controlOf t, t.pc]) =
    some [0x00001004#32, 0xAABBCCDD#32, 0b0000#32, 0xD3#32, 0x8004#32] := by
  decide

/-- V169 of 95_test_vectors.md: `str r0, [r1, r2]`. -/
theorem test_V169_strPreReg :
    ran 0xE7810002#32
      (small 0x8000#32 0x000000D3#32 [(0#4, 0xAABBCCDD#32), (1#4, 0x00001000#32), (2#4, 0x00000008#32)] [(0x1000,
        0x12345678#32), (0x1004, 0x9ABCDEF0#32)])
      (fun t => [t.wordAt 0x1008, nzcv t, controlOf t, t.pc]) =
    some [0xAABBCCDD#32, 0b0000#32, 0xD3#32, 0x8004#32] := by
  decide

/-- Worked out from R258: `str r0, [r1], -r2, lsl #1`. -/
theorem test_strPostReg :
    ran 0xE6010082#32
      (small 0x8000#32 0x000000D3#32 [(0#4, 0xAABBCCDD#32), (1#4, 0x00001004#32), (2#4, 0x00000002#32)] [(0x1000,
        0x12345678#32), (0x1004, 0x9ABCDEF0#32)])
      (fun t => [t.reg 1#4, t.wordAt 0x1004, nzcv t, controlOf t, t.pc]) =
    some [0x00001000#32, 0xAABBCCDD#32, 0b0000#32, 0xD3#32, 0x8004#32] := by
  decide

/-- V171 of 95_test_vectors.md: `strb r0, [r1, #3]`. -/
theorem test_V171_strbPreImm :
    ran 0xE5C10003#32
      (small 0x8000#32 0x000000D3#32 [(0#4, 0xAABBCCDD#32), (1#4, 0x00001000#32)] [(0x1000, 0x12345678#32), (0x1004,
        0x9ABCDEF0#32)])
      (fun t => [t.wordAt 0x1000, nzcv t, controlOf t, t.pc]) =
    some [0xDD345678#32, 0b0000#32, 0xD3#32, 0x8004#32] := by
  decide

/-- Worked out from R260: `strb r0, [r1], #1`. -/
theorem test_strbPostImm :
    ran 0xE4C10001#32
      (small 0x8000#32 0x000000D3#32 [(0#4, 0xAABBCCDD#32), (1#4, 0x00001002#32)] [(0x1000, 0x12345678#32), (0x1004,
        0x9ABCDEF0#32)])
      (fun t => [t.reg 1#4, t.wordAt 0x1000, nzcv t, controlOf t, t.pc]) =
    some [0x00001003#32, 0x12DD5678#32, 0b0000#32, 0xD3#32, 0x8004#32] := by
  decide

/-- Worked out from R260: `strb r0, [r1, -r2]`. -/
theorem test_strbPreReg :
    ran 0xE7410002#32
      (small 0x8000#32 0x000000D3#32 [(0#4, 0xAABBCCDD#32), (1#4, 0x00001004#32), (2#4, 0x00000001#32)] [(0x1000,
        0x12345678#32), (0x1004, 0x9ABCDEF0#32)])
      (fun t => [t.reg 1#4, t.wordAt 0x1000, nzcv t, controlOf t, t.pc]) =
    some [0x00001004#32, 0xDD345678#32, 0b0000#32, 0xD3#32, 0x8004#32] := by
  decide

/-- Worked out from R260: `strb r0, [r1], r2`. -/
theorem test_strbPostReg :
    ran 0xE6C10002#32
      (small 0x8000#32 0x000000D3#32 [(0#4, 0xAABBCCDD#32), (1#4, 0x00001001#32), (2#4, 0x00000010#32)] [(0x1000,
        0x12345678#32), (0x1004, 0x9ABCDEF0#32)])
      (fun t => [t.reg 1#4, t.wordAt 0x1000, nzcv t, controlOf t, t.pc]) =
    some [0x00001011#32, 0x1234DD78#32, 0b0000#32, 0xD3#32, 0x8004#32] := by
  decide

/-- V156 of 95_test_vectors.md: `ldrt r0, [r1], #4`. -/
theorem test_V156_ldrtImm :
    ran 0xE4B10004#32
      (small 0x8000#32 0x000000D3#32 [(1#4, 0x00001000#32)] [(0x1000, 0x12345678#32), (0x1004, 0x9ABCDEF0#32)])
      (fun t => [t.reg 0#4, t.reg 1#4, nzcv t, controlOf t, t.pc]) =
    some [0x12345678#32, 0x00001004#32, 0b0000#32, 0xD3#32, 0x8004#32] := by
  decide

/-- Worked out from R252: `ldrt r0, [r1], r2`. -/
theorem test_ldrtReg :
    ran 0xE6B10002#32
      (small 0x8000#32 0x000000D3#32 [(1#4, 0x00001004#32), (2#4, 0x00000004#32)] [(0x1000, 0x12345678#32), (0x1004,
        0x9ABCDEF0#32)])
      (fun t => [t.reg 0#4, t.reg 1#4, nzcv t, controlOf t, t.pc]) =
    some [0x9ABCDEF0#32, 0x00001008#32, 0b0000#32, 0xD3#32, 0x8004#32] := by
  decide

/-- V159 of 95_test_vectors.md: `ldrbt r0, [r1], #1`. -/
theorem test_V159_ldrbtImm :
    ran 0xE4F10001#32
      (small 0x8000#32 0x000000D3#32 [(1#4, 0x00001003#32)] [(0x1000, 0x12345678#32), (0x1004, 0x9ABCDEF0#32)])
      (fun t => [t.reg 0#4, t.reg 1#4, nzcv t, controlOf t, t.pc]) =
    some [0x00000012#32, 0x00001004#32, 0b0000#32, 0xD3#32, 0x8004#32] := by
  decide

/-- Worked out from R255: `ldrbt r0, [r1], -r2`. -/
theorem test_ldrbtReg :
    ran 0xE6710002#32
      (small 0x8000#32 0x000000D3#32 [(1#4, 0x00001001#32), (2#4, 0x00000001#32)] [(0x1000, 0x12345678#32), (0x1004,
        0x9ABCDEF0#32)])
      (fun t => [t.reg 0#4, t.reg 1#4, nzcv t, controlOf t, t.pc]) =
    some [0x00000056#32, 0x00001000#32, 0b0000#32, 0xD3#32, 0x8004#32] := by
  decide

/-- V170 of 95_test_vectors.md: `strt r0, [r1], #4`. -/
theorem test_V170_strtImm :
    ran 0xE4A10004#32
      (small 0x8000#32 0x000000D3#32 [(0#4, 0xAABBCCDD#32), (1#4, 0x00001008#32)] [(0x1000, 0x12345678#32), (0x1004,
        0x9ABCDEF0#32)])
      (fun t => [t.reg 1#4, t.wordAt 0x1008, nzcv t, controlOf t, t.pc]) =
    some [0x0000100C#32, 0xAABBCCDD#32, 0b0000#32, 0xD3#32, 0x8004#32] := by
  decide

/-- Worked out from R259: `strt r0, [r1], r2`. -/
theorem test_strtReg :
    ran 0xE6A10002#32
      (small 0x8000#32 0x000000D3#32 [(0#4, 0xAABBCCDD#32), (1#4, 0x00001000#32), (2#4, 0x00000008#32)] [(0x1000,
        0x12345678#32), (0x1004, 0x9ABCDEF0#32)])
      (fun t => [t.reg 1#4, t.wordAt 0x1000, nzcv t, controlOf t, t.pc]) =
    some [0x00001008#32, 0xAABBCCDD#32, 0b0000#32, 0xD3#32, 0x8004#32] := by
  decide

/-- V172 of 95_test_vectors.md: `strbt r0, [r1], #1`. -/
theorem test_V172_strbtImm :
    ran 0xE4E10001#32
      (small 0x8000#32 0x000000D3#32 [(0#4, 0xAABBCCDD#32), (1#4, 0x00001000#32)] [(0x1000, 0x12345678#32), (0x1004,
        0x9ABCDEF0#32)])
      (fun t => [t.reg 1#4, t.wordAt 0x1000, nzcv t, controlOf t, t.pc]) =
    some [0x00001001#32, 0x123456DD#32, 0b0000#32, 0xD3#32, 0x8004#32] := by
  decide

/-- Worked out from R261: `strbt r0, [r1], -r2`. -/
theorem test_strbtReg :
    ran 0xE6610002#32
      (small 0x8000#32 0x000000D3#32 [(0#4, 0xAABBCCDD#32), (1#4, 0x00001003#32), (2#4, 0x00000003#32)] [(0x1000,
        0x12345678#32), (0x1004, 0x9ABCDEF0#32)])
      (fun t => [t.reg 1#4, t.wordAt 0x1000, nzcv t, controlOf t, t.pc]) =
    some [0x00001000#32, 0xDD345678#32, 0b0000#32, 0xD3#32, 0x8004#32] := by
  decide

/-- V163 of 95_test_vectors.md: `ldrh r0, [r1, #6]`. -/
theorem test_V163_ldrhPreImm :
    ran 0xE1D100B6#32
      (small 0x8000#32 0x000000D3#32 [(1#4, 0x00001000#32)] [(0x1000, 0x12345678#32), (0x1004, 0x9ABCDEF0#32)])
      (fun t => [t.reg 0#4, nzcv t, controlOf t, t.pc]) =
    some [0x00009ABC#32, 0b0000#32, 0xD3#32, 0x8004#32] := by
  decide

/-- Worked out from R256: `ldrh r0, [r1], #0x12`. -/
theorem test_ldrhPostImm :
    ran 0xE0D101B2#32
      (small 0x8000#32 0x000000D3#32 [(1#4, 0x00001006#32)] [(0x1000, 0x12345678#32), (0x1004, 0x9ABCDEF0#32)])
      (fun t => [t.reg 0#4, t.reg 1#4, nzcv t, controlOf t, t.pc]) =
    some [0x00009ABC#32, 0x00001018#32, 0b0000#32, 0xD3#32, 0x8004#32] := by
  decide

/-- Worked out from R256: `ldrh r0, [r1, -r2]!`. -/
theorem test_ldrhPreReg :
    ran 0xE13100B2#32
      (small 0x8000#32 0x000000D3#32 [(1#4, 0x00001006#32), (2#4, 0x00000004#32)] [(0x1000, 0x12345678#32), (0x1004,
        0x9ABCDEF0#32)])
      (fun t => [t.reg 0#4, t.reg 1#4, nzcv t, controlOf t, t.pc]) =
    some [0x00001234#32, 0x00001002#32, 0b0000#32, 0xD3#32, 0x8004#32] := by
  decide

/-- Worked out from R256: `ldrh r0, [r1], r2`. -/
theorem test_ldrhPostReg :
    ran 0xE09100B2#32
      (small 0x8000#32 0x000000D3#32 [(1#4, 0x00001000#32), (2#4, 0x00000002#32)] [(0x1000, 0x12345678#32), (0x1004,
        0x9ABCDEF0#32)])
      (fun t => [t.reg 0#4, t.reg 1#4, nzcv t, controlOf t, t.pc]) =
    some [0x00005678#32, 0x00001002#32, 0b0000#32, 0xD3#32, 0x8004#32] := by
  decide

/-- V160 of 95_test_vectors.md: `ldrsb r0, [r1, #-1]`. -/
theorem test_V160_ldrsbPreImm :
    ran 0xE15100D1#32
      (small 0x8000#32 0x000000D3#32 [(1#4, 0x00001008#32)] [(0x1000, 0x12345678#32), (0x1004, 0x9ABCDEF0#32)])
      (fun t => [t.reg 0#4, nzcv t, controlOf t, t.pc]) =
    some [0xFFFFFF9A#32, 0b0000#32, 0xD3#32, 0x8004#32] := by
  decide

/-- Worked out from R254: `ldrsb r0, [r1], #1`. -/
theorem test_ldrsbPostImm :
    ran 0xE0D100D1#32
      (small 0x8000#32 0x000000D3#32 [(1#4, 0x00001007#32)] [(0x1000, 0x12345678#32), (0x1004, 0x9ABCDEF0#32)])
      (fun t => [t.reg 0#4, t.reg 1#4, nzcv t, controlOf t, t.pc]) =
    some [0xFFFFFF9A#32, 0x00001008#32, 0b0000#32, 0xD3#32, 0x8004#32] := by
  decide

/-- Worked out from R254: `ldrsb r0, [r1, r2]`. -/
theorem test_ldrsbPreReg :
    ran 0xE19100D2#32
      (small 0x8000#32 0x000000D3#32 [(1#4, 0x00001000#32), (2#4, 0x00000006#32)] [(0x1000, 0x12345678#32), (0x1004,
        0x9ABCDEF0#32)])
      (fun t => [t.reg 0#4, t.reg 1#4, nzcv t, controlOf t, t.pc]) =
    some [0xFFFFFFBC#32, 0x00001000#32, 0b0000#32, 0xD3#32, 0x8004#32] := by
  decide

/-- Worked out from R254: `ldrsb r0, [r1], -r2`. -/
theorem test_ldrsbPostReg :
    ran 0xE01100D2#32
      (small 0x8000#32 0x000000D3#32 [(1#4, 0x00001003#32), (2#4, 0x00000001#32)] [(0x1000, 0x12345678#32), (0x1004,
        0x9ABCDEF0#32)])
      (fun t => [t.reg 0#4, t.reg 1#4, nzcv t, controlOf t, t.pc]) =
    some [0x00000012#32, 0x00001002#32, 0b0000#32, 0xD3#32, 0x8004#32] := by
  decide

/-- V165 of 95_test_vectors.md: `ldrsh r0, [r1, #2]`. -/
theorem test_V165_ldrshPreImm :
    ran 0xE1D100F2#32
      (small 0x8000#32 0x000000D3#32 [(1#4, 0x00001000#32)] [(0x1000, 0x12345678#32), (0x1004, 0x9ABCDEF0#32)])
      (fun t => [t.reg 0#4, nzcv t, controlOf t, t.pc]) =
    some [0x00001234#32, 0b0000#32, 0xD3#32, 0x8004#32] := by
  decide

/-- Worked out from R257: `ldrsh r0, [r1], #-2`. -/
theorem test_ldrshPostImm :
    ran 0xE05100F2#32
      (small 0x8000#32 0x000000D3#32 [(1#4, 0x00001004#32)] [(0x1000, 0x12345678#32), (0x1004, 0x9ABCDEF0#32)])
      (fun t => [t.reg 0#4, t.reg 1#4, nzcv t, controlOf t, t.pc]) =
    some [0xFFFFDEF0#32, 0x00001002#32, 0b0000#32, 0xD3#32, 0x8004#32] := by
  decide

/-- Worked out from R257: `ldrsh r0, [r1, r2]!`. -/
theorem test_ldrshPreReg :
    ran 0xE1B100F2#32
      (small 0x8000#32 0x000000D3#32 [(1#4, 0x00001000#32), (2#4, 0x00000002#32)] [(0x1000, 0x12345678#32), (0x1004,
        0x9ABCDEF0#32)])
      (fun t => [t.reg 0#4, t.reg 1#4, nzcv t, controlOf t, t.pc]) =
    some [0x00001234#32, 0x00001002#32, 0b0000#32, 0xD3#32, 0x8004#32] := by
  decide

/-- V164 of 95_test_vectors.md: `ldrsh r0, [r1], r2`. -/
theorem test_V164_ldrshPostReg :
    ran 0xE09100F2#32
      (small 0x8000#32 0x000000D3#32 [(1#4, 0x00001006#32), (2#4, 0x00000010#32)] [(0x1000, 0x12345678#32), (0x1004,
        0x9ABCDEF0#32)])
      (fun t => [t.reg 0#4, t.reg 1#4, nzcv t, controlOf t, t.pc]) =
    some [0xFFFF9ABC#32, 0x00001016#32, 0b0000#32, 0xD3#32, 0x8004#32] := by
  decide

/-- V173 of 95_test_vectors.md: `strh r0, [r1, #2]`. -/
theorem test_V173_strhPreImm :
    ran 0xE1C100B2#32
      (small 0x8000#32 0x000000D3#32 [(0#4, 0xAABBCCDD#32), (1#4, 0x00001000#32)] [(0x1000, 0x12345678#32), (0x1004,
        0x9ABCDEF0#32)])
      (fun t => [t.wordAt 0x1000, nzcv t, controlOf t, t.pc]) =
    some [0xCCDD5678#32, 0b0000#32, 0xD3#32, 0x8004#32] := by
  decide

/-- V174 of 95_test_vectors.md: `strh r0, [r1], #-2`. -/
theorem test_V174_strhPostImm :
    ran 0xE04100B2#32
      (small 0x8000#32 0x000000D3#32 [(0#4, 0x0000BEEF#32), (1#4, 0x00001002#32)] [(0x1000, 0x12345678#32), (0x1004,
        0x9ABCDEF0#32)])
      (fun t => [t.reg 1#4, t.wordAt 0x1000, nzcv t, controlOf t, t.pc]) =
    some [0x00001000#32, 0xBEEF5678#32, 0b0000#32, 0xD3#32, 0x8004#32] := by
  decide

/-- Worked out from R262: `strh r0, [r1, r2]`. -/
theorem test_strhPreReg :
    ran 0xE18100B2#32
      (small 0x8000#32 0x000000D3#32 [(0#4, 0xAABBCCDD#32), (1#4, 0x00001000#32), (2#4, 0x00000002#32)] [(0x1000,
        0x12345678#32), (0x1004, 0x9ABCDEF0#32)])
      (fun t => [t.reg 1#4, t.wordAt 0x1000, nzcv t, controlOf t, t.pc]) =
    some [0x00001000#32, 0xCCDD5678#32, 0b0000#32, 0xD3#32, 0x8004#32] := by
  decide

/-- Worked out from R262: `strh r0, [r1], -r2`. -/
theorem test_strhPostReg :
    ran 0xE00100B2#32
      (small 0x8000#32 0x000000D3#32 [(0#4, 0xAABBCCDD#32), (1#4, 0x00001002#32), (2#4, 0x00000002#32)] [(0x1000,
        0x12345678#32), (0x1004, 0x9ABCDEF0#32)])
      (fun t => [t.reg 1#4, t.wordAt 0x1000, nzcv t, controlOf t, t.pc]) =
    some [0x00001000#32, 0xCCDD5678#32, 0b0000#32, 0xD3#32, 0x8004#32] := by
  decide

/-- V179 of 95_test_vectors.md: `ldmdb r0, {r1, r2}`. -/
theorem test_V179_ldm :
    ran 0xE9100006#32
      (small 0x8000#32 0x000000D3#32 [(0#4, 0x00001008#32)] [(0x1000, 0x11111111#32), (0x1004, 0x22222222#32),
        (0x1008, 0x33333333#32), (0x100C, 0x44444444#32)])
      (fun t => [t.reg 1#4, t.reg 2#4, nzcv t, controlOf t, t.pc]) =
    some [0x11111111#32, 0x22222222#32, 0b0000#32, 0xD3#32, 0x8004#32] := by
  decide

/-- V184 of 95_test_vectors.md: `ldmfd sp!, {r4-r6, pc}`. -/
theorem test_V184_ldm :
    ran 0xE8BD8070#32
      (small 0x8000#32 0x000000D3#32 [(13#4, 0x00001000#32)] [(0x1000, 0x4#32), (0x1004, 0x5#32), (0x1008, 0x6#32),
        (0x100C, 0x8104#32)])
      (fun t => [t.reg 4#4, t.reg 5#4, t.reg 6#4, t.reg 13#4, nzcv t, controlOf t, t.pc]) =
    some [0x00000004#32, 0x00000005#32, 0x00000006#32, 0x00001010#32, 0b0000#32, 0xD3#32, 0x00008104#32] := by
  decide

/-- V185 of 95_test_vectors.md: `ldmia r0, {r13, r14}^`. -/
theorem test_V185_ldmUser :
    ran 0xE8D06000#32
      (small 0x8000#32 0x000000D3#32 [(0#4, 0x00001000#32), (13#4, 0xAAAA0000#32), (14#4, 0xBBBB0000#32)] [(0x1000,
        0x11111111#32), (0x1004, 0x22222222#32), (0x1008, 0x33333333#32), (0x100C, 0x44444444#32)])
      (fun t => [t.regIn .usr 13#4, t.regIn .usr 14#4, nzcv t, controlOf t, t.pc]) =
    some [0x11111111#32, 0x22222222#32, 0b0000#32, 0xD3#32, 0x8004#32] := by
  decide

/-- V187 of 95_test_vectors.md: `ldmfd sp!, {r0-r3, pc}^`. -/
theorem test_V187_ldmReturn :
    ran 0xE8FD800F#32
      ((small 0x8000#32 0x000000D2#32 [(13#4, 0x00001000#32)] [(0x1000, 0x1#32), (0x1004, 0x2#32), (0x1008, 0x3#32),
        (0x100C, 0x4#32), (0x1010, 0x8018#32)]).setSpsr .irq (psrOf 0x80000010#32))
      (fun t => [t.reg 0#4, t.reg 1#4, t.reg 2#4, t.reg 3#4, t.regIn .irq 13#4, nzcv t, controlOf t, t.pc]) =
    some [0x00000001#32, 0x00000002#32, 0x00000003#32, 0x00000004#32, 0x00001014#32, 0b1000#32, 0x10#32,
      0x00008018#32] := by
  decide

/-- V190 of 95_test_vectors.md: `stmda r0, {r1, r2}`. -/
theorem test_V190_stm :
    ran 0xE8000006#32
      (small 0x8000#32 0x000000D3#32 [(0#4, 0x00001008#32), (1#4, 0xAAAAAAAA#32), (2#4, 0xBBBBBBBB#32)] [(0x1000,
        0x11111111#32), (0x1004, 0x22222222#32), (0x1008, 0x33333333#32), (0x100C, 0x44444444#32)])
      (fun t => [t.wordAt 0x1004, t.wordAt 0x1008, nzcv t, controlOf t, t.pc]) =
    some [0xAAAAAAAA#32, 0xBBBBBBBB#32, 0b0000#32, 0xD3#32, 0x8004#32] := by
  decide

/-- V193 of 95_test_vectors.md: `stmia r0!, {r0, r1}`. -/
theorem test_V193_stm :
    ran 0xE8A00003#32
      (small 0x8000#32 0x000000D3#32 [(0#4, 0x00001000#32), (1#4, 0xBBBBBBBB#32)] [(0x1000, 0x11111111#32), (0x1004,
        0x22222222#32), (0x1008, 0x33333333#32), (0x100C, 0x44444444#32)])
      (fun t => [t.reg 0#4, t.wordAt 0x1000, t.wordAt 0x1004, nzcv t, controlOf t, t.pc]) =
    some [0x00001008#32, 0x00001000#32, 0xBBBBBBBB#32, 0b0000#32, 0xD3#32, 0x8004#32] := by
  decide

/-- V195 of 95_test_vectors.md: `stmia r0, {r13, r14}^`. -/
theorem test_V195_stmUser :
    ran 0xE8C06000#32
      (((small 0x8000#32 0x000000D3#32 [(0#4, 0x00001000#32), (13#4, 0xAAAA0000#32), (14#4, 0xBBBB0000#32)] [(0x1000,
        0x11111111#32), (0x1004, 0x22222222#32), (0x1008, 0x33333333#32), (0x100C,
        0x44444444#32)]).setRegIn .usr 13#4 (0x0000D000#32)).setRegIn .usr 14#4 (0x0000E000#32))
      (fun t => [t.wordAt 0x1000, t.wordAt 0x1004, nzcv t, controlOf t, t.pc]) =
    some [0x0000D000#32, 0x0000E000#32, 0b0000#32, 0xD3#32, 0x8004#32] := by
  decide

/-- V136 of 95_test_vectors.md: `bne 0x8008`. -/
theorem test_V136_b :
    ran 0x1AFFFFFC#32
      (small 0x8010#32 0x000000D3#32 [] [])
      (fun t => [nzcv t, controlOf t, t.pc]) =
    some [0b0000#32, 0xD3#32, 0x00008008#32] := by
  decide

/-- V137 of 95_test_vectors.md: `bne 0x8008`. -/
theorem test_V137_b :
    ran 0x1AFFFFFC#32
      (small 0x8010#32 0x400000D3#32 [] [])
      (fun t => [nzcv t, controlOf t, t.pc]) =
    some [0b0100#32, 0xD3#32, 0x8014#32] := by
  decide

/-- V139 of 95_test_vectors.md: `bl 0x7F00`. -/
theorem test_V139_bl :
    ran 0xEBFFFFBE#32
      (small 0x8000#32 0x00000010#32 [(14#4, 0x00000000#32)] [])
      (fun t => [t.reg 14#4, nzcv t, controlOf t, t.pc]) =
    some [0x00008004#32, 0b0000#32, 0x10#32, 0x00007F00#32] := by
  decide

/-- V7 of 95_test_vectors.md: `swihi 0x000001`. -/
theorem test_V7_swi :
    ran 0x8F000001#32
      (small 0x8000#32 0x600000D3#32 [] [])
      (fun t => [nzcv t, controlOf t, t.pc]) =
    some [0b0110#32, 0xD3#32, 0x8004#32] := by
  decide

/-- V203 of 95_test_vectors.md: `swi 0x123456`. -/
theorem test_V203_swi :
    ran 0xEF123456#32
      (small 0x8010#32 0x60000010#32 [] [])
      (fun t => [t.regIn .svc 14#4, savedWord t .svc, nzcv t, controlOf t, t.pc]) =
    some [0x00008014#32, 0x60000010#32, 0b0110#32, 0x93#32, 0x00000008#32] := by
  decide

/-- Worked out from R310: `nop`. -/
theorem test_nop :
    seen (exec (.nop .al) (small 0x8000#32 0xD3#32 [(0#4, 7#32)] [])) (fun t => [t.reg 0#4, t.pc]) =
      some [7#32, 0x8004#32] := by
  decide

/-- Worked out from R311: `ldr r0, label` with the label at 0x8008. -/
theorem test_ldrLabel :
    seen (exec (.ldrLabel .al true 0#4 0#12) (small 0x8000#32 0xD3#32 [] [(0x8008, 0xCAFEBABE#32)]))
      (fun t => [t.reg 0#4, t.pc]) = some [0xCAFEBABE#32, 0x8004#32] := by
  decide

/-- Worked out from R312: `ldr r0, =0xFFFFFF00`, a `mvn`. -/
theorem test_ldrConst :
    seen (exec (.ldrConst .al 0#4 0xFFFFFF00#32 true 0#12) (small 0x8000#32 0xD3#32 [] []))
      (fun t => [t.reg 0#4, t.pc]) = some [0xFFFFFF00#32, 0x8004#32] := by
  decide

/-- Worked out from R313: `adr r0, label` with the label at 0x7FF8. -/
theorem test_adr :
    seen (exec (.adr .al false 0#4 0#4 16#8) (small 0x8000#32 0xD3#32 [] [])) (fun t => [t.reg 0#4, t.pc]) =
      some [0x7FF8#32, 0x8004#32] := by
  decide

/-- Worked out from R314: `adrl r0, label` with the label at 0x8110. -/
theorem test_adrl :
    seen (exec (.adrl .al true 0#4 12#4 1#8 0#4 8#8) (small 0x8000#32 0xD3#32 [] [])) (fun t => [t.reg 0#4, t.pc]) =
      some [0x8110#32, 0x8008#32] := by
  decide


/-- V54 of 95_test_vectors.md: `mrs r0, cpsr` in User mode; bits 27..8 are a free value. -/
theorem test_V54_mrsCpsr :
    ∃ t, exec (.mrsCpsr .al 0#4) (small 0x8000#32 0x80000010#32 [] []) = .next t ∧
      (psrOf 0x80000010#32).shownBy (t.reg 0#4) :=
  ⟨_, rfl, Psr.word_shownBy _ _⟩

/-- V55 of 95_test_vectors.md: `mrs r1, spsr` in Interrupt mode. -/
theorem test_V55_mrsSpsr :
    ∃ t, exec (.mrsSpsr .al 1#4) ((small 0x8000#32 0xD2#32 [] []).setSpsr .irq (psrOf 0x80000010#32)) = .next t ∧
      (psrOf 0x80000010#32).shownBy (t.reg 1#4) :=
  ⟨_, rfl, Psr.word_shownBy _ _⟩

/-! ### The exceptions of a step (V205 to V210, V212) -/

/-- The default platform with aborts at the words 0x1000 and 0x9000. -/
def aborting (m : AbortModel) : Platform where
  mapped := [⟨0, 4294967296⟩]
  aborts := [⟨⟨0x1000, 4⟩, none, none, none⟩, ⟨⟨0x9000, 4⟩, none, some .fetch, none⟩]
  abortModel := m

/-- A User-mode state at 0x8014 with a sample of the request inputs. -/
def requested (cpsr : Word) (fiq irq : Bool) : State :=
  { small 0x8014#32 cpsr [] [] with requests := [⟨fiq, irq⟩] }

theorem test_V205_irq :
    seen (step (requested 0x20000010#32 false true))
      (fun t => [t.regIn .irq 14#4, savedWord t .irq, t.cpsr.saved.word 0#20, t.pc]) =
    some [0x8018#32, 0x20000010#32, 0x20000092#32, 0x18#32] := by
  decide

theorem test_V212_fiq :
    seen (step (requested 0x20000010#32 true true))
      (fun t => [t.regIn .fiq 14#4, savedWord t .fiq, t.cpsr.saved.word 0#20, t.pc]) =
    some [0x8018#32, 0x20000010#32, 0x200000D1#32, 0x1C#32] := by
  decide

theorem test_V207_masked :
    seen (step (requested 0x20000090#32 false true)) (fun t => [t.pc, t.cpsr.saved.word 0#20]) =
      some [0x8018#32, 0x20000090#32] := by
  decide

theorem test_V208_undefined :
    ran 0xE7F000F0#32 (small 0x8030#32 0xD3#32 [] [])
      (fun t => [t.regIn .und 14#4, savedWord t .und, t.cpsr.saved.word 0#20, t.pc]) =
    some [0x8034#32, 0xD3#32, 0xDB#32, 0x4#32] := by
  decide

theorem test_V209_dataAbort :
    ran 0xE5910000#32
      { small 0x8020#32 0xD3#32 [(0#4, 7#32), (1#4, 0x1000#32)] [] with platform := aborting .baseRestored }
      (fun t => [t.regIn .abt 14#4, savedWord t .abt, t.cpsr.saved.word 0#20, t.pc, t.reg 0#4, t.reg 1#4]) =
    some [0x8028#32, 0xD3#32, 0xD7#32, 0x10#32, 7#32, 0x1000#32] := by
  decide

theorem test_V210_prefetchAbort :
    seen (step { small 0x9000#32 0x10#32 [] [] with platform := aborting .baseRestored })
      (fun t => [t.regIn .abt 14#4, savedWord t .abt, t.cpsr.saved.word 0#20, t.pc]) =
    some [0x9004#32, 0x10#32, 0x97#32, 0xC#32] := by
  decide

/-- R39, R381 of the reset state: V211, the fixed values. -/
theorem test_V211_reset :
    State.reset.cpsr.saved.word 0#20 &&& 0xFF#32 = 0xD3#32 ∧ State.reset.pc = 0#32 := by
  decide

/-- R75: a stored-to instruction is not fetched. -/
theorem test_fetchModified :
    step { small 0x8000#32 0xD3#32 [] [] with written := [0x8003] } = .fault (.fetchModified 0x8000#32) := by
  rfl

/-- R324, V152: a misaligned word access is the model fault. -/
theorem test_V152_misaligned :
    exec (.ldrPreImm .al true false 1#4 0#4 0#12) (small 0x8000#32 0xD3#32 [(1#4, 0x1002#32)] []) =
      .fault (.misaligned 0x1002#32 4) := by
  rfl

/-- V186: a User-bank `ldm` in System mode is refused. -/
theorem test_V186_refused :
    exec (.ldmUser .al .ia false 0#4 0x6000#16) (small 0x8000#32 0xDF#32 [(0#4, 0x1000#32)] []) =
      .refused .userBankMode := by
  rfl

/-! ### Witnesses: the hypotheses of each statement can be met, clause by clause -/

/-- Supervisor mode, registers and memory for the witnesses. -/
def supervisor : State :=
  small 0x8000#32 0xD3#32 [(0#4, 7#32), (1#4, 0x1000#32), (2#4, 4#32), (3#4, 5#32)]
    [(0x1000, 0x12345678#32), (0x1004, 0x9ABCDEF0#32)]

/-- The same in User mode. -/
def user : State :=
  small 0x8000#32 0x10#32 [(0#4, 7#32), (1#4, 0x1000#32), (2#4, 4#32), (3#4, 5#32)]
    [(0x1000, 0x12345678#32), (0x1004, 0x9ABCDEF0#32)]

/-- The same at the last word of memory. -/
def atTop : State :=
  { supervisor with pc := 0xFFFFFFFC#32 }

/-- The same on a platform that aborts the word 0x1000. -/
def withAborts (m : AbortModel) : State :=
  { supervisor with platform := aborting m }

/-- The same on a platform where only the word 0x8000 and the word 0x1000 exist. -/
def mostlyUnmapped : State :=
  { supervisor with platform := ⟨[⟨0x8000, 4⟩, ⟨0x1000, 4⟩], [], .baseRestored⟩ }

/-- A step goes on. -/
def goesOn (o : Out) : Bool :=
  (seen o fun _ => []).isSome

theorem witness_DecodeAfterEncode :
    Instr.wf (.adrl .ne false 14#4 15#4 255#8 0#4 1#8) = true ∧ Instr.wf (.movShiftImm .al true 0#4 1#4 (.lsr 32)) = true ∧
      Instr.wf (.movShiftImm .al true 0#4 1#4 (.lsl 31)) = true ∧ Instr.wf (.movShiftImm .al true 0#4 1#4 (.ror 1)) = true ∧
      Instr.wf (.ldmReturn .al .ib true 0#4 0x8000#16) = true ∧ Instr.wf (.ldmUser .al .ib false 0#4 0x7FFF#16) = true := by
  decide

theorem witness_EncodeAfterDecode :
    decodeWord 0x00000000#32 = .instr (.andShiftImm .eq false 0#4 0#4 0#4 (.lsl 0)) ∧
      decodeWord 0xEFFFFFFF#32 = .instr (.swi .al 0xFFFFFF#24) := by
  decide

theorem witness_WordsThatAreNoInstruction :
    (field 0xE0400090#32 28 4 ≠ 15#4 ∧ field 0xE0400090#32 24 4 = 0b0000#4 ∧ field 0xE0400090#32 4 4 = 0b1001#4 ∧
      field 0xE0400090#32 22 2 = 0b01#2) ∧
    (field 0xE1200090#32 23 5 = 0b00010#5 ∧ field 0xE1200090#32 4 4 = 0b1001#4 ∧ field 0xE1200090#32 20 2 ≠ 0b00#2) ∧
    (field 0xE1000190#32 23 5 = 0b00010#5 ∧ field 0xE1000190#32 4 4 = 0b1001#4 ∧ field 0xE1000190#32 8 4 ≠ 0#4) ∧
    (field 0xE1200020#32 23 5 = 0b00010#5 ∧ (0xE1200020#32).getLsbD 20 = false ∧ (0xE1200020#32).getLsbD 7 = false ∧
      field 0xE1200020#32 4 4 ≠ 0#4 ∧ ¬(field 0xE1200020#32 4 4 = 1#4 ∧ field 0xE1200020#32 21 2 = 0b01#2)) ∧
    (field 0xE00000D0#32 25 3 = 0b000#3 ∧ (0xE00000D0#32).getLsbD 7 = true ∧ (0xE00000D0#32).getLsbD 4 = true ∧
      (0xE00000D0#32).getLsbD 6 = true ∧ (0xE00000D0#32).getLsbD 20 = false) ∧
    (field 0xE06000B0#32 25 3 = 0b000#3 ∧ (0xE06000B0#32).getLsbD 7 = true ∧ (0xE06000B0#32).getLsbD 4 = true ∧
      field 0xE06000B0#32 5 2 = 0b01#2 ∧ (0xE06000B0#32).getLsbD 24 = false ∧ (0xE06000B0#32).getLsbD 21 = true) ∧
    (field 0xE07000D0#32 25 3 = 0b000#3 ∧ (0xE07000D0#32).getLsbD 6 = true ∧ (0xE07000D0#32).getLsbD 20 = true ∧
      (0xE07000D0#32).getLsbD 24 = false ∧ (0xE07000D0#32).getLsbD 21 = true) := by
  decide

theorem witness_StepRunsDecodedInstruction :
    (supervisor.withFetchWord 32 0xE0810002).fetches ∧ (supervisor.withFetchWord 32 0xE0810002).fetchGranted ∧
      (supervisor.withFetchWord 32 0xE0810002).decoded = .instr (.addShiftImm .al false 0#4 1#4 2#4 (.lsl 0)) ∧
      hazard (.addShiftImm .al false 0#4 1#4 2#4 (.lsl 0)) (supervisor.withFetchWord 32 0xE0810002) = false := by
  unfold State.fetches State.fetchGranted
  decide

theorem witness_StepStops :
    ({ supervisor with cpsr := { supervisor.cpsr with t := true } } : State).cpsr.t = true ∧
    (({ mostlyUnmapped with pc := 0x8004#32 } : State).fetches ∧
      Platform.abortsAccess mostlyUnmapped.platform 0x8004 4 .fetch .privileged = false ∧
      Platform.maps mostlyUnmapped.platform 0x8004 4 = false) ∧
    (({ supervisor with written := [0x8003] } : State).fetches ∧
      Platform.abortsAccess supervisor.platform 0x8000 4 .fetch .privileged = false ∧
      Platform.maps supervisor.platform 0x8000 4 = true) ∧
    ((supervisor.withFetchWord 32 0xF1A00000).fetches ∧ (supervisor.withFetchWord 32 0xF1A00000).fetchGranted ∧
      (supervisor.withFetchWord 32 0xF1A00000).decoded = .refused .condNV) := by
  unfold State.fetches State.fetchGranted
  decide

theorem witness_InterruptEntry :
    ((requested 0x10#32 true true).cpsr.t = false ∧ (requested 0x10#32 true true).request.fiq = true ∧
      (requested 0x10#32 true true).cpsr.f = false) ∧
    ((requested 0x50#32 true true).cpsr.t = false ∧
      ((requested 0x50#32 true true).request.fiq = true → (requested 0x50#32 true true).cpsr.f = true) ∧
      (requested 0x50#32 true true).request.irq = true ∧ (requested 0x50#32 true true).cpsr.i = false) := by
  decide

theorem witness_FetchedExceptions :
    (({ withAborts .baseRestored with pc := 0x9000#32 } : State).fetches ∧
      Platform.abortsAccess (withAborts .baseRestored).platform 0x9000 4 .fetch .privileged = true) ∧
    ((supervisor.withFetchWord 32 0xE7F000F0).fetches ∧ (supervisor.withFetchWord 32 0xE7F000F0).fetchGranted ∧
      (supervisor.withFetchWord 32 0xE7F000F0).decoded = .undefined .al ∧ Cond.passes .al supervisor.cpsr = true) ∧
    ((supervisor.withFetchWord 32 0x07F000F0).fetches ∧ (supervisor.withFetchWord 32 0x07F000F0).fetchGranted ∧
      (supervisor.withFetchWord 32 0x07F000F0).decoded = .undefined .eq ∧ Cond.passes .eq supervisor.cpsr = false ∧
      supervisor.pc ≠ 0xFFFFFFFC#32) := by
  unfold State.fetches State.fetchGranted
  decide

/-- Every exception but Reset meets the premise of the R14 and SPSR clause. -/
theorem witness_EntrySequence : Exc.swi ≠ .reset ∧ Exc.fiq ≠ .reset := by
  decide

theorem witness_ExceptionReturn :
    Exc.irq ≠ .reset ∧ (0x8018#32 - (4#8).setWidth 32) &&& 3#32 = 0#32 ∧ 0x8018#32 &&& 3#32 = 0#32 := by
  decide

theorem witness_UserLdmHazard :
    (supervisor.afterUserLdm = false ∧ goesOn (exec (.ldmUser .al .ia false 1#4 0x6000#16) supervisor) = true ∧
      goesOn (exec (.addShiftImm .al false 0#4 1#4 2#4 (.lsl 0)) supervisor) = true) ∧
    (({ supervisor.withFetchWord 32 0xE1A0000D with afterUserLdm := true } : State).fetches ∧
      ({ supervisor.withFetchWord 32 0xE1A0000D with afterUserLdm := true } : State).fetchGranted ∧
      (supervisor.withFetchWord 32 0xE1A0000D).decoded = .instr (.movShiftImm .al false 0#4 13#4 (.lsl 0)) ∧
      13#4 ∈ operandRegs (.movShiftImm .al false 0#4 13#4 (.lsl 0))) ∧
    ((small 0x8000#32 0xD1#32 [] []).cpsr.mode = .fiq ∧ 8#4 ≤ (8#4 : Reg) ∧ (12#4 : Reg) ≤ 12#4 ∧
      8#4 ∈ operandRegs (.movShiftImm .al false 0#4 8#4 (.lsl 0)) ∧
      12#4 ∈ operandRegs (.movShiftImm .al false 12#4 0#4 (.lsl 0))) := by
  unfold State.fetches State.fetchGranted
  decide

theorem witness_EveryStepKeepsInv : State.reset.Inv ∧ goesOn (step State.reset) = true :=
  ⟨⟨by decide, by decide, by decide, fun _ => by decide⟩, by decide⟩

theorem witness_EnvironmentKept : goesOn (step (requested 0x10#32 true true)) = true := by
  decide

theorem witness_UserModeIsLeftByExceptionOnly :
    user.cpsr.mode = .usr ∧ goesOn (step (user.withFetchWord 32 0xEF000000)) = true ∧
      goesOn (step (user.withFetchWord 32 0xE0810002)) = true := by
  decide

theorem witness_UserModeLeavesPrivilegedState :
    user.cpsr.mode = .usr ∧ goesOn (step (user.withFetchWord 32 0xE129F000)) = true ∧
      (∀ r : Reg, phys .usr r ≠ some .r13Svc) := by
  decide

theorem witness_ChangedBytesAreRecorded :
    Memory.wf (supervisor.withFetchWord 32 0xE5810000).mem = true ∧
      seen (step (supervisor.withFetchWord 32 0xE5810000)) (fun t => [(t.byteAt 0x1000).setWidth 32]) = some [7#32] ∧
      supervisor.byteAt 0x1000 = 0x78#8 := by
  decide

theorem witness_RegisterFrame :
    goesOn (exec (.ldrPreImm .al true true 1#4 0#4 4#12) supervisor) = true ∧
      PhysReg.r3 ∉ mayWrite (.ldrPreImm .al true true 1#4 0#4 4#12) supervisor.cpsr.mode := by
  decide

theorem witness_StatusFrame :
    goesOn (exec (.strPreImm .al true true 1#4 0#4 4#12) supervisor) = true ∧
      writesFlags (.strPreImm .al true true 1#4 0#4 4#12) = false ∧
      writesOverflow (.andImm .al true 0#4 1#4 0#4 1#8) = false ∧
      writesControl (.andImm .al true 0#4 1#4 0#4 1#8) = false ∧
      Mode.svc ∉ mayWriteSpsr (.strPreImm .al true true 1#4 0#4 4#12) .svc := by
  decide

theorem witness_MemoryFrame :
    Memory.wf supervisor.mem = true ∧ goesOn (exec (.strPreImm .al true true 1#4 0#4 4#12) supervisor) = true ∧
      (∀ p ∈ storesOf (.strPreImm .al true true 1#4 0#4 4#12) supervisor, 0x1003 < p.1.toNat ∨ p.1.toNat + p.2 ≤ 0x1003) ∧
      (∀ p ∈ storesOf (.strPreImm .al true true 1#4 0#4 4#12) supervisor, 0x1008 < p.1.toNat ∨ p.1.toNat + p.2 ≤ 0x1008) := by
  decide

theorem witness_RegisterBanks :
    (Mode.irq ≠ .fiq ∧ (12#4 : Reg).toNat < 13) ∧ phys supervisor.cpsr.mode 14#4 = some .r14Svc ∧
      Mode.hasSpsr .und = true := by
  decide

theorem witness_ConditionFailed :
    (Instr.expand (.swi .eq 0#24)).length = 1 ∧ Cond.passes .eq supervisor.cpsr = false ∧
      supervisor.pc ≠ 0xFFFFFFFC#32 ∧ supervisor.pc ≠ 0xFFFFFFF8#32 ∧ atTop.pc = 0xFFFFFFFC#32 ∧
      Cond.passes .eq atTop.cpsr = false := by
  decide

/-- The shift amounts at the ends of their ranges, as R136 to R142 give them for 0x80000003. -/
theorem witness_ShiftByImmediate :
    let s := small 0x8000#32 0xD3#32 [(1#4, 0x80000003#32)] []
    shifter (.shiftImm 1#4 (.lsl 31)) s = (0x80000000#32, true) ∧
      shifter (.shiftImm 1#4 (.lsr 32)) s = (0#32, true) ∧
      shifter (.shiftImm 1#4 (.asr 32)) s = (0xFFFFFFFF#32, true) ∧
      shifter (.shiftImm 1#4 (.ror 31)) s = (0x00000007#32, false) := by
  decide

/-- Register amounts at the ends of the clauses: 0, 31, 32, 33, 64 and 256. -/
theorem witness_ShiftByRegister :
    let s := fun n : Word => small 0x8000#32 0xD3#32 [(1#4, 0x80000003#32), (2#4, n)] []
    shifter (.shiftReg 1#4 .lsl 2#4) (s 256#32) = (0x80000003#32, false) ∧
      shifter (.shiftReg 1#4 .lsl 2#4) (s 32#32) = (0#32, true) ∧
      shifter (.shiftReg 1#4 .lsr 2#4) (s 33#32) = (0#32, false) ∧
      shifter (.shiftReg 1#4 .asr 2#4) (s 31#32) = (0xFFFFFFFF#32, false) ∧
      shifter (.shiftReg 1#4 .asr 2#4) (s 255#32) = (0xFFFFFFFF#32, true) ∧
      shifter (.shiftReg 1#4 .ror 2#4) (s 64#32) = (0x80000003#32, true) ∧
      shifter (.shiftReg 1#4 .ror 2#4) (s 33#32) = (0xC0000001#32, true) := by
  decide

theorem witness_ImmediateOperand :
    immPair? 0xFF000000#32 = some (4#4, 0xFF#8) ∧ immPair? 0x102#32 = none ∧
      shifter (.imm 0#4 0xFF#8) supervisor = (0xFF#32, false) ∧
      shifter (.imm 15#4 0xFF#8) supervisor = (0x3FC#32, false) ∧
      shifter (.imm 4#4 0xFF#8) supervisor = (0xFF000000#32, true) := by
  decide

theorem witness_ShiftOperandR15 :
    Cond.passes .al supervisor.cpsr = true ∧ (15#4 : Reg) ∈ [0#4, 1#4, 2#4, (15#4 : Reg)] := by
  decide

/-- The cases of `DpWrites`: below R15, R15 without and with `s`, with and without an SPSR, a legal and an illegal mode. -/
theorem witness_LogicalResults :
    Cond.passes .al supervisor.cpsr = true ∧ supervisor.pc ≠ 0xFFFFFFFC#32 ∧ atTop.pc = 0xFFFFFFFC#32 ∧
      user.spsr? user.cpsr.mode = none ∧
      (supervisor.setSpsr .svc (psrOf 0x10#32)).spsr? .svc = some (psrOf 0x10#32) ∧
      (psrOf 0x10#32).restored = some (cpsrOf 0x10#32) ∧ (psrOf 0x30#32).restored = some (cpsrOf 0x30#32) ∧
      (psrOf 0x14#32).restored = none := by
  decide

/-- The same states serve the sums. -/
theorem witness_AddResults : Cond.passes .al supervisor.cpsr = true ∧ supervisor.pc ≠ 0xFFFFFFFC#32 := by
  decide

/-- The same states serve the differences. -/
theorem witness_SubtractResults : Cond.passes .al supervisor.cpsr = true ∧ supervisor.pc ≠ 0xFFFFFFFC#32 := by
  decide

theorem witness_CompareConditions :
    supervisor.runs .al ∧ supervisor.runs .ne ∧ (15#4 : Reg) ∉ [14#4, 0#4, (14#4 : Reg)] := by
  unfold State.runs
  decide

theorem witness_MrsResults :
    supervisor.runs .al ∧ (0#4 : Reg) ≠ 15#4 ∧ supervisor.spsr? supervisor.cpsr.mode = some Psr.atReset := by
  unfold State.runs
  decide

/-- The cases of `MsrWritesCpsr` and `MsrWritesSpsr`. -/
theorem witness_MsrResults :
    supervisor.runs .al ∧ user.runs .al ∧ supervisor.cpsr.mode ≠ .usr ∧ user.cpsr.mode = .usr ∧
      (0x30#32).getLsbD 5 = true ∧ (0x10#32).getLsbD 5 = false ∧ Mode.bits .usr = (0x10#32).extractLsb' 0 5 ∧
      (∀ m ∈ [Mode.usr, .fiq, .irq, .svc, .abt, .und, .sys], m.bits ≠ (0x14#32).extractLsb' 0 5) ∧
      user.spsr? user.cpsr.mode = none ∧ supervisor.spsr? supervisor.cpsr.mode = some Psr.atReset := by
  unfold State.runs
  decide

theorem witness_StatusRegisterStops :
    Cond.passes .al supervisor.cpsr = true ∧ user.spsr? user.cpsr.mode = none ∧
      supervisor.spsr? supervisor.cpsr.mode ≠ none := by
  decide

theorem witness_MultiplyResults :
    supervisor.runs .al ∧ (15#4 : Reg) ∉ [0#4, 1#4, (1#4 : Reg)] ∧ (15#4 : Reg) ∉ [0#4, 1#4, 1#4, (0#4 : Reg)] ∧
      (0#4 : Reg) ≠ 1#4 := by
  unfold State.runs
  decide

theorem witness_LongMultiplyResults :
    supervisor.runs .al ∧ (15#4 : Reg) ∉ [0#4, 1#4, 2#4, (2#4 : Reg)] ∧ (1#4 : Reg) ≠ 0#4 ∧ (1#4 : Reg) ≠ 2#4 ∧
      (0#4 : Reg) ≠ 2#4 := by
  unfold State.runs
  decide

theorem witness_MultiplyStops :
    Cond.passes .al supervisor.cpsr = true ∧ (15#4 : Reg) ∈ [15#4, 1#4, (2#4 : Reg)] ∧
      (15#4 : Reg) ∉ [1#4, 1#4, (2#4 : Reg)] := by
  decide

theorem witness_BranchResults : Cond.passes .al supervisor.cpsr = true ∧ Cond.passes .al atTop.cpsr = true := by
  decide

/-- Targets of `bx` for the three clauses: odd, a multiple of 4, and neither. -/
theorem witness_BranchExchangeResults :
    (supervisor.reg 3#4).toNat % 2 = 1 ∧ (supervisor.reg 1#4).toNat % 4 = 0 ∧
      ((small 0x8000#32 0xD3#32 [(1#4, 0xFFFFFFFE#32)] []).reg 1#4).toNat % 4 = 2 := by
  decide

theorem witness_SoftwareInterrupt : Cond.passes .al user.cpsr = true ∧ Cond.passes .ne supervisor.cpsr = true := by
  decide

/-- The cases of an access: misaligned, aborting, unmapped, and going through, up to the last byte of memory. -/
theorem witness_MemoryAccess :
    (0xFFFFFFFF#32).toNat % 2 ≠ 0 ∧ (0xFFFFFFFE#32).toNat % 4 ≠ 0 ∧ (0xFFFFFFFC#32).toNat % 4 = 0 ∧
      Platform.abortsAccess (aborting .baseRestored) 0x1000 4 .read .user = true ∧
      Platform.abortsAccess (aborting .baseRestored) 0x1004 4 .write .user = false ∧
      Platform.mapsByte mostlyUnmapped.platform 0x1004 = false ∧
      (∀ k, k < 4 → Platform.mapsByte supervisor.platform (0xFFFFFFFC + k) = true) ∧ Memory.wf supervisor.mem = true := by
  decide

theorem witness_MixedWidthView :
    Memory.wf supervisor.mem = true ∧
      supervisor.writeMem 0x1000#32 4 0xAABBCCDD#32 .user = .ok (supervisor.stored 0x1000#32 4 0xAABBCCDD#32) ∧
      (supervisor.stored 0x1000#32 4 0xAABBCCDD#32).readMem (0x1000#32 + BitVec.ofNat 32 3) 1 .user = .ok 0xAA#32 ∧
      (supervisor.stored 0x1000#32 4 0xAABBCCDD#32).readMem (0x1000#32 + BitVec.ofNat 32 2) 2 .user = .ok 0xAABB#32 :=
  ⟨by decide, rfl, rfl, rfl⟩

/-- A pre-indexed word load for the transfer statements. -/
def load : Instr :=
  .ldrPreImm .al true true 1#4 0#4 4#12

/-- Its row. -/
def loadRow : Transfer :=
  ⟨true, 4, false, false, true, .pre, true, 1#4, 0#4, .imm 4#32⟩

theorem load_allowed : loadRow.allowed :=
  ⟨fun _ _ h => (by cases h), fun _ => ⟨by decide, by decide⟩⟩

theorem witness_LoadResults :
    transferOf load = some loadRow ∧ loadRow.load = true ∧ loadRow.allowed ∧ supervisor.runs (condOf load) ∧
      loadRow.rd ≠ 15#4 ∧
      supervisor.grants (loadRow.address supervisor) loadRow.width .read (loadRow.privilege supervisor) := by
  refine ⟨by decide, by decide, load_allowed, ?_⟩
  unfold State.runs State.grants
  decide

/-- `ldr pc, [r1, #4]!` and `str pc, [r1, #4]!`. -/
theorem witness_LoadResults_pc :
    transferOf (.ldrPreImm .al true true 1#4 15#4 4#12) = some { loadRow with rd := 15#4 } ∧
      Transfer.allowed { loadRow with rd := 15#4 } ∧ Transfer.allowed { loadRow with load := false, rd := 15#4 } ∧
      transferOf (.strPreImm .al true true 1#4 15#4 4#12) = some { loadRow with load := false, rd := 15#4 } ∧
      supervisor.grants (Transfer.address { loadRow with rd := 15#4 } supervisor) 4 .read .privileged := by
  refine ⟨by decide, ⟨fun _ _ h => (by cases h), fun _ => ⟨by decide, by decide⟩⟩,
    ⟨fun _ _ h => (by cases h), fun _ => ⟨by decide, by decide⟩⟩, by decide, ?_⟩
  unfold State.grants
  decide

theorem witness_StoreResults :
    transferOf (.strPreImm .al true true 1#4 0#4 4#12) = some { loadRow with load := false } ∧
      Transfer.allowed { loadRow with load := false } ∧ supervisor.runs .al ∧
      supervisor.grants (loadRow.address supervisor) 4 .write .privileged := by
  refine ⟨by decide, ⟨fun _ _ h => (by cases h), fun _ => ⟨by decide, by decide⟩⟩, ?_⟩
  unfold State.runs State.grants
  decide

/-- The forms of R150: a plain offset from R15, R15 as a written base, as an offset register, `Rm = Rn`, `Rd = Rn`, and
`ldrb` of R15. -/
theorem witness_TransferStops :
    (transferOf (.ldrPreImm .al true false 15#4 0#4 4#12)).map Transfer.idx = some .offset ∧
      (transferOf (.ldrPreImm .al true true 15#4 0#4 4#12)).map Transfer.rn = some 15#4 ∧
      (transferOf (.ldrPreReg .al true false 1#4 0#4 15#4 (.lsl 0))).map Transfer.off = some (.reg 15#4 (.lsl 0)) ∧
      (transferOf (.ldrPostReg .al true 1#4 0#4 1#4 (.lsl 0))).map Transfer.off = some (.reg 1#4 (.lsl 0)) ∧
      (transferOf (.ldrPostImm .al true 1#4 1#4 4#12)).map Transfer.rd = some 1#4 ∧
      (transferOf (.ldrbPreImm .al true false 1#4 15#4 4#12)).map Transfer.pcOk = some false ∧
      Cond.passes .al supervisor.cpsr = true := by
  decide

/-- The load at 0x1000 that aborts, under both abort models. -/
theorem witness_TransferAborts :
    transferOf (.ldrPostImm .al true 1#4 0#4 4#12) = some { loadRow with idx := .post } ∧
      Transfer.allowed { loadRow with idx := .post } ∧
      Platform.abortsAccess (withAborts .baseUpdated).platform
        (Transfer.address { loadRow with idx := .post } (withAborts .baseUpdated)).toNat 4 .read .privileged = true ∧
      (withAborts .baseUpdated).platform.abortModel = .baseUpdated ∧
      (withAborts .baseRestored).platform.abortModel ≠ .baseUpdated := by
  refine ⟨by decide, ⟨fun _ _ h => (by cases h), fun _ => ⟨by decide, by decide⟩⟩, ?_⟩
  decide

theorem witness_AccessFaults :
    (loadRow.address (small 0x8000#32 0xD3#32 [(1#4, 0x1001#32)] [])).toNat % 4 ≠ 0 ∧
      Platform.abortsAccess mostlyUnmapped.platform (loadRow.address mostlyUnmapped).toNat 4 .read .privileged = false ∧
      Platform.maps mostlyUnmapped.platform (loadRow.address mostlyUnmapped).toNat 4 = false ∧
      (15#4 : Reg) ∉ [0#4, 2#4, (1#4 : Reg)] ∧
      ((small 0x8000#32 0xD3#32 [(1#4, 0x1002#32)] []).reg 1#4).toNat % 4 ≠ 0 := by
  decide

/-- The block of `stm` and `ldm` at the word 0x1000 runs from there into a hole: at its first access and at its second. -/
theorem witness_AccessFaults_block :
    (mostlyUnmapped.cpsr.mode.hasSpsr = true ∧ blockAllowed .ia 1#4 0x000C#16 mostlyUnmapped ∧
      blockUnmappedAt .ia 1#4 0x000C#16 mostlyUnmapped .read 1 ∧
      blockUnmappedAt .ia 1#4 0x000C#16 mostlyUnmapped .write 1 ∧ (0x000C#16).getLsbD 1 = false) ∧
    (blockAllowed .ib 1#4 0x8006#16 mostlyUnmapped ∧ blockUnmappedAt .ib 1#4 0x8006#16 mostlyUnmapped .read 0 ∧
      blockUnmappedAt .ib 1#4 0x8006#16 mostlyUnmapped .write 0 ∧ listed 0x8006#16 0 1#4) := by
  unfold blockAllowed blockUnmappedAt State.grants listed
  decide

/-- A hole under a word-wide and under a byte-wide swap. -/
theorem witness_AccessFaults_swap :
    let s := { mostlyUnmapped with platform := ⟨[⟨0x8000, 4⟩], [], .baseRestored⟩ }
    (15#4 : Reg) ∉ [0#4, 2#4, (1#4 : Reg)] ∧ (1#4 : Reg) ≠ 2#4 ∧ (1#4 : Reg) ≠ 0#4 ∧
      (s.reg 1#4).toNat % 4 = 0 ∧ Platform.abortsAccess s.platform (s.reg 1#4).toNat 4 .read s.privilege = false ∧
      Platform.maps s.platform (s.reg 1#4).toNat 4 = false ∧ Platform.maps s.platform (s.reg 1#4).toNat 1 = false := by
  decide

theorem witness_SwapResults :
    supervisor.runs .al ∧ (15#4 : Reg) ∉ [0#4, 0#4, (1#4 : Reg)] ∧ (1#4 : Reg) ≠ 0#4 ∧
      supervisor.grants (supervisor.reg 1#4) 4 .read supervisor.privilege ∧
      supervisor.grants (supervisor.reg 1#4) 4 .write supervisor.privilege ∧
      supervisor.grants (supervisor.reg 1#4) 1 .read supervisor.privilege := by
  unfold State.runs State.grants
  decide

/-- A platform that aborts only the write of the swap. -/
theorem witness_SwapStops :
    Cond.passes .al supervisor.cpsr = true ∧ (15#4 : Reg) ∈ [0#4, 15#4, (1#4 : Reg)] ∧
      (15#4 : Reg) ∉ [0#4, 1#4, (1#4 : Reg)] ∧
      Platform.abortsAccess (withAborts .baseRestored).platform 0x1000 4 .read .privileged = true ∧
      ({ supervisor with platform := ⟨[⟨0, 4294967296⟩], [⟨⟨0x1000, 4⟩, none, some .write, none⟩], .baseRestored⟩ } :
        State).grants (supervisor.reg 1#4) 4 .read .privileged := by
  unfold State.grants
  decide

theorem witness_BlockAddresses :
    regsOf 0x8001#16 = [0#4, 15#4] ∧ blockAddress .db 1#4 0x8001#16 supervisor 1 = 0xFFC#32 ∧
      blockBase .ib 0x1000#32 2 = 0x1008#32 := by
  decide

theorem witness_LoadMultipleResults :
    blockAllowed .ia 1#4 0x0005#16 supervisor ∧ blockGranted .ia 1#4 0x0005#16 supervisor .read ∧
      (0x0005#16).getLsbD 1 = false ∧ blockAllowed .ia 1#4 0x8001#16 supervisor ∧
      blockGranted .ia 1#4 0x8001#16 supervisor .read ∧ supervisor.pc ≠ 0xFFFFFFFC#32 := by
  unfold blockAllowed blockGranted State.grants
  decide

theorem witness_LoadUserRegistersResults :
    supervisor.runs .al ∧ supervisor.cpsr.mode.hasSpsr = true ∧ (0x6000#16).getLsbD 15 = false ∧
      blockAllowed .ia 1#4 0x6000#16 supervisor ∧ blockGranted .ia 1#4 0x6000#16 supervisor .read := by
  unfold State.runs blockAllowed blockGranted State.grants
  decide

theorem witness_LoadReturnResults :
    supervisor.spsr? supervisor.cpsr.mode = some Psr.atReset ∧ Psr.atReset.restored = some (cpsrOf 0xD3#32) ∧
      (0x8001#16).getLsbD 15 = true ∧ blockAllowed .ia 1#4 0x8001#16 supervisor ∧
      blockGranted .ia 1#4 0x8001#16 supervisor .read := by
  unfold blockAllowed blockGranted State.grants
  decide

theorem witness_StoreMultipleResults :
    supervisor.runs .al ∧ blockAllowed .ib 1#4 0x8006#16 supervisor ∧
      blockGranted .ib 1#4 0x8006#16 supervisor .write ∧ Memory.wf supervisor.mem = true ∧ listed 0x8006#16 0 1#4 ∧
      supervisor.cpsr.mode.hasSpsr = true := by
  unfold State.runs blockAllowed blockGranted State.grants listed
  decide

/-- The ends of a block of three words above 0x1000, at both sides. -/
theorem witness_StoreMultipleResults_inBlock :
    inBlock .ib 1#4 0x8006#16 supervisor 0x1004 ∧ inBlock .ib 1#4 0x8006#16 supervisor 0x100F ∧
      ¬inBlock .ib 1#4 0x8006#16 supervisor 0x1003 ∧ ¬inBlock .ib 1#4 0x8006#16 supervisor 0x1010 := by
  unfold inBlock
  decide

theorem witness_BlockStops :
    ¬blockAllowed .ia 1#4 0#16 supervisor ∧ ¬blockAllowed .ia 15#4 1#16 supervisor ∧
      ¬blockAllowed .ia 1#4 3#16 (small 0x8000#32 0xD3#32 [(1#4, 0xFFFFFFFC#32)] []) ∧
      (0x0003#16).getLsbD 1 = true ∧ ¬listed 0x0003#16 0 1#4 ∧ user.cpsr.mode = .usr ∧
      supervisor.cpsr.mode.hasSpsr = true ∧
      (supervisor.setSpsr .svc (psrOf 0x14#32)).spsr? .svc = some (psrOf 0x14#32) ∧ (psrOf 0x14#32).restored = none := by
  unfold blockAllowed listed
  decide

/-- The second of two accesses aborts: the block at 0xFFC and 0x1000. -/
theorem witness_LoadBlockAborts :
    blockAllowed .da 1#4 0x0005#16 (withAborts .baseUpdated) ∧
      blockAbortsAt .da 1#4 0x0005#16 (withAborts .baseUpdated) .read 1 ∧
      blockAbortsAt .ia 1#4 0x8005#16 (withAborts .baseRestored) .read 0 := by
  unfold blockAllowed blockAbortsAt State.grants
  decide

theorem witness_StoreBlockAborts :
    blockAllowed .da 1#4 0x0005#16 (withAborts .baseUpdated) ∧
      blockAbortsAt .da 1#4 0x0005#16 (withAborts .baseUpdated) .write 1 ∧
      Memory.wf (withAborts .baseUpdated).mem = true := by
  unfold blockAllowed blockAbortsAt State.grants
  decide

theorem witness_PseudoResults :
    Instr.expand (.nop .al) = [.movShiftImm .al false 0#4 0#4 (.lsl 0)] ∧ supervisor.runs .al ∧
      supervisor.pc ≠ 0xFFFFFFF8#32 ∧ supervisor.grants 0x8008#32 4 .read supervisor.privilege ∧
      0x8008#32 = supervisor.pc + 8#32 + (0#12).setWidth 32 ∧ supervisor.wordAt 0x8008 = 0#32 ∧
      rotatedImm 4#4 0xFF#8 = ~~~0x00FFFFFF#32 := by
  unfold State.runs State.grants
  decide

end Sys2Proof.Tests
end

