-- ==== Sys2Proof/Proofs/RegisterBanks.lean ====
section
/-! The register banks and the SPSRs, each a store of its own (R20, R22, R23, R25). -/

namespace Sys2Proof.Proofs

open Sys2Proof Sys2Proof.Machine

/-- Outside Fast Interrupt mode R8 to R12 are the User copies (R23). -/
theorem ifFiq_eq_usr (m : Mode) (hm : m ≠ .fiq) (fiq other : PhysReg) :
    m.ifFiq fiq other = Mode.usr.ifFiq fiq other := by
  simp [Mode.ifFiq, hm]

/-- Only R13, R14 and, in Fast Interrupt mode, R8 to R12 are banked (R23). -/
theorem phys_eq_usr_of_lt (m : Mode) (hm : m ≠ .fiq) (r : Reg) (hr : r.toNat < 13) : phys m r = phys .usr r := by
  unfold phys
  simp only [ifFiq_eq_usr m hm]
  split
  case h_14 | h_15 => omega
  all_goals rfl

theorem phys_thirteen (m : Mode) : phys m 13#4 = some m.r13 :=
  rfl

theorem phys_fourteen (m : Mode) : phys m 14#4 = some m.r14 :=
  rfl

/-- Below R15 the current mode's bank is read and written (R23). -/
theorem reg_and_setReg_of_phys (s : State) (r : Reg) (v : Word) (p : PhysReg) (h : phys s.cpsr.mode r = some p) :
    s.reg r = s.gpr p ∧ s.setReg r v = s.setGpr p v :=
  ⟨s.regIn_eq_gpr s.cpsr.mode r p h, s.setRegIn_eq_setGpr s.cpsr.mode r v p h⟩

/-- An SPSR is missing in exactly the modes that have none (R31, R32). -/
theorem spsr?_eq_none_iff (s : State) (m : Mode) : s.spsr? m = none ↔ m = .usr ∨ m = .sys := by
  rw [← Option.not_isSome_iff_eq_none, State.spsr?_isSome]
  cases m <;> decide

/-- Settles O21, from the bank tables and the read-after-write rules of the registers and the SPSRs. -/
theorem registerBanks : Obligations.RegisterBanks := by
  unfold Obligations.RegisterBanks
  refine ⟨by decide, by decide, phys_eq_usr_of_lt, fun m => ?r13, fun m => ?r14, fun s p q v => ?gpr,
    reg_and_setReg_of_phys, fun s v => ⟨s.reg_fifteen, s.setReg_fifteen v⟩, fun s m k p hm => ?spsr, spsr?_eq_none_iff⟩
  case r13 =>
    rw [phys_thirteen]
    cases m <;> rfl
  case r14 =>
    rw [phys_fourteen]
    cases m <;> rfl
  case gpr => simp only [State.gpr_setGpr, eq_comm]
  case spsr => simp only [State.spsr?_setSpsr, hm, and_true, eq_comm]

end Sys2Proof.Proofs
end

