-- ==== Sys2Proof/Proofs/MixedWidthView.lean ====
section
/-! Reading a stored word in narrower pieces (R62 to R65). -/

namespace Sys2Proof.Proofs

open Sys2Proof Sys2Proof.Machine

/-- Any run of bytes inside a stored value reads back as those bytes of the value (R62, R64, R65). -/
theorem load_store_within (m : Memory) (a size v j n : Nat) (h : Memory.wf m = true) (hin : j + n ≤ size) :
    Memory.load (Memory.store m a size v) (a + j) n = v / 256 ^ j % 256 ^ n := by
  induction n generalizing j with
  | zero => simp [Memory.load, Nat.mod_one]
  | succ n ih =>
    have hbyte : Memory.byte (Memory.store m a size v) (a + j) = BitVec.ofNat 8 (v / 256 ^ j) := by
      rw [Memory.byte_store m a size v (a + j) h, if_pos (by omega), Nat.add_sub_cancel_left]
    have hrest := ih (j + 1) (by omega)
    rw [Memory.load, hbyte, Nat.add_assoc, hrest, Nat.pow_succ 256 j, ← Nat.div_div_eq_div_mul, BitVec.toNat_ofNat,
      Nat.pow_succ' (m := 256) (n := n), Nat.mod_mul]

/-- Inside an aligned word the byte addresses do not wrap (R60, R66). -/
theorem toNat_add_ofNat_of_aligned (a : Word) (j : Nat) (ha : a.toNat % 4 = 0) (hj : j < 4) :
    (a + BitVec.ofNat 32 j).toNat = a.toNat + j := by
  have hlt := a.isLt
  rw [BitVec.toNat_add, BitVec.toNat_ofNat]
  omega

/-- The bits of a word from a byte position on, as a number (R62). -/
theorem ofNat_bytes_eq_extractLsb' (w : Word) (j n : Nat) :
    BitVec.ofNat 32 (w.toNat / 256 ^ j % 256 ^ n) = (w.extractLsb' (8 * j) (8 * n)).setWidth 32 := by
  apply BitVec.eq_of_toNat_eq
  rw [BitVec.toNat_ofNat, BitVec.toNat_setWidth, BitVec.extractLsb'_toNat, Nat.shiftRight_eq_div_pow, Nat.pow_mul,
    Nat.pow_mul]

/-- A read that is granted inside a stored word gives the bits of the word at that place (R63). -/
theorem readMem_within_stored_word (s : State) (a w v : Word) (pr : Privilege) (j n : Nat)
    (hwf : Memory.wf s.mem = true) (ha : a.toNat % 4 = 0) (hj : j < 4) (hin : j + n ≤ 4)
    (hread : (s.stored a 4 w).readMem (a + BitVec.ofNat 32 j) n pr = .ok v) :
    v = (w.extractLsb' (8 * j) (8 * n)).setWidth 32 := by
  obtain ⟨-, hv⟩ := (readMem_ok_iff _ _ _ _ _).mp hread
  rw [hv, State.stored_mem, toNat_add_ofNat_of_aligned a j ha hj, load_store_within _ _ _ _ _ _ hwf hin,
    ofNat_bytes_eq_extractLsb']

/-- Settles O42: the byte, half-word and word reads are the reads of 1, 2 and 4 bytes inside the stored word. -/
theorem mixedWidthView : Obligations.MixedWidthView := by
  unfold Obligations.MixedWidthView
  intro s t a w pr hwf hwrite
  obtain ⟨⟨ha, -, -⟩, rfl⟩ := (writeMem_ok_iff _ _ _ _ _ _).mp hwrite
  refine ⟨fun k hk v hread => ?byte, fun k hk v hread => ?half, fun v hread => ?word⟩
  case byte => exact readMem_within_stored_word s a w v pr k 1 hwf ha hk (by omega) hread
  case half =>
    have hv := readMem_within_stored_word s a w v pr (2 * k) 2 hwf ha (by omega) (by omega) hread
    rwa [← Nat.mul_assoc] at hv
  case word =>
    have hv := readMem_within_stored_word s a w v pr 0 4 hwf ha (by omega) (by omega) (by simpa using hread)
    simpa using hv

end Sys2Proof.Proofs
end

