-- ==== Sys2Proof/Proofs/Conditions.lean ====
section
/-! The conditions, and what a failed one leaves of an instruction (R26, R130 to R132). -/

namespace Sys2Proof.Proofs

open Sys2Proof Sys2Proof.Machine

/-- Settles O22: four flags and their negations, then the rows that combine flags. -/
theorem conditionTable : Obligations.ConditionTable := by
  unfold Obligations.ConditionTable
  intro p
  refine ⟨.rfl, ?ne, .rfl, ?cc, .rfl, ?pl, .rfl, ?vc, ?hi, ?ls, beq_iff_eq, bne_iff_ne, ?gt, ?le, rfl⟩
  all_goals simp [Cond.passes]

/-- An instruction of one word whose condition fails only goes on (R10, R132). -/
theorem exec_of_fails (i : Instr) (s : State) (hone : i.expand.length = 1)
    (hfail : Cond.passes (condOf i) s.cpsr = false) : exec i s = advance s := by
  cases i
  case adrl c u rd rot1 imm1 rot2 imm2 => cases u <;> cases hone
  case adr c u rd rot imm =>
    rw [exec_adr]
    split <;> exact conditional_fails c s _ hfail
  case ldrConst c rd imm32 u pool =>
    rw [exec_ldrConst]
    split
    · exact conditional_fails c s _ hfail
    · split <;> exact conditional_fails c s _ hfail
  case mrsCpsr | mrsSpsr | msrCpsrReg | msrSpsrReg | mul | mla | umull | umlal | smull | smlal | bx | ldm | ldmUser |
    ldmReturn | stm | stmUser | b | bl | swi =>
    simp only [exec_mrsCpsr, exec_mrsSpsr, exec_msrCpsrReg, exec_msrSpsrReg, exec_mul, exec_mla, exec_umull,
      exec_umlal, exec_smull, exec_smlal, exec_bx, exec_ldm, exec_ldmUser, exec_ldmReturn, exec_stm, exec_stmUser,
      exec_b, exec_bl, exec_swi]
    exact conditional_fails _ s _ hfail
  all_goals exact conditional_fails _ s _ hfail

/-- Settles O23: what is left is `advance`, which is refused at the last word alone. -/
theorem conditionFailed : Obligations.ConditionFailed := by
  unfold Obligations.ConditionFailed
  intro i s hone hfail
  rw [exec_of_fails i s hone hfail]
  exact ⟨fun hpc => advance_eq s hpc, fun hpc => if_pos hpc⟩

end Sys2Proof.Proofs
end

