-- ==== Sys2Proof/Proofs/ShifterOperand.lean ====
section
/-! The shifter operand: shifts and rotations as arithmetic and bit by bit, the immediate pairs, and R15 (R115, R133 to
R145). -/

namespace Sys2Proof.Proofs

open Sys2Proof Sys2Proof.Machine

/-! ### Shifts of a word as arithmetic -/

theorem shiftLeft_eq_ofNat (m : Word) (n : Nat) : m <<< n = BitVec.ofNat 32 (m.toNat * 2 ^ n) := by
  apply BitVec.eq_of_toNat_eq
  rw [BitVec.toNat_shiftLeft, BitVec.toNat_ofNat, Nat.shiftLeft_eq]

theorem ushiftRight_eq_ofNat (m : Word) (n : Nat) : m >>> n = BitVec.ofNat 32 (m.toNat / 2 ^ n) := by
  rw [← Nat.shiftRight_eq_div_pow, ← BitVec.toNat_ushiftRight, BitVec.ofNat_toNat, BitVec.setWidth_eq]

theorem sshiftRight_eq_ofInt (m : Word) (n : Nat) : m.sshiftRight n = BitVec.ofInt 32 (m.toInt / 2 ^ n) := by
  rw [BitVec.sshiftRight, Int.shiftRight_eq_div_pow, Nat.cast_pow, Nat.cast_ofNat]

/-- The top bit of a word is its sign. -/
theorem getLsbD_top_eq_neg (m : Word) : m.getLsbD 31 = decide (m.toInt < 0) := by
  rw [← BitVec.msb_eq_toInt, BitVec.msb_eq_getLsbD_last]

/-- From 32 places on an arithmetic shift right leaves copies of the sign (R140, R141). -/
theorem sshiftRight_eq_signs (m : Word) (n : Nat) (hn : 32 ≤ n) :
    m.sshiftRight n = if m.getLsbD 31 then 0xFFFFFFFF#32 else 0#32 := by
  apply BitVec.eq_of_getLsbD_eq
  intro i hi
  rw [BitVec.getLsbD_sshiftRight, if_neg (by omega), BitVec.msb_eq_getLsbD_last]
  cases m.getLsbD 31
  · simp
  · rw [if_pos rfl, show 0xFFFFFFFF#32 = BitVec.allOnes 32 from rfl, BitVec.getLsbD_allOnes]
    simp [hi]

/-- `rrx` puts the carry above the other bits (R144). -/
theorem carry_or_ushiftRight_one (m : Word) (c : Bool) :
    (if c then 0x80000000#32 else 0#32) ||| (m >>> 1) =
      BitVec.ofNat 32 ((if c then 2147483648 else 0) + m.toNat / 2) := by
  have hshift : m >>> 1 = BitVec.ofNat 32 (m.toNat / 2) := ushiftRight_eq_ofNat m 1
  have hapart : BitVec.twoPow 32 31 &&& (m >>> 1) = 0#32 := by simp [BitVec.twoPow_and]
  cases c
  · simpa using hshift
  · calc 0x80000000#32 ||| (m >>> 1)
      _ = 0x80000000#32 + (m >>> 1) := (BitVec.add_eq_or_of_and_eq_zero _ _ hapart).symm
      _ = BitVec.ofNat 32 (2147483648 + m.toNat / 2) := by rw [hshift, BitVec.ofNat_add]

/-! ### Rotations bit by bit -/

/-- The bits of a word rotated right stand the amount lower, around the end (R134, R142, R143). -/
theorem getLsbD_rotateRight_mod (m : Word) (n k : Nat) (hk : k < 32) :
    (m.rotateRight n).getLsbD k = m.getLsbD ((k + n) % 32) := by
  rw [BitVec.getLsbD_rotateRight]
  by_cases h : k < 32 - n % 32
  · rw [decide_eq_true h, cond_true]; congr 1; omega
  · rw [decide_eq_false h, cond_false, decide_eq_true hk, Bool.true_and]; congr 1; omega

/-- The bits of a word rotated left stand the amount higher, around the end (R115). -/
theorem getLsbD_rotateLeft_mod (m : Word) (n k : Nat) (hk : k < 32) :
    (m.rotateLeft n).getLsbD k = m.getLsbD ((k + (32 - n % 32)) % 32) := by
  rw [BitVec.getLsbD_rotateLeft]
  by_cases h : k < n % 32
  · rw [decide_eq_true h, cond_true]; congr 1; omega
  · rw [decide_eq_false h, cond_false, decide_eq_true hk, Bool.true_and]; congr 1; omega

/-- The bit rotated in at the top is the carry-out of the rotation (R142, R143). -/
theorem getLsbD_rotateRight_top (m : Word) (n : Nat) (h1 : 1 ≤ n) (h2 : n ≤ 32) :
    (m.rotateRight n).getLsbD 31 = m.getLsbD (n - 1) := by
  rw [getLsbD_rotateRight_mod m n 31 (by decide)]
  congr 1; omega

/-- Rotating right undoes rotating left by as much, and the other way round. -/
theorem rotateRight_eq_iff (x v : Word) (n : Nat) : x.rotateRight n = v ↔ v.rotateLeft n = x := by
  constructor
  · rintro rfl
    apply BitVec.eq_of_getLsbD_eq
    intro k hk
    rw [getLsbD_rotateLeft_mod _ _ _ hk, getLsbD_rotateRight_mod _ _ _ (by omega)]
    congr 1; omega
  · rintro rfl
    apply BitVec.eq_of_getLsbD_eq
    intro k hk
    rw [getLsbD_rotateRight_mod _ _ _ hk, getLsbD_rotateLeft_mod _ _ _ (by omega)]
    congr 1; omega

/-! ### A register shifted by an immediate (R135, R136, R138, R140, R142, R144) -/

theorem shiftByImm_lsl (m : Word) (n : Nat) (c : Bool) (h1 : 1 ≤ n) :
    shiftByImm m (.lsl n) c = (BitVec.ofNat 32 (m.toNat * 2 ^ n), m.getLsbD (32 - n)) := by
  rw [shiftByImm, if_neg (by omega), shiftLeft_eq_ofNat]

theorem shiftByImm_lsr (m : Word) (n : Nat) (c : Bool) :
    shiftByImm m (.lsr n) c = (BitVec.ofNat 32 (m.toNat / 2 ^ n), m.getLsbD (n - 1)) := by
  rw [shiftByImm, ← ushiftRight_eq_ofNat]
  split
  · subst n; rw [BitVec.ushiftRight_eq_zero le_rfl]
  · rfl

theorem shiftByImm_asr (m : Word) (n : Nat) (c : Bool) :
    shiftByImm m (.asr n) c = (BitVec.ofInt 32 (m.toInt / 2 ^ n), m.getLsbD (n - 1)) := by
  rw [shiftByImm, ← sshiftRight_eq_ofInt]
  split
  · subst n; rw [sshiftRight_eq_signs m 32 le_rfl]
  · rfl

/-- Settles O24, by the rules of the five shifts; `lsl 0` is the plain register. -/
theorem shiftByImmediate : Obligations.ShiftByImmediate := by
  unfold Obligations.ShiftByImmediate
  intro s rm
  refine ⟨rfl, fun n h1 _ => shiftByImm_lsl _ n s.cpsr.c h1, fun n _ _ => shiftByImm_lsr _ n s.cpsr.c,
    fun n _ _ => shiftByImm_asr _ n s.cpsr.c, fun n h1 h2 => ⟨fun k hk => ?bits, rfl, ?carry⟩, ?rrx⟩
  case bits => exact getLsbD_rotateRight_mod (s.reg rm) n k hk
  case carry => exact (getLsbD_rotateRight_top (s.reg rm) n h1 (by omega)).symm
  case rrx => exact Prod.ext (carry_or_ushiftRight_one (s.reg rm) s.cpsr.c) rfl

/-! ### A register shifted by a register (R137, R139, R141, R143) -/

/-- With a low byte from 1 to 31 each shift is the one by that immediate. -/
theorem shiftByReg_eq_shiftByImm (m : Word) (n : Nat) (c : Bool) (h1 : 1 ≤ n) (h2 : n ≤ 31) :
    shiftByReg m .lsl n c = shiftByImm m (.lsl n) c ∧ shiftByReg m .lsr n c = shiftByImm m (.lsr n) c ∧
      shiftByReg m .asr n c = shiftByImm m (.asr n) c := by
  have h0 : n ≠ 0 := by omega
  have h32 : n < 32 := by omega
  have hne : n ≠ 32 := by omega
  simp [shiftByReg, shiftByImm, h0, h32, hne]

theorem shiftByReg_lsl (m : Word) (n : Nat) (c : Bool) (h1 : 1 ≤ n) (h2 : n ≤ 32) :
    shiftByReg m .lsl n c = (BitVec.ofNat 32 (m.toNat * 2 ^ n), m.getLsbD (32 - n)) := by
  rcases Nat.lt_or_eq_of_le h2 with h | rfl
  · obtain ⟨hlsl, -, -⟩ := shiftByReg_eq_shiftByImm m n c h1 (by omega)
    rw [hlsl, shiftByImm_lsl m n c h1]
  · rw [← shiftLeft_eq_ofNat]; simp [shiftByReg]

theorem shiftByReg_lsr (m : Word) (n : Nat) (c : Bool) (h1 : 1 ≤ n) (h2 : n ≤ 32) :
    shiftByReg m .lsr n c = (BitVec.ofNat 32 (m.toNat / 2 ^ n), m.getLsbD (n - 1)) := by
  rcases Nat.lt_or_eq_of_le h2 with h | rfl
  · obtain ⟨-, hlsr, -⟩ := shiftByReg_eq_shiftByImm m n c h1 (by omega)
    rw [hlsr, shiftByImm_lsr]
  · rw [← ushiftRight_eq_ofNat, BitVec.ushiftRight_eq_zero le_rfl]; rfl

theorem shiftByReg_asr (m : Word) (n : Nat) (c : Bool) (h1 : 1 ≤ n) (h2 : n ≤ 31) :
    shiftByReg m .asr n c = (BitVec.ofInt 32 (m.toInt / 2 ^ n), m.getLsbD (n - 1)) := by
  obtain ⟨-, -, hasr⟩ := shiftByReg_eq_shiftByImm m n c h1 h2
  rw [hasr, shiftByImm_asr]

/-- Beyond 32 a logical shift leaves no bit of the register, in the value or the carry (R137, R139). -/
theorem shiftByReg_logical_far (m : Word) (n : Nat) (c : Bool) (h : 32 < n) :
    shiftByReg m .lsl n c = (0#32, false) ∧ shiftByReg m .lsr n c = (0#32, false) := by
  have h0 : n ≠ 0 := by omega
  have h32 : ¬n < 32 := by omega
  have hne : n ≠ 32 := by omega
  simp [shiftByReg, h0, h32, hne]

theorem shiftByReg_asr_far (m : Word) (n : Nat) (c : Bool) (h : 32 ≤ n) :
    shiftByReg m .asr n c = (if m.toInt < 0 then 0xFFFFFFFF#32 else 0#32, m.getLsbD 31) := by
  have h0 : n ≠ 0 := by omega
  have h32 : ¬n < 32 := by omega
  simp only [shiftByReg, h0, h32, if_false, getLsbD_top_eq_neg, decide_eq_true_eq]

theorem shiftByReg_ror_whole (m : Word) (n : Nat) (c : Bool) (h1 : 1 ≤ n) (h : n % 32 = 0) :
    shiftByReg m .ror n c = (m, m.getLsbD 31) := by
  have h0 : n ≠ 0 := by omega
  simp [shiftByReg, h0, h]

theorem shiftByReg_ror (m : Word) (n : Nat) (c : Bool) (h : n % 32 ≠ 0) :
    shiftByReg m .ror n c = (m.rotateRight n, m.getLsbD (n % 32 - 1)) := by
  have h0 : n ≠ 0 := by omega
  simp [shiftByReg, h0, h]

/-- Settles O25, by the rules of the four shifts. -/
theorem shiftByRegister : Obligations.ShiftByRegister := by
  unfold Obligations.ShiftByRegister
  rintro s rm rs n rfl
  refine ⟨fun h k => if_pos h, shiftByReg_lsl _ _ _, shiftByReg_lsr _ _ _, shiftByReg_logical_far _ _ _,
    shiftByReg_asr _ _ _, shiftByReg_asr_far _ _ _, shiftByReg_ror_whole _ _ _, fun h => ?ror⟩
  rw [shifter, shiftByReg_ror _ _ _ h]
  exact ⟨getLsbD_rotateRight_mod _ _, rfl⟩

/-! ### Rotated immediates (R96, R115, R134) -/

/-- A word fits a rotation when rotating back leaves a number of 8 bits (R115). -/
def fitsRotation (v : Word) (r : Nat) : Bool :=
  decide ((v.rotateLeft (2 * r)).toNat < 256)

/-- The pair of a rotation (R96). -/
def pairOf (v : Word) (r : Nat) : BitVec 4 × BitVec 8 :=
  (BitVec.ofNat 4 r, (v.rotateLeft (2 * r)).setWidth 8)

/-- The assembler's search takes the first rotation that fits (R115). -/
theorem immPair?_go_eq (v : Word) (rs : List Nat) :
    immPair?.go v rs = (rs.find? (fitsRotation v)).map (pairOf v) := by
  induction rs with
  | nil => rfl
  | cons r rs ih =>
    rw [immPair?.go, List.find?_cons]
    by_cases h : (v.rotateLeft (2 * r)).toNat < 256
    · rw [if_pos h, show fitsRotation v r = true from decide_eq_true h]
      rfl
    · rw [if_neg h, show fitsRotation v r = false from decide_eq_false h]
      exact ih

theorem immPair?_eq (v : Word) : immPair? v = ((List.range 16).find? (fitsRotation v)).map (pairOf v) :=
  immPair?_go_eq v _

/-- The immediates that give a value: the rotation fits, and the 8 bits are those of its pair. -/
theorem rotatedImm_eq_iff (v : Word) (rot : BitVec 4) (imm : BitVec 8) :
    rotatedImm rot imm = v ↔ fitsRotation v rot.toNat = true ∧ pairOf v rot.toNat = (rot, imm) := by
  have himm := imm.isLt
  rw [rotatedImm, rotateRight_eq_iff, fitsRotation, decide_eq_true_iff, pairOf, Prod.mk.injEq]
  constructor
  · intro h
    rw [h]
    refine ⟨?_, by simp, by simp⟩
    rw [BitVec.toNat_setWidth]
    omega
  · rintro ⟨hlt, -, rfl⟩
    apply BitVec.eq_of_toNat_eq
    simp only [BitVec.toNat_setWidth]
    omega

/-- A rotation that gives a value is one the search accepts for it. -/
theorem fitsRotation_of_rotatedImm {v : Word} {rot : BitVec 4} {imm : BitVec 8} (h : rotatedImm rot imm = v) :
    fitsRotation v rot.toNat = true := by
  obtain ⟨hfits, -⟩ := (rotatedImm_eq_iff v rot imm).mp h
  exact hfits

/-- Settles O26: the bits by the rotation, the assembler's pair by its search. -/
theorem immediateOperand : Obligations.ImmediateOperand := by
  unfold Obligations.ImmediateOperand
  refine ⟨fun s rot imm => ⟨fun k hk => ?bits, fun h => if_pos h, fun h => if_neg h⟩, fun v rot imm h => ?pair,
    fun v h rot imm hv => ?none⟩
  case bits => exact getLsbD_rotateRight_mod _ _ k hk
  case pair =>
    rw [immPair?_eq, Option.map_eq_some_iff] at h
    obtain ⟨r, hfind, hpair⟩ := h
    obtain ⟨hfits, hmem, hfirst⟩ := List.find?_range_eq_some.mp hfind
    have hr : rot.toNat = r := by
      have h16 := List.mem_range.mp hmem
      have hrot : BitVec.ofNat 4 r = rot := congrArg Prod.fst hpair
      rw [← hrot, BitVec.toNat_ofNat]
      omega
    subst hr
    refine ⟨(rotatedImm_eq_iff v rot imm).mpr ⟨hfits, hpair⟩, fun rot' imm' h' => ?_⟩
    by_contra hlt
    have hno := hfirst rot'.toNat (BitVec.lt_def.mp (BitVec.not_le.mp hlt))
    simp [fitsRotation_of_rotatedImm h'] at hno
  case none =>
    rw [immPair?_eq, Option.map_eq_none_iff, List.find?_range_eq_none] at h
    have hno := h rot.toNat rot.isLt
    simp [fitsRotation_of_rotatedImm hv] at hno

/-! ### R15 (R145) -/

theorem regShiftWithPc_shiftReg (rm rs : Reg) (k : ShiftKind) (others : List Reg) :
    regShiftWithPc (.shiftReg rm k rs) others = true ↔ 15#4 ∈ others ++ [rm, rs] := by
  rw [regShiftWithPc, List.any_eq_true, List.perm_append_comm.mem_iff]
  simp only [decide_eq_true_eq, exists_eq_right, List.cons_append, List.nil_append]

/-- R15 anywhere in a register shift with a first operand and a destination is refused. -/
theorem dataProc_shiftReg_fifteen (op : DpOp) (sf : Bool) (rd rn rm : Reg) (k : ShiftKind) (rs : Reg) (s : State)
    (h : 15#4 ∈ [rd, rn, rm, rs]) : dataProc op sf rd rn (.shiftReg rm k rs) s = .refused .r15Operand :=
  if_pos ((regShiftWithPc_shiftReg rm rs k [rd, rn]).mpr h)

theorem dataMove_shiftReg_fifteen (op : DpOp) (sf : Bool) (rd rm : Reg) (k : ShiftKind) (rs : Reg) (s : State)
    (h : 15#4 ∈ [rd, rm, rs]) : dataMove op sf rd (.shiftReg rm k rs) s = .refused .r15Operand :=
  if_pos ((regShiftWithPc_shiftReg rm rs k [rd]).mpr h)

theorem dataCompare_shiftReg_fifteen (op : DpOp) (rn rm : Reg) (k : ShiftKind) (rs : Reg) (s : State)
    (h : 15#4 ∈ [rn, rm, rs]) : dataCompare op rn (.shiftReg rm k rs) s = .refused .r15Operand :=
  if_pos ((regShiftWithPc_shiftReg rm rs k [rn]).mpr h)

/-- Settles O27: each register shift is one of three operations under its condition, and each refuses R15. -/
theorem shiftOperandR15 : Obligations.ShiftOperandR15 := by
  unfold Obligations.ShiftOperandR15
  refine ⟨fun s sh => ⟨s.reg_fifteen, by rw [shifter, State.reg_fifteen]⟩,
    fun mk hmk c sf rd rn rm k rs s hc h => ?proc, fun mk hmk c sf rd rm k rs s hc h => ?move,
    fun mk hmk c rn rm k rs s hc h => ?compare⟩
  all_goals simp only [List.mem_cons, List.not_mem_nil, or_false] at hmk
  case proc =>
    rcases hmk with rfl | rfl | rfl | rfl | rfl | rfl | rfl | rfl | rfl | rfl
    all_goals exact (conditional_passes c s _ hc).trans (dataProc_shiftReg_fifteen _ sf rd rn rm k rs s h)
  case move =>
    rcases hmk with rfl | rfl
    all_goals exact (conditional_passes c s _ hc).trans (dataMove_shiftReg_fifteen _ sf rd rm k rs s h)
  case compare =>
    rcases hmk with rfl | rfl | rfl | rfl
    all_goals exact (conditional_passes c s _ hc).trans (dataCompare_shiftReg_fifteen _ rn rm k rs s h)

end Sys2Proof.Proofs
end

