-- ==== Sys2Proof/Proofs/TransferModes.lean ====
section
/-! The addressing modes of the single-register transfers, and what R150 refuses (R70, R147 to R153). -/

namespace Sys2Proof.Proofs

open Sys2Proof Sys2Proof.Machine

/-! ### Addresses, bases and privileges -/

/-- An access has User privilege exactly in User mode (R64, R336). -/
theorem privilege_eq_user_iff (s : State) : s.privilege = .user ↔ s.cpsr.mode = .usr := by
  unfold State.privilege Mode.privileged
  cases s.cpsr.mode <;> decide

/-- The `t` forms have User privilege in every mode (R70, R151). -/
theorem transfer_privilege_eq_user_iff (f : Transfer) (s : State) :
    f.privilege s = .user ↔ f.user = true ∨ s.cpsr.mode = .usr := by
  unfold Transfer.privilege
  cases f.user
  · simpa using privilege_eq_user_iff s
  · simp

/-- Settles O43: the offset is the one the transfer's operand gives, and each kind of indexing says where it goes. -/
theorem transferAddresses : Obligations.TransferAddresses := by
  unfold Obligations.TransferAddresses
  refine ⟨fun f s => ⟨offsetValue f.off s, fun v hv => ?imm, fun rm sh hoff => ?reg, fun hidx => ?offset,
    fun hidx => ?pre, fun hidx => ?post⟩,
    fun s => ⟨privilege_eq_user_iff s, fun f => transfer_privilege_eq_user_iff f s⟩⟩
  case imm => rw [hv, offsetValue]
  case reg => rw [hoff, offsetValue, shifter]
  all_goals rw [Transfer.address, Transfer.based, hidx]
  case offset => exact ⟨rfl, State.writeBase_offset ..⟩
  case pre => exact ⟨rfl, State.writeBase_pre ..⟩
  case post => exact ⟨rfl, State.writeBase_post ..⟩

/-! ### What a transfer is refused for -/

theorem transferRefusal_writtenFifteen (idx : Index) (rd : Reg) (off : Offset) (hw : Index.writesBase idx = true) :
    transferRefusal idx 15#4 rd off = some .r15Operand := by
  simp [transferRefusal, hw]

theorem transferRefusal_offsetFifteen (idx : Index) (rn rd : Reg) (sh : ShiftImm) :
    transferRefusal idx rn rd (.reg 15#4 sh) = some .r15Operand := by
  simp [transferRefusal]

theorem transferRefusal_offsetIsBase (idx : Index) (rn rd : Reg) (sh : ShiftImm) (hw : Index.writesBase idx = true)
    (hrn : rn ≠ 15#4) : transferRefusal idx rn rd (.reg rn sh) = some .baseWriteBack := by
  simp [transferRefusal, hw, hrn]

theorem transferRefusal_destinationIsBase (idx : Index) (rn : Reg) (off : Offset) (hw : Index.writesBase idx = true)
    (hrn : rn ≠ 15#4) (hoff : ∀ sh, off ≠ .reg 15#4 sh) : transferRefusal idx rn rn off = some .baseWriteBack := by
  cases off with
  | imm v => simp [transferRefusal, hw, hrn]
  | reg rm sh =>
    have hrm : rm ≠ 15#4 := fun h => hoff sh (by rw [h])
    simp [transferRefusal, hw, hrn, hrm]

/-! ### The transfers as loads and stores of their row -/

/-- The extension of a row, as the loads make it (R71, R253 to R257). -/
def rowExtension (f : Transfer) : Word → Word :=
  if f.width = 4 then extWord
  else if f.width = 2 then (if f.signed then extSignedHalf else extHalf)
  else if f.signed then extSignedByte else extByte

/-- What a row of the transfers says an instruction does. -/
def runRow (f : Transfer) (s : State) : Out :=
  if f.load then loadSingle f.width (rowExtension f) f.pcOk (f.privilege s) f.idx f.u f.rn f.rd f.off s
  else storeSingle f.width f.pcOk (f.privilege s) f.idx f.u f.rn f.rd f.off s

/-- Each of the 40 transfers does what its row says, under its condition (R146 to R153, R250 to R262). -/
theorem exec_transfer (i : Instr) (f : Transfer) (s : State) (h : transferOf i = some f)
    (hc : Cond.passes (condOf i) s.cpsr = true) : exec i s = runRow f s := by
  cases i
  all_goals cases h
  all_goals exact conditional_passes _ s _ hc

/-- What R150 forbids is refused, of a load as of a store. -/
theorem runRow_of_transferRefusal (f : Transfer) (s : State) (e : Refusal)
    (h : transferRefusal f.idx f.rn f.rd f.off = some e) : runRow f s = .refused e := by
  unfold runRow
  cases f.load
  · simp [storeSingle, h]
  · simp [loadSingle, h]

/-- R15 is transferred by `ldr` and `str` alone (R252 to R262). -/
theorem runRow_of_destinationFifteen (f : Transfer) (s : State) (h : f.allowed) (hrd : f.rd = 15#4)
    (hpc : f.pcOk = false) : runRow f s = .refused .r15Operand := by
  have hnone := (transferRefusal_none_iff f.idx f.rn f.rd f.off).mpr h
  unfold runRow
  cases f.load
  · simp only [Bool.false_eq_true, if_false, storeSingle, hnone]
    exact if_pos (by simp [hrd, hpc])
  · simp only [if_true, loadSingle, hnone]
    exact if_pos (by simp [hrd, hpc])

/-- Settles O46: the clauses of R150 one by one, each over the row of the instruction. -/
theorem transferStops : Obligations.TransferStops := by
  unfold Obligations.TransferStops
  refine ⟨fun f s v hidx hrn hoff => ?address, fun i f s hf hc => ?_⟩
  case address => rw [Transfer.address, hidx, hrn, hoff, ← State.reg_fifteen]; rfl
  rw [exec_transfer i f s hf hc]
  refine ⟨fun hw hrn => ?writtenFifteen, fun sh hoff => ?offsetFifteen, fun rm sh hoff hw hrm hne => ?offsetIsBase,
    fun hw hrd hrn hoff => ?destinationIsBase, fun h hrd hpc => runRow_of_destinationFifteen f s h hrd hpc⟩
  all_goals apply runRow_of_transferRefusal
  case writtenFifteen => rw [hrn]; exact transferRefusal_writtenFifteen f.idx f.rd f.off hw
  case offsetFifteen => rw [hoff]; exact transferRefusal_offsetFifteen f.idx f.rn f.rd sh
  case offsetIsBase =>
    subst hrm
    rw [hoff]
    exact transferRefusal_offsetIsBase f.idx f.rn f.rd sh hw hne
  case destinationIsBase => rw [hrd]; exact transferRefusal_destinationIsBase f.idx f.rn f.off hw hrn hoff

end Sys2Proof.Proofs
end

