-- ==== Sys2Proof/Proofs/BlockAddresses.lean ====
section
/-! The registers, the addresses and the base of a block transfer (R161). -/

namespace Sys2Proof.Proofs

open Sys2Proof Sys2Proof.Machine

/-- The registers of a list stand in increasing number: they are picked out of all sixteen in order. -/
theorem regsOf_increasing (list : BitVec 16) : (regsOf list).Pairwise (fun x y => x.toNat < y.toNat) :=
  List.Pairwise.filter _ (by decide)

/-! ### Words as the integers they stand for -/

/-- Clearing bits 1..0 rounds down to a multiple of 4, also of a number outside the address space. -/
theorem ofInt_and_wordMask (z : Int) : BitVec.ofInt 32 z &&& 0xFFFFFFFC#32 = BitVec.ofInt 32 (z / 4 * 4) := by
  apply BitVec.eq_of_toNat_eq
  rw [show 0xFFFFFFFC#32 = BitVec.allOnes 32 <<< 2 from rfl, ← BitVec.shiftLeft_ushiftRight, BitVec.toNat_shiftLeft,
    BitVec.toNat_ushiftRight, BitVec.toNat_ofInt, BitVec.toNat_ofInt, Nat.shiftLeft_eq, Nat.shiftRight_eq_div_pow]
  omega

theorem ofInt_toNat_word (b : Word) : BitVec.ofInt 32 b.toNat = b := by
  rw [BitVec.ofInt_natCast, BitVec.ofNat_toNat, BitVec.setWidth_eq]

theorem ofInt_sub_word (x y : Int) : BitVec.ofInt 32 (x - y) = BitVec.ofInt 32 x - BitVec.ofInt 32 y := by
  rw [Int.sub_eq_add_neg, BitVec.ofInt_add, BitVec.ofInt_neg, BitVec.sub_eq_add_neg]

theorem blockSize_eq_ofInt (n : Nat) : blockSize n = BitVec.ofInt 32 (4 * n) :=
  (BitVec.ofInt_natCast 32 (4 * n)).symm

/-! ### The addresses and the base of a block -/

/-- The `start` of a block of `n` words from the base `b` as R161 computes it, before it is rounded and wrapped. -/
def exactStart (am : BlockMode) (b n : Int) : Int :=
  match am with
  | .ia => b
  | .ib => b + 4
  | .da => b - 4 * n + 4
  | .db => b - 4 * n

theorem blockStart_eq_ofInt (am : BlockMode) (b : Word) (n : Nat) :
    blockStart am b n = BitVec.ofInt 32 (exactStart am b.toNat n) := by
  cases am
  all_goals
    simp only [blockStart, exactStart, blockSize_eq_ofInt, BitVec.ofInt_add, ofInt_sub_word, ofInt_toNat_word,
      BitVec.ofInt_ofNat]

theorem blockAddress_eq_ofInt (am : BlockMode) (rn : Reg) (list : BitVec 16) (s : State) (k : Nat) :
    blockAddress am rn list s k =
      BitVec.ofInt 32 (exactStart am (s.reg rn).toNat (regsOf list).length / 4 * 4 + 4 * k) := by
  rw [blockAddress, blockFirst, blockStart_eq_ofInt, ofInt_and_wordMask, BitVec.ofInt_add, ← blockSize_eq_ofInt,
    blockSize]

theorem blockBase_ascending (am : BlockMode) (h : am ∈ [BlockMode.ia, .ib]) (b : Word) (n : Nat) :
    blockBase am b n = BitVec.ofInt 32 (b.toNat + 4 * n) := by
  rw [BitVec.ofInt_add, ofInt_toNat_word, ← blockSize_eq_ofInt]
  cases am <;> simp [blockBase] at h ⊢

theorem blockBase_descending (am : BlockMode) (h : am ∈ [BlockMode.da, .db]) (b : Word) (n : Nat) :
    blockBase am b n = BitVec.ofInt 32 (b.toNat - 4 * n) := by
  rw [ofInt_sub_word, ofInt_toNat_word, ← blockSize_eq_ofInt]
  cases am <;> simp [blockBase] at h ⊢

/-- Settles O51, by the order of the registers and the integers that the addresses and the base stand for. The longer
name leaves `blockAddresses` to the model's function. -/
theorem BlockAddresses.blockAddresses : Obligations.BlockAddresses := by
  unfold Obligations.BlockAddresses
  refine ⟨fun list => ⟨regsOf_increasing list, mem_regsOf list⟩, ?_⟩
  rintro rn list s k b n rfl rfl
  exact ⟨blockAddress_eq_ofInt .ia rn list s k, blockAddress_eq_ofInt .ib rn list s k,
    blockAddress_eq_ofInt .da rn list s k, blockAddress_eq_ofInt .db rn list s k,
    fun am ham => blockBase_ascending am ham _ _, fun am ham => blockBase_descending am ham _ _⟩

end Sys2Proof.Proofs
end

