-- ==== Sys2Proof/Proofs/DataProcessing.lean ====
section
/-! What every data-processing instruction does with its result, whatever the result is (R145, R170). -/

namespace Sys2Proof.Proofs

open Sys2Proof Sys2Proof.Machine

/-! ### The end of an instruction with a destination (R26, R31, R170) -/

theorem advance_atTop (s : State) (h : s.pc = 0xFFFFFFFC#32) : advance s = .refused .pcWraps :=
  if_pos h

theorem jump_misaligned (s : State) (a : Word) (h : a &&& 3#32 ≠ 0#32) : jump s a = .refused (.pcMisaligned a) :=
  if_neg h

theorem returnCpsr_noSpsr (s : State) (hp : s.spsr? s.cpsr.mode = none) : returnCpsr s = .error .noSpsr := by
  rw [returnCpsr, hp]

theorem returnCpsr_illegalMode (s : State) (p : Psr) (hp : s.spsr? s.cpsr.mode = some p) (hc : p.restored = none) :
    returnCpsr s = .error (.illegalMode p.m) := by
  simp only [returnCpsr, hp, hc]

/-- The model writes the flags a result gives (R28). -/
theorem withResult_eq_ofResult (p : Cpsr) (r : DpResult) : p.withResult r = p.ofResult r := by
  rw [Cpsr.withResult, Cpsr.ofResult, BitVec.msb_eq_getLsbD_last, ← beq_eq_decide]

/-- Below R15 the destination is written and, with `s`, the flags; then the instruction goes on (R170). -/
theorem finishDp_below (sf : Bool) (rd : Reg) (r : DpResult) (s : State) (hrd : rd ≠ 15#4) :
    finishDp sf rd r s =
      advance (if sf then { s.setReg rd r.value with cpsr := s.cpsr.ofResult r } else s.setReg rd r.value) := by
  rw [finishDp, if_neg hrd, State.setFlags, withResult_eq_ofResult, State.setReg_cpsr]
  exact (apply_ite advance _ _ _).symm

theorem finishDp_below_next (sf : Bool) (rd : Reg) (r : DpResult) (s : State) (hrd : rd ≠ 15#4)
    (hpc : s.pc ≠ 0xFFFFFFFC#32) : finishDp sf rd r s = .next (s.dpDone sf rd r) := by
  rw [finishDp_below sf rd r s hrd]
  apply advance_eq
  cases sf <;> exact ne_of_eq_of_ne (s.setReg_pc rd r.value hrd) hpc

theorem finishDp_below_atTop (sf : Bool) (rd : Reg) (r : DpResult) (s : State) (hrd : rd ≠ 15#4)
    (hpc : s.pc = 0xFFFFFFFC#32) : finishDp sf rd r s = .refused .pcWraps := by
  rw [finishDp_below sf rd r s hrd]
  apply advance_atTop
  cases sf <;> exact (s.setReg_pc rd r.value hrd).trans hpc

theorem finishDp_jumps (r : DpResult) (s : State) : finishDp false 15#4 r s = jump s r.value :=
  rfl

/-- With R15 and `s`, what `returnCpsr` refuses is refused (R31). -/
theorem finishDp_returns_error (r : DpResult) (s : State) (e : Refusal) (h : returnCpsr s = .error e) :
    finishDp true 15#4 r s = .refused e := by
  rw [finishDp, if_pos rfl, if_pos rfl, h]

/-- With R15 and `s`, the restored T says whether the target has to be a multiple of 4 (R26, R170). -/
theorem finishDp_returns (r : DpResult) (s : State) (p : Psr) (c : Cpsr) (hp : s.spsr? s.cpsr.mode = some p)
    (hc : p.restored = some c) :
    finishDp true 15#4 r s =
      if c.t then .next { s with cpsr := c, pc := r.value } else jump { s with cpsr := c } r.value := by
  rw [finishDp, if_pos rfl, if_pos rfl, returnCpsr_eq s p c hp hc]

/-- An instruction that ends in `finishDp` does what R170 says with its result. -/
theorem dpWrites_of_finishDp {i : Instr} {sf : Bool} {rd : Reg} {r : State → DpResult}
    (h : ∀ s, Cond.passes (condOf i) s.cpsr = true → exec i s = finishDp sf rd (r s) s) : DpWrites i sf rd r := by
  intro s hpass
  rw [h s hpass]
  refine ⟨finishDp_below_next sf rd (r s) s, finishDp_below_atTop sf rd (r s) s, ?jumps, ?returns⟩
  case jumps =>
    rintro rfl rfl
    rw [finishDp_jumps]
    exact ⟨jump_eq s _, jump_misaligned s _⟩
  case returns =>
    rintro rfl rfl
    refine ⟨fun hp => finishDp_returns_error _ s _ (returnCpsr_noSpsr s hp), fun p hp =>
      ⟨fun hc => finishDp_returns_error _ s _ (returnCpsr_illegalMode s p hp hc), fun c hc => ?_⟩⟩
    rw [finishDp_returns (r s) s p c hp hc]
    cases c.t
    · simp only [Bool.false_eq_true, false_or, if_false]
      exact ⟨jump_eq _ _, fun _ => jump_misaligned _ _⟩
    · simp

/-! ### The three operand forms of a mnemonic (R145) -/

/-- With every register below R15 no register shift is refused (R145). -/
theorem regShiftWithPc_shiftReg_below (rm rs : Reg) (k : ShiftKind) (others : List Reg)
    (h : 15#4 ∉ others ++ [rm, rs]) : regShiftWithPc (.shiftReg rm k rs) others = false :=
  eq_false_of_ne_true (mt (regShiftWithPc_shiftReg rm rs k others).mp h)

/-- An instruction is a data-processing operation with a destination and a first operand, under its condition. -/
def RunsDataProc (op : DpOp) (i : Instr) (sf : Bool) (rd rn : Reg) (so : ShiftOp) : Prop :=
  ∀ s, exec i s = conditional (condOf i) s (dataProc op sf rd rn so)

/-- An instruction is a data-processing compare, under its condition. -/
def RunsDataCompare (op : DpOp) (i : Instr) (rn : Reg) (so : ShiftOp) : Prop :=
  ∀ s, exec i s = conditional (condOf i) s (dataCompare op rn so)

theorem dpWrites_of_runsDataProc {op : DpOp} {i : Instr} {sf : Bool} {rd rn : Reg} {so : ShiftOp}
    (hrun : RunsDataProc op i sf rd rn so) (hpc : regShiftWithPc so [rd, rn] = false) :
    DpWrites i sf rd (DpRule.at (dpResult op) rn so) := by
  apply dpWrites_of_finishDp
  intro s hpass
  rw [hrun s, conditional_passes _ s _ hpass, dataProc, hpc]
  rfl

theorem dpCompares_of_runsDataCompare {op : DpOp} {i : Instr} {rn : Reg} {so : ShiftOp}
    (hrun : RunsDataCompare op i rn so) (hpc : regShiftWithPc so [rn] = false) :
    DpCompares i (DpRule.at (dpResult op) rn so) := by
  intro s hruns
  obtain ⟨hpass, htop⟩ := hruns
  rw [hrun s, conditional_passes _ s _ hpass, dataCompare, hpc, State.setFlags, withResult_eq_ofResult]
  exact advance_eq _ htop

/-- A mnemonic with a destination follows the result of its operation in all three forms. -/
theorem dpFollows_dpResult {op : DpOp} {imm : Cond → Bool → Reg → Reg → BitVec 4 → BitVec 8 → Instr}
    {shiftImm : Cond → Bool → Reg → Reg → Reg → ShiftImm → Instr}
    {shiftReg : Cond → Bool → Reg → Reg → Reg → ShiftKind → Reg → Instr}
    (himm : ∀ c sf rd rn rot v, RunsDataProc op (imm c sf rd rn rot v) sf rd rn (.imm rot v))
    (hshiftImm : ∀ c sf rd rn rm sh, RunsDataProc op (shiftImm c sf rd rn rm sh) sf rd rn (.shiftImm rm sh))
    (hshiftReg : ∀ c sf rd rn rm k rs,
      RunsDataProc op (shiftReg c sf rd rn rm k rs) sf rd rn (.shiftReg rm k rs)) :
    DpFollows (dpResult op) imm shiftImm shiftReg := by
  intro c sf rd rn
  refine ⟨fun rot v => dpWrites_of_runsDataProc (himm c sf rd rn rot v) rfl,
    fun rm sh => dpWrites_of_runsDataProc (hshiftImm c sf rd rn rm sh) rfl, fun rm k rs hrd hrn hrm hrs =>
    dpWrites_of_runsDataProc (hshiftReg c sf rd rn rm k rs) (regShiftWithPc_shiftReg_below rm rs k [rd, rn] ?_)⟩
  simp [hrd.symm, hrn.symm, hrm.symm, hrs.symm]

/-- A compare mnemonic follows the result of its operation in all three forms. -/
theorem compareFollows_dpResult {op : DpOp} {imm : Cond → Reg → BitVec 4 → BitVec 8 → Instr}
    {shiftImm : Cond → Reg → Reg → ShiftImm → Instr} {shiftReg : Cond → Reg → Reg → ShiftKind → Reg → Instr}
    (himm : ∀ c rn rot v, RunsDataCompare op (imm c rn rot v) rn (.imm rot v))
    (hshiftImm : ∀ c rn rm sh, RunsDataCompare op (shiftImm c rn rm sh) rn (.shiftImm rm sh))
    (hshiftReg : ∀ c rn rm k rs, RunsDataCompare op (shiftReg c rn rm k rs) rn (.shiftReg rm k rs)) :
    CompareFollows (dpResult op) imm shiftImm shiftReg := by
  intro c rn
  refine ⟨fun rot v => dpCompares_of_runsDataCompare (himm c rn rot v) rfl,
    fun rm sh => dpCompares_of_runsDataCompare (hshiftImm c rn rm sh) rfl, fun rm k rs hrn hrm hrs =>
    dpCompares_of_runsDataCompare (hshiftReg c rn rm k rs) (regShiftWithPc_shiftReg_below rm rs k [rn] ?_)⟩
  simp [hrn.symm, hrm.symm, hrs.symm]

end Sys2Proof.Proofs
end

