-- ==== Sys2Proof/Proofs/Arithmetic.lean ====
section
/-! The sums and differences of the data-processing instructions with their carry and overflow, written without the
model's own arithmetic (R8, R190 to R195, R230, R231). -/

namespace Sys2Proof.Proofs

open Sys2Proof Sys2Proof.Machine

/-! ### Overflow (R8) -/

theorem outOfRange_eq (r : Int) : outOfRange r = decide (¬(-2147483648 ≤ r ∧ r ≤ 2147483647)) := by
  rw [outOfRange, decide_eq_decide]
  omega

/-- A sum of two words overflows when they have the same sign and the sum has the other (R190). -/
theorem outOfRange_add (a b : Word) :
    outOfRange (a.toInt + b.toInt) = (a.msb == b.msb && (a + b).msb != a.msb) := by
  have hsigns := BitVec.saddOverflow_eq a b
  have hrange : outOfRange (a.toInt + b.toInt) = BitVec.saddOverflow a b := by
    rw [outOfRange, BitVec.saddOverflow, ← Bool.decide_or, decide_eq_decide]
    omega
  rw [hrange, hsigns]
  rfl

/-- A difference of two words overflows when they have different signs and the difference has not the first one's
(R192). -/
theorem outOfRange_sub (a b : Word) :
    outOfRange (a.toInt - b.toInt) = (a.msb != b.msb && (a - b).msb != a.msb) := by
  have hsigns := BitVec.ssubOverflow_eq a b
  have hrange : outOfRange (a.toInt - b.toInt) = BitVec.ssubOverflow a b := by
    rw [outOfRange, BitVec.ssubOverflow, ← Bool.decide_or, decide_eq_decide]
    omega
  rw [hrange, hsigns]
  cases a.msb <;> cases b.msb <;> simp

/-! ### Sums (R190, R191) -/

/-- The sum of two words, as R190 and R231 give it. -/
theorem addCarry_false_result (a b : Word) :
    (addCarry a b false).result =
      ⟨a + b, decide (4294967296 ≤ a.toNat + b.toNat), a.msb == b.msb && (a + b).msb != a.msb⟩ := by
  rw [← outOfRange_add]
  simp [Arith.result, addCarry, bit, BitVec.ofNat_add]

/-- The sum of two words and the carry, as R191 gives it. -/
theorem addCarry_result (a b : Word) (c : Bool) :
    (addCarry a b c).result =
      ⟨if c then a + b + 1#32 else a + b, decide (4294967296 ≤ a.toNat + b.toNat + (if c then 1 else 0)),
        decide (¬(-2147483648 ≤ a.toInt + b.toInt + (if c then 1 else 0) ∧
          a.toInt + b.toInt + (if c then 1 else 0) ≤ 2147483647))⟩ := by
  rw [← outOfRange_eq]
  cases c <;> simp [Arith.result, addCarry, bit, BitVec.ofNat_add]

/-! ### Differences (R192 to R195) -/

/-- The difference of two words, as R192, R194 and R230 give it: no borrow when the second is not above the first. -/
theorem subCarry_true_result (a b : Word) :
    (subCarry a b true).result =
      ⟨a - b, decide (b.toNat ≤ a.toNat), a.msb != b.msb && (a - b).msb != a.msb⟩ := by
  rw [← outOfRange_sub]
  simp [Arith.result, subCarry, bit]

/-- The difference of two words and the borrow, as R193 and R195 give it. -/
theorem subCarry_result (a b : Word) (c : Bool) :
    (subCarry a b c).result =
      ⟨if c then a - b else a - b - 1#32, decide ((0 : Int) ≤ a.toNat - b.toNat - (if c then 0 else 1)),
        decide (¬(-2147483648 ≤ a.toInt - b.toInt - (if c then 0 else 1) ∧
          a.toInt - b.toInt - (if c then 0 else 1) ≤ 2147483647))⟩ := by
  have hcarry : decide (b.toNat + bit (!c) ≤ a.toNat) =
      decide ((0 : Int) ≤ a.toNat - b.toNat - (if c then 0 else 1)) := by
    rw [decide_eq_decide]
    cases c
    · simp only [bit, Bool.not_false, if_true, Bool.false_eq_true, if_false]
      omega
    · simp [bit]
  rw [← outOfRange_eq, ← hcarry]
  cases c <;> simp [Arith.result, subCarry, bit]

/-! ### The obligations -/

/-- Settles O29: the three mnemonics follow their operations, whose results are the sums above. -/
theorem addResults : Obligations.AddResults := by
  unfold Obligations.AddResults
  simp only [← addCarry_false_result, ← addCarry_result]
  exact ⟨dpFollows_dpResult (op := .add) exec_addImm exec_addShiftImm exec_addShiftReg,
    dpFollows_dpResult (op := .adc) exec_adcImm exec_adcShiftImm exec_adcShiftReg,
    compareFollows_dpResult (op := .cmn) exec_cmnImm exec_cmnShiftImm exec_cmnShiftReg⟩

/-- Settles O30: the five mnemonics follow their operations, whose results are the differences above. -/
theorem subtractResults : Obligations.SubtractResults := by
  unfold Obligations.SubtractResults
  simp only [← subCarry_true_result, ← subCarry_result]
  exact ⟨dpFollows_dpResult (op := .sub) exec_subImm exec_subShiftImm exec_subShiftReg,
    dpFollows_dpResult (op := .rsb) exec_rsbImm exec_rsbShiftImm exec_rsbShiftReg,
    dpFollows_dpResult (op := .sbc) exec_sbcImm exec_sbcShiftImm exec_sbcShiftReg,
    dpFollows_dpResult (op := .rsc) exec_rscImm exec_rscShiftImm exec_rscShiftReg,
    compareFollows_dpResult (op := .cmp) exec_cmpImm exec_cmpShiftImm exec_cmpShiftReg⟩

end Sys2Proof.Proofs
end

