-- ==== Sys2Proof/Proofs/MultiplyStops.lean ====
section
/-! The register combinations the multiplies refuse (R203). -/

namespace Sys2Proof.Proofs

open Sys2Proof Sys2Proof.Machine

theorem anyPc_iff (l : List Reg) : anyPc l = true ↔ 15#4 ∈ l := by
  simp only [anyPc, List.any_eq_true, decide_eq_true_eq, exists_eq_right]

/-- R15 is refused before the other combinations are looked at. -/
theorem longMultiplyRefusal_fifteen (rdLo rdHi rm rs : Reg) (h : 15#4 ∈ [rdLo, rdHi, rm, rs]) :
    longMultiplyRefusal rdLo rdHi rm rs = some .r15Operand :=
  if_pos ((anyPc_iff _).mpr h)

theorem longMultiplyRefusal_sameRegisters (rdLo rdHi rm rs : Reg) (h : 15#4 ∉ [rdLo, rdHi, rm, rs])
    (hsame : rdHi = rdLo ∨ rdHi = rm ∨ rdLo = rm) :
    longMultiplyRefusal rdLo rdHi rm rs = some .multiplyRegisters := by
  rw [longMultiplyRefusal, if_neg (mt (anyPc_iff _).mp h), if_pos hsame]

/-- Each long multiply refuses what `longMultiplyRefusal` names. -/
theorem exec_longMultiply_refused (mk : Cond → Bool → Reg → Reg → Reg → Reg → Instr)
    (hmk : mk ∈ [Instr.umull, Instr.umlal, Instr.smull, Instr.smlal]) (c : Cond) (sf : Bool) (rdLo rdHi rm rs : Reg)
    (s : State) (e : Refusal) (hpass : Cond.passes c s.cpsr = true)
    (he : longMultiplyRefusal rdLo rdHi rm rs = some e) : exec (mk c sf rdLo rdHi rm rs) s = .refused e := by
  simp only [List.mem_cons, List.not_mem_nil, or_false] at hmk
  rcases hmk with rfl | rfl | rfl | rfl
  case inl => simp only [exec_umull, conditional_passes c s _ hpass, he]
  case inr.inl => simp only [exec_umlal, conditional_passes c s _ hpass, he]
  case inr.inr.inl => simp only [exec_smull, conditional_passes c s _ hpass, he]
  case inr.inr.inr => simp only [exec_smlal, conditional_passes c s _ hpass, he]

/-- Settles O37: R15 first, then the equal registers, of the short multiplies and of the long ones. -/
theorem multiplyStops : Obligations.MultiplyStops := by
  unfold Obligations.MultiplyStops
  intro c sf s hpass
  refine ⟨fun rd rm rs rn => ?short, fun mk hmk rdLo rdHi rm rs => ⟨fun h => ?fifteen, fun h hsame => ?same⟩⟩
  case short =>
    rw [exec_mul, exec_mla, conditional_passes c s _ hpass, conditional_passes c s _ hpass]
    simp only [← anyPc_iff]
    exact ⟨fun h => if_pos h, fun h => if_pos h, fun h hsame => (if_neg h).trans (if_pos hsame),
      fun h hsame => (if_neg h).trans (if_pos hsame)⟩
  case fifteen =>
    exact exec_longMultiply_refused mk hmk c sf rdLo rdHi rm rs s _ hpass
      (longMultiplyRefusal_fifteen rdLo rdHi rm rs h)
  case same =>
    exact exec_longMultiply_refused mk hmk c sf rdLo rdHi rm rs s _ hpass
      (longMultiplyRefusal_sameRegisters rdLo rdHi rm rs h hsame)

end Sys2Proof.Proofs
end

/-! The logical instructions, the moves and the tests: the result, with the shifter's carry-out as C and V unchanged
(R171, R172, R220 to R224, R232, R233). -/

namespace Sys2Proof.Proofs

open Sys2Proof Sys2Proof.Machine

/-- R224: C is the shifter's carry-out and V the old one. -/
theorem logical_result (value : Word) (sc : Bool) (p : Cpsr) : logical value sc p = ⟨value, sc, p.v⟩ :=
  rfl

/-! ### The moves in their three operand forms (R145, R171, R172) -/

/-- An instruction is a data-processing move with a destination, under its condition. -/
def RunsDataMove (op : DpOp) (i : Instr) (sf : Bool) (rd : Reg) (so : ShiftOp) : Prop :=
  ∀ s, exec i s = conditional (condOf i) s (dataMove op sf rd so)

/-- The result of an operation does not depend on the first operand, which the moves do not have. -/
def IgnoresFirstOperand (op : DpOp) : Prop :=
  ∀ (a b sv : Word) (sc : Bool) (p : Cpsr), dpResult op a sv sc p = dpResult op b sv sc p

theorem mov_ignoresFirstOperand : IgnoresFirstOperand .mov :=
  fun _ _ _ _ _ => rfl

theorem mvn_ignoresFirstOperand : IgnoresFirstOperand .mvn :=
  fun _ _ _ _ _ => rfl

/-- A move writes what its rule gives whichever register stands for its missing first operand. -/
theorem dpWrites_of_runsDataMove {op : DpOp} {i : Instr} {sf : Bool} {rd : Reg} {so : ShiftOp}
    (hop : IgnoresFirstOperand op) (hrun : RunsDataMove op i sf rd so) (hpc : regShiftWithPc so [rd] = false)
    (rn : Reg) : DpWrites i sf rd (DpRule.at (dpResult op) rn so) := by
  apply dpWrites_of_finishDp
  intro s hpass
  rw [hrun s, conditional_passes _ s _ hpass, dataMove, hpc, DpRule.at, hop (s.reg rn) 0#32]
  rfl

/-- A move mnemonic follows the result of its operation in all three forms. -/
theorem moveFollows_dpResult {op : DpOp} {imm : Cond → Bool → Reg → BitVec 4 → BitVec 8 → Instr}
    {shiftImm : Cond → Bool → Reg → Reg → ShiftImm → Instr}
    {shiftReg : Cond → Bool → Reg → Reg → ShiftKind → Reg → Instr} (hop : IgnoresFirstOperand op)
    (himm : ∀ c sf rd rot v, RunsDataMove op (imm c sf rd rot v) sf rd (.imm rot v))
    (hshiftImm : ∀ c sf rd rm sh, RunsDataMove op (shiftImm c sf rd rm sh) sf rd (.shiftImm rm sh))
    (hshiftReg : ∀ c sf rd rm k rs, RunsDataMove op (shiftReg c sf rd rm k rs) sf rd (.shiftReg rm k rs)) :
    MoveFollows (dpResult op) imm shiftImm shiftReg := by
  intro c sf rd
  refine ⟨fun rot v => dpWrites_of_runsDataMove hop (himm c sf rd rot v) rfl _,
    fun rm sh => dpWrites_of_runsDataMove hop (hshiftImm c sf rd rm sh) rfl _, fun rm k rs hrd hrm hrs =>
    dpWrites_of_runsDataMove hop (hshiftReg c sf rd rm k rs) (regShiftWithPc_shiftReg_below rm rs k [rd] ?_) _⟩
  simp [hrd.symm, hrm.symm, hrs.symm]

/-! ### The obligation -/

/-- Settles O28: each mnemonic follows its operation, whose result has the flags of R224. -/
theorem logicalResults : Obligations.LogicalResults := by
  unfold Obligations.LogicalResults
  simp only [← logical_result]
  exact ⟨dpFollows_dpResult (op := .and) exec_andImm exec_andShiftImm exec_andShiftReg,
    dpFollows_dpResult (op := .orr) exec_orrImm exec_orrShiftImm exec_orrShiftReg,
    dpFollows_dpResult (op := .eor) exec_eorImm exec_eorShiftImm exec_eorShiftReg,
    dpFollows_dpResult (op := .bic) exec_bicImm exec_bicShiftImm exec_bicShiftReg,
    moveFollows_dpResult mov_ignoresFirstOperand exec_movImm exec_movShiftImm exec_movShiftReg,
    moveFollows_dpResult mvn_ignoresFirstOperand exec_mvnImm exec_mvnShiftImm exec_mvnShiftReg,
    compareFollows_dpResult (op := .tst) exec_tstImm exec_tstShiftImm exec_tstShiftReg,
    compareFollows_dpResult (op := .teq) exec_teqImm exec_teqShiftImm exec_teqShiftReg⟩

end Sys2Proof.Proofs

/-! Branches: the target of `b` and `bl` over the integers, and the three kinds of target of `bx` (R108, R240 to R242). -/

namespace Sys2Proof.Proofs

open Sys2Proof Sys2Proof.Machine

/-! ### `b` and `bl` (R108, R240, R241) -/

/-- The sign-extended offset, shifted left by two places, is four times the signed offset (R108). -/
theorem signExtend_shiftLeft_two (off : BitVec 24) : off.signExtend 32 <<< 2 = BitVec.ofInt 32 (off.toInt * 4) := by
  rw [BitVec.ofInt_mul, BitVec.shiftLeft_eq_mul_twoPow]
  rfl

theorem branchTarget_eq_ofInt (pc : Word) (off : BitVec 24) :
    branchTarget pc off = BitVec.ofInt 32 (pc.toNat + 8 + off.toInt * 4) := by
  rw [branchTarget, signExtend_shiftLeft_two, BitVec.ofInt_add, BitVec.ofInt_add, ofInt_toNat_word]
  rfl

/-- Settles O38: both go to the target above, which `bl` takes from the PC before it writes the link. -/
theorem branchResults : Obligations.BranchResults := by
  unfold Obligations.BranchResults
  intro c off s hpass
  rw [exec_b, exec_bl, conditional_passes c s _ hpass, conditional_passes c s _ hpass, branchTarget_eq_ofInt]
  exact ⟨rfl, rfl⟩

/-! ### `bx` (R242) -/

theorem getLsbD_zero_iff_odd (a : Word) : a.getLsbD 0 = true ↔ a.toNat % 2 = 1 := by
  rw [BitVec.getLsbD, Nat.testBit_zero, decide_eq_true_eq]

theorem getLsbD_one_iff (a : Word) : a.getLsbD 1 = true ↔ a.toNat / 2 % 2 = 1 := by
  rw [BitVec.getLsbD, Nat.testBit_eq_decide_div_mod_eq, pow_one, decide_eq_true_eq]

/-- Clearing bit 0 of an odd word takes one away. -/
theorem and_halfMask_of_odd (a : Word) (h : a.toNat % 2 = 1) : a &&& 0xFFFFFFFE#32 = BitVec.ofNat 32 (a.toNat - 1) := by
  apply BitVec.eq_of_toNat_eq
  rw [show 0xFFFFFFFE#32 = BitVec.allOnes 32 <<< 1 from rfl, ← BitVec.shiftLeft_ushiftRight, BitVec.toNat_shiftLeft,
    BitVec.toNat_ushiftRight, BitVec.toNat_ofNat, Nat.shiftLeft_eq, Nat.shiftRight_eq_div_pow]
  omega

theorem branchExchange_odd (s : State) (a : Word) (h : a.toNat % 2 = 1) :
    branchExchange s a = .next { s with cpsr := { s.cpsr with t := true }, pc := BitVec.ofNat 32 (a.toNat - 1) } := by
  rw [branchExchange, if_pos ((getLsbD_zero_iff_odd a).mpr h), and_halfMask_of_odd a h]

theorem branchExchange_aligned (s : State) (a : Word) (h : a.toNat % 4 = 0) :
    branchExchange s a = .next { s with cpsr := { s.cpsr with t := false }, pc := a } := by
  have hbit0 : ¬ a.getLsbD 0 = true := mt (getLsbD_zero_iff_odd a).mp (by omega)
  have hbit1 : ¬ a.getLsbD 1 = true := mt (getLsbD_one_iff a).mp (by omega)
  rw [branchExchange, if_neg hbit0, if_neg hbit1]

theorem branchExchange_misaligned (s : State) (a : Word) (h : a.toNat % 4 = 2) :
    branchExchange s a = .refused (.pcMisaligned a) := by
  have hbit0 : ¬ a.getLsbD 0 = true := mt (getLsbD_zero_iff_odd a).mp (by omega)
  have hbit1 : a.getLsbD 1 = true := (getLsbD_one_iff a).mpr (by omega)
  rw [branchExchange, if_neg hbit0, if_pos hbit1]

/-- Settles O39: the three kinds of target one by one. -/
theorem branchExchangeResults : Obligations.BranchExchangeResults := by
  unfold Obligations.BranchExchangeResults
  intro c rm s hpass
  rw [exec_bx, conditional_passes c s _ hpass]
  exact ⟨branchExchange_odd s _, branchExchange_aligned s _, branchExchange_misaligned s _⟩

end Sys2Proof.Proofs

/-! What the entry sequence of an exception writes, the new mode's R14 and SPSR among it, and what it leaves (R322). -/

namespace Sys2Proof.Proofs

open Sys2Proof Sys2Proof.Machine

/-- Entering an exception writes the CPSR, the PC and the new mode's R14 and SPSR, and nothing else (R322). -/
theorem enter_enteredMode (e : Exc) (link : Word) (s : State) : EnteredMode e s (enter e link s) := by
  have hgpr : ∀ p : PhysReg, p ≠ e.mode.r14 → (enter e link s).gpr p = s.gpr p := fun p hp =>
    (gpr_enter e link s p).trans (if_neg hp)
  have hspsr : ∀ m : Mode, m ≠ e.mode → (enter e link s).spsr? m = s.spsr? m := fun m hm =>
    (spsr?_enter e link s m).trans (if_neg hm)
  exact ⟨enter_cpsr e link s, enter_pc e link s, hgpr, hspsr, enter_mem e link s, enter_written e link s,
    enter_afterUserLdm e link s, enter_requests e link s, enter_draws e link s, enter_platform e link s⟩

/-- The new mode's R14 holds the link and its SPSR the interrupted CPSR (R322). -/
theorem enter_entered (e : Exc) (link : Word) (s : State) : Entered e link s (enter e link s) :=
  ⟨(gpr_enter e link s e.mode.r14).trans (if_pos rfl), (spsr?_enter e link s e.mode).trans (if_pos rfl),
    enter_enteredMode e link s⟩

/-- The word at 0x00000014 is no exception's vector (R331). -/
theorem vector_ne_reserved (e : Exc) : e.vector ≠ 0x00000014#32 := by
  cases e <;> decide

/-- Settles O9: the entry sequence for any exception, then the table row by row. -/
theorem entrySequence : Obligations.EntrySequence := by
  unfold Obligations.EntrySequence
  refine ⟨enter_enteredMode, fun e link s _ => enter_entered e link s, ?reset, ?undefinedInstruction, ?swi,
    ?prefetchAbort, ?dataAbort, ?irq, ?fiq, vector_ne_reserved⟩
  all_goals exact ⟨rfl, rfl, rfl⟩

end Sys2Proof.Proofs

/-! What a completed instruction can change, said once for every instruction: the shared body it runs under its condition,
and what that body may write (R22 to R34, R65, R132, R170, R250, R280, R322). -/

namespace Sys2Proof.Proofs

open Sys2Proof Sys2Proof.Machine

/-! ### The shared bodies -/

/-- The bodies that instructions run when their condition passes, one for each shared operation of the model. -/
inductive Body where
  | proc (op : DpOp) (sf : Bool) (rd rn : Reg) (so : ShiftOp)
  | move (op : DpOp) (sf : Bool) (rd : Reg) (so : ShiftOp)
  | compare (op : DpOp) (rn : Reg) (so : ShiftOp)
  | mrsCpsr (rd : Reg)
  | mrsSpsr (rd : Reg)
  | msrCpsrReg (fields : PsrFields) (rm : Reg)
  | msrSpsrReg (fields : PsrFields) (rm : Reg)
  | msrCpsrImm (fields : PsrFields) (v : Word)
  | msrSpsrImm (fields : PsrFields) (v : Word)
  | multiply (sf : Bool) (rd rm : Reg) (others : List Reg) (product : State → Word)
  | longMultiply (sf : Bool) (rdLo rdHi rm rs : Reg) (product : State → BitVec 64)
  | branchExchange (rm : Reg)
  | swapWord (rd rm rn : Reg)
  | swapByte (rd rm rn : Reg)
  | transfer (f : Transfer)
  | loadMultiple (am : BlockMode) (w : Bool) (rn : Reg) (list : BitVec 16)
  | loadUser (am : BlockMode) (w : Bool) (rn : Reg) (list : BitVec 16)
  | loadReturn (am : BlockMode) (w : Bool) (rn : Reg) (list : BitVec 16)
  | storeMultiple (am : BlockMode) (w : Bool) (rn : Reg) (list : BitVec 16)
  | storeUser (am : BlockMode) (w : Bool) (rn : Reg) (list : BitVec 16)
  | branch (off : BitVec 24)
  | branchLink (off : BitVec 24)
  | softwareInterrupt

/-- What a body does, in the model's operations. -/
def Body.run (b : Body) (s : State) : Out :=
  match b with
  | .proc op sf rd rn so => dataProc op sf rd rn so s
  | .move op sf rd so => dataMove op sf rd so s
  | .compare op rn so => dataCompare op rn so s
  | .mrsCpsr rd => readPsr rd s.cpsr.saved s
  | .mrsSpsr rd =>
    match s.spsr? s.cpsr.mode with
    | none => .refused .noSpsr
    | some p => readPsr rd p s
  | .msrCpsrReg fields rm => if rm = 15#4 then .refused .r15Operand else writeCpsr fields (s.reg rm) s
  | .msrSpsrReg fields rm => if rm = 15#4 then .refused .r15Operand else writeSpsr fields (s.reg rm) s
  | .msrCpsrImm fields v => writeCpsr fields v s
  | .msrSpsrImm fields v => writeSpsr fields v s
  | .multiply sf rd rm others product =>
    if anyPc (rd :: rm :: others) then .refused .r15Operand
    else if rd = rm then .refused .multiplyRegisters
    else Machine.multiply sf rd (product s) s
  | .longMultiply sf rdLo rdHi rm rs product =>
    match longMultiplyRefusal rdLo rdHi rm rs with
    | some e => .refused e
    | none => Machine.longMultiply sf rdLo rdHi (product s) s
  | .branchExchange rm => Machine.branchExchange s (s.reg rm)
  | .swapWord rd rm rn => swap 4 extWord rd rm rn s
  | .swapByte rd rm rn => swap 1 extByte rd rm rn s
  | .transfer f => runRow f s
  | .loadMultiple am w rn list =>
    match loadBaseRefusal w rn list with
    | some e => .refused e
    | none => loadBlock am w rn list s.cpsr.mode (finishLoad list) s
  | .loadUser am w rn list =>
    match userBankRefusal w s with
    | some e => .refused e
    | none => markUserLdm (loadBlock am w rn list .usr finishLoadUser s)
  | .loadReturn am w rn list =>
    if !s.cpsr.mode.hasSpsr then .refused .noSpsr
    else
      match loadBaseRefusal w rn list with
      | some e => .refused e
      | none => loadBlock am w rn list s.cpsr.mode finishLoadReturn s
  | .storeMultiple am w rn list =>
    match storeBaseRefusal w rn list with
    | some e => .refused e
    | none => storeBlock am w rn list s.cpsr.mode s
  | .storeUser am w rn list =>
    match userBankRefusal w s with
    | some e => .refused e
    | none => storeBlock am w rn list .usr s
  | .branch off => .next { s with pc := branchTarget s.pc off }
  | .branchLink off => .next { s.setReg 14#4 (s.pc + 4#32) with pc := branchTarget s.pc off }
  | .softwareInterrupt => .next (enter .swi (s.pc + 4#32) s)

/-! ### What a body or an instruction may write -/

/-- What an instruction may write: registers of the current bank and of the User bank, N Z C, V, the control bits, T
besides them, the current mode's SPSR, bytes of memory, the mark of a User-bank `ldm`, and the two exceptions it may take. -/
structure Permits where
  regs : List Reg
  userRegs : List Reg
  flags : Bool
  overflow : Bool
  control : Bool
  thumb : Bool
  spsr : Bool
  stores : List (Word × Nat)
  mark : Bool
  swi : Bool
  abort : Bool

/-- The permission to go on and nothing else. -/
def Permits.idle : Permits :=
  ⟨[], [], false, false, false, false, false, [], false, false, false⟩

/-- The operations that give V a value of their own, additions and subtractions (R28). -/
def givesOverflow : DpOp → Bool
  | .sub | .rsb | .add | .adc | .sbc | .rsc | .cmp | .cmn => true
  | _ => false

/-- What a data-processing body with a destination may write: with `s` and R15 it also returns from an exception (R170). -/
def destinationPermits (op : DpOp) (sf : Bool) (rd : Reg) : Permits :=
  { Permits.idle with
    regs := [rd], flags := sf, overflow := if givesOverflow op then sf else sf && decide (rd = 15#4)
    control := sf && decide (rd = 15#4) }

/-- What a body may write. -/
def Body.permits (b : Body) (s : State) : Permits :=
  match b with
  | .proc op sf rd _ _ => destinationPermits op sf rd
  | .move op sf rd _ => destinationPermits op sf rd
  | .compare op _ _ => { Permits.idle with flags := true, overflow := givesOverflow op }
  | .mrsCpsr rd => { Permits.idle with regs := [rd] }
  | .mrsSpsr rd => { Permits.idle with regs := [rd] }
  | .msrCpsrReg fields _ => { Permits.idle with flags := fields.f, overflow := fields.f, control := fields.c }
  | .msrSpsrReg _ _ => { Permits.idle with spsr := true }
  | .msrCpsrImm fields _ => { Permits.idle with flags := fields.f, overflow := fields.f, control := fields.c }
  | .msrSpsrImm _ _ => { Permits.idle with spsr := true }
  | .multiply sf rd _ _ _ => { Permits.idle with regs := [rd], flags := sf }
  | .longMultiply sf rdLo rdHi _ _ _ => { Permits.idle with regs := [rdLo, rdHi], flags := sf, overflow := sf }
  | .branchExchange _ => { Permits.idle with thumb := true }
  | .swapWord rd _ rn => { Permits.idle with regs := [rd], control := true, stores := [(s.reg rn, 4)], abort := true }
  | .swapByte rd _ rn => { Permits.idle with regs := [rd], control := true, stores := [(s.reg rn, 1)], abort := true }
  | .transfer f =>
    { Permits.idle with
      regs := (if f.load then [f.rd] else []) ++ (if Index.writesBase f.idx then [f.rn] else [])
      control := true, stores := if f.load then [] else [(f.address s, f.width)], abort := true }
  | .loadMultiple _ w rn list =>
    { Permits.idle with regs := regsOf list ++ (if w then [rn] else []), control := true, abort := true }
  | .loadUser _ _ _ list => { Permits.idle with userRegs := regsOf list, control := true, mark := true, abort := true }
  | .loadReturn _ w rn list =>
    { Permits.idle with
      regs := regsOf list ++ (if w then [rn] else []), flags := true, overflow := true, control := true, abort := true }
  | .storeMultiple am w rn list =>
    { Permits.idle with
      regs := if w then [rn] else [], control := true
      stores := (blockAddresses am rn list s).map fun a => (a, 4), abort := true }
  | .storeUser am _ rn list =>
    { Permits.idle with
      control := true, stores := (blockAddresses am rn list s).map fun a => (a, 4), abort := true }
  | .branch _ => Permits.idle
  | .branchLink _ => { Permits.idle with regs := [14#4] }
  | .softwareInterrupt => { Permits.idle with control := true, swi := true }

/-- What an instruction may write, by the tables of the statements. -/
def permitsOf (i : Instr) (s : State) : Permits where
  regs := writesOf i
  userRegs := userWritesOf i
  flags := writesFlags i
  overflow := writesOverflow i
  control := writesControl i
  thumb := match i with | .bx _ _ => true | _ => false
  spsr := match i with | .msrSpsrReg _ _ _ => true | .msrSpsrImm _ _ _ _ => true | _ => false
  stores := storesOf i s
  mark := match i with | .ldmUser _ _ _ _ _ => true | _ => false
  swi := match i with | .swi _ _ => true | _ => false
  abort := accessesData i

/-- An instruction runs a body under its condition and may write what the body may write. -/
structure Runs (i : Instr) (b : Body) : Prop where
  exec : ∀ s, exec i s = conditional (condOf i) s b.run
  permits : ∀ s, permitsOf i s = b.permits s

/-- The 40 single-register transfers run the load or the store of their row. -/
theorem runs_transfer (i : Instr) (f : Transfer) (h : transferOf i = some f) : Runs i (.transfer f) := by
  cases i
  all_goals cases h
  case ldrPreImm w _ _ _ | ldrPreReg w _ _ _ _ | ldrbPreImm w _ _ _ | ldrbPreReg w _ _ _ _ | strPreImm w _ _ _ |
    strPreReg w _ _ _ _ | strbPreImm w _ _ _ | strbPreReg w _ _ _ _ | ldrhPreImm w _ _ _ | ldrhPreReg w _ _ _ |
    ldrsbPreImm w _ _ _ | ldrsbPreReg w _ _ _ | ldrshPreImm w _ _ _ | ldrshPreReg w _ _ _ | strhPreImm w _ _ _ |
    strhPreReg w _ _ _ =>
    exact ⟨fun _ => rfl, fun _ => by cases w <;> rfl⟩
  all_goals exact ⟨fun _ => rfl, fun _ => rfl⟩

/-- Every instruction runs one of the bodies, but for the two pseudo-instructions that choose between several or stand for
two. -/
theorem exists_runs (i : Instr) :
    (∃ b, Runs i b) ∨ (∃ c rd imm32 u pool, i = .ldrConst c rd imm32 u pool) ∨
      ∃ c u rd rot1 imm1 rot2 imm2, i = .adrl c u rd rot1 imm1 rot2 imm2 := by
  cases hf : transferOf i with
  | some f => exact .inl ⟨.transfer f, runs_transfer i f hf⟩
  | none => ?_
  cases i
  case ldrConst c rd imm32 u pool => exact .inr (.inl ⟨c, rd, imm32, u, pool, rfl⟩)
  case adrl c u rd rot1 imm1 rot2 imm2 => exact .inr (.inr ⟨c, u, rd, rot1, imm1, rot2, imm2, rfl⟩)
  all_goals left
  case andImm | andShiftImm | andShiftReg | eorImm | eorShiftImm | eorShiftReg | subImm | subShiftImm |
    subShiftReg | rsbImm | rsbShiftImm | rsbShiftReg | addImm | addShiftImm | addShiftReg | adcImm | adcShiftImm |
    adcShiftReg | sbcImm | sbcShiftImm | sbcShiftReg | rscImm | rscShiftImm | rscShiftReg | orrImm | orrShiftImm |
    orrShiftReg | bicImm | bicShiftImm | bicShiftReg =>
    exact ⟨.proc _ _ _ _ _, fun _ => rfl, fun _ => rfl⟩
  case movImm | movShiftImm | movShiftReg | mvnImm | mvnShiftImm | mvnShiftReg | nop =>
    exact ⟨.move _ _ _ _, fun _ => rfl, fun _ => rfl⟩
  case tstImm | tstShiftImm | tstShiftReg | teqImm | teqShiftImm | teqShiftReg | cmpImm | cmpShiftImm |
    cmpShiftReg | cmnImm | cmnShiftImm | cmnShiftReg =>
    exact ⟨.compare _ _ _, fun _ => rfl, fun _ => rfl⟩
  case ldrLabel c u rd imm =>
    exact ⟨.transfer ⟨true, 4, false, false, true, .offset, u, 15#4, rd, .imm (imm.setWidth 32)⟩, fun _ => rfl,
      fun _ => rfl⟩
  case adr u rd rot imm =>
    cases u
    · exact ⟨.proc .sub false rd 15#4 (.imm rot imm), fun _ => rfl, fun _ => rfl⟩
    · exact ⟨.proc .add false rd 15#4 (.imm rot imm), fun _ => rfl, fun _ => rfl⟩
  case mrsCpsr => exact ⟨.mrsCpsr _, fun _ => rfl, fun _ => rfl⟩
  case mrsSpsr => exact ⟨.mrsSpsr _, fun _ => rfl, fun _ => rfl⟩
  case msrCpsrReg => exact ⟨.msrCpsrReg _ _, fun _ => rfl, fun _ => rfl⟩
  case msrSpsrReg => exact ⟨.msrSpsrReg _ _, fun _ => rfl, fun _ => rfl⟩
  case msrCpsrImm => exact ⟨.msrCpsrImm _ _, fun _ => rfl, fun _ => rfl⟩
  case msrSpsrImm => exact ⟨.msrSpsrImm _ _, fun _ => rfl, fun _ => rfl⟩
  case mul c sf rd rm rs => exact ⟨.multiply sf rd rm [rs] _, fun _ => rfl, fun _ => rfl⟩
  case mla c sf rd rm rs rn => exact ⟨.multiply sf rd rm [rs, rn] _, fun _ => rfl, fun _ => rfl⟩
  case umull | umlal | smull | smlal => exact ⟨.longMultiply _ _ _ _ _ _, fun _ => rfl, fun _ => rfl⟩
  case bx => exact ⟨.branchExchange _, fun _ => rfl, fun _ => rfl⟩
  case swp => exact ⟨.swapWord _ _ _, fun _ => rfl, fun _ => rfl⟩
  case swpb => exact ⟨.swapByte _ _ _, fun _ => rfl, fun _ => rfl⟩
  case ldm => exact ⟨.loadMultiple _ _ _ _, fun _ => rfl, fun _ => rfl⟩
  case ldmUser => exact ⟨.loadUser _ _ _ _, fun _ => rfl, fun _ => rfl⟩
  case ldmReturn => exact ⟨.loadReturn _ _ _ _, fun _ => rfl, fun _ => rfl⟩
  case stm => exact ⟨.storeMultiple _ _ _ _, fun _ => rfl, fun _ => rfl⟩
  case stmUser => exact ⟨.storeUser _ _ _ _, fun _ => rfl, fun _ => rfl⟩
  case b => exact ⟨.branch _, fun _ => rfl, fun _ => rfl⟩
  case bl => exact ⟨.branchLink _, fun _ => rfl, fun _ => rfl⟩
  case swi => exact ⟨.softwareInterrupt, fun _ => rfl, fun _ => rfl⟩
  all_goals cases hf

end Sys2Proof.Proofs

/-! Every body stays within its permits: it completes, or takes the one exception it may take (R132, R170, R250, R280,
R322, R327). -/

namespace Sys2Proof.Proofs

open Sys2Proof Sys2Proof.Machine

/-! ### Aligned addresses (R26) -/

theorem and_three_eq_zero_iff (a : Word) : a &&& 3#32 = 0#32 ↔ a.toNat % 4 = 0 := by
  rw [← BitVec.toNat_inj, BitVec.toNat_and, show (3#32).toNat = 2 ^ 2 - 1 from rfl, Nat.and_two_pow_sub_one_eq_mod]
  rfl

theorem and_wordMask_aligned (a : Word) : a &&& 0xFFFFFFFC#32 &&& 3#32 = 0#32 := by
  rw [BitVec.and_assoc]
  exact BitVec.and_zero

theorem add_four_aligned {a : Word} (h : a &&& 3#32 = 0#32) : a + 4#32 &&& 3#32 = 0#32 := by
  rw [and_three_eq_zero_iff] at h ⊢
  rw [BitVec.toNat_add, BitVec.toNat_ofNat]
  omega

theorem branchTarget_aligned {pc : Word} (off : BitVec 24) (h : pc &&& 3#32 = 0#32) :
    branchTarget pc off &&& 3#32 = 0#32 := by
  rw [and_three_eq_zero_iff] at h ⊢
  have hoff : (off.signExtend 32 <<< 2).toNat % 4 = 0 := by
    rw [BitVec.toNat_shiftLeft, Nat.shiftLeft_eq]
    omega
  rw [branchTarget, BitVec.toNat_add, BitVec.toNat_add, BitVec.toNat_ofNat]
  omega

/-! ### What a state keeps of another -/

/-- Outside the listed ranges every byte reads as before and is recorded as stored to only if it was (R65, R75). -/
def KeepsOutside (l : List (Word × Nat)) (s t : State) : Prop :=
  Memory.wf s.mem = true → ∀ x : Nat, (∀ a n, (a, n) ∈ l → x < a.toNat ∨ a.toNat + n ≤ x) →
    t.byteAt x = s.byteAt x ∧ (x ∈ t.written ↔ x ∈ s.written)

/-- What an instruction keeps whether it completes or takes an exception. -/
structure KeepsRest (P : Permits) (s t : State) : Prop where
  regs : ∀ q, q ∉ physList s.cpsr.mode P.regs → q ∉ physList .usr P.userRegs → t.gpr q = s.gpr q
  mem : KeepsOutside P.stores s t
  mark : t.afterUserLdm = s.afterUserLdm ∨ P.mark = true

/-- The CPSR bits that an instruction which completes keeps; in User mode the control bits always (R34). -/
structure CpsrWithin (P : Permits) (p q : Cpsr) : Prop where
  flags : P.flags = false → q.n = p.n ∧ q.z = p.z ∧ q.c = p.c
  overflow : P.overflow = false → q.v = p.v
  control : P.control = false ∨ p.mode = .usr → q.i = p.i ∧ q.f = p.f ∧ q.mode = p.mode
  thumb : P.control = false → P.thumb = false → q.t = p.t

/-- An instruction completes within its permits; its next address is aligned in ARM state (R26). -/
structure Completes (P : Permits) (s t : State) : Prop where
  rest : KeepsRest P s t
  cpsr : CpsrWithin P s.cpsr t.cpsr
  spsrs : ∀ m, P.spsr = false ∨ m ≠ s.cpsr.mode → t.spsr? m = s.spsr? m
  pc : s.pc &&& 3#32 = 0#32 → t.pcAligned

/-- The state in which an instruction takes a Data abort. -/
structure Interrupted (P : Permits) (s u : State) : Prop where
  rest : KeepsRest P s u
  cpsr : u.cpsr = s.cpsr
  spsrs : ∀ m, u.spsr? m = s.spsr? m

/-- What an instruction that answers a next state did: it completed, or it took an exception (R302, R327). -/
inductive Outcome (P : Permits) (s t : State) : Prop
  | completes (h : Completes P s t)
  | swi (hp : P.swi = true) (ht : t = enter .swi (s.pc + 4#32) s)
  | aborts (hp : P.abort = true) (u : State) (h : Interrupted P s u) (ht : t = enter .dataAbort (s.pc + 8#32) u)

theorem mem_physList (m : Mode) (l : List Reg) (q : PhysReg) : q ∈ physList m l ↔ ∃ r ∈ l, phys m r = some q :=
  List.mem_filterMap

/-- A register whose number is permitted is the only one that changes. -/
theorem not_phys_of_not_mem {m : Mode} {l : List Reg} {q : PhysReg} (h : q ∉ physList m l) {r : Reg} (hr : r ∈ l) :
    phys m r ≠ some q :=
  fun e => h ((mem_physList m l q).mpr ⟨r, hr, e⟩)

theorem keepsOutside_of_eq {l : List (Word × Nat)} {s t : State} (hm : t.mem = s.mem) (hw : t.written = s.written) :
    KeepsOutside l s t := by
  intro _ x _
  rw [State.byteAt, State.byteAt, hm, hw]
  exact ⟨rfl, .rfl⟩

theorem keepsOutside_stored {l : List (Word × Nat)} (s : State) (a : Word) (n : Nat) (v : Word) (h : (a, n) ∈ l) :
    KeepsOutside l s (s.stored a n v) := by
  intro hwf x hx
  have hout := hx a n h
  refine ⟨Memory.byte_store_outside _ _ _ _ _ hwf hout, ?_⟩
  rw [State.stored_written, Written.mem_add]
  exact or_iff_right (by omega)

theorem KeepsOutside.trans {l : List (Word × Nat)} {s t u : State} (h : KeepsOutside l s t) (hs : StoresOnly s t)
    (k : KeepsOutside l t u) : KeepsOutside l s u := by
  intro hwf x hx
  obtain ⟨hb, hw⟩ := h hwf x hx
  obtain ⟨hb', hw'⟩ := k (hs.mem_wf hwf) x hx
  exact ⟨hb'.trans hb, hw'.trans hw⟩

theorem cpsrWithin_of_eq {P : Permits} {p q : Cpsr} (h : q = p) : CpsrWithin P p q := by
  subst h
  exact ⟨fun _ => ⟨rfl, rfl, rfl⟩, fun _ => rfl, fun _ => ⟨rfl, rfl, rfl⟩, fun _ _ => rfl⟩

/-- Nothing but registers changed. -/
theorem keepsRest_of_regs {P : Permits} {s t : State} (hm : t.mem = s.mem) (hw : t.written = s.written)
    (ha : t.afterUserLdm = s.afterUserLdm)
    (hr : ∀ q, q ∉ physList s.cpsr.mode P.regs → q ∉ physList .usr P.userRegs → t.gpr q = s.gpr q) :
    KeepsRest P s t :=
  ⟨hr, keepsOutside_of_eq hm hw, .inl ha⟩

/-- Going on to the next instruction keeps the PC aligned. -/
theorem onward_pcAligned {s u : State} (hpc : u.pc = s.pc) (h : s.pc &&& 3#32 = 0#32) : u.onward.pcAligned := by
  intro _
  show u.pc + 4#32 &&& 3#32 = 0#32
  rw [hpc]
  exact add_four_aligned h

/-- An instruction that completes and goes on. -/
theorem completes_onward {P : Permits} {s u : State} (hr : KeepsRest P s u) (hc : CpsrWithin P s.cpsr u.cpsr)
    (hs : ∀ m, P.spsr = false ∨ m ≠ s.cpsr.mode → u.spsr? m = s.spsr? m) (hpc : u.pc = s.pc) :
    Completes P s u.onward :=
  ⟨⟨hr.regs, hr.mem, hr.mark⟩, hc, hs, onward_pcAligned hpc⟩

/-- An instruction that writes one general register and goes on. -/
theorem completes_setReg {P : Permits} {s : State} {rd : Reg} (v : Word) (hrd : rd ∈ P.regs) (h15 : rd ≠ 15#4) :
    Completes P s (s.setReg rd v).onward := by
  refine completes_onward (keepsRest_of_regs (by simp) (by simp) (by simp) fun q hq _ => ?_)
    (cpsrWithin_of_eq (by simp)) (fun m _ => by simp) (State.setReg_pc s rd v h15)
  rw [State.gpr_setReg, if_neg (not_phys_of_not_mem hq hrd)]

/-- A failed condition leaves an instruction nothing but to go on (R132). -/
theorem completes_idle (P : Permits) (s : State) : Completes P s s.onward :=
  completes_onward (keepsRest_of_regs rfl rfl rfl fun _ _ _ => rfl) (cpsrWithin_of_eq rfl) (fun _ _ => rfl) rfl

/-! ### Data processing (R170) -/

/-- The V that an operation without a carry of its own gives is the old one (R224). -/
theorem dpResult_v (op : DpOp) (h : givesOverflow op = false) (a sv : Word) (sc : Bool) (p : Cpsr) :
    (dpResult op a sv sc p).v = p.v := by
  cases op
  all_goals simp only [givesOverflow, reduceCtorEq] at h
  all_goals rfl

theorem completes_finishDp {op : DpOp} {sf : Bool} {rd : Reg} {r : DpResult} {s t : State}
    (hv : givesOverflow op = false → r.v = s.cpsr.v) (h : finishDp sf rd r s = .next t) :
    Completes (destinationPermits op sf rd) s t := by
  have hmem : rd ∈ (destinationPermits op sf rd).regs := List.mem_singleton_self rd
  rcases finishDp_next h with ⟨hrd, -, rfl⟩ | ⟨hrd, hsf, hal, rfl⟩ | ⟨hrd, hsf, p, c, hp, -, hal, rfl⟩
  · cases sf
    case false => exact completes_setReg r.value hmem hrd
    case true =>
      refine completes_onward (keepsRest_of_regs (by simp) (by simp) (by simp) fun q hq _ => ?_) ?_
        (fun m _ => ?_) (by simp [State.setReg_pc s rd _ hrd])
      · rw [if_pos rfl, State.gpr_setFlags, State.gpr_setReg, if_neg (not_phys_of_not_mem hq hmem)]
      · refine ⟨fun hf => (by cases hf), fun ho => ?_, fun _ => ⟨?_, ?_, ?_⟩, fun _ _ => ?_⟩
        · cases hop : givesOverflow op
          · exact hv hop
          · simp [destinationPermits, hop] at ho
        all_goals simp [State.setFlags, Cpsr.withResult]
      · exact (State.spsr?_setReg s rd r.value m)
  · exact ⟨keepsRest_of_regs rfl rfl rfl fun _ _ _ => rfl, cpsrWithin_of_eq rfl, fun _ _ => rfl, fun _ _ => hal⟩
  · subst hrd hsf
    refine ⟨keepsRest_of_regs rfl rfl rfl fun _ _ _ => rfl, ⟨fun hf => (by cases hf), fun ho => ?_, fun hu => ?_,
      fun hu => (by cases hu)⟩, fun _ _ => rfl, fun _ => hal⟩
    · cases hop : givesOverflow op <;> simp [destinationPermits, hop] at ho
    · rcases hu with hu | hu
      · cases hu
      · rw [hu] at hp; cases hp

theorem completes_dataCompare {op : DpOp} {rn : Reg} {so : ShiftOp} {s t : State}
    (h : dataCompare op rn so s = .next t) :
    Completes { Permits.idle with flags := true, overflow := givesOverflow op } s t := by
  obtain ⟨-, -, rfl⟩ := dataCompare_next h
  refine completes_onward (keepsRest_of_regs rfl rfl rfl fun _ _ _ => rfl) ?_ (fun _ _ => rfl) rfl
  exact ⟨fun hf => (by cases hf), fun ho => dpResult_v op ho _ _ _ _, fun _ => ⟨rfl, rfl, rfl⟩, fun _ _ => rfl⟩

/-! ### Status registers (R173 to R178) -/

theorem completes_readPsr {rd : Reg} {p : Psr} {s t : State} (h : readPsr rd p s = .next t) :
    Completes { Permits.idle with regs := [rd] } s t := by
  obtain ⟨hrd, -, rfl⟩ := readPsr_next h
  refine completes_onward (keepsRest_of_regs (by simp) (by simp) (by simp) fun q hq _ => ?_)
    (cpsrWithin_of_eq (by simp)) (fun m _ => ?_) (by simp [State.setReg_pc s rd _ hrd])
  · rw [State.gpr_afterDraw, State.gpr_setReg, if_neg (not_phys_of_not_mem hq (List.mem_singleton_self rd))]
  · exact State.spsr?_setReg s rd _ m

/-- The CPSR that `msr` writes: outside the selected fields, and in User mode outside the flags, nothing changes (R34,
R175). -/
theorem cpsrWithin_writeCpsr {fields : PsrFields} {v : Word} {s t : State} (h : writeCpsr fields v s = .next t) :
    CpsrWithin { Permits.idle with flags := fields.f, overflow := fields.f, control := fields.c } s.cpsr t.cpsr := by
  obtain ⟨-, p, rfl, ht, hu⟩ := writeCpsr_next h
  have hfields : (fields.f = false → p.n = s.cpsr.n ∧ p.z = s.cpsr.z ∧ p.c = s.cpsr.c ∧ p.v = s.cpsr.v) ∧
      (fields.c = false → p.i = s.cpsr.i ∧ p.f = s.cpsr.f ∧ p.mode = s.cpsr.mode) := by
    unfold writeCpsr at h
    simp only at h
    split at h
    case isFalse hc =>
      obtain ⟨-, he⟩ := advance_next h
      obtain rfl : p = if fields.f = true then s.cpsr.withFlagsOf v else s.cpsr := congrArg State.cpsr he
      cases fields.f <;> simp [Cpsr.withFlagsOf]
    case isTrue hc =>
      rw [Bool.and_eq_true] at hc
      split at h
      · cases h
      · rename_i q hq
        obtain ⟨-, he⟩ := advance_next h
        obtain rfl : p = q := congrArg State.cpsr he
        refine ⟨fun hf => ?_, fun hcf => by rw [hcf] at hc; cases hc.1⟩
        rw [hf] at hq
        unfold Cpsr.withControlOf at hq
        split at hq
        · cases hq
        · split at hq
          · cases hq
          · obtain rfl := Except.ok.inj hq
            exact ⟨rfl, rfl, rfl, rfl⟩
  obtain ⟨hflags, hcontrol⟩ := hfields
  refine ⟨fun hf => ?_, fun hf => ?_, fun hc => ?_, fun _ _ => ht⟩
  · obtain ⟨hn, hz, hcc, -⟩ := hflags hf
    exact ⟨hn, hz, hcc⟩
  · obtain ⟨-, -, -, hv⟩ := hflags hf
    exact hv
  · rcases hc with hc | hc
    · exact hcontrol hc
    · obtain ⟨hm, hi, hf⟩ := hu hc
      exact ⟨hi, hf, hm⟩

theorem completes_writeCpsr {fields : PsrFields} {v : Word} {s t : State} (h : writeCpsr fields v s = .next t) :
    Completes { Permits.idle with flags := fields.f, overflow := fields.f, control := fields.c } s t := by
  have hc := cpsrWithin_writeCpsr h
  obtain ⟨-, p, rfl, -, -⟩ := writeCpsr_next h
  exact completes_onward (keepsRest_of_regs rfl rfl rfl fun _ _ _ => rfl) hc (fun _ _ => rfl) rfl

theorem completes_writeSpsr {fields : PsrFields} {v : Word} {s t : State} (h : writeSpsr fields v s = .next t) :
    Completes { Permits.idle with spsr := true } s t := by
  obtain ⟨-, p, q, -, rfl⟩ := writeSpsr_next h
  refine completes_onward (keepsRest_of_regs (by simp) (by simp) (by simp) fun q _ _ => by simp)
    (cpsrWithin_of_eq (by simp)) (fun m hm => ?_) (by simp)
  have hne : m ≠ s.cpsr.mode := hm.resolve_left (by simp)
  simp [State.spsr?_setSpsr, hne]

/-! ### Multiplies and branches (R196 to R203, R240 to R242) -/

theorem completes_multiply {sf : Bool} {rd : Reg} {p : Word} {s t : State} (hrd : rd ≠ 15#4)
    (h : multiply sf rd p s = .next t) : Completes { Permits.idle with regs := [rd], flags := sf } s t := by
  obtain ⟨-, rfl⟩ := multiply_next hrd h
  have hmem : rd ∈ [rd] := List.mem_singleton_self rd
  cases sf
  case false => exact completes_setReg p hmem hrd
  case true =>
    refine completes_onward (keepsRest_of_regs (by simp) (by simp) (by simp) fun q hq _ => ?_) ?_
      (fun m _ => State.spsr?_setReg s rd p m) (by simp [State.setReg_pc s rd _ hrd])
    · rw [if_pos rfl, State.gpr_multiplyFlags, State.gpr_setReg, if_neg (not_phys_of_not_mem hq hmem)]
    · refine ⟨fun hf => (by cases hf), fun _ => ?_, fun _ => ⟨?_, ?_, ?_⟩, fun _ _ => ?_⟩
      all_goals simp [State.multiplyFlags, Cpsr.withNZ]

theorem completes_longMultiply {sf : Bool} {rdLo rdHi : Reg} {p : BitVec 64} {s t : State} (hlo : rdLo ≠ 15#4)
    (hhi : rdHi ≠ 15#4) (h : longMultiply sf rdLo rdHi p s = .next t) :
    Completes { Permits.idle with regs := [rdLo, rdHi], flags := sf, overflow := sf } s t := by
  obtain ⟨-, rfl⟩ := longMultiply_next hlo hhi h
  have hregs : ∀ q, q ∉ physList s.cpsr.mode [rdLo, rdHi] →
      ((s.setReg rdLo (p.extractLsb' 0 32)).setReg rdHi (p.extractLsb' 32 32)).gpr q = s.gpr q := by
    intro q hq
    rw [State.gpr_setReg, State.setReg_cpsr, if_neg (not_phys_of_not_mem hq (by simp)), State.gpr_setReg,
      if_neg (not_phys_of_not_mem hq (by simp))]
  have hpc : ((s.setReg rdLo (p.extractLsb' 0 32)).setReg rdHi (p.extractLsb' 32 32)).pc = s.pc := by
    rw [State.setReg_pc _ rdHi _ hhi, State.setReg_pc s rdLo _ hlo]
  cases sf
  case false =>
    exact completes_onward (keepsRest_of_regs (by simp) (by simp) (by simp) fun q hq _ => hregs q hq)
      (cpsrWithin_of_eq (by simp)) (fun m _ => by simp) hpc
  case true =>
    refine completes_onward (keepsRest_of_regs (by simp) (by simp) (by simp) fun q hq _ => hregs q hq) ?_
      (fun m _ => (State.spsr?_setReg _ _ _ m).trans (State.spsr?_setReg _ _ _ m)) hpc
    refine ⟨fun hf => (by cases hf), fun ho => (by cases ho), fun _ => ⟨?_, ?_, ?_⟩, fun _ _ => ?_⟩
    all_goals simp [State.longMultiplyFlags, Cpsr.withNZLong]

/-- A word whose two low bits are clear is a multiple of 4. -/
theorem and_three_of_low_bits {a : Word} (h0 : a.getLsbD 0 = false) (h1 : a.getLsbD 1 = false) :
    a &&& 3#32 = 0#32 := by
  have hodd : ¬a.toNat % 2 = 1 := fun e => by rw [(getLsbD_zero_iff_odd a).mpr e] at h0; cases h0
  have htwo : ¬a.toNat / 2 % 2 = 1 := fun e => by rw [(getLsbD_one_iff a).mpr e] at h1; cases h1
  rw [and_three_eq_zero_iff]
  omega

theorem completes_branchExchange {a : Word} {s t : State} (h : branchExchange s a = .next t) :
    Completes { Permits.idle with thumb := true } s t := by
  rcases branchExchange_next h with ⟨-, rfl⟩ | ⟨h0, h1, rfl⟩
  · exact ⟨keepsRest_of_regs rfl rfl rfl fun _ _ _ => rfl,
      ⟨fun _ => ⟨rfl, rfl, rfl⟩, fun _ => rfl, fun _ => ⟨rfl, rfl, rfl⟩, fun _ ht => (by cases ht)⟩, fun _ _ => rfl,
      fun _ ht => (by cases ht)⟩
  · exact ⟨keepsRest_of_regs rfl rfl rfl fun _ _ _ => rfl,
      ⟨fun _ => ⟨rfl, rfl, rfl⟩, fun _ => rfl, fun _ => ⟨rfl, rfl, rfl⟩, fun _ ht => (by cases ht)⟩, fun _ _ => rfl,
      fun _ _ => and_three_of_low_bits h0 h1⟩

theorem completes_branch (s : State) (off : BitVec 24) :
    Completes Permits.idle s { s with pc := branchTarget s.pc off } :=
  ⟨keepsRest_of_regs rfl rfl rfl fun _ _ _ => rfl, cpsrWithin_of_eq rfl, fun _ _ => rfl,
    fun h _ => branchTarget_aligned off h⟩

theorem completes_branchLink (s : State) (off : BitVec 24) :
    Completes { Permits.idle with regs := [14#4] } s
      { s.setReg 14#4 (s.pc + 4#32) with pc := branchTarget s.pc off } := by
  refine ⟨keepsRest_of_regs (by simp) (by simp) (by simp) fun q hq _ => ?_, cpsrWithin_of_eq (by simp),
    fun m _ => ?_, fun h _ => branchTarget_aligned off h⟩
  · rw [State.gpr_withPc, State.gpr_setReg, if_neg (not_phys_of_not_mem hq (List.mem_singleton_self _))]
  · exact State.spsr?_setReg s 14#4 (s.pc + 4#32) m

end Sys2Proof.Proofs

/-! The loads, stores, swaps and block transfers stay within their permits, and so does every instruction (R250 to R262,
R280 to R287, R300, R301, R327). -/

namespace Sys2Proof.Proofs

open Sys2Proof Sys2Proof.Machine

/-! ### Single-register transfers and swaps -/

/-- The base write changes the base alone. -/
theorem gpr_writeBase_of_not_mem {s : State} {idx : Index} {u : Bool} {rn : Reg} {off : Offset} {q : PhysReg}
    (h : Index.writesBase idx = true → phys s.cpsr.mode rn ≠ some q) : (s.writeBase idx u rn off).gpr q = s.gpr q := by
  rw [State.gpr_writeBase, if_neg fun e => h e.1 e.2]

theorem spsr?_writeBase (s : State) (idx : Index) (u : Bool) (rn : Reg) (off : Offset) (m : Mode) :
    (s.writeBase idx u rn off).spsr? m = s.spsr? m := by
  unfold State.writeBase
  split
  · exact State.spsr?_setReg s rn _ m
  · rfl

theorem writesBase_ne_fifteen {idx : Index} {rn rd : Reg} {off : Offset}
    (h : transferRefusal idx rn rd off = none) (hw : Index.writesBase idx = true) : rn ≠ 15#4 := by
  obtain ⟨-, hbase⟩ := (transferRefusal_none_iff idx rn rd off).mp h
  exact (hbase hw).1

/-- The base of a transfer is permitted when it is written. -/
theorem base_mem_permits (f : Transfer) (s : State) (h : Index.writesBase f.idx = true) :
    f.rn ∈ ((Body.transfer f).permits s).regs :=
  List.mem_append_right _ (by rw [if_pos h]; exact List.mem_singleton_self _)

theorem destination_mem_permits (f : Transfer) (s : State) (h : f.load = true) :
    f.rd ∈ ((Body.transfer f).permits s).regs :=
  List.mem_append_left _ (by rw [if_pos h]; exact List.mem_singleton_self _)

/-- The state in which a transfer takes its Data abort: at most the base is written. -/
theorem outcome_abortedTransfer (f : Transfer) (s : State) (h : transferRefusal f.idx f.rn f.rd f.off = none) :
    Outcome ((Body.transfer f).permits s) s
      (enter .dataAbort ((s.abortedBase f.idx f.u f.rn f.off).pc + 8#32) (s.abortedBase f.idx f.u f.rn f.off)) := by
  rcases abortedBase_eq s f.idx f.u f.rn f.off with hb | hb
  · rw [hb]
    exact .aborts rfl s ⟨keepsRest_of_regs rfl rfl rfl fun _ _ _ => rfl, rfl, fun _ => rfl⟩ rfl
  · rw [hb, State.writeBase_pc s f.idx f.u f.rn f.off (writesBase_ne_fifteen h)]
    refine .aborts rfl _ ⟨keepsRest_of_regs (by simp) (by simp) (by simp) fun q hq _ => ?_, by simp,
      spsr?_writeBase s f.idx f.u f.rn f.off⟩ rfl
    exact gpr_writeBase_of_not_mem fun hw => not_phys_of_not_mem hq (base_mem_permits f s hw)

theorem outcome_loadRow (f : Transfer) {s t : State} (hload : f.load = true)
    (h : loadSingle f.width (rowExtension f) f.pcOk (f.privilege s) f.idx f.u f.rn f.rd f.off s = .next t) :
    Outcome ((Body.transfer f).permits s) s t := by
  obtain ⟨hr, -, ⟨-, rfl⟩ | ⟨v, -, ⟨-, rfl⟩ | ⟨hrd, -, rfl⟩⟩⟩ := loadSingle_next h
  case inl => exact outcome_abortedTransfer f s hr
  all_goals
    have hbase : ∀ q, q ∉ physList s.cpsr.mode ((Body.transfer f).permits s).regs →
        (s.writeBase f.idx f.u f.rn f.off).gpr q = s.gpr q := fun q hq =>
      gpr_writeBase_of_not_mem fun hw => not_phys_of_not_mem hq (base_mem_permits f s hw)
  case inr.inl =>
    exact .completes ⟨keepsRest_of_regs (by simp) (by simp) (by simp) fun q hq _ => hbase q hq,
      cpsrWithin_of_eq (by simp), fun m _ => spsr?_writeBase s f.idx f.u f.rn f.off m,
      fun _ _ => and_wordMask_aligned v⟩
  case inr.inr =>
    refine .completes (completes_onward (keepsRest_of_regs (by simp) (by simp) (by simp) fun q hq _ => ?_)
      (cpsrWithin_of_eq (by simp)) (fun m _ => ?_) ?_)
    · rw [State.gpr_setReg, State.writeBase_cpsr, if_neg (not_phys_of_not_mem hq (destination_mem_permits f s hload)),
        hbase q hq]
    · rw [State.spsr?_setReg, spsr?_writeBase]
    · rw [State.setReg_pc _ _ _ hrd, State.writeBase_pc s f.idx f.u f.rn f.off (writesBase_ne_fifteen hr)]

theorem outcome_storeRow (f : Transfer) {s t : State} (hload : f.load = false)
    (h : storeSingle f.width f.pcOk (f.privilege s) f.idx f.u f.rn f.rd f.off s = .next t) :
    Outcome ((Body.transfer f).permits s) s t := by
  obtain ⟨hr, -, ⟨-, rfl⟩ | ⟨k, hk, -, rfl⟩⟩ := storeSingle_next h
  case inl => exact outcome_abortedTransfer f s hr
  case inr =>
    obtain ⟨-, rfl⟩ := (writeMem_ok_iff _ _ _ _ _ _).mp hk
    have hstore : KeepsOutside ((Body.transfer f).permits s).stores s
        (s.stored (f.address s) f.width (if f.rd = 15#4 then s.storedPc else s.reg f.rd)) := by
      apply keepsOutside_stored
      simp [Body.permits, hload]
    refine .completes (completes_onward ⟨fun q hq _ => ?_, fun hwf x hx => ?_, .inl (by simp)⟩
      (cpsrWithin_of_eq (by simp)) (fun m _ => ?_) ?_)
    · refine (gpr_writeBase_of_not_mem fun hw => ?_).trans (State.gpr_stored ..)
      exact not_phys_of_not_mem hq (base_mem_permits f s hw)
    · have hx' := hstore hwf x hx
      rw [State.byteAt, State.writeBase_mem, State.writeBase_written]
      exact hx'
    · exact spsr?_writeBase _ _ _ _ _ m
    · rw [State.writeBase_pc _ _ _ _ _ (writesBase_ne_fifteen hr), State.stored_pc]

/-- A swap of `n` bytes changes its destination and the bytes at its address, or takes its Data abort before it changes
anything (R300). -/
theorem outcome_swap {P : Permits} {n : Nat} {ext : Word → Word} {rd rm rn : Reg} {s t : State} (hrd : rd ∈ P.regs)
    (hstore : (s.reg rn, n) ∈ P.stores) (habort : P.abort = true) (h : swap n ext rd rm rn s = .next t) :
    Outcome P s t := by
  obtain ⟨hr, rfl | ⟨v, k, -, hk, -, rfl⟩⟩ := swap_next h
  case inl => exact .aborts habort s ⟨keepsRest_of_regs rfl rfl rfl fun _ _ _ => rfl, rfl, fun _ => rfl⟩ rfl
  case inr =>
    obtain ⟨-, rfl⟩ := (writeMem_ok_iff _ _ _ _ _ _).mp hk
    have h15 : rd ≠ 15#4 := by
      rintro rfl
      simp [swapRefusal] at hr
    refine .completes (completes_onward ⟨fun q hq _ => ?_, fun hwf x hx => ?_, .inl (by simp)⟩
      (cpsrWithin_of_eq (by simp)) (fun m _ => ?_) ?_)
    · rw [State.gpr_setReg, State.stored_cpsr, if_neg (not_phys_of_not_mem hq hrd), State.gpr_stored]
    · rw [State.byteAt, State.setReg_mem, State.setReg_written]
      exact keepsOutside_stored s (s.reg rn) n (s.reg rm) hstore hwf x hx
    · exact State.spsr?_setReg _ _ _ m
    · rw [State.setReg_pc _ _ _ h15, State.stored_pc]

/-! ### Loads of a block (R280 to R284, R287) -/

/-- The base of a block transfer is written in the current bank. -/
theorem gpr_writeBlockBase_of_not_mem {s : State} {am : BlockMode} {w : Bool} {rn : Reg} {n : Nat} {q : PhysReg}
    (h : w = true → phys s.cpsr.mode rn ≠ some q) : (s.writeBlockBase am w rn n).gpr q = s.gpr q := by
  rw [State.gpr_writeBlockBase, if_neg fun e => h e.1 e.2]

theorem spsr?_writeBlockBase (s : State) (am : BlockMode) (w : Bool) (rn : Reg) (n : Nat) (m : Mode) :
    (s.writeBlockBase am w rn n).spsr? m = s.spsr? m := by
  unfold State.writeBlockBase
  split
  · exact State.spsr?_setReg s rn _ m
  · rfl

/-- A register that no listed number names in the bank is not loaded. -/
theorem gpr_loadRegs_zip {m : Mode} {list : BitVec 16} {vs : List Word} {s : State} {q : PhysReg}
    (h : ∀ r ∈ regsOf list, phys m r ≠ some q) : (loadRegs m ((regsOf list).zip vs) s).gpr q = s.gpr q := by
  apply gpr_loadRegs_of_not_mem
  intro x hx
  obtain ⟨r, v⟩ := x
  exact h r (List.of_mem_zip hx).1

/-- Loading registers keeps the PC aligned: R15 receives its word with the low bits cleared (R281). -/
theorem loadRegs_pc_aligned (m : Mode) (l : List (Reg × Word)) (s : State) (h : s.pc &&& 3#32 = 0#32) :
    (loadRegs m l s).pc &&& 3#32 = 0#32 := by
  induction l generalizing s with
  | nil => exact h
  | cons x rest ih =>
    obtain ⟨r, v⟩ := x
    apply ih
    by_cases hr : r = 15#4
    · rw [hr, State.setRegIn_fifteen, if_pos rfl]
      exact and_wordMask_aligned v
    · rw [State.setRegIn_pc s m r _ hr]
      exact h

/-- The state in which an `ldm` takes its Data abort: at most listed registers and the base are written (R287). -/
theorem interrupted_loadBlock {P : Permits} {am : BlockMode} {w : Bool} {rn : Reg} {list : BitVec 16} {m : Mode}
    {s : State} (j : Nat)
    (hP : ∀ q, q ∉ physList s.cpsr.mode P.regs → q ∉ physList .usr P.userRegs →
      (∀ r ∈ regsOf list, phys m r ≠ some q) ∧ (w = true → phys s.cpsr.mode rn ≠ some q)) :
    Interrupted P s ((abortedLoads s m rn j s.drawn ((regsOf list).zip (blockAddresses am rn list s)) 0
      (s.abortedBlockBase am w rn (regsOf list).length)).afterDraw) := by
  obtain ⟨-, hc, hm, hw, -, -, ha, hs⟩ := abortedLoads_frame s m rn j s.drawn
    ((regsOf list).zip (blockAddresses am rn list s)) 0 (s.abortedBlockBase am w rn (regsOf list).length)
  refine ⟨keepsRest_of_regs (by simp [hm]) (by simp [hw]) (by simp [ha]) fun q hq hu => ?_, by simp [hc],
    fun k => ?_⟩
  · obtain ⟨hlist, hbase⟩ := hP q hq hu
    have hloads : ∀ x ∈ (regsOf list).zip (blockAddresses am rn list s), phys m x.1 ≠ some q := by
      rintro ⟨r, a⟩ hx
      exact hlist r (List.of_mem_zip hx).1
    rw [State.gpr_afterDraw, gpr_abortedLoads _ _ _ _ _ _ _ _ _ (.inl hloads)]
    rcases abortedBlockBase_eq s am w rn (regsOf list).length with e | e
    · rw [e]
    · rw [e, gpr_writeBlockBase_of_not_mem hbase]
  · refine (hs k).trans ?_
    rcases abortedBlockBase_eq s am w rn (regsOf list).length with e | e
    · rw [e]
    · rw [e, spsr?_writeBlockBase]

/-- A Data abort leaves the PC, so that the link is that of the instruction. -/
theorem abortedLoads_pc {am : BlockMode} {w : Bool} {rn : Reg} {list : BitVec 16} (s : State) (m : Mode) (j : Nat)
    (h : blockRefusal am rn list s = none) :
    ((abortedLoads s m rn j s.drawn ((regsOf list).zip (blockAddresses am rn list s)) 0
      (s.abortedBlockBase am w rn (regsOf list).length)).afterDraw).pc = s.pc := by
  obtain ⟨hpc, -⟩ := abortedLoads_frame s m rn j s.drawn
    ((regsOf list).zip (blockAddresses am rn list s)) 0 (s.abortedBlockBase am w rn (regsOf list).length)
  obtain ⟨-, hrn, -⟩ := blockRefusal_none h
  rw [State.afterDraw_pc, hpc]
  rcases abortedBlockBase_eq s am w rn (regsOf list).length with e | e
  · rw [e]
  · rw [e, State.writeBlockBase_pc s am w rn _ hrn]

/-- An `ldm` takes its Data abort or ends in `finish` with its words. -/
theorem outcome_loadBlock {P : Permits} {am : BlockMode} {w : Bool} {rn : Reg} {list : BitVec 16} {m : Mode}
    {finish : List (Reg × Word) → State → Out} {s t : State}
    (hP : ∀ q, q ∉ physList s.cpsr.mode P.regs → q ∉ physList .usr P.userRegs →
      (∀ r ∈ regsOf list, phys m r ≠ some q) ∧ (w = true → phys s.cpsr.mode rn ≠ some q))
    (habort : P.abort = true)
    (hfinish : ∀ vs, rn ≠ 15#4 →
      finish ((regsOf list).zip vs) (s.writeBlockBase am w rn (regsOf list).length) = .next t → Completes P s t)
    (h : loadBlock am w rn list m finish s = .next t) : Outcome P s t := by
  obtain ⟨hr, ⟨j, -, ht⟩ | ⟨vs, -, ht⟩⟩ := loadBlock_next h
  · have he := dataAbort_next ht
    rw [abortedLoads_pc s m j hr] at he
    exact .aborts habort _ (interrupted_loadBlock j hP) he
  · obtain ⟨-, hrn, -⟩ := blockRefusal_none hr
    exact .completes (hfinish vs hrn ht)

/-- The registers an `ldm` writes in the current bank are its list and its written base. -/
theorem block_regs_permitted {m : Mode} {w : Bool} {rn : Reg} {list : BitVec 16} {q : PhysReg}
    (h : q ∉ physList m (regsOf list ++ (if w then [rn] else []))) :
    (∀ r ∈ regsOf list, phys m r ≠ some q) ∧ (w = true → phys m rn ≠ some q) :=
  ⟨fun _ hr => not_phys_of_not_mem h (List.mem_append_left _ hr),
    fun hw => not_phys_of_not_mem h (List.mem_append_right _ (by rw [if_pos hw]; exact List.mem_singleton_self rn))⟩

/-- The registers and the base of an `ldm` written, and nothing else but the PC. -/
theorem keepsRest_loadRegs {P : Permits} {am : BlockMode} {w : Bool} {rn : Reg} {list : BitVec 16} {m : Mode}
    {s : State} {n : Nat} (vs : List Word)
    (hP : ∀ q, q ∉ physList s.cpsr.mode P.regs → q ∉ physList .usr P.userRegs →
      (∀ r ∈ regsOf list, phys m r ≠ some q) ∧ (w = true → phys s.cpsr.mode rn ≠ some q)) :
    KeepsRest P s (loadRegs m ((regsOf list).zip vs) (s.writeBlockBase am w rn n)) := by
  obtain ⟨-, hm, hw, -, -, ha, -, -⟩ := loadRegs_frame m ((regsOf list).zip vs) (s.writeBlockBase am w rn n)
  refine keepsRest_of_regs (by simp [hm]) (by simp [hw]) (by simp [ha]) fun q hq hu => ?_
  obtain ⟨hlist, hbase⟩ := hP q hq hu
  rw [gpr_loadRegs_zip hlist, gpr_writeBlockBase_of_not_mem hbase]

theorem outcome_loadMultiple {am : BlockMode} {w : Bool} {rn : Reg} {list : BitVec 16} {s t : State}
    (h : loadBlock am w rn list s.cpsr.mode (finishLoad list) s = .next t) :
    Outcome ((Body.loadMultiple am w rn list).permits s) s t := by
  refine outcome_loadBlock (fun q hq _ => block_regs_permitted hq) rfl (fun vs hrn ht => ?_) h
  have hrest := keepsRest_loadRegs (P := (Body.loadMultiple am w rn list).permits s) (am := am) (s := s)
    (n := (regsOf list).length) vs fun q hq _ => block_regs_permitted hq
  obtain ⟨hc, -, -, -, -, -, -, hs⟩ := loadRegs_frame s.cpsr.mode ((regsOf list).zip vs)
    (s.writeBlockBase am w rn (regsOf list).length)
  have hbase : (s.writeBlockBase am w rn (regsOf list).length).pc = s.pc := State.writeBlockBase_pc _ _ _ _ _ hrn
  have hspsr : ∀ m, (loadRegs s.cpsr.mode ((regsOf list).zip vs)
      (s.writeBlockBase am w rn (regsOf list).length)).spsr? m = s.spsr? m := fun m =>
    (hs m).trans (spsr?_writeBlockBase s am w rn _ m)
  unfold finishLoad at ht
  rw [State.writeBlockBase_cpsr] at ht
  split at ht
  · injection ht with ht
    subst ht
    exact ⟨hrest, cpsrWithin_of_eq (by simp [hc]), fun m _ => hspsr m,
      fun hal _ => loadRegs_pc_aligned _ _ _ (hbase ▸ hal)⟩
  · rename_i h15
    obtain ⟨-, rfl⟩ := advance_next ht
    refine completes_onward hrest (cpsrWithin_of_eq (by simp [hc])) (fun m _ => hspsr m) ?_
    rw [loadRegs_pc, hbase]
    rintro ⟨r, v⟩ hx rfl
    exact h15 ((mem_regsOf list 15#4).mp (List.of_mem_zip hx).1)

theorem outcome_loadUser {am : BlockMode} {w : Bool} {rn : Reg} {list : BitVec 16} {s t : State}
    (hw : userBankRefusal w s = none) (h : loadBlock am w rn list .usr finishLoadUser s = .next t) :
    Outcome ((Body.loadUser am w rn list).permits s) s t := by
  have hwf : w = false := by
    unfold userBankRefusal at hw
    cases w
    · rfl
    · split at hw <;> simp at hw
  have hP : ∀ q, q ∉ physList s.cpsr.mode ((Body.loadUser am w rn list).permits s).regs →
      q ∉ physList .usr ((Body.loadUser am w rn list).permits s).userRegs →
      (∀ r ∈ regsOf list, phys .usr r ≠ some q) ∧ (w = true → phys s.cpsr.mode rn ≠ some q) := fun q _ hu =>
    ⟨fun r hr => not_phys_of_not_mem hu hr, fun e => by rw [hwf] at e; cases e⟩
  refine outcome_loadBlock hP rfl (fun vs hrn ht => ?_) h
  obtain ⟨hc, -, -, -, -, -, -, hs⟩ := loadRegs_frame .usr ((regsOf list).zip vs)
    (s.writeBlockBase am w rn (regsOf list).length)
  obtain ⟨-, rfl⟩ := advance_next ht
  have hrest := keepsRest_loadRegs (P := (Body.loadUser am w rn list).permits s) (am := am) (w := w) (rn := rn)
    (n := (regsOf list).length) vs hP
  refine ⟨⟨hrest.regs, hrest.mem, hrest.mark⟩, cpsrWithin_of_eq (by simp [hc]), fun m _ => ?_, fun hal _ => ?_⟩
  · exact (hs m).trans (spsr?_writeBlockBase s am w rn _ m)
  · apply add_four_aligned
    apply loadRegs_pc_aligned
    rw [State.writeBlockBase_pc _ _ _ _ _ hrn]
    exact hal

/-- The mark of a User-bank `ldm` is set besides, also where it takes a Data abort (R375). -/
theorem outcome_marked {P : Permits} {s t : State} (hm : P.mark = true) (hswi : P.swi = false) (h : Outcome P s t) :
    Outcome P s { t with afterUserLdm := true } := by
  cases h with
  | completes h =>
    exact .completes ⟨⟨h.rest.regs, h.rest.mem, .inr hm⟩, h.cpsr, fun m hne => (h.spsrs m hne ▸ by cases m <;> rfl),
      h.pc⟩
  | swi hp ht =>
    rw [hswi] at hp
    cases hp
  | aborts hp u h ht =>
    subst ht
    exact .aborts hp { u with afterUserLdm := true }
      ⟨⟨h.rest.regs, h.rest.mem, .inr hm⟩, h.cpsr, fun m => (h.spsrs m ▸ by cases m <;> rfl)⟩ rfl

theorem outcome_loadReturn {am : BlockMode} {w : Bool} {rn : Reg} {list : BitVec 16} {s t : State}
    (hsp : s.cpsr.mode.hasSpsr = true) (h : loadBlock am w rn list s.cpsr.mode finishLoadReturn s = .next t) :
    Outcome ((Body.loadReturn am w rn list).permits s) s t := by
  refine outcome_loadBlock (fun q hq _ => block_regs_permitted hq) rfl (fun vs hrn ht => ?_) h
  obtain ⟨p, c, -, -, ht⟩ := finishLoadReturn_next ht
  rw [State.writeBlockBase_cpsr] at ht
  obtain ⟨-, hm, hw, -, -, ha, -, hs⟩ := loadRegs_frame s.cpsr.mode
    (((regsOf list).zip vs).filter fun x => decide (x.1 ≠ 15#4)) (s.writeBlockBase am w rn (regsOf list).length)
  have hpc := loadRegs_pc s.cpsr.mode
    (((regsOf list).zip vs).filter fun x => decide (x.1 ≠ 15#4)) (s.writeBlockBase am w rn (regsOf list).length)
    fun x hx => of_decide_eq_true (List.mem_filter.mp hx).2
  have hgpr : ∀ q, q ∉ physList s.cpsr.mode ((Body.loadReturn am w rn list).permits s).regs →
      (loadRegs s.cpsr.mode (((regsOf list).zip vs).filter fun x => decide (x.1 ≠ 15#4))
        (s.writeBlockBase am w rn (regsOf list).length)).gpr q = s.gpr q := by
    intro q hq
    obtain ⟨hlist, hbase⟩ := block_regs_permitted hq
    rw [gpr_loadRegs_of_not_mem, gpr_writeBlockBase_of_not_mem hbase]
    rintro ⟨r, v⟩ hx
    exact hlist r (List.of_mem_zip (List.mem_filter.mp hx).1).1
  have hwithin : CpsrWithin ((Body.loadReturn am w rn list).permits s) s.cpsr c :=
    ⟨fun hf => (by cases hf), fun hf => (by cases hf), fun hu => (by
      rcases hu with hu | hu
      · cases hu
      · rw [hu] at hsp; cases hsp), fun hf => (by cases hf)⟩
  have hspsr : ∀ m, (loadRegs s.cpsr.mode (((regsOf list).zip vs).filter fun x => decide (x.1 ≠ 15#4))
      (s.writeBlockBase am w rn (regsOf list).length)).spsr? m = s.spsr? m := fun m =>
    (hs m).trans (spsr?_writeBlockBase s am w rn _ m)
  rcases ht with ⟨-, rfl⟩ | ⟨x, -, rfl⟩
  · refine ⟨keepsRest_of_regs (hm.trans (by simp)) (hw.trans (by simp)) (ha.trans (by simp)) fun q hq _ => hgpr q hq, hwithin,
      fun m _ => hspsr m, fun hal _ => ?_⟩
    show (loadRegs _ _ _).pc &&& 3#32 = 0#32
    rw [hpc, State.writeBlockBase_pc _ _ _ _ _ hrn]
    exact hal
  · refine ⟨keepsRest_of_regs (hm.trans (by simp)) (hw.trans (by simp)) (ha.trans (by simp)) fun q hq _ => hgpr q hq, hwithin,
      fun m _ => hspsr m, fun _ ht => ?_⟩
    rw [show c.t = false from ht]
    exact and_wordMask_aligned x.2

/-! ### Stores of a block (R285 to R287) -/

/-- The stores of a list change memory and the set of bytes stored to alone. -/
theorem storedAll_eq (l : List (Word × Word)) (s : State) :
    s.storedAll l = { s with mem := (s.storedAll l).mem, written := (s.storedAll l).written } := by
  induction l generalizing s with
  | nil => rfl
  | cons x rest ih =>
    obtain ⟨a, v⟩ := x
    exact ih (s.stored a 4 v)

/-- The stores that an aborted `stm` made change memory and the set of bytes stored to alone. -/
theorem abortedStores_eq (pr : Privilege) (j : Nat) (choice : BitVec 32) (l : List (Word × Word)) (k : Nat) (s : State) :
    abortedStores pr j choice l k s =
      { s with mem := (abortedStores pr j choice l k s).mem, written := (abortedStores pr j choice l k s).written } := by
  induction l generalizing s k with
  | nil => rfl
  | cons x rest ih =>
    obtain ⟨a, v⟩ := x
    rw [abortedStores]
    split
    · exact ih (k + 1) s
    · split
      · rename_i u hu
        obtain ⟨-, rfl⟩ := (writeMem_ok_iff _ _ _ _ _ _).mp hu
        exact ih (k + 1) (s.stored a 4 v)
      · exact ih (k + 1) s
      · exact ih (k + 1) s

theorem keepsOutside_storedAll {r : List (Word × Nat)} (l : List (Word × Word)) (s : State)
    (h : ∀ x ∈ l, (x.1, 4) ∈ r) : KeepsOutside r s (s.storedAll l) := by
  intro hwf x hx
  have hout : ¬∃ y ∈ l, y.1.toNat ≤ x ∧ x < y.1.toNat + 4 := by
    rintro ⟨y, hy, h1, h2⟩
    have := hx y.1 4 (h y hy)
    omega
  exact ⟨byte_storedAll s l x hwf hout, (mem_written_storedAll s l x).trans (or_iff_right hout)⟩

theorem keepsOutside_abortedStores {r : List (Word × Nat)} (pr : Privilege) (j : Nat) (choice : BitVec 32)
    (l : List (Word × Word)) (k : Nat) (s : State) (h : ∀ x ∈ l, (x.1, 4) ∈ r) :
    KeepsOutside r s (abortedStores pr j choice l k s) := by
  induction l generalizing s k with
  | nil => exact keepsOutside_of_eq rfl rfl
  | cons x rest ih =>
    obtain ⟨a, v⟩ := x
    have hrest : ∀ x ∈ rest, (x.1, 4) ∈ r := fun x hx => h x (List.mem_cons_of_mem _ hx)
    rw [abortedStores]
    split
    · exact ih (k + 1) s hrest
    · split
      · rename_i u hu
        have hstores := storesOnly_writeMem (n := 4) (by omega) hu
        obtain ⟨-, rfl⟩ := (writeMem_ok_iff _ _ _ _ _ _).mp hu
        exact (keepsOutside_stored s a 4 v (h _ List.mem_cons_self)).trans hstores (ih (k + 1) _ hrest)
      · exact ih (k + 1) s hrest
      · exact ih (k + 1) s hrest

/-- The stores of an `stm` are to the addresses of its block. -/
theorem blockStores_permitted {am : BlockMode} {rn : Reg} {list : BitVec 16} {m : Mode} {s : State}
    (x : Word × Word) (hx : x ∈ blockStores am rn list m s) :
    (x.1, 4) ∈ (blockAddresses am rn list s).map fun a => (a, 4) :=
  List.mem_map_of_mem (List.of_mem_zip (a := x.1) (b := x.2) hx).1

/-- Setting the base of an aborted block transfer leaves memory, the bytes stored to, the CPSR and the SPSRs. -/
theorem spsr?_abortedBlockBase (s : State) (am : BlockMode) (w : Bool) (rn : Reg) (n : Nat) (m : Mode) :
    (s.abortedBlockBase am w rn n).spsr? m = s.spsr? m := by
  rcases abortedBlockBase_eq s am w rn n with e | e
  · rw [e]
  · rw [e, spsr?_writeBlockBase]

theorem outcome_storeBlock {P : Permits} {am : BlockMode} {w : Bool} {rn : Reg} {list : BitVec 16} {m : Mode}
    {s t : State} (hbase : ∀ q, q ∉ physList s.cpsr.mode P.regs → w = true → phys s.cpsr.mode rn ≠ some q)
    (hstores : P.stores = (blockAddresses am rn list s).map fun a => (a, 4)) (habort : P.abort = true)
    (h : storeBlock am w rn list m s = .next t) : Outcome P s t := by
  obtain ⟨hr, ⟨j, -, ht⟩ | ⟨u, hu, ht⟩⟩ := storeBlock_next h
  all_goals obtain ⟨-, hrn, -⟩ := blockRefusal_none hr
  case inl =>
    have hpc : (s.abortedBlockBase am w rn (regsOf list).length).pc = s.pc := by
      rcases abortedBlockBase_eq s am w rn (regsOf list).length with e | e
      · rw [e]
      · rw [e, State.writeBlockBase_pc s am w rn _ hrn]
    have hgpr : ∀ q, q ∉ physList s.cpsr.mode P.regs →
        (s.abortedBlockBase am w rn (regsOf list).length).gpr q = s.gpr q := by
      intro q hq
      rcases abortedBlockBase_eq s am w rn (regsOf list).length with e | e
      · rw [e]
      · rw [e, gpr_writeBlockBase_of_not_mem (hbase q hq)]
    have hkeeps := keepsOutside_abortedStores (r := P.stores) s.privilege j s.drawn (blockStores am rn list m s) 0
      (s.abortedBlockBase am w rn (regsOf list).length) fun x hx => hstores ▸ blockStores_permitted x hx
    have hte := dataAbort_next ht
    have heq := abortedStores_eq s.privilege j s.drawn (blockStores am rn list m s) 0
      (s.abortedBlockBase am w rn (regsOf list).length)
    generalize abortedStores s.privilege j s.drawn (blockStores am rn list m s) 0
      (s.abortedBlockBase am w rn (regsOf list).length) = v at hkeeps hte heq
    have hvpc : v.afterDraw.pc = s.pc := by rw [State.afterDraw_pc, heq, hpc]
    rw [hvpc] at hte
    refine .aborts habort _ ⟨⟨fun q hq _ => ?_, fun hwf x hx => ?_, .inl ?_⟩, ?_, fun k => ?_⟩ hte
    · rw [State.gpr_afterDraw, heq]
      exact hgpr q hq
    · have hb := hkeeps (by rw [State.abortedBlockBase_mem]; exact hwf) x hx
      simp only [State.byteAt, State.abortedBlockBase_mem, State.abortedBlockBase_written] at hb
      exact hb
    · rw [heq]
      simp
    · rw [heq]
      simp
    · rw [heq]
      exact (by cases k <;> rfl : _ = _).trans (spsr?_abortedBlockBase s am w rn _ k)
  case inr =>
    obtain ⟨rfl, -⟩ := writeBlock_ok hu
    obtain ⟨-, rfl⟩ := advance_next ht
    have hkeeps := keepsOutside_storedAll (r := P.stores) (blockStores am rn list m s) s fun x hx =>
      hstores ▸ blockStores_permitted x hx
    have heq := storedAll_eq (blockStores am rn list m s) s
    generalize s.storedAll (blockStores am rn list m s) = v at hkeeps heq
    have hmode : v.cpsr = s.cpsr := by rw [heq]
    refine .completes (completes_onward ⟨fun q hq _ => ?_, fun hwf x hx => ?_, .inl ?_⟩
      (cpsrWithin_of_eq ?_) (fun k _ => ?_) ?_)
    · rw [gpr_writeBlockBase_of_not_mem (by rw [hmode]; exact hbase q hq), heq]
      rfl
    · have hb := hkeeps hwf x hx
      simp only [State.byteAt, State.writeBlockBase_mem, State.writeBlockBase_written] at hb ⊢
      exact hb
    · rw [State.writeBlockBase_afterUserLdm, heq]
    · rw [State.writeBlockBase_cpsr, hmode]
    · rw [spsr?_writeBlockBase, heq]
      cases k <;> rfl
    · rw [State.writeBlockBase_pc _ _ _ _ _ hrn, heq]

/-! ### Every body and every instruction -/

theorem anyPc_false {l : List Reg} (h : ¬anyPc l = true) {r : Reg} (hr : r ∈ l) : r ≠ 15#4 :=
  fun e => h ((anyPc_iff l).mpr (e ▸ hr))

/-- Every body stays within its permits. -/
theorem outcome_run (b : Body) {s t : State} (h : b.run s = .next t) : Outcome (b.permits s) s t := by
  cases b
  all_goals simp only [Body.run] at h
  case proc op sf rd rn so =>
    obtain ⟨-, h⟩ := dataProc_next h
    exact .completes (completes_finishDp (fun hv => dpResult_v op hv _ _ _ _) h)
  case move op sf rd so =>
    obtain ⟨-, h⟩ := dataMove_next h
    exact .completes (completes_finishDp (fun hv => dpResult_v op hv _ _ _ _) h)
  case compare => exact .completes (completes_dataCompare h)
  case mrsCpsr => exact .completes (completes_readPsr h)
  case mrsSpsr =>
    split at h
    · cases h
    · exact .completes (completes_readPsr h)
  case msrCpsrReg =>
    split at h
    · cases h
    · exact .completes (completes_writeCpsr h)
  case msrSpsrReg =>
    split at h
    · cases h
    · exact .completes (completes_writeSpsr h)
  case msrCpsrImm => exact .completes (completes_writeCpsr h)
  case msrSpsrImm => exact .completes (completes_writeSpsr h)
  case multiply =>
    split at h
    · cases h
    · rename_i hpc
      split at h
      · cases h
      · exact .completes (completes_multiply (anyPc_false hpc List.mem_cons_self) h)
  case longMultiply =>
    split at h
    · cases h
    · rename_i hr
      obtain ⟨⟨hlo, hhi, -⟩, -⟩ := longMultiplyRefusal_none hr
      exact .completes (completes_longMultiply hlo hhi h)
  case branchExchange => exact .completes (completes_branchExchange h)
  case swapWord => exact outcome_swap (List.mem_singleton_self _) (List.mem_singleton_self _) rfl h
  case swapByte => exact outcome_swap (List.mem_singleton_self _) (List.mem_singleton_self _) rfl h
  case transfer f =>
    unfold runRow at h
    split at h
    · exact outcome_loadRow f ‹_› h
    · exact outcome_storeRow f (eq_false_of_ne_true ‹_›) h
  case loadMultiple =>
    split at h
    · cases h
    · exact outcome_loadMultiple h
  case loadUser =>
    split at h
    · cases h
    · rename_i hw
      obtain ⟨u, hu, rfl⟩ := markUserLdm_next h
      exact outcome_marked rfl rfl (outcome_loadUser hw hu)
  case loadReturn =>
    split at h
    · cases h
    · rename_i hsp
      split at h
      · cases h
      · exact outcome_loadReturn (by simpa using hsp) h
  case storeMultiple w rn _ =>
    split at h
    · cases h
    · refine outcome_storeBlock (fun q hq hw => ?_) rfl rfl h
      exact not_phys_of_not_mem hq (by rw [Body.permits, if_pos hw]; exact List.mem_singleton_self rn)
  case storeUser w rn _ =>
    split at h
    · cases h
    · rename_i hw
      refine outcome_storeBlock (fun q hq he => ?_) rfl rfl h
      unfold userBankRefusal at hw
      rw [he] at hw
      split at hw <;> cases hw
  case branch =>
    injection h with h
    exact h ▸ .completes (completes_branch s _)
  case branchLink =>
    injection h with h
    exact h ▸ .completes (completes_branchLink s _)
  case softwareInterrupt =>
    injection h with h
    exact .swi rfl h.symm

end Sys2Proof.Proofs

/-! What every instruction and every step keeps: the frames of registers, status and memory, the invariant, the
environment, and the privileged state in User mode (R24 to R37, R65, R68, R75, R322, R332 to R337). -/

namespace Sys2Proof.Proofs

open Sys2Proof Sys2Proof.Machine

/-! ### Every instruction stays within its permits -/

/-- What an instruction that may take a Data abort keeps is less (R250). -/
theorem Completes.withAbort {P : Permits} {s t : State} (h : Completes P s t) :
    Completes { P with control := true, abort := true } s t :=
  ⟨⟨h.rest.regs, h.rest.mem, h.rest.mark⟩, ⟨h.cpsr.flags, h.cpsr.overflow,
    fun hu => h.cpsr.control (.inr (hu.resolve_left (by simp))), fun hc => by cases hc⟩, h.spsrs, h.pc⟩

/-- Two instructions in a row that write registers alone (R314). -/
theorem Completes.trans {P : Permits} {s u t : State} (hs : StoresOnly s u) (hcontrol : P.control = false)
    (hspsr : P.spsr = false) (hpc : u.pc = s.pc + 4#32) (h : Completes P s u) (k : Completes P u t) :
    Completes P s t := by
  have hmode : u.cpsr.mode = s.cpsr.mode := (h.cpsr.control (.inl hcontrol)).2.2
  refine ⟨⟨fun q hq hu => ?_, h.rest.mem.trans hs k.rest.mem, ?_⟩, ⟨fun hf => ?_, fun hv => ?_, fun _ => ?_,
    fun hc ht => ?_⟩, fun m _ => ?_, fun hal => ?_⟩
  · exact (k.rest.regs q (hmode ▸ hq) hu).trans (h.rest.regs q hq hu)
  · rcases h.rest.mark with hm | hm
    · exact k.rest.mark.imp_left fun e => e.trans hm
    · exact .inr hm
  · obtain ⟨hn, hz, hc⟩ := h.cpsr.flags hf
    obtain ⟨hn', hz', hc'⟩ := k.cpsr.flags hf
    exact ⟨hn'.trans hn, hz'.trans hz, hc'.trans hc⟩
  · exact (k.cpsr.overflow hv).trans (h.cpsr.overflow hv)
  · obtain ⟨hi, hf, hm⟩ := h.cpsr.control (.inl hcontrol)
    obtain ⟨hi', hf', hm'⟩ := k.cpsr.control (.inl hcontrol)
    exact ⟨hi'.trans hi, hf'.trans hf, hm'.trans hm⟩
  · exact (k.cpsr.thumb hc ht).trans (h.cpsr.thumb hc ht)
  · exact (k.spsrs m (.inl hspsr)).trans (h.spsrs m (.inl hspsr))
  · exact k.pc (hpc ▸ add_four_aligned hal)

/-- What an instruction did: with its condition passed it stayed within its permits, else it only went on (R132). -/
inductive Ran (i : Instr) (s t : State) : Prop
  | passed (hc : Cond.passes (condOf i) s.cpsr = true) (h : Outcome (permitsOf i s) s t)
  | failed (hc : Cond.passes (condOf i) s.cpsr = false) (h : ∀ P, Completes P s t)

theorem ran_of_runs {i : Instr} {b : Body} (hb : Runs i b) {s t : State} (h : exec i s = .next t) : Ran i s t := by
  rw [hb.exec s] at h
  rcases conditional_next h with ⟨hc, h⟩ | ⟨hc, -, rfl⟩
  · exact .passed hc (hb.permits s ▸ outcome_run b h)
  · exact .failed hc fun P => completes_idle P s

/-- `ldr Rd, =imm32` runs a `mov`, a `mvn` or a load (R312). -/
theorem ran_ldrConst {c : Cond} {rd : Reg} {imm32 : Word} {u : Bool} {pool : BitVec 12} {s t : State}
    (h : exec (.ldrConst c rd imm32 u pool) s = .next t) : Ran (.ldrConst c rd imm32 u pool) s t := by
  have hmove : ∀ op so, conditional c s (dataMove op false rd so) = .next t →
      Ran (.ldrConst c rd imm32 u pool) s t := by
    intro op so h
    rcases conditional_next h with ⟨hc, h⟩ | ⟨hc, -, rfl⟩
    · obtain ⟨-, h⟩ := dataMove_next h
      have hdone := completes_finishDp (op := op) (fun hv => dpResult_v op hv _ _ _ _) h
      have hpermits : destinationPermits op false rd = { Permits.idle with regs := [rd] } := by
        simp [destinationPermits, Permits.idle]
      exact .passed hc (.completes (hpermits ▸ hdone).withAbort)
    · exact .failed hc fun P => completes_idle P s
  rw [exec_ldrConst] at h
  split at h
  · exact hmove _ _ h
  · split at h
    · exact hmove _ _ h
    · rcases conditional_next h with ⟨hc, h⟩ | ⟨hc, -, rfl⟩
      · exact .passed hc (outcome_run
          (.transfer ⟨true, 4, false, false, true, .offset, u, 15#4, rd, .imm (pool.setWidth 32)⟩) h)
      · exact .failed hc fun P => completes_idle P s

/-- Either half of an `adrl` writes its destination or only goes on. -/
theorem completes_half {op : DpOp} {c : Cond} {rd rn : Reg} {so : ShiftOp} {s t : State}
    (h : conditional c s (dataProc op false rd rn so) = .next t) :
    Completes { Permits.idle with regs := [rd] } s t := by
  rcases conditional_next h with ⟨-, h⟩ | ⟨-, -, rfl⟩
  · obtain ⟨-, h⟩ := dataProc_next h
    have hdone := completes_finishDp (op := op) (fun hv => dpResult_v op hv _ _ _ _) h
    simpa [destinationPermits, Permits.idle] using hdone
  · exact completes_idle _ s

/-- `adrl` runs two additions or two subtractions (R314). -/
theorem ran_halves {i : Instr} {op : DpOp} {c : Cond} {rd rn rn' : Reg} {so so' : ShiftOp} {s t : State}
    (hi : condOf i = c) (hp : permitsOf i s = { Permits.idle with regs := [rd] })
    (h : sequence (fun s => conditional c s (dataProc op false rd rn so))
      (fun s => conditional c s (dataProc op false rd rn' so')) s = .next t) : Ran i s t := by
  obtain ⟨u, hu, hrest⟩ := sequence_next h
  have hstores : StoresOnly s u := storesOnly_conditional hu fun _ => storesOnly_dataProc
  cases hc : Cond.passes c s.cpsr
  · rcases conditional_next hu with ⟨hc', -⟩ | ⟨-, -, rfl⟩
    · rw [hc] at hc'
      cases hc'
    · refine .failed (hi ▸ hc) fun P => ?_
      rcases hrest with ⟨-, ht⟩ | ⟨hne, -⟩
      · rcases conditional_next ht with ⟨hc', -⟩ | ⟨-, -, rfl⟩
        · rw [State.onward_cpsr, hc] at hc'
          cases hc'
        · exact ⟨⟨fun _ _ _ => rfl, keepsOutside_of_eq rfl rfl, .inl rfl⟩, cpsrWithin_of_eq rfl, fun _ _ => rfl,
            fun hal => onward_pcAligned rfl (add_four_aligned hal)⟩
      · exact absurd rfl hne
  · refine .passed (hi ▸ hc) (.completes (hp ▸ ?_))
    rcases hrest with ⟨hpc, ht⟩ | ⟨-, rfl⟩
    · exact (completes_half hu).trans hstores rfl rfl hpc (completes_half ht)
    · exact completes_half hu

theorem ran_adrl {c : Cond} {u : Bool} {rd : Reg} {rot1 rot2 : BitVec 4} {imm1 imm2 : BitVec 8} {s t : State}
    (h : exec (.adrl c u rd rot1 imm1 rot2 imm2) s = .next t) : Ran (.adrl c u rd rot1 imm1 rot2 imm2) s t := by
  rw [exec_adrl] at h
  cases u
  · exact ran_halves (op := .sub) rfl rfl h
  · exact ran_halves (op := .add) rfl rfl h

/-- Every instruction that answers a next state stayed within its permits. -/
theorem exec_ran (i : Instr) {s t : State} (h : exec i s = .next t) : Ran i s t := by
  rcases exists_runs i with ⟨b, hb⟩ | ⟨c, rd, imm32, u, pool, rfl⟩ | ⟨c, u, rd, rot1, imm1, rot2, imm2, rfl⟩
  · exact ran_of_runs hb h
  · exact ran_ldrConst h
  · exact ran_adrl h

theorem exec_outcome (i : Instr) {s t : State} (h : exec i s = .next t) : Outcome (permitsOf i s) s t := by
  cases exec_ran i h with
  | passed _ h => exact h
  | failed _ h => exact .completes (h _)

/-! ### The frames -/

theorem mem_mayWrite_of_swi {i : Instr} {s : State} (h : (permitsOf i s).swi = true) (m : Mode) :
    PhysReg.r14Svc ∈ mayWrite i m ∧ Mode.svc ∈ mayWriteSpsr i m := by
  cases i
  case swi => exact ⟨by simp [mayWrite], by simp [mayWriteSpsr]⟩
  all_goals cases h

theorem mem_mayWrite_of_abort {i : Instr} (h : accessesData i = true) (m : Mode) :
    PhysReg.r14Abt ∈ mayWrite i m ∧ Mode.abt ∈ mayWriteSpsr i m := by
  simp [mayWrite, mayWriteSpsr, h]

/-- A register outside those an instruction may write is neither named by it in the current bank nor in the User one. -/
theorem not_mem_permits {i : Instr} {m : Mode} {p : PhysReg} (h : p ∉ mayWrite i m) :
    p ∉ physList m (writesOf i) ∧ p ∉ physList .usr (userWritesOf i) := by
  simp only [mayWrite, List.mem_append, not_or] at h
  obtain ⟨⟨⟨hregs, huser⟩, -⟩, -⟩ := h
  exact ⟨hregs, huser⟩

/-- Settles O18: the register is outside the permits, and not the link register of an exception. -/
theorem registerFrame : Obligations.RegisterFrame := by
  unfold Obligations.RegisterFrame
  intro i s t h p hp
  obtain ⟨hregs, huser⟩ := not_mem_permits hp
  cases exec_outcome i h with
  | completes h => exact h.rest.regs p hregs huser
  | swi hswi ht =>
    have hne : p ≠ Exc.swi.mode.r14 := fun e => hp (e ▸ (mem_mayWrite_of_swi hswi _).1)
    rw [ht, gpr_enter, if_neg hne]
  | aborts habort u h ht =>
    have hne : p ≠ Exc.dataAbort.mode.r14 := fun e => hp (e ▸ (mem_mayWrite_of_abort habort _).1)
    rw [ht, gpr_enter, if_neg hne]
    exact h.rest.regs p hregs huser

theorem writesControl_of_swi {i : Instr} {s : State} (h : (permitsOf i s).swi = true) : writesControl i = true := by
  cases i
  case swi => rfl
  all_goals cases h

theorem writesControl_of_abort {i : Instr} (h : accessesData i = true) : writesControl i = true := by
  cases i
  all_goals simp only [accessesData, Bool.false_eq_true] at h
  all_goals rfl

theorem thumb_permitted {i : Instr} {s : State} (h : ∀ c rm, i ≠ .bx c rm) : (permitsOf i s).thumb = false := by
  cases i
  case bx c rm => exact absurd rfl (h c rm)
  all_goals rfl

/-- An SPSR an instruction may not write is not the current mode's under `msr`. -/
theorem spsr_permitted {i : Instr} {s : State} {m k : Mode} (h : k ∉ mayWriteSpsr i m) :
    (permitsOf i s).spsr = false ∨ k ≠ m := by
  cases i
  case msrSpsrReg | msrSpsrImm => exact .inr fun e => h (by simp [mayWriteSpsr, e])
  all_goals exact .inl rfl

/-- The flags survive the entry of an exception (R322). -/
theorem enter_flags (e : Exc) (link : Word) (s : State) :
    (enter e link s).cpsr.n = s.cpsr.n ∧ (enter e link s).cpsr.z = s.cpsr.z ∧ (enter e link s).cpsr.c = s.cpsr.c ∧
      (enter e link s).cpsr.v = s.cpsr.v :=
  ⟨rfl, rfl, rfl, rfl⟩

/-- Settles O19: the permits of an instruction that completes, and the entry sequence of the exceptions, which only
instructions that may write the control bits take. -/
theorem statusFrame : Obligations.StatusFrame := by
  unfold Obligations.StatusFrame
  intro i s t h
  cases exec_outcome i h with
  | completes h =>
    refine ⟨h.cpsr.flags, h.cpsr.overflow, fun hc => ?_, fun m hm => h.spsrs m (spsr_permitted hm)⟩
    obtain ⟨hi, hf, hmode⟩ := h.cpsr.control (.inl hc)
    exact ⟨hi, hf, hmode, fun hbx => h.cpsr.thumb hc (thumb_permitted hbx)⟩
  | swi hswi ht =>
    obtain ⟨hn, hz, hc, hv⟩ := enter_flags .swi (s.pc + 4#32) s
    subst ht
    refine ⟨fun _ => ⟨hn, hz, hc⟩, fun _ => hv, fun hc => ?_, fun m hm => ?_⟩
    · rw [writesControl_of_swi hswi] at hc
      cases hc
    · have hne : m ≠ Exc.swi.mode := fun e => hm (e ▸ (mem_mayWrite_of_swi hswi _).2)
      rw [spsr?_enter, if_neg hne]
  | aborts habort u hu ht =>
    obtain ⟨hn, hz, hc, hv⟩ := enter_flags .dataAbort (s.pc + 8#32) u
    rw [hu.cpsr] at hn hz hc hv
    subst ht
    refine ⟨fun _ => ⟨hn, hz, hc⟩, fun _ => hv, fun hc => ?_, fun m hm => ?_⟩
    · rw [writesControl_of_abort habort] at hc
      cases hc
    · have hne : m ≠ Exc.dataAbort.mode := fun e => hm (e ▸ (mem_mayWrite_of_abort habort _).2)
      rw [spsr?_enter, if_neg hne, hu.spsrs]

/-- Settles O20: exceptions leave memory alone, and an instruction's own stores are those of its table. -/
theorem memoryFrame : Obligations.MemoryFrame := by
  unfold Obligations.MemoryFrame
  intro i s t hwf h x hx
  cases exec_outcome i h with
  | completes h => exact h.rest.mem hwf x hx
  | swi _ ht =>
    rw [ht, State.byteAt, enter_mem, enter_written]
    exact ⟨rfl, .rfl⟩
  | aborts _ u h ht =>
    rw [ht, State.byteAt, enter_mem, enter_written]
    exact h.rest.mem hwf x hx

/-! ### The step: memory, the environment and the invariant -/

/-- A step changes memory by stores alone, after it took its sample of the request inputs. -/
theorem storesOnly_step {s t : State} (h : step s = .next t) : StoresOnly s.sampled t := by
  obtain ⟨-, ⟨-, -, rfl⟩ | ⟨-, -, rfl⟩ | ⟨-, rfl⟩ | ⟨l, c, -, -, h⟩ | ⟨l, i, -, -, -, h⟩⟩ := step_next h
  · exact storesOnly_enter _ _ _
  · exact storesOnly_enter _ _ _
  · exact storesOnly_enter _ _ _
  · have hexec : StoresOnly s.sampled s.sampled.executing := .same rfl rfl rfl rfl
    rcases undefinedWord_next h with ⟨-, rfl⟩ | ⟨-, -, rfl⟩
    · exact hexec.trans (storesOnly_enter _ _ _)
    · exact hexec.andThen rfl rfl rfl rfl
  · exact StoresOnly.trans (t := s.sampled.executing) (.same rfl rfl rfl rfl) (storesOnly_exec i h)

/-- Settles O14: stores leave the platform and the samples alone. -/
theorem environmentKept : Obligations.EnvironmentKept := by
  unfold Obligations.EnvironmentKept
  intro s t h
  exact ⟨(storesOnly_step h).platform, (storesOnly_step h).requests⟩

/-- Settles O17: memory changes by stores alone, which record their bytes. -/
theorem changedBytesAreRecorded : Obligations.ChangedBytesAreRecorded := by
  unfold Obligations.ChangedBytesAreRecorded
  intro s t hwf h a
  exact ⟨(storesOnly_step h).changed_written hwf a, (storesOnly_step h).written_mono a⟩

theorem vector_aligned (e : Exc) : e.vector &&& 3#32 = 0#32 := by
  cases e <;> rfl

theorem enter_pcAligned (e : Exc) (link : Word) (s : State) : (enter e link s).pcAligned :=
  fun _ => vector_aligned e

/-- An instruction at an aligned PC leaves an aligned PC, if in ARM state (R26). -/
theorem exec_pcAligned (i : Instr) {s t : State} (hal : s.pc &&& 3#32 = 0#32) (h : exec i s = .next t) :
    t.pcAligned := by
  cases exec_outcome i h with
  | completes h => exact h.pc hal
  | swi _ ht => exact ht ▸ enter_pcAligned _ _ _
  | aborts _ u _ ht => exact ht ▸ enter_pcAligned _ _ _

theorem step_pcAligned {s t : State} (hal : s.pcAligned) (h : step s = .next t) : t.pcAligned := by
  obtain ⟨ht, hcases⟩ := step_next h
  rcases hcases with ⟨-, -, rfl⟩ | ⟨-, -, rfl⟩ | ⟨-, rfl⟩ | ⟨l, c, -, -, h⟩ | ⟨l, i, -, -, -, h⟩
  · exact enter_pcAligned _ _ _
  · exact enter_pcAligned _ _ _
  · exact enter_pcAligned _ _ _
  · rcases undefinedWord_next h with ⟨-, rfl⟩ | ⟨-, -, rfl⟩
    · exact enter_pcAligned _ _ _
    · exact onward_pcAligned rfl (hal ht)
  · exact exec_pcAligned i (s := s.sampled.executing) (hal ht) h

/-- Settles O12: the canonical forms by stores alone, the alignment by the permits. -/
theorem everyStepKeepsInv : Obligations.EveryStepKeepsInv := by
  unfold Obligations.EveryStepKeepsInv
  intro s t hinv h
  have hstores := storesOnly_step h
  exact ⟨hstores.mem_wf hinv.memWf, hstores.mem_inSpace hinv.memInSpace, hstores.written_wf hinv.writtenWf,
    step_pcAligned hinv.pcAligned h⟩

/-! ### User mode (R24, R34, R332, R336, R337) -/

/-- From User mode `t` is still in User mode, with I, F, the banked registers and the SPSRs of `s`. -/
structure PrivilegedKept (s t : State) : Prop where
  mode : t.cpsr.mode = .usr
  masks : t.cpsr.i = s.cpsr.i ∧ t.cpsr.f = s.cpsr.f
  banked : ∀ p : PhysReg, (∀ r : Reg, phys .usr r ≠ some p) → t.gpr p = s.gpr p
  spsrs : ∀ m, t.spsr? m = s.spsr? m

/-- A register of no User number is in no list of User registers. -/
theorem not_mem_physList_usr {p : PhysReg} (h : ∀ r : Reg, phys .usr r ≠ some p) (l : List Reg) :
    p ∉ physList .usr l := by
  rw [mem_physList]
  rintro ⟨r, -, hr⟩
  exact h r hr

/-- The link value an exception of a step has (R324 to R329). -/
def linkOf (e : Exc) (s : State) : Word :=
  if e = .dataAbort then s.pc + 8#32 else s.pc + 4#32

/-- What a step from User mode did: it kept the privileged state, or it took an exception in a state that did. -/
inductive UserStep (s t : State) : Prop
  | kept (h : PrivilegedKept s t)
  | took (e : Exc) (he : e ≠ .reset) (u : State) (h : PrivilegedKept s u) (hc : u.cpsr = s.cpsr)
      (ht : t = enter e (linkOf e s) u)

theorem PrivilegedKept.refl {s t : State} (hu : s.cpsr.mode = .usr) (hg : t.gprs = s.gprs) (hc : t.cpsr = s.cpsr)
    (hs : ∀ m, t.spsr? m = s.spsr? m) : PrivilegedKept s t :=
  ⟨hc ▸ hu, hc ▸ ⟨rfl, rfl⟩, fun p _ => State.gpr_congr hg p, hs⟩

theorem KeepsRest.banked {P : Permits} {s t : State} (hu : s.cpsr.mode = .usr) (h : KeepsRest P s t) (p : PhysReg)
    (hp : ∀ r : Reg, phys .usr r ≠ some p) : t.gpr p = s.gpr p :=
  h.regs p (hu ▸ not_mem_physList_usr hp _) (not_mem_physList_usr hp _)

/-- An instruction executed in User mode (R34, R336). -/
theorem userStep_of_outcome {P : Permits} {s t : State} (hu : s.cpsr.mode = .usr) (h : Outcome P s t) :
    UserStep s t := by
  cases h with
  | completes h =>
    obtain ⟨hi, hf, hm⟩ := h.cpsr.control (.inr hu)
    refine .kept ⟨hm.trans hu, ⟨hi, hf⟩, h.rest.banked hu, fun m => ?_⟩
    by_cases hmode : m = s.cpsr.mode
    · rw [hmode, hu]
      rfl
    · exact h.spsrs m (.inr hmode)
  | swi _ ht => exact .took .swi (by decide) s (.refl hu rfl rfl fun _ => rfl) rfl ht
  | aborts _ u h ht =>
    exact .took .dataAbort (by decide) u ⟨h.cpsr ▸ hu, h.cpsr ▸ ⟨rfl, rfl⟩, h.rest.banked hu, h.spsrs⟩ h.cpsr ht

theorem UserStep.of_entering {s t : State} (h : UserStep s.sampled.executing t) : UserStep s t := by
  have hspsr : ∀ m, s.sampled.executing.spsr? m = s.spsr? m := fun m => by cases m <;> rfl
  cases h with
  | kept h => exact .kept ⟨h.mode, h.masks, h.banked, fun m => (h.spsrs m).trans (hspsr m)⟩
  | took e he u h hc ht => exact .took e he u ⟨h.mode, h.masks, h.banked, fun m => (h.spsrs m).trans (hspsr m)⟩ hc ht

theorem userStep {s t : State} (hu : s.cpsr.mode = .usr) (h : step s = .next t) : UserStep s t := by
  have hsampled : PrivilegedKept s s.sampled := .refl hu rfl rfl fun m => by cases m <;> rfl
  obtain ⟨-, ⟨-, -, ht⟩ | ⟨-, -, ht⟩ | ⟨-, ht⟩ | ⟨l, c, -, -, h⟩ | ⟨l, i, -, -, -, h⟩⟩ := step_next h
  · exact .took .fiq (by decide) s.sampled hsampled rfl ht
  · exact .took .irq (by decide) s.sampled hsampled rfl ht
  · exact .took .prefetchAbort (by decide) s.sampled hsampled rfl ht
  · refine UserStep.of_entering ?_
    rcases undefinedWord_next h with ⟨-, ht⟩ | ⟨-, -, rfl⟩
    · exact .took .undefinedInstruction (by decide) s.sampled.executing (.refl hu rfl rfl fun _ => rfl) rfl ht
    · exact .kept (.refl hu rfl rfl fun m => by cases m <;> rfl)
  · exact UserStep.of_entering (userStep_of_outcome hu (exec_outcome i h))

theorem excMode_ne_usr (e : Exc) : e.mode ≠ .usr := by
  cases e <;> decide

/-- Settles O15: a step that leaves User mode took an exception, whose entry is the sequence of R322. -/
theorem userModeIsLeftByExceptionOnly : Obligations.UserModeIsLeftByExceptionOnly := by
  unfold Obligations.UserModeIsLeftByExceptionOnly
  intro s t hu h
  cases userStep hu h with
  | kept h => exact .inl h.mode
  | took e he u h hc ht =>
    subst ht
    refine .inr ⟨e, he, rfl, rfl, rfl, rfl, ?_, ?_, ?_⟩
    · rw [← hc]
      rfl
    · rw [spsr?_enter, if_pos rfl, hc]
    · rw [gpr_enter, if_pos rfl]
      rfl

/-- Settles O16: what an exception writes on entry is its mode's R14 and SPSR. -/
theorem userModeLeavesPrivilegedState : Obligations.UserModeLeavesPrivilegedState := by
  unfold Obligations.UserModeLeavesPrivilegedState
  intro s t hu h
  cases userStep hu h with
  | kept h => exact ⟨fun _ => h.masks, fun p hp _ => h.banked p hp, fun m _ => h.spsrs m⟩
  | took e he u hk hc ht =>
    subst ht
    have hleft : (enter e (linkOf e s) u).cpsr.mode ≠ .usr := excMode_ne_usr e
    refine ⟨fun hm => absurd hm hleft, fun p hp hne => ?_, fun m hne => ?_⟩
    · have hlink : p ≠ e.mode.r14 := hne.resolve_left hleft
      rw [gpr_enter, if_neg hlink, hk.banked p hp]
    · have hmode : m ≠ e.mode := hne.resolve_left hleft
      rw [spsr?_enter, if_neg hmode, hk.spsrs]

end Sys2Proof.Proofs

/-! Words and their instructions, both ways (R90 to R116): each encoder says what the fields of its word are. -/

namespace Sys2Proof.Proofs

open Sys2Proof Sys2Proof.Machine

/-! ### Fields of a word -/

/-- A field made of two parts is given by the two. -/
theorem append_eq_field_iff {m n lo : Nat} {x : BitVec m} {y : BitVec n} {w : Word} :
    x ++ y = field w lo (m + n) ↔ x = field w (lo + n) m ∧ y = field w lo n := by
  have hw : field w (lo + n) m ++ field w lo n = field w lo (m + n) :=
    BitVec.extractLsb'_append_extractLsb'_eq_extractLsb' rfl
  constructor
  · intro h
    rw [← hw] at h
    exact ⟨by simpa only [BitVec.extractLsb'_append_eq_left] using congrArg (BitVec.extractLsb' n m) h,
      by simpa only [BitVec.extractLsb'_append_eq_right] using congrArg (BitVec.extractLsb' 0 n) h⟩
  · rintro ⟨rfl, rfl⟩
    exact hw

/-- The lowest part of a word, and the rest of it. -/
theorem append_eq_word_iff {m n : Nat} {x : BitVec m} {y : BitVec n} {w : Word} (h : m + n = 32) :
    (x ++ y).cast h = w ↔ x = field w n m ∧ y = field w 0 n := by
  have hw : field w 0 (m + n) = w.cast h.symm := by
    ext i hi
    simpa [field] using BitVec.getLsbD_eq_getElem (h ▸ hi)
  have hiff := append_eq_field_iff (x := x) (y := y) (w := w) (lo := 0)
  rw [hw, Nat.zero_add] at hiff
  rw [← hiff]
  constructor
  · rintro rfl
    rfl
  · intro e
    rw [e]
    rfl

theorem ofBool_eq_field_iff {b : Bool} {w : Word} {k : Nat} : BitVec.ofBool b = field w k 1 ↔ b = w.getLsbD k := by
  have hbit : field w k 1 = BitVec.ofBool (w.getLsbD k) := by
    ext i hi
    obtain rfl : i = 0 := by omega
    simp [field]
  rw [hbit]
  cases b <;> cases w.getLsbD k <;> decide

/-- A bit of a field whose value is known. -/
theorem bit_of_field {w : Word} {lo n : Nat} {x : BitVec n} (h : x = field w lo n) (k : Nat) (hk : k < n) :
    w.getLsbD (lo + k) = x.getLsbD k := by
  simp [h, field, hk]

/-- A part of a field whose value is known. -/
theorem part_of_field {w : Word} {lo n : Nat} {x : BitVec n} (h : x = field w lo n) (k m : Nat) (hk : k + m ≤ n) :
    field w (lo + k) m = x.extractLsb' k m := by
  ext i hi
  have hlt : k + i < n := by omega
  simp [h, field, hlt, Nat.add_assoc]

/-- A bit that differs tells a field from a value. -/
theorem field_ne {w : Word} {lo n : Nat} {x : BitVec n} (k : Nat) (hk : k < n) (h : w.getLsbD (lo + k) ≠ x.getLsbD k) :
    field w lo n ≠ x :=
  fun e => h (bit_of_field e.symm k hk)

/-! ### The fields that stand for a choice (R92, R95, R97, R104, R107) -/

@[simp] theorem Cond.ofBits_bits (c : Cond) : Cond.ofBits c.bits = some c := by cases c <;> rfl

theorem Cond.ofBits_eq (b : BitVec 4) : (Cond.ofBits b).map Cond.bits = if b = 15#4 then none else some b := by
  revert b
  decide

theorem Cond.ofBits_none_iff {b : BitVec 4} : Cond.ofBits b = none ↔ b = 15#4 := by
  have h := Cond.ofBits_eq b
  constructor
  · intro hn
    by_contra hb
    rw [hn, if_neg hb] at h
    cases h
  · rintro rfl
    rfl

theorem Cond.bits_of_ofBits {b : BitVec 4} {c : Cond} (hc : Cond.ofBits b = some c) : c.bits = b := by
  have h := Cond.ofBits_eq b
  rw [hc] at h
  split at h
  · cases h
  · exact Option.some.inj h

@[simp] theorem DpOp.ofBits_bits (op : DpOp) : DpOp.ofBits op.bits = op := by cases op <;> rfl

@[simp] theorem DpOp.bits_ofBits (b : BitVec 4) : (DpOp.ofBits b).bits = b := by
  revert b
  decide

@[simp] theorem ShiftKind.ofBits_bits (k : ShiftKind) : ShiftKind.ofBits k.bits = k := by cases k <;> rfl

@[simp] theorem ShiftKind.bits_ofBits (b : BitVec 2) : (ShiftKind.ofBits b).bits = b := by
  revert b
  decide

@[simp] theorem BlockMode.ofBits_bits (am : BlockMode) : BlockMode.ofBits am.p am.u = am := by cases am <;> rfl

@[simp] theorem BlockMode.p_ofBits (p u : Bool) : (BlockMode.ofBits p u).p = p := by cases p <;> cases u <;> rfl

@[simp] theorem BlockMode.u_ofBits (p u : Bool) : (BlockMode.ofBits p u).u = u := by cases p <;> cases u <;> rfl

@[simp] theorem PsrFields.ofBits_bits (m : PsrFields) : PsrFields.ofBits m.bits = m := by
  obtain ⟨f, s, x, c⟩ := m
  cases f <;> cases s <;> cases x <;> cases c <;> rfl

@[simp] theorem PsrFields.bits_ofBits (b : BitVec 4) : (PsrFields.ofBits b).bits = b := by
  revert b
  decide

/-- The amounts that R97 allows, and no others, come back from their fields; 32 is written as 0. -/
theorem ShiftImm.ofBits_bits {sh : ShiftImm} (h : sh.wf = true) : ShiftImm.ofBits sh.amountBits sh.kindBits = sh := by
  have hzero : ∀ n : Nat, n < 32 → (BitVec.ofNat 5 n = 0#5 ↔ n = 0) := fun n hn => by
    rw [← BitVec.toNat_inj, BitVec.toNat_ofNat, Nat.mod_eq_of_lt hn]
    rfl
  have hvalue : ∀ n : Nat, n < 32 → (BitVec.ofNat 5 n).toNat = n := fun n hn => by
    rw [BitVec.toNat_ofNat, Nat.mod_eq_of_lt hn]
  cases sh with
  | lsl n =>
    have hn : n < 32 := by simp [ShiftImm.wf] at h; omega
    exact congrArg ShiftImm.lsl (hvalue n hn)
  | lsr n =>
    obtain ⟨hlow, hhigh⟩ : 1 ≤ n ∧ n ≤ 32 := by simpa [ShiftImm.wf] using h
    refine congrArg ShiftImm.lsr ?_
    rcases Nat.lt_or_ge n 32 with hn | hn
    · rw [ShiftImm.amountBits, if_neg (by rw [hzero n hn]; omega), hvalue n hn]
    · obtain rfl : n = 32 := by omega
      rfl
  | asr n =>
    obtain ⟨hlow, hhigh⟩ : 1 ≤ n ∧ n ≤ 32 := by simpa [ShiftImm.wf] using h
    refine congrArg ShiftImm.asr ?_
    rcases Nat.lt_or_ge n 32 with hn | hn
    · rw [ShiftImm.amountBits, if_neg (by rw [hzero n hn]; omega), hvalue n hn]
    · obtain rfl : n = 32 := by omega
      rfl
  | ror n =>
    obtain ⟨hlow, hhigh⟩ : 1 ≤ n ∧ n ≤ 31 := by simpa [ShiftImm.wf] using h
    have hne : BitVec.ofNat 5 n ≠ 0#5 := by rw [ne_eq, hzero n (by omega)]; omega
    exact (if_neg hne).trans (congrArg ShiftImm.ror (hvalue n (by omega)))
  | rrx => rfl

/-- Every pair of shift fields is a shift of R97, and the only one with these fields. -/
theorem ShiftImm.ofBits_spec (amount : BitVec 5) (kind : BitVec 2) : (ShiftImm.ofBits amount kind).wf = true ∧
    (ShiftImm.ofBits amount kind).amountBits = amount ∧ (ShiftImm.ofBits amount kind).kindBits = kind := by
  revert amount kind
  decide

/-! ### The words of the encoder, field by field -/

theorem encodeDpImm_eq_iff {c : Cond} {op : DpOp} {sf : Bool} {rn rd : Reg} {rot : BitVec 4} {imm : BitVec 8}
    {w : Word} : encodeDpImm c op sf rn rd rot imm = w ↔ c.bits = field w 28 4 ∧ 1#3 = field w 25 3 ∧
      op.bits = field w 21 4 ∧ sf = w.getLsbD 20 ∧ rn = field w 16 4 ∧ rd = field w 12 4 ∧ rot = field w 8 4 ∧
      imm = field w 0 8 := by
  refine (append_eq_word_iff (by rfl)).trans ?_
  simp -index only [append_eq_field_iff, ofBool_eq_field_iff, and_assoc, Nat.reduceAdd]

theorem encodeDpShiftImm_eq_iff {c : Cond} {op : DpOp} {sf : Bool} {rn rd rm : Reg} {sh : ShiftImm} {w : Word} :
    encodeDpShiftImm c op sf rn rd rm sh = w ↔ c.bits = field w 28 4 ∧ 0#3 = field w 25 3 ∧ op.bits = field w 21 4 ∧
      sf = w.getLsbD 20 ∧ rn = field w 16 4 ∧ rd = field w 12 4 ∧ sh.amountBits = field w 7 5 ∧
      sh.kindBits = field w 5 2 ∧ 0#1 = field w 4 1 ∧ rm = field w 0 4 := by
  refine (append_eq_word_iff (by rfl)).trans ?_
  simp -index only [append_eq_field_iff, ofBool_eq_field_iff, and_assoc, Nat.reduceAdd]

theorem encodeDpShiftReg_eq_iff {c : Cond} {op : DpOp} {sf : Bool} {rn rd rm : Reg} {k : ShiftKind} {rs : Reg}
    {w : Word} : encodeDpShiftReg c op sf rn rd rm k rs = w ↔ c.bits = field w 28 4 ∧ 0#3 = field w 25 3 ∧
      op.bits = field w 21 4 ∧ sf = w.getLsbD 20 ∧ rn = field w 16 4 ∧ rd = field w 12 4 ∧ rs = field w 8 4 ∧
      0#1 = field w 7 1 ∧ k.bits = field w 5 2 ∧ 1#1 = field w 4 1 ∧ rm = field w 0 4 := by
  refine (append_eq_word_iff (by rfl)).trans ?_
  simp -index only [append_eq_field_iff, ofBool_eq_field_iff, and_assoc, Nat.reduceAdd]

theorem encodeMultiply_eq_iff {c : Cond} {op : BitVec 7} {sf : Bool} {r19 r15 rs rm : Reg} {w : Word} :
    encodeMultiply c op sf r19 r15 rs rm = w ↔ c.bits = field w 28 4 ∧ op = field w 21 7 ∧ sf = w.getLsbD 20 ∧
      r19 = field w 16 4 ∧ r15 = field w 12 4 ∧ rs = field w 8 4 ∧ 9#4 = field w 4 4 ∧ rm = field w 0 4 := by
  refine (append_eq_word_iff (by rfl)).trans ?_
  simp -index only [append_eq_field_iff, ofBool_eq_field_iff, and_assoc, Nat.reduceAdd]

theorem encodeSwap_eq_iff {c : Cond} {b : Bool} {rn rd rm : Reg} {w : Word} :
    encodeSwap c b rn rd rm = w ↔ c.bits = field w 28 4 ∧ 2#5 = field w 23 5 ∧ b = w.getLsbD 22 ∧
      0#2 = field w 20 2 ∧ rn = field w 16 4 ∧ rd = field w 12 4 ∧ 0#4 = field w 8 4 ∧ 9#4 = field w 4 4 ∧
      rm = field w 0 4 := by
  refine (append_eq_word_iff (by rfl)).trans ?_
  simp -index only [append_eq_field_iff, ofBool_eq_field_iff, and_assoc, Nat.reduceAdd]

theorem encodeMrs_eq_iff {c : Cond} {r : Bool} {rd : Reg} {w : Word} :
    encodeMrs c r rd = w ↔ c.bits = field w 28 4 ∧ 2#5 = field w 23 5 ∧ r = w.getLsbD 22 ∧ 0#2 = field w 20 2 ∧
      15#4 = field w 16 4 ∧ rd = field w 12 4 ∧ 0#12 = field w 0 12 := by
  refine (append_eq_word_iff (by rfl)).trans ?_
  simp -index only [append_eq_field_iff, ofBool_eq_field_iff, and_assoc, Nat.reduceAdd]

theorem encodeMsrReg_eq_iff {c : Cond} {r : Bool} {m : PsrFields} {rm : Reg} {w : Word} :
    encodeMsrReg c r m rm = w ↔ c.bits = field w 28 4 ∧ 2#5 = field w 23 5 ∧ r = w.getLsbD 22 ∧ 2#2 = field w 20 2 ∧
      m.bits = field w 16 4 ∧ 15#4 = field w 12 4 ∧ 0#8 = field w 4 8 ∧ rm = field w 0 4 := by
  refine (append_eq_word_iff (by rfl)).trans ?_
  simp -index only [append_eq_field_iff, ofBool_eq_field_iff, and_assoc, Nat.reduceAdd]

theorem encodeMsrImm_eq_iff {c : Cond} {r : Bool} {m : PsrFields} {rot : BitVec 4} {imm : BitVec 8} {w : Word} :
    encodeMsrImm c r m rot imm = w ↔ c.bits = field w 28 4 ∧ 6#5 = field w 23 5 ∧ r = w.getLsbD 22 ∧
      2#2 = field w 20 2 ∧ m.bits = field w 16 4 ∧ 15#4 = field w 12 4 ∧ rot = field w 8 4 ∧ imm = field w 0 8 := by
  refine (append_eq_word_iff (by rfl)).trans ?_
  simp -index only [append_eq_field_iff, ofBool_eq_field_iff, and_assoc, Nat.reduceAdd]

theorem encodeTransferImm_eq_iff {c : Cond} {p u b wb l : Bool} {rn rd : Reg} {imm : BitVec 12} {w : Word} :
    encodeTransferImm c p u b wb l rn rd imm = w ↔ c.bits = field w 28 4 ∧ 2#3 = field w 25 3 ∧ p = w.getLsbD 24 ∧
      u = w.getLsbD 23 ∧ b = w.getLsbD 22 ∧ wb = w.getLsbD 21 ∧ l = w.getLsbD 20 ∧ rn = field w 16 4 ∧
      rd = field w 12 4 ∧ imm = field w 0 12 := by
  refine (append_eq_word_iff (by rfl)).trans ?_
  simp -index only [append_eq_field_iff, ofBool_eq_field_iff, and_assoc, Nat.reduceAdd]

theorem encodeTransferReg_eq_iff {c : Cond} {p u b wb l : Bool} {rn rd rm : Reg} {sh : ShiftImm} {w : Word} :
    encodeTransferReg c p u b wb l rn rd rm sh = w ↔ c.bits = field w 28 4 ∧ 3#3 = field w 25 3 ∧ p = w.getLsbD 24 ∧
      u = w.getLsbD 23 ∧ b = w.getLsbD 22 ∧ wb = w.getLsbD 21 ∧ l = w.getLsbD 20 ∧ rn = field w 16 4 ∧
      rd = field w 12 4 ∧ sh.amountBits = field w 7 5 ∧ sh.kindBits = field w 5 2 ∧ 0#1 = field w 4 1 ∧
      rm = field w 0 4 := by
  refine (append_eq_word_iff (by rfl)).trans ?_
  simp -index only [append_eq_field_iff, ofBool_eq_field_iff, and_assoc, Nat.reduceAdd]

theorem encodeHalf_eq_iff {c : Cond} {p u i wb l s h : Bool} {rn rd hi lo : Reg} {w : Word} :
    encodeHalf c p u i wb l s h rn rd hi lo = w ↔ c.bits = field w 28 4 ∧ 0#3 = field w 25 3 ∧ p = w.getLsbD 24 ∧
      u = w.getLsbD 23 ∧ i = w.getLsbD 22 ∧ wb = w.getLsbD 21 ∧ l = w.getLsbD 20 ∧ rn = field w 16 4 ∧
      rd = field w 12 4 ∧ hi = field w 8 4 ∧ 1#1 = field w 7 1 ∧ s = w.getLsbD 6 ∧ h = w.getLsbD 5 ∧
      1#1 = field w 4 1 ∧ lo = field w 0 4 := by
  refine (append_eq_word_iff (by rfl)).trans ?_
  simp -index only [append_eq_field_iff, ofBool_eq_field_iff, and_assoc, Nat.reduceAdd]

theorem encodeBlock_eq_iff {c : Cond} {am : BlockMode} {s wb l : Bool} {rn : Reg} {list : BitVec 16} {w : Word} :
    encodeBlock c am s wb l rn list = w ↔ c.bits = field w 28 4 ∧ 4#3 = field w 25 3 ∧ am.p = w.getLsbD 24 ∧
      am.u = w.getLsbD 23 ∧ s = w.getLsbD 22 ∧ wb = w.getLsbD 21 ∧ l = w.getLsbD 20 ∧ rn = field w 16 4 ∧
      list = field w 0 16 := by
  refine (append_eq_word_iff (by rfl)).trans ?_
  simp -index only [append_eq_field_iff, ofBool_eq_field_iff, and_assoc, Nat.reduceAdd]

/-- `b`, `bl`, `swi` and `bx`: a condition, a constant and one operand. -/
theorem threeParts_eq_iff {m n : Nat} {c : Cond} {x : BitVec m} {y : BitVec n} {w : Word} (h : 4 + m + n = 32) :
    (c.bits ++ x ++ y).cast h = w ↔ c.bits = field w (n + m) 4 ∧ x = field w n m ∧ y = field w 0 n := by
  rw [append_eq_word_iff h, append_eq_field_iff, and_assoc]

/-! ### A word that decodes is the word of its instruction -/

/-- The word `w` is all there is of the well-formed instruction `i`. -/
def IsWordOf (w : Word) (i : Instr) : Prop :=
  i.wf = true ∧ i.expand = [i] ∧ encode i = [w]

@[simp] theorem refused_else_eq_instr_iff {p : Prop} [Decidable p] {e : DecodeError} {d : Decoded} {i : Instr} :
    (if p then .refused e else d) = .instr i ↔ ¬p ∧ d = .instr i := by
  split <;> simp [*]

theorem isWordOf_decodeDpImm {op : DpOp} {c : Cond} {sf : Bool} {rn rd : Reg} {rot : BitVec 4} {imm : BitVec 8}
    {i : Instr} (h : decodeDpImm op c sf rn rd rot imm = .instr i) :
    IsWordOf (encodeDpImm c op sf rn rd rot imm) i := by
  cases op
  case tst | teq | cmp | cmn =>
    simp only [decodeDpImm, refused_else_eq_instr_iff, Bool.not_eq_true', Bool.not_eq_false, not_not] at h
    obtain ⟨rfl, rfl, h⟩ := h
    cases h
    exact ⟨rfl, rfl, rfl⟩
  case mov | mvn =>
    simp only [decodeDpImm, refused_else_eq_instr_iff, not_not] at h
    obtain ⟨rfl, h⟩ := h
    cases h
    exact ⟨rfl, rfl, rfl⟩
  all_goals
    cases h
    exact ⟨rfl, rfl, rfl⟩

theorem isWordOf_decodeDpShiftImm {op : DpOp} {c : Cond} {sf : Bool} {rn rd rm : Reg} {sh : ShiftImm} {i : Instr}
    (hsh : sh.wf = true) (h : decodeDpShiftImm op c sf rn rd rm sh = .instr i) :
    IsWordOf (encodeDpShiftImm c op sf rn rd rm sh) i := by
  cases op
  case tst | teq | cmp | cmn =>
    simp only [decodeDpShiftImm, refused_else_eq_instr_iff, Bool.not_eq_true', Bool.not_eq_false, not_not] at h
    obtain ⟨rfl, rfl, h⟩ := h
    cases h
    exact ⟨hsh, rfl, rfl⟩
  case mov | mvn =>
    simp only [decodeDpShiftImm, refused_else_eq_instr_iff, not_not] at h
    obtain ⟨rfl, h⟩ := h
    cases h
    exact ⟨hsh, rfl, rfl⟩
  all_goals
    cases h
    exact ⟨hsh, rfl, rfl⟩

theorem isWordOf_decodeDpShiftReg {op : DpOp} {c : Cond} {sf : Bool} {rn rd rm : Reg} {k : ShiftKind} {rs : Reg}
    {i : Instr} (h : decodeDpShiftReg op c sf rn rd rm k rs = .instr i) :
    IsWordOf (encodeDpShiftReg c op sf rn rd rm k rs) i := by
  cases op
  case tst | teq | cmp | cmn =>
    simp only [decodeDpShiftReg, refused_else_eq_instr_iff, Bool.not_eq_true', Bool.not_eq_false, not_not] at h
    obtain ⟨rfl, rfl, h⟩ := h
    cases h
    exact ⟨rfl, rfl, rfl⟩
  case mov | mvn =>
    simp only [decodeDpShiftReg, refused_else_eq_instr_iff, not_not] at h
    obtain ⟨rfl, h⟩ := h
    cases h
    exact ⟨rfl, rfl, rfl⟩
  all_goals
    cases h
    exact ⟨rfl, rfl, rfl⟩

theorem isWordOf_decodeTransferImm (c : Cond) (p u b w l : Bool) (rn rd : Reg) (imm : BitVec 12) :
    IsWordOf (encodeTransferImm c p u b w l rn rd imm) (decodeTransferImm c p u b w l rn rd imm) := by
  cases p <;> cases b <;> cases l <;> cases w <;> exact ⟨rfl, rfl, rfl⟩

theorem isWordOf_decodeTransferReg (c : Cond) (p u b w l : Bool) (rn rd rm : Reg) {sh : ShiftImm}
    (hsh : sh.wf = true) :
    IsWordOf (encodeTransferReg c p u b w l rn rd rm sh) (decodeTransferReg c p u b w l rn rd rm sh) := by
  cases p <;> cases b <;> cases l <;> cases w <;> exact ⟨hsh, rfl, rfl⟩

theorem isWordOf_decodeHalfImm {c : Cond} {p u w l s h : Bool} {rn rd : Reg} {imm : BitVec 8} {i : Instr}
    (hi : decodeHalfImm c p u w l s h rn rd imm = .instr i) : IsWordOf (encodeHalfImm c p u w l s h rn rd imm) i := by
  simp only [decodeHalfImm, refused_else_eq_instr_iff, Bool.and_eq_true, Bool.not_eq_true', not_and] at hi
  obtain ⟨hs, hw, hi⟩ := hi
  split at hi
  all_goals cases hi
  all_goals
    simp only [forall_const, not_true, not_false_eq_true, reduceCtorEq, false_imp_iff, imp_false, implies_true,
      Bool.not_eq_true] at hs hw
    subst_vars
    exact ⟨rfl, rfl, rfl⟩

theorem isWordOf_decodeHalfReg {c : Cond} {p u w l s h : Bool} {rn rd hi rm : Reg} {i : Instr}
    (hd : decodeHalfReg c p u w l s h rn rd hi rm = .instr i) :
    hi = 0#4 ∧ IsWordOf (encodeHalfReg c p u w l s h rn rd rm) i := by
  simp only [decodeHalfReg, refused_else_eq_instr_iff, Bool.and_eq_true, Bool.not_eq_true', not_and, not_not] at hd
  obtain ⟨hs, hw, hhi, hd⟩ := hd
  refine ⟨hhi, ?_⟩
  split at hd
  all_goals cases hd
  all_goals
    simp only [forall_const, not_true, not_false_eq_true, reduceCtorEq, false_imp_iff, imp_false, implies_true,
      Bool.not_eq_true] at hs hw
    subst_vars
    exact ⟨rfl, rfl, rfl⟩

theorem isWordOf_decodeBlock (c : Cond) (am : BlockMode) (s w l : Bool) (rn : Reg) (list : BitVec 16) :
    IsWordOf (encodeBlock c am s w l rn list) (decodeBlock c am s w l rn list) := by
  unfold decodeBlock
  split
  case h_2 =>
    split
    next h15 => exact ⟨h15, rfl, rfl⟩
    next h15 => exact ⟨by rw [Instr.wf, Bool.eq_false_iff.2 h15, Bool.not_false], rfl, rfl⟩
  all_goals exact ⟨rfl, rfl, rfl⟩

/-- The seven bits that tell the long multiplies apart (R100). -/
theorem isWordOf_decodeLongMultiply (c : Cond) (sg a sf : Bool) (rdHi rdLo rs rm : Reg) :
    IsWordOf (encodeMultiply c (1#5 ++ BitVec.ofBool sg ++ BitVec.ofBool a) sf rdHi rdLo rs rm)
      (decodeLongMultiply c sg a sf rdHi rdLo rs rm) := by
  cases sg <;> cases a <;> exact ⟨rfl, rfl, rfl⟩

theorem isWordOf_decodeMultiply {c : Cond} {a sf : Bool} {rd rn rs rm : Reg} {i : Instr}
    (h : decodeMultiply c a sf rd rn rs rm = .instr i) :
    IsWordOf (encodeMultiply c (0#6 ++ BitVec.ofBool a) sf rd rn rs rm) i := by
  cases a
  · simp only [decodeMultiply, Bool.false_eq_true, if_false, refused_else_eq_instr_iff, not_not] at h
    obtain ⟨rfl, h⟩ := h
    cases h
    exact ⟨rfl, rfl, rfl⟩
  · cases h
    exact ⟨rfl, rfl, rfl⟩

/-- One bit of a word, as the field of length 1. -/
theorem field_one_eq {w : Word} {k : Nat} {b : Bool} (h : w.getLsbD k = b) : BitVec.ofBool b = field w k 1 :=
  ofBool_eq_field_iff.2 h.symm

theorem isWordOf_of_eq {w v : Word} {i : Instr} (h : IsWordOf v i) (hw : v = w) : IsWordOf w i :=
  hw ▸ h

theorem isWordOf_decodeMultiplySwap {c : Cond} {w : Word} {i : Instr} (hc : c.bits = field w 28 4)
    (hk : 0#3 = field w 25 3) (hnine : 9#4 = field w 4 4) (h : decodeMultiplySwap c w = .instr i) : IsWordOf w i := by
  unfold decodeMultiplySwap at h
  split at h
  next h22 =>
    have hop : 0#6 ++ BitVec.ofBool (w.getLsbD 21) = field w 21 7 := append_eq_field_iff.2
      ⟨(append_eq_field_iff (x := 0#3) (y := 0#3)).2 ⟨hk, h22.symm⟩, field_one_eq rfl⟩
    exact isWordOf_of_eq (isWordOf_decodeMultiply h)
      (encodeMultiply_eq_iff.2 ⟨hc, hop, rfl, rfl, rfl, rfl, hnine, rfl⟩)
  next =>
    split at h
    next h23 =>
      cases h
      have hop : 1#5 ++ BitVec.ofBool (w.getLsbD 22) ++ BitVec.ofBool (w.getLsbD 21) = field w 21 7 :=
        append_eq_field_iff.2 ⟨append_eq_field_iff.2
          ⟨(append_eq_field_iff (x := 0#3) (y := 1#2)).2 ⟨hk, h23.symm⟩, field_one_eq rfl⟩, field_one_eq rfl⟩
      exact isWordOf_of_eq (isWordOf_decodeLongMultiply ..)
        (encodeMultiply_eq_iff.2 ⟨hc, hop, rfl, rfl, rfl, rfl, hnine, rfl⟩)
    next =>
      split at h
      next hswap =>
        obtain ⟨h23, h20, h8⟩ := hswap
        have hop : 2#5 = field w 23 5 := (append_eq_field_iff (x := 0#3) (y := 2#2)).2 ⟨hk, h23.symm⟩
        have hword : encodeSwap c (w.getLsbD 22) (field w 16 4) (field w 12 4) (field w 0 4) = w :=
          encodeSwap_eq_iff.2 ⟨hc, hop, rfl, h20.symm, rfl, rfl, h8.symm, hnine, rfl⟩
        split at h
        next h22 =>
          cases h
          exact isWordOf_of_eq ⟨rfl, rfl, rfl⟩ (h22 ▸ hword)
        next h22 =>
          cases h
          exact isWordOf_of_eq ⟨rfl, rfl, rfl⟩ (Bool.eq_false_iff.2 h22 ▸ hword)
      next => cases h

theorem isWordOf_decodeMisc {c : Cond} {w : Word} {i : Instr} (hc : c.bits = field w 28 4)
    (hk : 2#5 = field w 23 5) (h20 : w.getLsbD 20 = false) (h : decodeMisc c w = .instr i) : IsWordOf w i := by
  unfold decodeMisc at h
  split at h
  next h4 =>
    split at h
    next h21 =>
      split at h
      next hmsr =>
        obtain ⟨h12, h48⟩ := hmsr
        have hop : 2#2 = field w 20 2 :=
          (append_eq_field_iff (x := 1#1) (y := 0#1)).2 ⟨field_one_eq h21, field_one_eq h20⟩
        have hword : encodeMsrReg c (w.getLsbD 22) (.ofBits (field w 16 4)) (field w 0 4) = w :=
          encodeMsrReg_eq_iff.2 ⟨hc, hk, rfl, hop, PsrFields.bits_ofBits _, h12.symm, h48.symm, rfl⟩
        split at h
        next h22 =>
          cases h
          exact isWordOf_of_eq ⟨rfl, rfl, rfl⟩ (h22 ▸ hword)
        next h22 =>
          cases h
          exact isWordOf_of_eq ⟨rfl, rfl, rfl⟩ (Bool.eq_false_iff.2 h22 ▸ hword)
      next => cases h
    next h21 =>
      split at h
      next hmrs =>
        obtain ⟨h16, h0⟩ := hmrs
        have hop : 0#2 = field w 20 2 :=
          (append_eq_field_iff (x := 0#1) (y := 0#1)).2 ⟨field_one_eq (Bool.eq_false_iff.2 h21), field_one_eq h20⟩
        have hword : encodeMrs c (w.getLsbD 22) (field w 12 4) = w :=
          encodeMrs_eq_iff.2 ⟨hc, hk, rfl, hop, h16.symm, rfl, h0.symm⟩
        split at h
        next h22 =>
          cases h
          exact isWordOf_of_eq ⟨rfl, rfl, rfl⟩ (h22 ▸ hword)
        next h22 =>
          cases h
          exact isWordOf_of_eq ⟨rfl, rfl, rfl⟩ (Bool.eq_false_iff.2 h22 ▸ hword)
      next => cases h
  next =>
    split at h
    next hbx =>
      obtain ⟨h4, h21⟩ := hbx
      split at h
      next h8 =>
        cases h
        have hop : 0x12FFF1#24 = field w 4 24 := by
          refine (append_eq_field_iff (x := 0x12FFF#20) (y := 1#4)).2 ⟨?_, h4.symm⟩
          refine (append_eq_field_iff (x := 0x12#8) (y := 0xFFF#12)).2 ⟨?_, h8.symm⟩
          refine (append_eq_field_iff (x := 9#7) (y := 0#1)).2 ⟨?_, field_one_eq h20⟩
          have h22 : field w 22 1 = 0#1 := part_of_field (x := 1#2) h21.symm 1 1 (by decide)
          have h21' : field w 21 1 = 1#1 := part_of_field (x := 1#2) h21.symm 0 1 (by decide)
          refine (append_eq_field_iff (x := 4#6) (y := 1#1)).2 ⟨?_, h21'.symm⟩
          exact (append_eq_field_iff (x := 2#5) (y := 0#1)).2 ⟨hk, h22.symm⟩
        exact isWordOf_of_eq ⟨rfl, rfl, rfl⟩ ((threeParts_eq_iff rfl).2 ⟨hc, hop, rfl⟩)
      next => cases h
    next => cases h

/-- The two parts of an offset of eight bits (R106). -/
theorem encodeHalfImm_append (c : Cond) (p u w l s h : Bool) (rn rd hi lo : Reg) :
    encodeHalfImm c p u w l s h rn rd (hi ++ lo) = encodeHalf c p u true w l s h rn rd hi lo := by
  rw [encodeHalfImm, BitVec.extractLsb'_append_eq_left, BitVec.extractLsb'_append_eq_right]

theorem isWordOf_decode000 {c : Cond} {w : Word} {i : Instr} (hc : c.bits = field w 28 4) (hk : 0#3 = field w 25 3)
    (h : decode000 c w = .instr i) : IsWordOf w i := by
  unfold decode000 at h
  split at h
  next hnine => exact isWordOf_decodeMultiplySwap hc hk hnine.symm h
  next =>
    split at h
    next hhalf =>
      obtain ⟨h7, h4⟩ := Bool.and_eq_true_iff.1 hhalf
      have hone : ∀ {k}, w.getLsbD k = true → 1#1 = field w k 1 := fun hb => field_one_eq hb
      split at h
      next h22 =>
        refine isWordOf_of_eq (isWordOf_decodeHalfImm h) ((encodeHalfImm_append ..).trans ?_)
        exact encodeHalf_eq_iff.2 ⟨hc, hk, rfl, rfl, h22.symm, rfl, rfl, rfl, rfl, rfl, hone h7, rfl, rfl, hone h4, rfl⟩
      next h22 =>
        obtain ⟨hhi, hword⟩ := isWordOf_decodeHalfReg h
        exact isWordOf_of_eq hword (encodeHalf_eq_iff.2 ⟨hc, hk, rfl, rfl, (Bool.eq_false_iff.2 h22).symm, rfl, rfl,
          rfl, rfl, hhi.symm, hone h7, rfl, rfl, hone h4, rfl⟩)
    next hhalf =>
      split at h
      next hmisc =>
        obtain ⟨h23, h20⟩ := hmisc
        exact isWordOf_decodeMisc hc ((append_eq_field_iff (x := 0#3) (y := 2#2)).2 ⟨hk, h23.symm⟩) h20 h
      next =>
        split at h
        next h4 =>
          have h7 : w.getLsbD 7 = false := Bool.eq_false_iff.2 fun h7 => hhalf (by rw [h7, h4]; rfl)
          exact isWordOf_of_eq (isWordOf_decodeDpShiftReg h) (encodeDpShiftReg_eq_iff.2 ⟨hc, hk, DpOp.bits_ofBits _, rfl,
            rfl, rfl, rfl, field_one_eq h7, ShiftKind.bits_ofBits _, field_one_eq h4, rfl⟩)
        next h4 =>
          obtain ⟨hwf, hamount, hkind⟩ := ShiftImm.ofBits_spec (field w 7 5) (field w 5 2)
          exact isWordOf_of_eq (isWordOf_decodeDpShiftImm hwf h) (encodeDpShiftImm_eq_iff.2 ⟨hc, hk, DpOp.bits_ofBits _,
            rfl, rfl, rfl, hamount, hkind, field_one_eq (Bool.eq_false_iff.2 h4), rfl⟩)

theorem isWordOf_decode001 {c : Cond} {w : Word} {i : Instr} (hc : c.bits = field w 28 4) (hk : 1#3 = field w 25 3)
    (h : decode001 c w = .instr i) : IsWordOf w i := by
  unfold decode001 at h
  split at h
  next hmsr =>
    obtain ⟨h23, h20⟩ := hmsr
    split at h
    next h12 =>
      have hop : 6#5 = field w 23 5 := (append_eq_field_iff (x := 1#3) (y := 2#2)).2 ⟨hk, h23.symm⟩
      have hword : encodeMsrImm c (w.getLsbD 22) (.ofBits (field w 16 4)) (field w 8 4) (field w 0 8) = w :=
        encodeMsrImm_eq_iff.2 ⟨hc, hop, rfl, h20.symm, PsrFields.bits_ofBits _, h12.symm, rfl, rfl⟩
      split at h
      next h22 =>
        cases h
        exact isWordOf_of_eq ⟨rfl, rfl, rfl⟩ (h22 ▸ hword)
      next h22 =>
        cases h
        exact isWordOf_of_eq ⟨rfl, rfl, rfl⟩ (Bool.eq_false_iff.2 h22 ▸ hword)
    next => cases h
  next =>
    split at h
    next => cases h
    next =>
      exact isWordOf_of_eq (isWordOf_decodeDpImm h)
        (encodeDpImm_eq_iff.2 ⟨hc, hk, DpOp.bits_ofBits _, rfl, rfl, rfl, rfl, rfl⟩)

theorem isWordOf_decodeClass {c : Cond} {w : Word} {i : Instr} (hc : c.bits = field w 28 4)
    (h : decodeClass c w = .instr i) : IsWordOf w i := by
  unfold decodeClass at h
  split at h
  next hk => exact isWordOf_decode000 hc hk.symm h
  split at h
  next hk => exact isWordOf_decode001 hc hk.symm h
  split at h
  next hk =>
    cases h
    exact isWordOf_of_eq (isWordOf_decodeTransferImm ..)
      (encodeTransferImm_eq_iff.2 ⟨hc, hk.symm, rfl, rfl, rfl, rfl, rfl, rfl, rfl, rfl⟩)
  split at h
  next hk =>
    split at h
    next => cases h
    next h4 =>
      cases h
      obtain ⟨hwf, hamount, hkind⟩ := ShiftImm.ofBits_spec (field w 7 5) (field w 5 2)
      exact isWordOf_of_eq (isWordOf_decodeTransferReg _ _ _ _ _ _ _ _ _ hwf) (encodeTransferReg_eq_iff.2
        ⟨hc, hk.symm, rfl, rfl, rfl, rfl, rfl, rfl, rfl, hamount, hkind, field_one_eq (Bool.eq_false_iff.2 h4), rfl⟩)
  split at h
  next hk =>
    cases h
    exact isWordOf_of_eq (isWordOf_decodeBlock ..) (encodeBlock_eq_iff.2
      ⟨hc, hk.symm, BlockMode.p_ofBits _ _, BlockMode.u_ofBits _ _, rfl, rfl, rfl, rfl, rfl⟩)
  split at h
  next hk =>
    split at h
    next h24 =>
      cases h
      have hop : 11#4 = field w 24 4 := (append_eq_field_iff (x := 5#3) (y := 1#1)).2 ⟨hk.symm, field_one_eq h24⟩
      exact isWordOf_of_eq ⟨rfl, rfl, rfl⟩ ((threeParts_eq_iff rfl).2 ⟨hc, hop, rfl⟩)
    next h24 =>
      cases h
      have hop : 10#4 = field w 24 4 :=
        (append_eq_field_iff (x := 5#3) (y := 0#1)).2 ⟨hk.symm, field_one_eq (Bool.eq_false_iff.2 h24)⟩
      exact isWordOf_of_eq ⟨rfl, rfl, rfl⟩ ((threeParts_eq_iff rfl).2 ⟨hc, hop, rfl⟩)
  split at h
  next => cases h
  next h6 =>
    split at h
    next h24 =>
      cases h
      have hk : 7#3 = field w 25 3 := by
        generalize field w 25 3 = k at *
        bv_omega
      have hop : 15#4 = field w 24 4 := (append_eq_field_iff (x := 7#3) (y := 1#1)).2 ⟨hk, field_one_eq h24⟩
      exact isWordOf_of_eq ⟨rfl, rfl, rfl⟩ ((threeParts_eq_iff rfl).2 ⟨hc, hop, rfl⟩)
    next => cases h

theorem decodeWord_eq_of_bits {c : Cond} {w : Word} (hc : c.bits = field w 28 4) : decodeWord w = decodeClass c w := by
  rw [decodeWord, ← hc, Cond.ofBits_bits]

theorem decodeWord_cases (w : Word) : (field w 28 4 = 15#4 ∧ decodeWord w = .refused .condNV) ∨
    ∃ c : Cond, c.bits = field w 28 4 ∧ decodeWord w = decodeClass c w := by
  cases hc : Cond.ofBits (field w 28 4) with
  | none => exact .inl ⟨Cond.ofBits_none_iff.1 hc, by rw [decodeWord, hc]⟩
  | some c => exact .inr ⟨c, Cond.bits_of_ofBits hc, decodeWord_eq_of_bits (Cond.bits_of_ofBits hc)⟩

/-- Settles O2: every branch of the decoder has checked the constant fields of its encoder's word, and kept the others. -/
theorem encodeAfterDecode : Obligations.EncodeAfterDecode := by
  unfold Obligations.EncodeAfterDecode
  intro w i h
  rcases decodeWord_cases w with ⟨-, hw⟩ | ⟨c, hc, hw⟩
  · rw [h] at hw
    cases hw
  · exact isWordOf_decodeClass hc (hw.symm.trans h)

end Sys2Proof.Proofs

/-! What the decoder makes of the words of the encoder, and of the words that are no instruction (R92 to R116). -/

namespace Sys2Proof.Proofs

open Sys2Proof Sys2Proof.Machine

/-! ### The decoder on the encoder's words, shape by shape -/

theorem decodeWord_dpImm {c : Cond} {op : DpOp} {sf : Bool} {rn rd : Reg} {rot : BitVec 4} {imm : BitVec 8} {w : Word}
    (hs : op.bits.extractLsb' 2 2 = 2#2 → sf = true) (h : encodeDpImm c op sf rn rd rot imm = w) :
    decodeWord w = decodeDpImm op c sf rn rd rot imm := by
  obtain ⟨hc, hk, hop, rfl, rfl, rfl, rfl, rfl⟩ := encodeDpImm_eq_iff.1 h
  have h23 : field w 23 2 = op.bits.extractLsb' 2 2 := part_of_field hop 2 2 (by decide)
  have hmsr : ¬(field w 23 2 = 2#2 ∧ field w 20 2 = 2#2) := fun ⟨h2, h0⟩ =>
    field_ne 0 (by decide) (by rw [hs (h23.symm.trans h2)]; decide) h0
  have hundef : ¬(field w 23 2 = 2#2 ∧ field w 20 2 = 0#2) := fun ⟨h2, h0⟩ =>
    field_ne 0 (by decide) (by rw [hs (h23.symm.trans h2)]; decide) h0
  rw [decodeWord_eq_of_bits hc, decodeClass, ← hk, if_neg (by decide), if_pos rfl, decode001, if_neg hmsr,
    if_neg hundef, ← hop, DpOp.ofBits_bits]

/-- A word of the first class that is neither a multiply, a swap nor a half-word transfer. -/
theorem decode000_plain {c : Cond} {w : Word} (h : w.getLsbD 7 = false ∨ w.getLsbD 4 = false) :
    decode000 c w = if field w 23 2 = 2#2 ∧ w.getLsbD 20 = false then decodeMisc c w
      else if w.getLsbD 4 then
        decodeDpShiftReg (.ofBits (field w 21 4)) c (w.getLsbD 20) (field w 16 4) (field w 12 4) (field w 0 4)
          (.ofBits (field w 5 2)) (field w 8 4)
      else
        decodeDpShiftImm (.ofBits (field w 21 4)) c (w.getLsbD 20) (field w 16 4) (field w 12 4) (field w 0 4)
          (.ofBits (field w 7 5) (field w 5 2)) := by
  have hnine : field w 4 4 ≠ 9#4 := by
    rcases h with h | h
    · exact field_ne 3 (by decide) (by rw [h]; decide)
    · exact field_ne 0 (by decide) (by rw [h]; decide)
  have hboth : ¬(w.getLsbD 7 && w.getLsbD 4) = true := by
    rcases h with h | h <;> simp only [h, Bool.false_and, Bool.and_false, Bool.false_eq_true, not_false_eq_true]
  rw [decode000, if_neg hnine, if_neg hboth]

theorem decodeClass_of_zero {c : Cond} {w : Word} (hk : 0#3 = field w 25 3) : decodeClass c w = decode000 c w := by
  rw [decodeClass, if_pos hk.symm]

theorem decodeWord_dpShiftImm {c : Cond} {op : DpOp} {sf : Bool} {rn rd rm : Reg} {sh : ShiftImm} {w : Word}
    (hs : op.bits.extractLsb' 2 2 = 2#2 → sf = true) (hsh : sh.wf = true)
    (h : encodeDpShiftImm c op sf rn rd rm sh = w) : decodeWord w = decodeDpShiftImm op c sf rn rd rm sh := by
  obtain ⟨hc, hk, hop, rfl, rfl, rfl, hamount, hkind, hbit, rfl⟩ := encodeDpShiftImm_eq_iff.1 h
  have h23 : field w 23 2 = op.bits.extractLsb' 2 2 := part_of_field hop 2 2 (by decide)
  have h4 : w.getLsbD 4 = false := bit_of_field hbit 0 (by decide)
  have hmisc : ¬(field w 23 2 = 2#2 ∧ w.getLsbD 20 = false) := fun ⟨h2, h0⟩ => by
    rw [hs (h23.symm.trans h2)] at h0
    cases h0
  rw [decodeWord_eq_of_bits hc, decodeClass_of_zero hk, decode000_plain (.inr h4), if_neg hmisc, h4,
    if_neg Bool.false_ne_true, ← hop, DpOp.ofBits_bits, ← hamount, ← hkind, ShiftImm.ofBits_bits hsh]

theorem decodeWord_dpShiftReg {c : Cond} {op : DpOp} {sf : Bool} {rn rd rm : Reg} {k : ShiftKind} {rs : Reg} {w : Word}
    (hs : op.bits.extractLsb' 2 2 = 2#2 → sf = true) (h : encodeDpShiftReg c op sf rn rd rm k rs = w) :
    decodeWord w = decodeDpShiftReg op c sf rn rd rm k rs := by
  obtain ⟨hc, hk, hop, rfl, rfl, rfl, rfl, hzero, hkind, hone, rfl⟩ := encodeDpShiftReg_eq_iff.1 h
  have h23 : field w 23 2 = op.bits.extractLsb' 2 2 := part_of_field hop 2 2 (by decide)
  have h7 : w.getLsbD 7 = false := bit_of_field hzero 0 (by decide)
  have h4 : w.getLsbD 4 = true := bit_of_field hone 0 (by decide)
  have hmisc : ¬(field w 23 2 = 2#2 ∧ w.getLsbD 20 = false) := fun ⟨h2, h0⟩ => by
    rw [hs (h23.symm.trans h2)] at h0
    cases h0
  rw [decodeWord_eq_of_bits hc, decodeClass_of_zero hk, decode000_plain (.inl h7), if_neg hmisc, h4, if_pos rfl, ← hop,
    DpOp.ofBits_bits, ← hkind, ShiftKind.ofBits_bits]

/-- A word of the multiplies and swaps: bits 27 to 25 are 000, bits 7 to 4 are 1001. -/
theorem decodeWord_multiplySwap {c : Cond} {w : Word} (hc : c.bits = field w 28 4) (hk : 0#3 = field w 25 3)
    (hnine : 9#4 = field w 4 4) : decodeWord w = decodeMultiplySwap c w := by
  rw [decodeWord_eq_of_bits hc, decodeClass_of_zero hk, decode000, if_pos hnine.symm]

theorem decodeWord_multiply {c : Cond} {a sf : Bool} {r19 r15 rs rm : Reg} {w : Word}
    (h : encodeMultiply c (0#6 ++ BitVec.ofBool a) sf r19 r15 rs rm = w) :
    decodeWord w = decodeMultiply c a sf r19 r15 rs rm := by
  obtain ⟨hc, hop, rfl, rfl, rfl, rfl, hnine, rfl⟩ := encodeMultiply_eq_iff.1 h
  obtain ⟨hsix, hbit⟩ := append_eq_field_iff.1 hop
  obtain rfl := ofBool_eq_field_iff.1 hbit
  have h22 : field w 22 3 = 0#3 := part_of_field hsix 0 3 (by decide)
  rw [decodeWord_multiplySwap hc (part_of_field hsix 3 3 (by decide)).symm hnine, decodeMultiplySwap, if_pos h22]

theorem decodeWord_longMultiply {c : Cond} {sg a sf : Bool} {r19 r15 rs rm : Reg} {w : Word}
    (h : encodeMultiply c (1#5 ++ BitVec.ofBool sg ++ BitVec.ofBool a) sf r19 r15 rs rm = w) :
    decodeWord w = .instr (decodeLongMultiply c sg a sf r19 r15 rs rm) := by
  obtain ⟨hc, hop, rfl, rfl, rfl, rfl, hnine, rfl⟩ := encodeMultiply_eq_iff.1 h
  obtain ⟨hrest, ha⟩ := append_eq_field_iff.1 hop
  obtain ⟨hfive, hsg⟩ := append_eq_field_iff.1 hrest
  obtain rfl := ofBool_eq_field_iff.1 ha
  obtain rfl := ofBool_eq_field_iff.1 hsg
  have h23 : field w 23 2 = 1#2 := part_of_field hfive 0 2 (by decide)
  have h22 : field w 22 3 ≠ 0#3 :=
    field_ne 1 (by decide) (by rw [show w.getLsbD (22 + 1) = true from bit_of_field hfive 0 (by decide)]; decide)
  rw [decodeWord_multiplySwap hc (part_of_field hfive 2 3 (by decide)).symm hnine, decodeMultiplySwap, if_neg h22,
    if_pos h23]

theorem decodeWord_swap {c : Cond} {b : Bool} {rn rd rm : Reg} {w : Word} (h : encodeSwap c b rn rd rm = w) :
    decodeWord w = .instr (if b then .swpb c rd rm rn else .swp c rd rm rn) := by
  obtain ⟨hc, hfive, rfl, h20, rfl, rfl, h8, hnine, rfl⟩ := encodeSwap_eq_iff.1 h
  have h23 : field w 23 2 = 2#2 := part_of_field hfive 0 2 (by decide)
  have h22 : field w 22 3 ≠ 0#3 :=
    field_ne 2 (by decide) (by rw [show w.getLsbD (22 + 2) = true from bit_of_field hfive 1 (by decide)]; decide)
  rw [decodeWord_multiplySwap hc (part_of_field hfive 2 3 (by decide)).symm hnine, decodeMultiplySwap, if_neg h22, h23,
    if_neg (by decide), if_pos ⟨rfl, h20.symm, h8.symm⟩]
  split <;> rfl

/-- A word of the miscellaneous space. -/
theorem decodeWord_misc {c : Cond} {w : Word} (hc : c.bits = field w 28 4) (hk : 2#5 = field w 23 5)
    (h20 : w.getLsbD 20 = false) (h : w.getLsbD 7 = false ∨ w.getLsbD 4 = false) : decodeWord w = decodeMisc c w := by
  have h23 : field w 23 2 = 2#2 := part_of_field hk 0 2 (by decide)
  rw [decodeWord_eq_of_bits hc, decodeClass_of_zero (part_of_field hk 2 3 (by decide)).symm, decode000_plain h,
    if_pos ⟨h23, h20⟩]

theorem decodeWord_mrs {c : Cond} {r : Bool} {rd : Reg} {w : Word} (h : encodeMrs c r rd = w) :
    decodeWord w = .instr (if r then .mrsSpsr c rd else .mrsCpsr c rd) := by
  obtain ⟨hc, hk, rfl, h20, h16, rfl, h0⟩ := encodeMrs_eq_iff.1 h
  have h21 : w.getLsbD 21 = false := bit_of_field h20 1 (by decide)
  have h4 : field w 4 4 = 0#4 := part_of_field h0 4 4 (by decide)
  rw [decodeWord_misc hc hk (bit_of_field h20 0 (by decide)) (.inl (bit_of_field h0 7 (by decide))), decodeMisc,
    if_pos h4, h21, if_neg Bool.false_ne_true, if_pos ⟨h16.symm, h0.symm⟩]
  split <;> rfl

theorem decodeWord_msrReg {c : Cond} {r : Bool} {m : PsrFields} {rm : Reg} {w : Word} (h : encodeMsrReg c r m rm = w) :
    decodeWord w = .instr (if r then .msrSpsrReg c m rm else .msrCpsrReg c m rm) := by
  obtain ⟨hc, hk, rfl, h20, hm, h12, h48, rfl⟩ := encodeMsrReg_eq_iff.1 h
  have h21 : w.getLsbD 21 = true := bit_of_field h20 1 (by decide)
  have h4 : field w 4 4 = 0#4 := part_of_field h48 0 4 (by decide)
  rw [decodeWord_misc hc hk (bit_of_field h20 0 (by decide)) (.inl (bit_of_field h48 3 (by decide))), decodeMisc,
    if_pos h4, h21, if_pos rfl, if_pos ⟨h12.symm, h48.symm⟩, ← hm, PsrFields.ofBits_bits]
  split <;> rfl

theorem decodeWord_bx {c : Cond} {rm : Reg} {w : Word} (h : c.bits ++ 0x12FFF1#24 ++ rm = w) :
    decodeWord w = .instr (.bx c rm) := by
  obtain ⟨hc, hop, rfl⟩ := (threeParts_eq_iff rfl).1 h
  have h4 : field w 4 4 = 1#4 := part_of_field hop 0 4 (by decide)
  have h21 : field w 21 2 = 1#2 := part_of_field hop 17 2 (by decide)
  have h8 : field w 8 12 = 0xFFF#12 := part_of_field hop 4 12 (by decide)
  rw [decodeWord_misc hc (part_of_field hop 19 5 (by decide)).symm (bit_of_field hop 16 (by decide))
    (.inl (bit_of_field hop 3 (by decide))), decodeMisc, h4, if_neg (by decide), if_pos ⟨rfl, h21⟩, if_pos h8]

theorem decodeWord_msrImm {c : Cond} {r : Bool} {m : PsrFields} {rot : BitVec 4} {imm : BitVec 8} {w : Word}
    (h : encodeMsrImm c r m rot imm = w) :
    decodeWord w = .instr (if r then .msrSpsrImm c m rot imm else .msrCpsrImm c m rot imm) := by
  obtain ⟨hc, hk, rfl, h20, hm, h12, rfl, rfl⟩ := encodeMsrImm_eq_iff.1 h
  have h25 : field w 25 3 = 1#3 := part_of_field hk 2 3 (by decide)
  have h23 : field w 23 2 = 2#2 := part_of_field hk 0 2 (by decide)
  rw [decodeWord_eq_of_bits hc, decodeClass, h25, if_neg (by decide), if_pos rfl, decode001, if_pos ⟨h23, h20.symm⟩,
    if_pos h12.symm, ← hm, PsrFields.ofBits_bits]
  split <;> rfl

theorem decodeWord_transferImm {c : Cond} {p u b wb l : Bool} {rn rd : Reg} {imm : BitVec 12} {w : Word}
    (h : encodeTransferImm c p u b wb l rn rd imm = w) :
    decodeWord w = .instr (decodeTransferImm c p u b wb l rn rd imm) := by
  obtain ⟨hc, hk, rfl, rfl, rfl, rfl, rfl, rfl, rfl, rfl⟩ := encodeTransferImm_eq_iff.1 h
  rw [decodeWord_eq_of_bits hc, decodeClass, ← hk, if_neg (by decide), if_neg (by decide), if_pos rfl]

theorem decodeWord_transferReg {c : Cond} {p u b wb l : Bool} {rn rd rm : Reg} {sh : ShiftImm} {w : Word}
    (hsh : sh.wf = true) (h : encodeTransferReg c p u b wb l rn rd rm sh = w) :
    decodeWord w = .instr (decodeTransferReg c p u b wb l rn rd rm sh) := by
  obtain ⟨hc, hk, rfl, rfl, rfl, rfl, rfl, rfl, rfl, hamount, hkind, hbit, rfl⟩ := encodeTransferReg_eq_iff.1 h
  have h4 : w.getLsbD 4 = false := bit_of_field hbit 0 (by decide)
  rw [decodeWord_eq_of_bits hc, decodeClass, ← hk, if_neg (by decide), if_neg (by decide), if_neg (by decide),
    if_pos rfl, h4, if_neg Bool.false_ne_true, ← hamount, ← hkind, ShiftImm.ofBits_bits hsh]

/-- A half-word or signed-byte transfer: not both of bits 6 and 5 are 0. -/
theorem decodeWord_half {c : Cond} {p u i wb l s h : Bool} {rn rd hi lo : Reg} {w : Word} (hsh : s = true ∨ h = true)
    (hw : encodeHalf c p u i wb l s h rn rd hi lo = w) :
    decodeWord w = if i then decodeHalfImm c p u wb l s h rn rd (hi ++ lo)
      else decodeHalfReg c p u wb l s h rn rd hi lo := by
  obtain ⟨hc, hk, rfl, rfl, rfl, rfl, rfl, rfl, rfl, rfl, hseven, rfl, rfl, hfour, rfl⟩ := encodeHalf_eq_iff.1 hw
  have h7 : w.getLsbD 7 = true := bit_of_field hseven 0 (by decide)
  have h4 : w.getLsbD 4 = true := bit_of_field hfour 0 (by decide)
  have hnine : field w 4 4 ≠ 9#4 := by
    rcases hsh with hb | hb
    · exact field_ne 2 (by decide) (by rw [hb]; decide)
    · exact field_ne 1 (by decide) (by rw [hb]; decide)
  rw [decodeWord_eq_of_bits hc, decodeClass_of_zero hk, decode000, if_neg hnine, h7, h4, Bool.and_self,
    if_pos rfl]

theorem decodeWord_halfImm {c : Cond} {p u wb l s h : Bool} {rn rd : Reg} {imm : BitVec 8} {w : Word}
    (hsh : s = true ∨ h = true) (hw : encodeHalfImm c p u wb l s h rn rd imm = w) :
    decodeWord w = decodeHalfImm c p u wb l s h rn rd imm := by
  have himm : imm.extractLsb' 4 4 ++ imm.extractLsb' 0 4 = imm := BitVec.extractLsb'_append_extractLsb'
  have h := decodeWord_half hsh hw
  rwa [himm, if_pos rfl] at h

theorem decodeWord_halfReg {c : Cond} {p u wb l s h : Bool} {rn rd rm : Reg} {w : Word}
    (hsh : s = true ∨ h = true) (hw : encodeHalfReg c p u wb l s h rn rd rm = w) :
    decodeWord w = decodeHalfReg c p u wb l s h rn rd 0#4 rm :=
  (decodeWord_half hsh hw).trans (if_neg Bool.false_ne_true)

theorem decodeWord_block {c : Cond} {am : BlockMode} {s wb l : Bool} {rn : Reg} {list : BitVec 16} {w : Word}
    (h : encodeBlock c am s wb l rn list = w) : decodeWord w = .instr (decodeBlock c am s wb l rn list) := by
  obtain ⟨hc, hk, hp, hu, rfl, rfl, rfl, rfl, rfl⟩ := encodeBlock_eq_iff.1 h
  rw [decodeWord_eq_of_bits hc, decodeClass, ← hk, if_neg (by decide), if_neg (by decide), if_neg (by decide),
    if_neg (by decide), if_pos rfl, ← hp, ← hu, BlockMode.ofBits_bits]

theorem decodeWord_b {c : Cond} {off : BitVec 24} {w : Word} (h : c.bits ++ 10#4 ++ off = w) :
    decodeWord w = .instr (.b c off) := by
  obtain ⟨hc, hop, rfl⟩ := (threeParts_eq_iff rfl).1 h
  have hk : field w 25 3 = 5#3 := part_of_field hop 1 3 (by decide)
  have h24 : w.getLsbD 24 = false := bit_of_field hop 0 (by decide)
  simp only [decodeWord_eq_of_bits hc, decodeClass, hk, h24, Bool.false_eq_true, if_false]
  rfl

theorem decodeWord_bl {c : Cond} {off : BitVec 24} {w : Word} (h : c.bits ++ 11#4 ++ off = w) :
    decodeWord w = .instr (.bl c off) := by
  obtain ⟨hc, hop, rfl⟩ := (threeParts_eq_iff rfl).1 h
  have hk : field w 25 3 = 5#3 := part_of_field hop 1 3 (by decide)
  have h24 : w.getLsbD 24 = true := bit_of_field hop 0 (by decide)
  simp only [decodeWord_eq_of_bits hc, decodeClass, hk, h24, if_true]
  rfl

theorem decodeWord_swi {c : Cond} {imm : BitVec 24} {w : Word} (h : c.bits ++ 15#4 ++ imm = w) :
    decodeWord w = .instr (.swi c imm) := by
  obtain ⟨hc, hop, rfl⟩ := (threeParts_eq_iff rfl).1 h
  have hk : field w 25 3 = 7#3 := part_of_field hop 1 3 (by decide)
  have h24 : w.getLsbD 24 = true := bit_of_field hop 0 (by decide)
  simp only [decodeWord_eq_of_bits hc, decodeClass, hk, h24, if_true]
  rfl

/-! ### Every instruction comes back from its words -/

/-- A term that stands for one instruction comes back as this instruction. -/
theorem decode_encode_of_expand {i j : Instr} {w : Word} (he : i.expand = [j]) (hw : encodeWord j = some w)
    (hd : decodeWord w = .instr j) : (encode i).map decodeWord = i.expand.map Decoded.instr := by
  rw [encode, he, List.filterMap_cons_some hw, List.filterMap_nil, List.map_singleton, List.map_singleton, hd]

/-- A term that stands for two instructions comes back as these (R314). -/
theorem decode_encode_of_pair {i j k : Instr} {v w : Word} (he : i.expand = [j, k]) (hv : encodeWord j = some v)
    (hw : encodeWord k = some w) (hj : decodeWord v = .instr j) (hk : decodeWord w = .instr k) :
    (encode i).map decodeWord = i.expand.map Decoded.instr := by
  rw [encode, he, List.filterMap_cons_some hv, List.filterMap_cons_some hw, List.filterMap_nil, List.map_cons,
    List.map_cons, List.map_nil, hj, hk]
  rfl

/-- `ldr Rd, =imm32` stands for one of three instructions (R312). -/
theorem decode_encode_ldrConst (c : Cond) (rd : Reg) (imm32 : Word) (u : Bool) (pool : BitVec 12) :
    (encode (.ldrConst c rd imm32 u pool)).map decodeWord =
      (Instr.ldrConst c rd imm32 u pool).expand.map Decoded.instr := by
  cases hmov : immPair? imm32 with
  | some p =>
    obtain ⟨rot, imm⟩ := p
    exact decode_encode_of_expand (j := .movImm c false rd rot imm) (by rw [Instr.expand, hmov]) rfl
      (decodeWord_dpImm (by decide) rfl)
  | none =>
    cases hmvn : immPair? (~~~imm32) with
    | some p =>
      obtain ⟨rot, imm⟩ := p
      exact decode_encode_of_expand (j := .mvnImm c false rd rot imm) (by rw [Instr.expand, hmov]; simp only [hmvn]) rfl
        (decodeWord_dpImm (by decide) rfl)
    | none =>
      exact decode_encode_of_expand (j := .ldrPreImm c u false 15#4 rd pool)
        (by rw [Instr.expand, hmov]; simp only [hmvn]) rfl (decodeWord_transferImm rfl)

/-- Settles O1: each shape of word comes back through the branch of the decoder that checks its constant fields. -/
theorem decodeAfterEncode : Obligations.DecodeAfterEncode := by
  unfold Obligations.DecodeAfterEncode
  intro i hwf
  cases i
  case nop =>
    refine decode_encode_of_expand rfl rfl (decodeWord_dpShiftImm ?_ ?_ rfl)
    all_goals decide
  case ldrLabel => exact decode_encode_of_expand rfl rfl (decodeWord_transferImm rfl)
  case ldrConst => exact decode_encode_ldrConst ..
  case adr c u rd rot imm =>
    cases u
    all_goals
      refine decode_encode_of_expand rfl rfl (decodeWord_dpImm ?_ rfl)
      decide
  case adrl c u rd rot1 imm1 rot2 imm2 =>
    cases u
    all_goals
      refine decode_encode_of_pair rfl rfl rfl (decodeWord_dpImm ?_ rfl) (decodeWord_dpImm ?_ rfl)
      all_goals decide
  case andImm | eorImm | subImm | rsbImm | addImm | adcImm | sbcImm | rscImm | orrImm | movImm | bicImm | mvnImm =>
    refine decode_encode_of_expand rfl rfl (decodeWord_dpImm ?_ rfl)
    exact fun h => absurd h (by decide)
  case tstImm | teqImm | cmpImm | cmnImm =>
    refine decode_encode_of_expand rfl rfl (decodeWord_dpImm ?_ rfl)
    exact fun _ => rfl
  case andShiftImm | eorShiftImm | subShiftImm | rsbShiftImm | addShiftImm | adcShiftImm | sbcShiftImm | rscShiftImm
      | orrShiftImm | movShiftImm | bicShiftImm | mvnShiftImm =>
    refine decode_encode_of_expand rfl rfl (decodeWord_dpShiftImm ?_ hwf rfl)
    exact fun h => absurd h (by decide)
  case tstShiftImm | teqShiftImm | cmpShiftImm | cmnShiftImm =>
    refine decode_encode_of_expand rfl rfl (decodeWord_dpShiftImm ?_ hwf rfl)
    exact fun _ => rfl
  case andShiftReg | eorShiftReg | subShiftReg | rsbShiftReg | addShiftReg | adcShiftReg | sbcShiftReg | rscShiftReg
      | orrShiftReg | movShiftReg | bicShiftReg | mvnShiftReg =>
    refine decode_encode_of_expand rfl rfl (decodeWord_dpShiftReg ?_ rfl)
    exact fun h => absurd h (by decide)
  case tstShiftReg | teqShiftReg | cmpShiftReg | cmnShiftReg =>
    refine decode_encode_of_expand rfl rfl (decodeWord_dpShiftReg ?_ rfl)
    exact fun _ => rfl
  case mrsCpsr | mrsSpsr => exact decode_encode_of_expand rfl rfl (decodeWord_mrs rfl)
  case msrCpsrReg | msrSpsrReg => exact decode_encode_of_expand rfl rfl (decodeWord_msrReg rfl)
  case msrCpsrImm | msrSpsrImm => exact decode_encode_of_expand rfl rfl (decodeWord_msrImm rfl)
  case mul => exact decode_encode_of_expand rfl rfl (decodeWord_multiply (a := false) rfl)
  case mla => exact decode_encode_of_expand rfl rfl (decodeWord_multiply (a := true) rfl)
  case umull => exact decode_encode_of_expand rfl rfl (decodeWord_longMultiply (sg := false) (a := false) rfl)
  case umlal => exact decode_encode_of_expand rfl rfl (decodeWord_longMultiply (sg := false) (a := true) rfl)
  case smull => exact decode_encode_of_expand rfl rfl (decodeWord_longMultiply (sg := true) (a := false) rfl)
  case smlal => exact decode_encode_of_expand rfl rfl (decodeWord_longMultiply (sg := true) (a := true) rfl)
  case bx => exact decode_encode_of_expand rfl rfl (decodeWord_bx rfl)
  case swp | swpb => exact decode_encode_of_expand rfl rfl (decodeWord_swap rfl)
  case ldrPreImm | ldrPostImm | ldrbPreImm | ldrbPostImm | strPreImm | strPostImm | strbPreImm | strbPostImm | ldrtImm
      | ldrbtImm | strtImm | strbtImm =>
    exact decode_encode_of_expand rfl rfl (decodeWord_transferImm rfl)
  case ldrPreReg | ldrPostReg | ldrbPreReg | ldrbPostReg | strPreReg | strPostReg | strbPreReg | strbPostReg | ldrtReg
      | ldrbtReg | strtReg | strbtReg =>
    exact decode_encode_of_expand rfl rfl (decodeWord_transferReg hwf rfl)
  case ldrhPreImm | ldrsbPreImm | ldrshPreImm | strhPreImm | ldrhPostImm | ldrsbPostImm | ldrshPostImm | strhPostImm =>
    refine decode_encode_of_expand rfl rfl (decodeWord_halfImm ?_ rfl)
    decide
  case ldrhPreReg | ldrsbPreReg | ldrshPreReg | strhPreReg | ldrhPostReg | ldrsbPostReg | ldrshPostReg | strhPostReg =>
    refine decode_encode_of_expand rfl rfl (decodeWord_halfReg ?_ rfl)
    decide
  case ldm | stm | stmUser => exact decode_encode_of_expand rfl rfl (decodeWord_block rfl)
  case ldmReturn c am w rn list =>
    exact decode_encode_of_expand rfl rfl ((decodeWord_block rfl).trans (congrArg _ (if_pos hwf)))
  case ldmUser c am w rn list =>
    have h15 : ¬list.getLsbD 15 = true := fun h => by
      rw [Instr.wf, h] at hwf
      cases hwf
    exact decode_encode_of_expand rfl rfl ((decodeWord_block rfl).trans (congrArg _ (if_neg h15)))
  case b => exact decode_encode_of_expand rfl rfl (decodeWord_b rfl)
  case bl => exact decode_encode_of_expand rfl rfl (decodeWord_bl rfl)
  case swi => exact decode_encode_of_expand rfl rfl (decodeWord_swi rfl)

end Sys2Proof.Proofs

/-! The words that are no instruction (R110). -/

namespace Sys2Proof.Proofs

open Sys2Proof Sys2Proof.Machine

/-- An instruction, or a refusal for another reason than the condition 1111 and the coprocessors. -/
def Decoded.isAllocated : Decoded → Bool
  | .instr _ => true
  | .undefined _ => false
  | .refused e => e != .condNV && e != .coprocessorNotModelled

/-- The Undefined instruction space (R110). -/
def UndefinedSpace (w : Word) : Prop :=
  (field w 25 3 = 0b011#3 ∧ w.getLsbD 4 = true) ∨ (field w 23 5 = 0b00110#5 ∧ field w 20 2 = 0b00#2)

/-- The coprocessor words (R110). -/
def CoprocessorSpace (w : Word) : Prop :=
  field w 25 3 = 0b110#3 ∨ field w 24 4 = 0b1110#4

theorem allocated_ite {p : Prop} [Decidable p] {d e : Decoded} (hd : Decoded.isAllocated d = true)
    (he : Decoded.isAllocated e = true) : Decoded.isAllocated (if p then d else e) = true := by
  split
  · exact hd
  · exact he

theorem allocated_decodeDpImm (op : DpOp) (c : Cond) (sf : Bool) (rn rd : Reg) (rot : BitVec 4) (imm : BitVec 8) :
    Decoded.isAllocated (decodeDpImm op c sf rn rd rot imm) = true := by
  cases op
  case tst | teq | cmp | cmn => exact allocated_ite rfl (allocated_ite rfl rfl)
  case mov | mvn => exact allocated_ite rfl rfl
  all_goals rfl

theorem allocated_decodeDpShiftImm (op : DpOp) (c : Cond) (sf : Bool) (rn rd rm : Reg) (sh : ShiftImm) :
    Decoded.isAllocated (decodeDpShiftImm op c sf rn rd rm sh) = true := by
  cases op
  case tst | teq | cmp | cmn => exact allocated_ite rfl (allocated_ite rfl rfl)
  case mov | mvn => exact allocated_ite rfl rfl
  all_goals rfl

theorem allocated_decodeDpShiftReg (op : DpOp) (c : Cond) (sf : Bool) (rn rd rm : Reg) (k : ShiftKind) (rs : Reg) :
    Decoded.isAllocated (decodeDpShiftReg op c sf rn rd rm k rs) = true := by
  cases op
  case tst | teq | cmp | cmn => exact allocated_ite rfl (allocated_ite rfl rfl)
  case mov | mvn => exact allocated_ite rfl rfl
  all_goals rfl

theorem allocated_decodeHalfImm (c : Cond) (p u w l s h : Bool) (rn rd : Reg) (imm : BitVec 8) :
    Decoded.isAllocated (decodeHalfImm c p u w l s h rn rd imm) = true := by
  refine allocated_ite rfl (allocated_ite rfl ?_)
  split <;> rfl

theorem allocated_decodeHalfReg (c : Cond) (p u w l s h : Bool) (rn rd hi rm : Reg) :
    Decoded.isAllocated (decodeHalfReg c p u w l s h rn rd hi rm) = true := by
  refine allocated_ite rfl (allocated_ite rfl (allocated_ite rfl ?_))
  split <;> rfl

theorem allocated_decodeMisc (c : Cond) (w : Word) : Decoded.isAllocated (decodeMisc c w) = true :=
  allocated_ite (allocated_ite (allocated_ite (allocated_ite rfl rfl) rfl) (allocated_ite (allocated_ite rfl rfl) rfl))
    (allocated_ite (allocated_ite rfl rfl) rfl)

theorem allocated_decodeMultiplySwap (c : Cond) (w : Word) : Decoded.isAllocated (decodeMultiplySwap c w) = true :=
  allocated_ite (allocated_ite rfl (allocated_ite rfl rfl))
    (allocated_ite rfl (allocated_ite (allocated_ite rfl rfl) rfl))

theorem allocated_decode000 (c : Cond) (w : Word) : Decoded.isAllocated (decode000 c w) = true :=
  allocated_ite (allocated_decodeMultiplySwap c w)
    (allocated_ite (allocated_ite (allocated_decodeHalfImm ..) (allocated_decodeHalfReg ..))
      (allocated_ite (allocated_decodeMisc c w)
        (allocated_ite (allocated_decodeDpShiftReg ..) (allocated_decodeDpShiftImm ..))))

theorem field_five_eq_six_iff {w : Word} : field w 23 5 = 0b00110#5 ↔ field w 25 3 = 1#3 ∧ field w 23 2 = 2#2 := by
  rw [eq_comm, @eq_comm _ (field w 25 3), @eq_comm _ (field w 23 2)]
  exact append_eq_field_iff (x := 1#3) (y := 2#2)

theorem field_four_eq_fourteen_iff {w : Word} :
    field w 24 4 = 0b1110#4 ↔ field w 25 3 = 7#3 ∧ w.getLsbD 24 = false := by
  rw [eq_comm, @eq_comm _ (field w 25 3), @eq_comm _ (w.getLsbD 24), ← ofBool_eq_field_iff]
  exact append_eq_field_iff (x := 7#3) (y := 0#1)

/-- A word with a condition: Undefined, a coprocessor's, or else. -/
theorem decodeClass_cases (c : Cond) (w : Word) :
    (UndefinedSpace w ∧ decodeClass c w = .undefined c) ∨
      (CoprocessorSpace w ∧ decodeClass c w = .refused .coprocessorNotModelled) ∨
      (¬UndefinedSpace w ∧ ¬CoprocessorSpace w ∧ Decoded.isAllocated (decodeClass c w) = true) := by
  have hkind : field w 25 3 = 0#3 ∨ field w 25 3 = 1#3 ∨ field w 25 3 = 2#3 ∨ field w 25 3 = 3#3 ∨
      field w 25 3 = 4#3 ∨ field w 25 3 = 5#3 ∨ field w 25 3 = 6#3 ∨ field w 25 3 = 7#3 := by
    generalize field w 25 3 = k
    bv_omega
  unfold UndefinedSpace CoprocessorSpace
  rw [field_five_eq_six_iff, field_four_eq_fourteen_iff, decodeClass]
  rcases hkind with hk | hk | hk | hk | hk | hk | hk | hk <;>
    simp only [hk, BitVec.reduceEq, if_true, if_false]
  · exact .inr (.inr ⟨by simp, by simp, allocated_decode000 c w⟩)
  · by_cases hundef : field w 23 2 = 2#2 ∧ field w 20 2 = 0#2
    · have hmsr : ¬(field w 23 2 = 2#2 ∧ field w 20 2 = 2#2) := fun h => by
        rw [hundef.2] at h
        exact absurd h.2 (by decide)
      exact .inl ⟨.inr ⟨⟨trivial, hundef.1⟩, hundef.2⟩, by rw [decode001, if_neg hmsr, if_pos hundef]⟩
    · refine .inr (.inr ⟨by simpa using hundef, by simp, ?_⟩)
      refine allocated_ite (allocated_ite (allocated_ite rfl rfl) rfl) ?_
      rw [if_neg hundef]
      exact allocated_decodeDpImm ..
  · exact .inr (.inr ⟨by simp, by simp, rfl⟩)
  · cases h4 : w.getLsbD 4
    · exact .inr (.inr ⟨by simp, by simp, rfl⟩)
    · exact .inl ⟨by simp, rfl⟩
  · exact .inr (.inr ⟨by simp, by simp, rfl⟩)
  · exact .inr (.inr ⟨by simp, by simp, allocated_ite rfl rfl⟩)
  · exact .inr (.inl ⟨by simp, trivial⟩)
  · cases h24 : w.getLsbD 24
    · exact .inr (.inl ⟨by simp, rfl⟩)
    · exact .inr (.inr ⟨by simp, by simp, rfl⟩)

theorem condBits_ne_fifteen (c : Cond) : c.bits ≠ 15#4 := by
  cases c <;> decide

/-- No word is both Undefined and a coprocessor's. -/
theorem not_coprocessor_of_undefined {w : Word} (h : UndefinedSpace w) : ¬CoprocessorSpace w := by
  unfold UndefinedSpace at h
  unfold CoprocessorSpace
  rw [field_five_eq_six_iff] at h
  rw [field_four_eq_fourteen_iff]
  rcases h with ⟨hk, -⟩ | ⟨⟨hk, -⟩, -⟩ <;> simp [hk]

theorem decodeWord_condNV_iff (w : Word) : decodeWord w = .refused .condNV ↔ field w 28 4 = 15#4 := by
  rcases decodeWord_cases w with ⟨hf, hw⟩ | ⟨c, hc, hw⟩
  · simp only [hf, hw]
  · have hne : field w 28 4 ≠ 15#4 := hc ▸ condBits_ne_fifteen c
    simp only [hne, hw, iff_false]
    rcases decodeClass_cases c w with ⟨-, h⟩ | ⟨-, h⟩ | ⟨-, -, h⟩
    · simp [h]
    · simp [h]
    · intro e
      rw [e] at h
      cases h

theorem decodeWord_undefined_iff (w : Word) (c : Cond) : decodeWord w = .undefined c ↔
    Cond.ofBits (field w 28 4) = some c ∧ UndefinedSpace w := by
  rcases decodeWord_cases w with ⟨hf, hw⟩ | ⟨d, hd, hw⟩
  · simp [hf, hw, Cond.ofBits_none_iff.2]
  · rw [← hd, hw, Cond.ofBits_bits]
    rcases decodeClass_cases d w with ⟨hu, h⟩ | ⟨hcop, h⟩ | ⟨hu, -, h⟩
    · simp [h, hu]
    · have hu : ¬UndefinedSpace w := fun hu => not_coprocessor_of_undefined hu hcop
      simp [h, hu]
    · simp only [hu, and_false, iff_false]
      intro e
      rw [e] at h
      cases h

theorem decodeWord_coprocessor_iff (w : Word) : decodeWord w = .refused .coprocessorNotModelled ↔
    field w 28 4 ≠ 15#4 ∧ CoprocessorSpace w := by
  rcases decodeWord_cases w with ⟨hf, hw⟩ | ⟨c, hc, hw⟩
  · simp [hf, hw]
  · have hne : field w 28 4 ≠ 15#4 := hc ▸ condBits_ne_fifteen c
    rw [hw]
    rcases decodeClass_cases c w with ⟨hu, h⟩ | ⟨hcop, h⟩ | ⟨-, hcop, h⟩
    · simp [h, not_coprocessor_of_undefined hu]
    · simp [h, hne, hcop]
    · simp only [hcop, and_false, iff_false]
      intro e
      rw [e] at h
      cases h

/-- A word with a condition decodes by its class. -/
theorem exists_decodeWord {w : Word} (h : field w 28 4 ≠ 15#4) : ∃ c : Cond, c.bits = field w 28 4 := by
  rcases decodeWord_cases w with ⟨hf, -⟩ | ⟨c, hc, -⟩
  · exact absurd hf h
  · exact ⟨c, hc⟩

theorem multiplySpace_unallocated {w : Word} (h28 : field w 28 4 ≠ 15#4) (h24 : field w 24 4 = 0b0000#4)
    (hnine : field w 4 4 = 0b1001#4) (h22 : field w 22 2 = 0b01#2) : decodeWord w = .refused .unallocated := by
  obtain ⟨c, hc⟩ := exists_decodeWord h28
  have hk : field w 25 3 = 0#3 := part_of_field h24.symm 1 3 (by decide)
  have hbit : w.getLsbD 22 = true := bit_of_field h22.symm 0 (by decide)
  have hzero : w.getLsbD 23 = false := bit_of_field h22.symm 1 (by decide)
  have hzero' : w.getLsbD 24 = false := bit_of_field h24.symm 0 (by decide)
  have hmul : field w 22 3 ≠ 0#3 := field_ne 0 (by decide) (by rw [hbit]; decide)
  have hlong : field w 23 2 ≠ 1#2 := field_ne 0 (by decide) (by rw [hzero]; decide)
  have hswap : field w 23 2 ≠ 2#2 := field_ne 1 (by decide) (by rw [hzero']; decide)
  rw [decodeWord_multiplySwap hc hk.symm hnine.symm, decodeMultiplySwap, if_neg hmul, if_neg hlong,
    if_neg fun h => hswap h.1]

theorem swapSpace_unallocated {w : Word} (h28 : field w 28 4 ≠ 15#4) (h23 : field w 23 5 = 0b00010#5)
    (hnine : field w 4 4 = 0b1001#4) (hfields : field w 20 2 ≠ 0b00#2 ∨ field w 8 4 ≠ 0#4) :
    decodeWord w = .refused .unallocated := by
  obtain ⟨c, hc⟩ := exists_decodeWord h28
  have hk : field w 25 3 = 0#3 := part_of_field h23.symm 2 3 (by decide)
  have hbit : w.getLsbD 24 = true := bit_of_field h23.symm 1 (by decide)
  have htwo : field w 23 2 = 2#2 := part_of_field h23.symm 0 2 (by decide)
  have hmul : field w 22 3 ≠ 0#3 := field_ne 2 (by decide) (by rw [hbit]; decide)
  have hswap : ¬(field w 23 2 = 2#2 ∧ field w 20 2 = 0#2 ∧ field w 8 4 = 0#4) := fun ⟨_, h20, h8⟩ =>
    hfields.elim (· h20) (· h8)
  rw [decodeWord_multiplySwap hc hk.symm hnine.symm, decodeMultiplySwap, if_neg hmul, if_neg hswap, htwo,
    if_neg (by decide)]

theorem miscSpace_unallocated {w : Word} (h28 : field w 28 4 ≠ 15#4) (h23 : field w 23 5 = 0b00010#5)
    (h20 : w.getLsbD 20 = false) (h74 : w.getLsbD 7 = false ∨ w.getLsbD 4 = false) (hpsr : field w 4 4 ≠ 0#4)
    (hbx : ¬(field w 4 4 = 1#4 ∧ field w 21 2 = 0b01#2)) : decodeWord w = .refused .unallocated := by
  obtain ⟨c, hc⟩ := exists_decodeWord h28
  rw [decodeWord_misc hc h23.symm h20 h74, decodeMisc, if_neg hpsr, if_neg hbx]

/-- A word of the half-word space, with bits 7 and 4 set and not both of bits 6 and 5 clear. -/
theorem decodeWord_halfSpace {c : Cond} {w : Word} (hc : c.bits = field w 28 4) (hk : field w 25 3 = 0#3)
    (h7 : w.getLsbD 7 = true) (h4 : w.getLsbD 4 = true) (h65 : w.getLsbD 6 = true ∨ w.getLsbD 5 = true) :
    decodeWord w = if w.getLsbD 22 then
        decodeHalfImm c (w.getLsbD 24) (w.getLsbD 23) (w.getLsbD 21) (w.getLsbD 20) (w.getLsbD 6) (w.getLsbD 5)
          (field w 16 4) (field w 12 4) (field w 8 4 ++ field w 0 4)
      else
        decodeHalfReg c (w.getLsbD 24) (w.getLsbD 23) (w.getLsbD 21) (w.getLsbD 20) (w.getLsbD 6) (w.getLsbD 5)
          (field w 16 4) (field w 12 4) (field w 8 4) (field w 0 4) := by
  exact decodeWord_half h65 (encodeHalf_eq_iff.2 ⟨hc, hk.symm, rfl, rfl, rfl, rfl, rfl, rfl, rfl, rfl,
    field_one_eq h7, rfl, rfl, field_one_eq h4, rfl⟩)

theorem signedStore_unallocated {w : Word} (h28 : field w 28 4 ≠ 15#4) (hk : field w 25 3 = 0b000#3)
    (h7 : w.getLsbD 7 = true) (h4 : w.getLsbD 4 = true) (h6 : w.getLsbD 6 = true) (h20 : w.getLsbD 20 = false) :
    decodeWord w = .refused .unallocated := by
  obtain ⟨c, hc⟩ := exists_decodeWord h28
  rw [decodeWord_halfSpace hc hk h7 h4 (.inl h6), h6, h20, decodeHalfImm.eq_def, decodeHalfReg.eq_def,
    Bool.not_false, Bool.and_self, if_pos rfl, if_pos rfl, ite_self]

theorem halfwordWriteBack_refused {w : Word} (h28 : field w 28 4 ≠ 15#4) (hk : field w 25 3 = 0b000#3)
    (h7 : w.getLsbD 7 = true) (h4 : w.getLsbD 4 = true)
    (hkind : field w 5 2 = 0b01#2 ∨ (w.getLsbD 6 = true ∧ w.getLsbD 20 = true)) (h24 : w.getLsbD 24 = false)
    (h21 : w.getLsbD 21 = true) : decodeWord w = .refused .halfwordWriteBack := by
  obtain ⟨c, hc⟩ := exists_decodeWord h28
  have h65 : w.getLsbD 6 = true ∨ w.getLsbD 5 = true :=
    hkind.elim (fun h => .inr (bit_of_field h.symm 0 (by decide))) fun h => .inl h.1
  have hload : ¬(w.getLsbD 6 && !w.getLsbD 20) = true := by
    rcases hkind with h | ⟨-, h20⟩
    · have h6 : w.getLsbD 6 = false := bit_of_field h.symm 1 (by decide)
      simp only [h6, Bool.false_and, Bool.false_eq_true, not_false_eq_true]
    · simp only [h20, Bool.not_true, Bool.and_false, Bool.false_eq_true, not_false_eq_true]
  rw [decodeWord_halfSpace hc hk h7 h4 h65, decodeHalfImm.eq_def, decodeHalfReg.eq_def, if_neg hload, if_neg hload,
    h24, h21, Bool.not_false, Bool.and_self, if_pos rfl, if_pos rfl, ite_self]

/-- Settles O3: the three spaces of `decodeClass_cases`, and the branches that answer a refusal. -/
theorem wordsThatAreNoInstruction : Obligations.WordsThatAreNoInstruction := by
  unfold Obligations.WordsThatAreNoInstruction
  exact ⟨decodeWord_condNV_iff, decodeWord_undefined_iff, decodeWord_coprocessor_iff,
    fun _ => multiplySpace_unallocated, fun _ => swapSpace_unallocated, fun _ => miscSpace_unallocated,
    fun _ => signedStore_unallocated, fun _ => halfwordWriteBack_refused⟩

/-- Settles O4: the decoder reads each word. -/
theorem specWordsDecode : Obligations.SpecWordsDecode := by
  unfold Obligations.SpecWordsDecode
  exact ⟨rfl, rfl, rfl, rfl, rfl, rfl, rfl, rfl, rfl, rfl, rfl, rfl⟩

end Sys2Proof.Proofs

/-! The step: what it fetches, where it stops, the exceptions it takes, and the mark of a User-bank `ldm` (R30, R67, R75,
R321 to R330, R375). -/

namespace Sys2Proof.Proofs

open Sys2Proof Sys2Proof.Machine

/-! ### The step up to the instruction -/

/-- In ARM state, with no enabled request, the step looks at the instruction at the PC. -/
theorem step_of_fetches {s : State} (h : s.fetches) : step s = runAtPc s.sampled := by
  obtain ⟨ht, hfiq, hirq⟩ := h
  have hf : ¬(s.request.fiq && !s.cpsr.f) = true := fun h => by
    obtain ⟨hreq, hoff⟩ := Bool.and_eq_true_iff.1 h
    rw [hfiq hreq] at hoff
    cases hoff
  have hi : ¬(s.request.irq && !s.cpsr.i) = true := fun h => by
    obtain ⟨hreq, hoff⟩ := Bool.and_eq_true_iff.1 h
    rw [hirq hreq] at hoff
    cases hoff
  rw [step, cycle, ht, if_neg Bool.false_ne_true, if_neg hf, if_neg hi]

/-- A granted fetch answers the four bytes at the PC, and the step runs what they decode to. -/
theorem step_of_granted {s : State} (h : s.fetches) (hg : s.fetchGranted) :
    step s = runBytes (Memory.fourBytes s.mem s.pc.toNat) s.sampled := by
  obtain ⟨haborts, hmaps, htouches⟩ := hg
  have hfetch : fetch s.sampled = .bytes (Memory.fourBytes s.mem s.pc.toNat) :=
    (fetch_bytes_iff s.sampled _).2 ⟨haborts, hmaps, htouches, rfl⟩
  rw [step_of_fetches h, runAtPc, hfetch]

theorem step_of_instr {s : State} {i : Instr} (h : s.fetches) (hg : s.fetchGranted) (hd : s.decoded = .instr i) :
    step s = if hazard i s then .refused .bankedAfterUserLdm else exec i s.entering := by
  rw [step_of_granted h hg, runBytes, show decodeBytes _ = Decoded.instr i from hd]
  rfl

theorem step_of_undefined {s : State} {c : Cond} (h : s.fetches) (hg : s.fetchGranted) (hd : s.decoded = .undefined c) :
    step s = undefinedWord c s.entering := by
  rw [step_of_granted h hg, runBytes, show decodeBytes _ = Decoded.undefined c from hd]
  rfl

/-- Settles O5: past the fetch, the decoder and the hazard stands `exec`. -/
theorem stepRunsDecodedInstruction : Obligations.StepRunsDecodedInstruction := by
  unfold Obligations.StepRunsDecodedInstruction
  intro s i h hg hd hhazard
  rw [step_of_instr h hg hd, hhazard, if_neg Bool.false_ne_true]

/-- Settles O6: the stops in the order of the step. -/
theorem stepStops : Obligations.StepStops := by
  unfold Obligations.StepStops
  refine ⟨fun s ht => ?thumb, fun s h haborts => ⟨fun hmaps => ?unmapped, fun hmaps hmod => ?modified⟩,
    fun s e h hg hd => ?refused⟩
  case thumb => rw [step, cycle, ht, if_pos rfl]
  case unmapped =>
    have hfetch : fetch s.sampled = .fault (.unmapped s.pc 4) := by
      refine (if_neg (Bool.eq_false_iff.1 haborts)).trans (if_pos ?_)
      exact Bool.not_eq_eq_eq_not.2 hmaps
    rw [step_of_fetches h, runAtPc, hfetch]
  case modified =>
    have htouches : Written.touches s.written s.pc.toNat 4 = true := (Written.touches_iff ..).2 hmod
    have hmapped : ¬(!Platform.maps s.platform s.pc.toNat 4) = true := by
      rw [hmaps]
      exact Bool.false_ne_true
    have hfetch : fetch s.sampled = .fault (.fetchModified s.pc) := by
      exact (if_neg (Bool.eq_false_iff.1 haborts)).trans ((if_neg hmapped).trans (if_pos htouches))
    rw [step_of_fetches h, runAtPc, hfetch]
  case refused => rw [step_of_granted h hg, runBytes, show decodeBytes _ = Decoded.refused e from hd]

/-- Settles O7: the step asks for a fast request first, then for a normal one. -/
theorem interruptEntry : Obligations.InterruptEntry := by
  unfold Obligations.InterruptEntry
  refine ⟨fun s ht hreq hon => ⟨_, ?fiq, enter_entered .fiq (s.pc + 4#32) s.sampled⟩,
    fun s ht hfast hreq hon => ⟨_, ?irq, enter_entered .irq (s.pc + 4#32) s.sampled⟩⟩
  case fiq =>
    rw [step, cycle, ht, hreq, hon]
    rfl
  case irq =>
    have hf : ¬(s.request.fiq && !s.cpsr.f) = true := fun h => by
      obtain ⟨hfiq, hoff⟩ := Bool.and_eq_true_iff.1 h
      rw [hfast hfiq] at hoff
      cases hoff
    rw [step, cycle, ht, if_neg Bool.false_ne_true, if_neg hf, hreq, hon]
    rfl

/-- Settles O8: an aborted fetch, and the word of the Undefined space under its condition. -/
theorem fetchedExceptions : Obligations.FetchedExceptions := by
  unfold Obligations.FetchedExceptions
  refine ⟨fun s h haborts => ⟨_, ?prefetch, enter_entered .prefetchAbort (s.pc + 4#32) s.sampled⟩,
    fun s c h hg hd hc => ⟨_, ?undefined, enter_entered .undefinedInstruction (s.pc + 4#32) s.entering⟩,
    fun s c h hg hd hc hpc => ?skipped⟩
  case prefetch =>
    rw [step_of_fetches h, runAtPc, (fetch_abort_iff s.sampled).2 haborts]
    rfl
  case undefined =>
    rw [step_of_undefined h hg hd, undefinedWord, conditional_passes c s.entering _ hc]
    rfl
  case skipped =>
    rw [step_of_undefined h hg hd, undefinedWord, conditional_fails c s.entering _ hc]
    exact advance_eq s.entering hpc

/-- Settles O13: the values of the reset state, and its empty memory. -/
theorem resetState : Obligations.ResetState := by
  unfold Obligations.ResetState
  exact ⟨rfl, rfl, rfl, rfl, rfl, ⟨rfl, rfl, rfl, fun _ => rfl⟩⟩

/-! ### The mark of a User-bank `ldm` (R375) -/

/-- No instruction but a User-bank `ldm` may set the mark. -/
theorem exists_ldmUser_of_mark {i : Instr} {s : State} (h : (permitsOf i s).mark = true) :
    ∃ c am w rn list, i = .ldmUser c am w rn list := by
  cases i
  case ldmUser c am w rn list => exact ⟨c, am, w, rn, list, rfl⟩
  all_goals cases h

/-- The mark is kept or permitted. -/
theorem Outcome.mark {P : Permits} {s t : State} (h : Outcome P s t) :
    t.afterUserLdm = s.afterUserLdm ∨ P.mark = true := by
  cases h with
  | completes h => exact h.rest.mark
  | swi _ ht => exact .inl (ht ▸ enter_afterUserLdm ..)
  | aborts _ u h ht =>
    rw [ht, enter_afterUserLdm]
    exact h.rest.mark

/-- A User-bank `ldm` whose condition passes sets the mark, also when it takes a Data abort. -/
theorem mark_of_ldmUser {c : Cond} {am : BlockMode} {w : Bool} {rn : Reg} {list : BitVec 16} {s t : State}
    (hc : Cond.passes c s.cpsr = true) (h : exec (.ldmUser c am w rn list) s = .next t) : t.afterUserLdm = true := by
  rw [exec_ldmUser, conditional_passes _ _ _ hc] at h
  cases hr : userBankRefusal w s with
  | some e =>
    rw [hr] at h
    cases h
  | none =>
    rw [hr] at h
    obtain ⟨u, -, rfl⟩ := markUserLdm_next h
    rfl

theorem isBanked_iff {m : Mode} {r : Reg} :
    isBanked m r = true ↔ r = 13#4 ∨ r = 14#4 ∨ (m = .fiq ∧ 8#4 ≤ r ∧ r ≤ 12#4) := by
  simp only [isBanked, Bool.or_eq_true, Bool.and_eq_true, decide_eq_true_eq, or_assoc, and_assoc]

/-- Settles O11: the permits of every other instruction leave the mark, and the step asks for the hazard before `exec`. -/
theorem userLdmHazard : Obligations.UserLdmHazard := by
  unfold Obligations.UserLdmHazard
  refine ⟨fun i s t hoff h => ⟨fun hmark => ?set, ?marked⟩, fun s i r h hg hd hon hc hr hbank => ?hazard⟩
  case set =>
    cases exec_ran i h with
    | passed hc hout =>
      have hpermit := hout.mark.resolve_left fun heq => by
        rw [heq, hoff] at hmark
        cases hmark
      exact ⟨exists_ldmUser_of_mark hpermit, hc⟩
    | failed hc hidle =>
      have heq : t.afterUserLdm = s.afterUserLdm :=
        (hidle .idle).rest.mark.resolve_right Bool.false_ne_true
      rw [heq, hoff] at hmark
      cases hmark
  case marked =>
    rintro ⟨⟨c, am, w, rn, list, rfl⟩, hc⟩
    exact mark_of_ldmUser hc h
  case hazard =>
    have hany : (operandRegs i).any (isBanked s.cpsr.mode) = true :=
      List.any_eq_true.2 ⟨r, hr, isBanked_iff.2 hbank⟩
    have hhazard : hazard i s = true := by rw [hazard, hon, hc, hany]; rfl
    rw [step_of_instr h hg hd, hhazard, if_pos rfl]

end Sys2Proof.Proofs

/-! Exception returns, the comparisons after `cmp`, the status-register instructions, the multiplies and `swi` (R130,
R173 to R178, R196 to R203, R230, R302, R332, R333). -/

namespace Sys2Proof.Proofs

open Sys2Proof Sys2Proof.Machine

/-! ### Returning from an exception (R332, R333) -/

/-- R14 of the mode an exception has entered is its own. -/
theorem reg_fourteen_enter (e : Exc) (link : Word) (s : State) : (enter e link s).reg 14#4 = link := by
  have hphys : phys (enter e link s).cpsr.mode 14#4 = some e.mode.r14 := by cases e <;> rfl
  rw [State.reg, State.regIn_eq_gpr _ _ _ _ hphys, gpr_enter, if_pos rfl]

/-- An instruction that writes R15 with `s` in the state an exception has entered goes on there with the old CPSR. -/
theorem return_of_dpWrites {i : Instr} {r : State → DpResult} (h : DpWrites i true 15#4 r) (hal : condOf i = .al)
    {e : Exc} {link v : Word} {s : State} (hv : (r (enter e link s)).value = v)
    (hok : s.cpsr.t = true ∨ v &&& 3#32 = 0#32) :
    exec i (enter e link s) = .next { enter e link s with cpsr := s.cpsr, pc := v } := by
  have hspsr : (enter e link s).spsr? (enter e link s).cpsr.mode = some s.cpsr.saved := by
    exact (spsr?_enter e link s e.mode).trans (if_pos rfl)
  obtain ⟨-, -, -, hreturns⟩ := h (enter e link s) (hal ▸ rfl)
  obtain ⟨-, hsome⟩ := hreturns rfl rfl
  obtain ⟨-, hrestored⟩ := hsome _ hspsr
  obtain ⟨hnext, -⟩ := hrestored _ (Psr.restored_saved s.cpsr)
  rw [hv] at hnext
  exact hnext hok

/-- Settles O10: both instructions write R15 with `s`, and the entry saved the CPSR in the SPSR they restore. -/
theorem exceptionReturn : Obligations.ExceptionReturn := by
  unfold Obligations.ExceptionReturn
  intro e link s _
  constructor
  · intro k hok
    have hwrites := (subtractResults.1 .al true 15#4 14#4).1 0#4 k
    have hrotate : (shifter (.imm 0#4 k) (enter e link s)).1 = k.setWidth 32 := by
      simp [shifter, rotatedImm, BitVec.rotateRight, BitVec.rotateRightAux]
    refine return_of_dpWrites hwrites rfl ?_ hok
    simp only [DpRule.at, reg_fourteen_enter, hrotate]
  · intro hok
    have hwrites := (logicalResults.2.2.2.2.1 .al true 15#4).2.1 14#4 (.lsl 0)
    exact return_of_dpWrites hwrites rfl (reg_fourteen_enter e link s) hok

/-! ### Comparing (R130, R230) -/

/-- The flags of a difference compare the operands as numbers, also when it overflows. -/
theorem comparedAs_ofResult (a b : Word) (p : Cpsr) :
    ComparedAs a b (p.ofResult ⟨a - b, decide (b.toNat ≤ a.toNat), a.msb != b.msb && (a - b).msb != a.msb⟩) := by
  rw [← outOfRange_sub]
  have hz : (a - b == 0#32) = decide (a = b) := by
    rw [beq_eq_decide, decide_eq_decide]
    exact sub_eq_zero
  have hmsb : (a - b).msb = (decide (a.toInt < b.toInt) != outOfRange (a.toInt - b.toInt)) := by
    have ha := a.toInt_lt
    have ha' := a.le_toInt
    have hb := b.toInt_lt
    have hb' := b.le_toInt
    rw [BitVec.msb_eq_toInt, BitVec.toInt_sub, outOfRange_eq, Int.bmod_def]
    rw [Bool.eq_iff_iff, bne_iff_ne, ne_eq, decide_eq_decide, decide_eq_true_eq]
    split <;> omega
  have hlt : ((a - b).msb != outOfRange (a.toInt - b.toInt)) = decide (a.toInt < b.toInt) := by
    rw [hmsb]
    cases decide (a.toInt < b.toInt) <;> cases outOfRange (a.toInt - b.toInt) <;> rfl
  have hge : ((a - b).msb == outOfRange (a.toInt - b.toInt)) = decide (b.toInt ≤ a.toInt) := by
    rw [← Bool.not_not (_ == _), ← bne, hlt, ← decide_not, decide_eq_decide, Int.not_lt]
  have hword : a = b ↔ a.toNat = b.toNat := BitVec.toNat_inj.symm
  have hint : a = b ↔ a.toInt = b.toInt := BitVec.toInt_inj.symm
  simp only [ComparedAs, Cond.passes, Cpsr.ofResult, hz, hlt, hge, Bool.not_eq_true', Bool.and_eq_true, Bool.or_eq_true,
    decide_eq_true_eq, decide_eq_false_iff_not]
  refine ⟨trivial, trivial, trivial, by omega, ?_, ?_, trivial, trivial, ?_, ?_⟩
  · rw [hword]
    omega
  · rw [hword]
    omega
  · rw [hint]
    omega
  · rw [hint]
    omega

/-- A compare that follows the difference of its operands compares them as numbers. -/
theorem comparesNumbers_of_dpCompares {i : Instr} {rn : Reg} {so : ShiftOp}
    (h : DpCompares i (DpRule.at (fun a sv _ _ =>
      ⟨a - sv, decide (sv.toNat ≤ a.toNat), a.msb != sv.msb && (a - sv).msb != a.msb⟩) rn so)) :
    ComparesNumbers i rn so :=
  fun s hruns => ⟨_, h s hruns, comparedAs_ofResult (s.reg rn) (shifter so s).1 s.cpsr⟩

/-- Settles O31: `cmp` follows the difference in its three forms. -/
theorem compareConditions : Obligations.CompareConditions := by
  unfold Obligations.CompareConditions
  intro c rn
  obtain ⟨himm, hshiftImm, hshiftReg⟩ := subtractResults.2.2.2.2 c rn
  refine ⟨fun rot imm => comparesNumbers_of_dpCompares (himm rot imm),
    fun rm sh => comparesNumbers_of_dpCompares (hshiftImm rm sh), fun rm k rs hpc => ?_⟩
  simp only [List.mem_cons, List.not_mem_nil, or_false, not_or] at hpc
  obtain ⟨hrn, hrm, hrs⟩ := hpc
  exact comparesNumbers_of_dpCompares (hshiftReg rm k rs (Ne.symm hrn) (Ne.symm hrm) (Ne.symm hrs))

/-! ### Status registers (R173 to R178) -/

theorem readPsr_eq {rd : Reg} {p : Psr} {s : State} (hrd : rd ≠ 15#4) (hpc : s.pc ≠ 0xFFFFFFFC#32) :
    ∃ w, p.shownBy w ∧ readPsr rd p s = .next (State.onward { s.setReg rd w with draws := s.draws + 1 }) := by
  refine ⟨p.word (s.drawn.extractLsb' 8 20), p.word_shownBy _, ?_⟩
  have hpc' : ((s.setReg rd (p.word (s.drawn.extractLsb' 8 20))).afterDraw).pc ≠ 0xFFFFFFFC#32 :=
    ne_of_eq_of_ne (s.setReg_pc rd _ hrd) hpc
  rw [readPsr, if_neg hrd, advance_eq _ hpc']
  simp [State.afterDraw]

/-- Settles O32: `readPsr` shows the PSR, and `saved` copies the CPSR's bits. -/
theorem mrsResults : Obligations.MrsResults := by
  unfold Obligations.MrsResults
  refine ⟨fun c rd s hruns hrd => ?_, fun c rd s p hruns hrd hp => ?_, fun c => ⟨rfl, rfl, rfl, rfl, rfl, rfl, rfl, rfl⟩⟩
  · obtain ⟨hc, hpc⟩ := hruns
    rw [exec_mrsCpsr, conditional_passes c s _ hc]
    exact readPsr_eq hrd hpc
  · obtain ⟨hc, hpc⟩ := hruns
    rw [exec_mrsSpsr, conditional_passes c s _ hc, hp]
    exact readPsr_eq hrd hpc

theorem Mode.ofBits_none {b : BitVec 5} (h : ∀ m : Mode, m.bits ≠ b) : Mode.ofBits b = none := by
  cases hm : Mode.ofBits b with
  | none => rfl
  | some m => exact absurd (Mode.bits_of_ofBits b m hm) (h m)

/-- The CPSR after the flags field of a word was written, if selected. -/
def flaggedCpsr (fields : PsrFields) (v : Word) (p : Cpsr) : Cpsr :=
  if fields.f then p.withFlagsOf v else p

/-- What `writeCpsr` does is what R175 says. -/
theorem msrWritesCpsr_of_exec {i : Instr} {fields : PsrFields} {v : Word} {s : State} (hpc : s.pc ≠ 0xFFFFFFFC#32)
    (h : exec i s = writeCpsr fields v s) : MsrWritesCpsr i fields v s := by
  unfold MsrWritesCpsr
  rw [h]
  refine ⟨fun hflags => ?flags, fun hc hmode => ?control⟩
  case flags =>
    have hcond : ¬(fields.c && s.cpsr.mode.privileged) = true := by
      rcases hflags with hc | hm
      · rw [hc]
        exact Bool.false_ne_true
      · rw [hm, Bool.and_eq_true]
        exact fun h => Bool.false_ne_true h.2
    rw [writeCpsr, if_neg hcond]
    exact advance_eq _ hpc
  case control =>
    have hcond : (fields.c && s.cpsr.mode.privileged) = true := by
      rw [hc, Mode.privileged, Bool.true_and, decide_eq_true_eq]
      exact hmode
    rw [writeCpsr, if_pos hcond]
    refine ⟨fun ht => ?_, fun ht => ⟨fun m hm => ?_, fun hno => ?_⟩⟩
    · rw [Cpsr.withControlOf, if_pos ht]
    · rw [Cpsr.withControlOf, ht, if_neg Bool.false_ne_true, ← hm, Mode.ofBits_bits]
      exact advance_eq _ hpc
    · rw [Cpsr.withControlOf, ht, if_neg Bool.false_ne_true, Mode.ofBits_none hno]

/-- What `writeSpsr` does is what R176 says. -/
theorem msrWritesSpsr_of_exec {i : Instr} {fields : PsrFields} {v : Word} {s : State} (hpc : s.pc ≠ 0xFFFFFFFC#32)
    (h : exec i s = writeSpsr fields v s) : MsrWritesSpsr i fields v s := by
  unfold MsrWritesSpsr
  rw [h]
  refine ⟨fun hnone => ?none, fun p hp => ?some⟩
  case none => rw [writeSpsr, hnone]
  case some =>
    rw [writeSpsr, hp]
    have hpsr : (if fields.c then (if fields.f then p.withFlagsOf v else p).withControlOf v
        else if fields.f then p.withFlagsOf v else p) =
        { n := if fields.f then v.getLsbD 31 else p.n
          z := if fields.f then v.getLsbD 30 else p.z
          c := if fields.f then v.getLsbD 29 else p.c
          v := if fields.f then v.getLsbD 28 else p.v
          i := if fields.c then v.getLsbD 7 else p.i
          f := if fields.c then v.getLsbD 6 else p.f
          t := if fields.c then v.getLsbD 5 else p.t
          m := if fields.c then v.extractLsb' 0 5 else p.m } := by
      cases fields.f <;> cases fields.c <;> rfl
    rw [← hpsr]
    exact advance_eq _ (ne_of_eq_of_ne (State.setSpsr_pc ..) hpc)

/-- Settles O33: the four forms write a register or a rotated immediate. -/
theorem msrResults : Obligations.MsrResults := by
  unfold Obligations.MsrResults
  intro c fields s hruns
  obtain ⟨hc, hpc⟩ := hruns
  refine ⟨fun rm hrm => ⟨msrWritesCpsr_of_exec hpc ?_, msrWritesSpsr_of_exec hpc ?_⟩,
    fun rot imm => ⟨msrWritesCpsr_of_exec hpc ?_, msrWritesSpsr_of_exec hpc ?_⟩⟩
  · rw [exec_msrCpsrReg, conditional_passes c s _ hc, if_neg hrm]
  · rw [exec_msrSpsrReg, conditional_passes c s _ hc, if_neg hrm]
  · exact (exec_msrCpsrImm ..).trans (conditional_passes c s _ hc)
  · exact (exec_msrSpsrImm ..).trans (conditional_passes c s _ hc)

/-- Settles O34: R15 is refused where it is read or written, and `mrs` looks for the SPSR first. -/
theorem statusRegisterStops : Obligations.StatusRegisterStops := by
  unfold Obligations.StatusRegisterStops
  intro c s hc
  refine ⟨?_, fun fields => ⟨?_, ?_⟩, fun hnone rd => ?_, fun hsome => ?_⟩
  · rw [exec_mrsCpsr, conditional_passes c s _ hc, readPsr, if_pos rfl]
  · rw [exec_msrCpsrReg, conditional_passes c s _ hc, if_pos rfl]
  · rw [exec_msrSpsrReg, conditional_passes c s _ hc, if_pos rfl]
  · rw [exec_mrsSpsr, conditional_passes c s _ hc, hnone]
  · obtain ⟨p, hp⟩ := Option.ne_none_iff_exists'.1 hsome
    rw [exec_mrsSpsr, conditional_passes c s _ hc, hp]
    exact if_pos rfl

/-! ### Multiplies (R196 to R201) -/

/-- The end of `mul` and `mla`; with `s` the carry is a draw. -/
theorem multiply_eq (sf : Bool) {rd : Reg} (p : Word) {s : State} (hrd : rd ≠ 15#4) (hpc : s.pc ≠ 0xFFFFFFFC#32) :
    ∃ carry, multiply sf rd p s = .next (s.multiplied sf rd p carry) := by
  refine ⟨s.drawn.getLsbD 0, ?_⟩
  have hpc' : (s.setReg rd p).pc ≠ 0xFFFFFFFC#32 := ne_of_eq_of_ne (s.setReg_pc rd p hrd) hpc
  cases sf
  · exact advance_eq _ hpc'
  · refine (advance_eq ((s.setReg rd p).multiplyFlags p) hpc').trans ?_
    simp [State.multiplied, State.multiplyFlags, State.afterDraw, State.drawn, Cpsr.withNZ, BitVec.msb_eq_getLsbD_last,
      beq_eq_decide]

/-- Settles O35: the product of two words, as R196 and R197 give it. -/
theorem multiplyResults : Obligations.MultiplyResults := by
  unfold Obligations.MultiplyResults
  refine ⟨fun c sf rd rm rs s hruns hpcs hne => ?mul, fun c sf rd rm rs rn s hruns hpcs hne => ?mla⟩
  case mul =>
    obtain ⟨hc, hpc⟩ := hruns
    have hrd : rd ≠ 15#4 := fun e => hpcs (by simp [e])
    rw [exec_mul, conditional_passes c s _ hc, if_neg (mt (anyPc_iff _).1 hpcs), if_neg hne, BitVec.ofNat_mul,
      BitVec.ofNat_toNat, BitVec.ofNat_toNat, BitVec.setWidth_eq, BitVec.setWidth_eq]
    exact multiply_eq sf _ hrd hpc
  case mla =>
    obtain ⟨hc, hpc⟩ := hruns
    have hrd : rd ≠ 15#4 := fun e => hpcs (by simp [e])
    rw [exec_mla, conditional_passes c s _ hc, if_neg (mt (anyPc_iff _).1 hpcs), if_neg hne, BitVec.ofNat_add,
      BitVec.ofNat_mul, BitVec.ofNat_toNat, BitVec.ofNat_toNat, BitVec.ofNat_toNat, BitVec.setWidth_eq,
      BitVec.setWidth_eq, BitVec.setWidth_eq]
    exact multiply_eq sf _ hrd hpc

/-- The end of the long multiplies; with `s` the carry and the overflow are a draw. -/
theorem longMultiply_eq (sf : Bool) {rdLo rdHi : Reg} (p : BitVec 64) {s : State} (hlo : rdLo ≠ 15#4)
    (hhi : rdHi ≠ 15#4) (hpc : s.pc ≠ 0xFFFFFFFC#32) :
    ∃ carry overflow, longMultiply sf rdLo rdHi p s = .next (s.longMultiplied sf rdLo rdHi p carry overflow) := by
  refine ⟨s.drawn.getLsbD 0, s.drawn.getLsbD 1, ?_⟩
  have hlow : p.extractLsb' 0 32 = p.setWidth 32 := (BitVec.setWidth_eq_extractLsb' (by decide)).symm
  have hhigh : p.extractLsb' 32 32 = (p >>> 32).setWidth 32 := by
    ext i hi
    simp [BitVec.getLsbD_ushiftRight]
  have hpc' : ((s.setReg rdLo (p.setWidth 32)).setReg rdHi ((p >>> 32).setWidth 32)).pc ≠ 0xFFFFFFFC#32 := by
    rw [State.setReg_pc _ rdHi _ hhi, State.setReg_pc s rdLo _ hlo]
    exact hpc
  rw [longMultiply, hlow, hhigh]
  cases sf
  · exact advance_eq _ hpc'
  · refine (advance_eq (State.longMultiplyFlags _ p) hpc').trans ?_
    simp [State.longMultiplied, State.longMultiplyFlags, State.afterDraw, State.drawn, Cpsr.withNZLong,
      BitVec.msb_eq_getLsbD_last, beq_eq_decide]

/-- Two words as one number of 64 bits. -/
theorem toNat_accumulator (s : State) (rdLo rdHi : Reg) : (s.accumulator rdLo rdHi).toNat = s.pair rdLo rdHi := by
  rw [State.accumulator, BitVec.toNat_append, ← Nat.shiftLeft_add_eq_or_of_lt (s.reg rdLo).isLt, Nat.shiftLeft_eq]
  rfl

/-- Settles O36: the exact products of R198 and R200, and the pair added to them. -/
theorem longMultiplyResults : Obligations.LongMultiplyResults := by
  unfold Obligations.LongMultiplyResults
  intro c sf rdLo rdHi rm rs s hruns hpcs hlohi hhi hlo
  obtain ⟨hc, hpc⟩ := hruns
  have hallowed : longMultiplyRefusal rdLo rdHi rm rs = none := by
    rw [longMultiplyRefusal, if_neg (mt (anyPc_iff _).1 hpcs), if_neg (by simp [hlohi, hhi, hlo])]
  have hne : ∀ {r : Reg}, r ∈ [rdLo, rdHi, rm, rs] → r ≠ 15#4 := fun hr e => hpcs (e ▸ hr)
  have hrdLo : rdLo ≠ 15#4 := hne (by simp)
  have hrdHi : rdHi ≠ 15#4 := hne (by simp)
  have hacc : s.accumulator rdLo rdHi = BitVec.ofNat 64 (s.pair rdLo rdHi) := by
    rw [← toNat_accumulator, BitVec.ofNat_toNat, BitVec.setWidth_eq]
  refine ⟨?_, ?_, ?_, ?_⟩
  · rw [exec_umull, conditional_passes c s _ hc, hallowed]
    exact longMultiply_eq sf _ hrdLo hrdHi hpc
  · rw [exec_umlal, conditional_passes c s _ hc, hallowed, BitVec.ofNat_add, ← hacc]
    exact longMultiply_eq sf _ hrdLo hrdHi hpc
  · rw [exec_smull, conditional_passes c s _ hc, hallowed]
    exact longMultiply_eq sf _ hrdLo hrdHi hpc
  · rw [exec_smlal, conditional_passes c s _ hc, hallowed, BitVec.ofInt_add, BitVec.ofInt_natCast, ← hacc]
    exact longMultiply_eq sf _ hrdLo hrdHi hpc

/-- Settles O40: the immediate plays no part. -/
theorem softwareInterrupt : Obligations.SoftwareInterrupt := by
  unfold Obligations.SoftwareInterrupt
  intro c imm s hc
  exact ⟨_, (exec_swi c imm s).trans (conditional_passes c s _ hc), enter_entered .swi (s.pc + 4#32) s⟩

end Sys2Proof.Proofs

/-! Accesses to memory, and the single-register transfers and swaps made of them (R62 to R75, R250 to R262, R300, R301,
R327). -/

namespace Sys2Proof.Proofs

open Sys2Proof Sys2Proof.Machine

/-! ### Accesses (R64 to R68) -/

theorem checkAccess_misaligned {s : State} {a : Word} {n : Nat} {k : AccessKind} {pr : Privilege}
    (h : a.toNat % n ≠ 0) : s.checkAccess a n k pr = .fault (.misaligned a n) :=
  if_pos h

theorem checkAccess_unmapped {s : State} {a : Word} {n : Nat} {k : AccessKind} {pr : Privilege} (h : a.toNat % n = 0)
    (haborts : Platform.abortsAccess s.platform a.toNat n k pr = false)
    (hmaps : Platform.maps s.platform a.toNat n = false) : s.checkAccess a n k pr = .fault (.unmapped a n) := by
  rw [State.checkAccess, if_neg (not_not_intro h), haborts, hmaps, if_neg Bool.false_ne_true, if_neg Bool.false_ne_true]

theorem readMem_fault {s : State} {a : Word} {n : Nat} {pr : Privilege} {f : Fault}
    (h : s.checkAccess a n .read pr = .fault f) : s.readMem a n pr = .fault f := by
  rw [State.readMem, h]

theorem writeMem_fault {s : State} {a v : Word} {n : Nat} {pr : Privilege} {f : Fault}
    (h : s.checkAccess a n .write pr = .fault f) : s.writeMem a n v pr = .fault f := by
  rw [State.writeMem, h]

theorem readMem_granted {s : State} {a : Word} {n : Nat} {pr : Privilege} (h : s.grants a n .read pr) :
    s.readMem a n pr = .ok (BitVec.ofNat 32 (Memory.load s.mem a.toNat n)) :=
  (readMem_ok_iff s a n pr _).2 ⟨h, rfl⟩

theorem writeMem_granted {s : State} {a v : Word} {n : Nat} {pr : Privilege} (h : s.grants a n .write pr) :
    s.writeMem a n v pr = .ok (s.stored a n v) :=
  (writeMem_ok_iff s _ a n v pr).2 ⟨h, rfl⟩

/-- The bytes from an address on as a little-endian number (R62). -/
theorem load_eq_sum (m : Memory) (a n : Nat) :
    Memory.load m a n = ((List.range n).map fun k => (m.byte (a + k)).toNat * 2 ^ (8 * k)).sum := by
  induction n generalizing a with
  | zero => rfl
  | succ n ih =>
    have hrest : ∀ k, (m.byte (a + (k + 1))).toNat * 2 ^ (8 * (k + 1)) =
        256 * ((m.byte (a + 1 + k)).toNat * 2 ^ (8 * k)) := fun k => by
      rw [Nat.add_comm k 1, ← Nat.add_assoc, Nat.mul_add, Nat.pow_add]
      ring
    rw [List.range_succ_eq_map, List.map_cons, List.sum_cons, List.map_map, Memory.load, ih (a + 1),
      ← List.sum_map_mul_left]
    simp only [Function.comp_def, Nat.succ_eq_add_one, hrest, Nat.add_zero, Nat.mul_zero, Nat.pow_zero, Nat.mul_one]

/-- Byte `k` of a stored value (R62, R65). -/
theorem byteAt_stored {s : State} {a v : Word} {n k : Nat} (hwf : Memory.wf s.mem = true) (hk : k < n) :
    (s.stored a n v).byteAt (a.toNat + k) = v.extractLsb' (8 * k) 8 := by
  rw [State.byteAt, State.stored_mem, Memory.byte_store _ _ _ _ _ hwf, if_pos (by omega), Nat.add_sub_cancel_left]
  apply BitVec.eq_of_toNat_eq
  rw [BitVec.toNat_ofNat, BitVec.extractLsb'_toNat, Nat.shiftRight_eq_div_pow, Nat.pow_mul]

theorem maps_eq_false {p : Platform} {a n : Nat} (h : ∃ k, k < n ∧ Platform.mapsByte p (a + k) = false) :
    Platform.maps p a n = false := by
  obtain ⟨k, hk, hbyte⟩ := h
  refine Bool.eq_false_iff.2 fun hmaps => ?_
  rw [(Platform.maps_iff p a n).1 hmaps (a + k) (by omega) (by omega)] at hbyte
  cases hbyte

theorem maps_eq_true {p : Platform} {a n : Nat} (h : ∀ k, k < n → Platform.mapsByte p (a + k) = true) :
    Platform.maps p a n = true := by
  refine (Platform.maps_iff p a n).2 fun x hx hlt => ?_
  obtain ⟨k, rfl⟩ := Nat.exists_eq_add_of_le hx
  exact h k (by omega)

/-- Settles O41: the checks in their order, then what a read or a store does. -/
theorem memoryAccess : Obligations.MemoryAccess := by
  unfold Obligations.MemoryAccess
  intro s a v n pr _
  refine ⟨fun h => ?misaligned, fun h => ⟨?readAborts, ?writeAborts, fun hk => ?unmapped, fun hk => ?granted⟩⟩
  case misaligned => exact ⟨readMem_fault (checkAccess_misaligned h), writeMem_fault (checkAccess_misaligned h)⟩
  case readAborts => exact fun haborts => (readMem_abort_iff s a n pr).2 ⟨h, haborts⟩
  case writeAborts => exact fun haborts => (writeMem_abort_iff s a n v pr).2 ⟨h, haborts⟩
  case unmapped =>
    have hmaps := maps_eq_false hk
    exact ⟨fun haborts => readMem_fault (checkAccess_unmapped h haborts hmaps),
      fun haborts => writeMem_fault (checkAccess_unmapped h haborts hmaps)⟩
  case granted =>
    have hmaps := maps_eq_true hk
    refine ⟨fun haborts => ?_, fun haborts hwf => ⟨s.stored a n v, ?_, fun k hk => byteAt_stored hwf hk, fun x hx => ?_,
      Written.mem_add s.written a.toNat n, rfl⟩⟩
    · rw [readMem_granted ⟨h, haborts, hmaps⟩, load_eq_sum]
      rfl
    · exact writeMem_granted ⟨h, haborts, hmaps⟩
    · exact Memory.byte_store_outside _ _ _ _ _ hwf hx

/-! ### Single-register transfers (R250 to R262) -/

theorem width_of_transferOf {i : Instr} {f : Transfer} (h : transferOf i = some f) :
    f.width = 1 ∨ f.width = 2 ∨ f.width = 4 := by
  cases i
  all_goals cases h
  all_goals simp

/-- R15 is transferred as a word. -/
theorem width_of_pcOk {i : Instr} {f : Transfer} (h : transferOf i = some f) (hpc : f.pcOk = true) : f.width = 4 := by
  cases i
  all_goals cases h
  all_goals revert hpc
  all_goals simp

/-- A row's extension of the bytes read is the value the load gives. -/
theorem rowExtension_load {f : Transfer} (hw : f.width = 1 ∨ f.width = 2 ∨ f.width = 4) (m : Memory) (a : Nat) :
    rowExtension f (BitVec.ofNat 32 (Memory.load m a f.width)) = f.loaded m a := by
  have hbyte : ∀ b : Byte, (b.setWidth 32).setWidth 8 = b := fun b => BitVec.setWidth_setWidth_of_le b (by decide)
  have hhalf : ∀ b : BitVec 16, (b.setWidth 32).setWidth 16 = b := fun b =>
    BitVec.setWidth_setWidth_of_le b (by decide)
  unfold rowExtension Transfer.loaded
  rcases hw with hw | hw | hw
  · rw [hw, load_one]
    simp only [OfNat.one_ne_ofNat, if_false]
    split
    · exact congrArg (BitVec.signExtend 32) (hbyte _)
    · exact congrArg (BitVec.setWidth 32) (hbyte _)
  · rw [hw, load_two]
    simp only [Nat.reduceEqDiff, if_false, if_true]
    split
    · exact congrArg (BitVec.signExtend 32) (hhalf _)
    · exact congrArg (BitVec.setWidth 32) (hhalf _)
  · rw [hw, if_pos rfl, if_pos rfl, load_four]
    rfl

/-- Nothing of R150 stops a transfer that is allowed and whose `Rd` may be what it is. -/
theorem not_refused {f : Transfer} (h : f.allowed) (hpc : f.rd = 15#4 → f.pcOk = true) :
    transferRefusal f.idx f.rn f.rd f.off = none ∧ ¬(f.rd = 15#4 && !f.pcOk) = true := by
  refine ⟨(transferRefusal_none_iff ..).2 h, fun hboth => ?_⟩
  obtain ⟨hrd, hbad⟩ := Bool.and_eq_true_iff.1 hboth
  rw [hpc (of_decide_eq_true hrd)] at hbad
  cases hbad

/-- The kind of a transfer's access. -/
def transferKind (f : Transfer) : AccessKind :=
  if f.load then .read else .write

/-- A transfer whose access is a model fault is this fault. -/
theorem runRow_fault {f : Transfer} {s : State} {x : Fault} (h : f.allowed) (hpc : f.rd = 15#4 → f.pcOk = true)
    (hx : s.checkAccess (f.address s) f.width (transferKind f) (f.privilege s) = .fault x) :
    runRow f s = .fault x := by
  obtain ⟨hnone, hrd⟩ := not_refused h hpc
  unfold transferKind at hx
  cases hload : f.load
  · rw [hload, if_neg Bool.false_ne_true] at hx
    rw [runRow, hload, if_neg Bool.false_ne_true, storeSingle, hnone]
    have hwrite : ∀ v, s.writeMem (transferAddress f.idx f.u f.rn f.off s) f.width v (f.privilege s) = .fault x :=
      fun v => writeMem_fault hx
    simp only [if_neg hrd, hwrite]
  · rw [hload, if_pos rfl] at hx
    rw [runRow, hload, if_pos rfl, loadSingle, hnone]
    have hread : s.readMem (transferAddress f.idx f.u f.rn f.off s) f.width (f.privilege s) = .fault x :=
      readMem_fault hx
    simp only [if_neg hrd, hread]

/-- A transfer whose access aborts takes the Data abort with the base of the abort model (R250, R327). -/
theorem runRow_abort {f : Transfer} {s : State} (h : f.allowed) (hpc : f.rd = 15#4 → f.pcOk = true)
    (hx : s.checkAccess (f.address s) f.width (transferKind f) (f.privilege s) = .abort) :
    runRow f s = dataAbort (s.abortedBase f.idx f.u f.rn f.off) := by
  obtain ⟨hnone, hrd⟩ := not_refused h hpc
  unfold transferKind at hx
  cases hload : f.load
  · rw [hload, if_neg Bool.false_ne_true, checkAccess_abort_iff] at hx
    rw [runRow, hload, if_neg Bool.false_ne_true, storeSingle, hnone]
    have hwrite : ∀ v, s.writeMem (transferAddress f.idx f.u f.rn f.off s) f.width v (f.privilege s) = .abort :=
      fun v => (writeMem_abort_iff ..).2 hx
    simp only [if_neg hrd, hwrite]
  · rw [hload, if_pos rfl, checkAccess_abort_iff] at hx
    rw [runRow, hload, if_pos rfl, loadSingle, hnone]
    have hread : s.readMem (transferAddress f.idx f.u f.rn f.off s) f.width (f.privilege s) = .abort :=
      (readMem_abort_iff ..).2 hx
    simp only [if_neg hrd, hread]

theorem runRow_load {f : Transfer} {s : State} (hload : f.load = true) (h : f.allowed)
    (hpc : f.rd = 15#4 → f.pcOk = true) (hg : s.grants (f.address s) f.width .read (f.privilege s)) :
    runRow f s =
      if f.rd = 15#4 then
        .next { f.based s with pc := BitVec.ofNat 32 (Memory.load s.mem (f.address s).toNat f.width) &&& 0xFFFFFFFC#32 }
      else
        advance ((f.based s).setReg f.rd
          (rowExtension f (BitVec.ofNat 32 (Memory.load s.mem (f.address s).toNat f.width)))) := by
  obtain ⟨hnone, hrd⟩ := not_refused h hpc
  rw [runRow, if_pos hload, loadSingle, hnone]
  have hread : s.readMem (transferAddress f.idx f.u f.rn f.off s) f.width (f.privilege s) =
      .ok (BitVec.ofNat 32 (Memory.load s.mem (f.address s).toNat f.width)) := readMem_granted hg
  simp only [if_neg hrd, hread]
  rfl

theorem runRow_store {f : Transfer} {s : State} (hload : f.load = false) (h : f.allowed)
    (hpc : f.rd = 15#4 → f.pcOk = true) (hg : s.grants (f.address s) f.width .write (f.privilege s)) :
    runRow f s =
      advance (f.based (s.stored (f.address s) f.width (if f.rd = 15#4 then s.storedPc else s.reg f.rd))) := by
  obtain ⟨hnone, hrd⟩ := not_refused h hpc
  rw [runRow, hload, if_neg Bool.false_ne_true, storeSingle, hnone]
  have hwrite : ∀ v, s.writeMem (transferAddress f.idx f.u f.rn f.off s) f.width v (f.privilege s) =
      .ok (s.stored (f.address s) f.width v) := fun v => writeMem_granted hg
  simp only [if_neg hrd, hwrite]
  rfl

/-- The base write of an allowed transfer leaves the PC. -/
theorem based_pc {f : Transfer} (h : f.allowed) (s : State) : (f.based s).pc = s.pc :=
  State.writeBase_pc s f.idx f.u f.rn f.off fun hw => (h.2 hw).1

/-- Settles O44: the row's load, with the value extended or moved to the PC. -/
theorem loadResults : Obligations.LoadResults := by
  unfold Obligations.LoadResults
  refine ⟨fun i f s hf hload h hruns hrd hg => ?register, fun i f s hf hload h hc hrd hpc hg => ?pc⟩
  case register =>
    obtain ⟨hc, hpc⟩ := hruns
    rw [exec_transfer i f s hf hc, runRow_load hload h (fun e => absurd e hrd) hg, if_neg hrd,
      rowExtension_load (width_of_transferOf hf)]
    exact advance_eq _ (ne_of_eq_of_ne ((State.setReg_pc _ _ _ hrd).trans (based_pc h s)) hpc)
  case pc =>
    rw [exec_transfer i f s hf hc, runRow_load hload h (fun _ => hpc) hg, if_pos hrd, width_of_pcOk hf hpc, load_four]
    rfl

/-- Settles O45: the row's store; the value of R15 is the model's constant. -/
theorem storeResults : Obligations.StoreResults := by
  unfold Obligations.StoreResults
  refine ⟨fun i f s hf hload h hruns hrd hg => ?register,
    if Config.storesPcPlusTwelve then 12#32 else 8#32, ?value, fun i f s hf hload h hruns hrd hpc hg => ?pc⟩
  case register =>
    obtain ⟨hc, hpc⟩ := hruns
    rw [exec_transfer i f s hf hc, runRow_store hload h (fun e => absurd e hrd) hg, if_neg hrd]
    exact advance_eq _ (ne_of_eq_of_ne (based_pc h _) hpc)
  case value =>
    split
    · exact .inr rfl
    · exact .inl rfl
  case pc =>
    obtain ⟨hc, htop⟩ := hruns
    rw [exec_transfer i f s hf hc, runRow_store hload h (fun _ => hpc) hg, if_pos hrd]
    exact advance_eq _ (ne_of_eq_of_ne (based_pc h _) htop)

/-- Settles O47: the Data abort is entered in the state with the base of the abort model. -/
theorem transferAborts : Obligations.TransferAborts := by
  unfold Obligations.TransferAborts
  intro i f s hf h hc hpc hal haborts
  have hbase : (s.abortedBase f.idx f.u f.rn f.off) =
      if s.platform.abortModel = .baseUpdated then f.based s else s := rfl
  have hlink : (if s.platform.abortModel = .baseUpdated then f.based s else s).pc = s.pc := by
    split
    · exact based_pc h s
    · rfl
  rw [exec_transfer i f s hf hc, runRow_abort h hpc ((checkAccess_abort_iff ..).2 ⟨hal, haborts⟩), dataAbort, hbase,
    hlink]
  exact ⟨_, rfl, enter_entered ..⟩

/-! ### Swaps (R300, R301) -/

theorem swapRefusal_none {rd rm rn : Reg} (hpc : 15#4 ∉ [rd, rm, rn]) (hm : rn ≠ rm) (hd : rn ≠ rd) :
    swapRefusal rd rm rn = none := by
  have h15 : ¬(rd = 15#4 ∨ rm = 15#4 ∨ rn = 15#4) := by
    simpa [eq_comm] using hpc
  rw [swapRefusal, if_neg h15, if_neg (by simp [hm, hd])]

/-- A swap with both accesses granted. -/
theorem swap_granted {n : Nat} {ext : Word → Word} {rd rm rn : Reg} {s : State} (htop : s.pc ≠ 0xFFFFFFFC#32)
    (hpc : 15#4 ∉ [rd, rm, rn]) (hm : rn ≠ rm) (hd : rn ≠ rd) (hread : s.grants (s.reg rn) n .read s.privilege)
    (hwrite : s.grants (s.reg rn) n .write s.privilege) :
    swap n ext rd rm rn s = .next (State.onward ((s.stored (s.reg rn) n (s.reg rm)).setReg rd
      (ext (BitVec.ofNat 32 (Memory.load s.mem (s.reg rn).toNat n))))) := by
  have hrd : rd ≠ 15#4 := fun e => hpc (by simp [e])
  simp only [swap, swapRefusal_none hpc hm hd, readMem_granted hread, writeMem_granted hwrite]
  exact advance_eq _ (ne_of_eq_of_ne (State.setReg_pc _ _ _ hrd) htop)

/-- Settles O49: the old word or byte is read before the store. -/
theorem swapResults : Obligations.SwapResults := by
  unfold Obligations.SwapResults
  intro c rd rm rn s hruns hpc hm hd
  obtain ⟨hc, htop⟩ := hruns
  refine ⟨fun hread hwrite => ?word, fun hread hwrite => ?byte⟩
  case word =>
    rw [exec_swp, conditional_passes c s _ hc, swap_granted htop hpc hm hd hread hwrite, load_four]
    rfl
  case byte =>
    have hbyte : ∀ b : Byte, extByte (b.setWidth 32) = b.setWidth 32 := fun b =>
      congrArg (BitVec.setWidth 32) (BitVec.setWidth_setWidth_of_le b (by decide))
    rw [exec_swpb, conditional_passes c s _ hc, swap_granted htop hpc hm hd hread hwrite, load_one, hbyte]
    rfl

/-- A swap whose read or write aborts changes nothing before it takes the Data abort. -/
theorem swap_abort {n : Nat} {ext : Word → Word} {rd rm rn : Reg} {s : State} (hpc : 15#4 ∉ [rd, rm, rn])
    (hm : rn ≠ rm) (hd : rn ≠ rd) (hal : (s.reg rn).toNat % n = 0)
    (h : Platform.abortsAccess s.platform (s.reg rn).toNat n .read s.privilege = true ∨
      (s.grants (s.reg rn) n .read s.privilege ∧
        Platform.abortsAccess s.platform (s.reg rn).toNat n .write s.privilege = true)) :
    swap n ext rd rm rn s = dataAbort s := by
  rcases h with hread | ⟨hread, hwrite⟩
  · simp only [swap, swapRefusal_none hpc hm hd, (readMem_abort_iff ..).2 ⟨hal, hread⟩]
  · simp only [swap, swapRefusal_none hpc hm hd, readMem_granted hread, (writeMem_abort_iff ..).2 ⟨hal, hwrite⟩]

/-- A swap whose read is a model fault is this fault. -/
theorem swap_fault {n : Nat} {ext : Word → Word} {rd rm rn : Reg} {s : State} {f : Fault} (hpc : 15#4 ∉ [rd, rm, rn])
    (hm : rn ≠ rm) (hd : rn ≠ rd) (h : s.checkAccess (s.reg rn) n .read s.privilege = .fault f) :
    swap n ext rd rm rn s = .fault f := by
  simp only [swap, swapRefusal_none hpc hm hd, readMem_fault h]

/-- What a swap is refused for is refused. -/
theorem swap_refused {n : Nat} {ext : Word → Word} {rd rm rn : Reg} {s : State} {e : Refusal}
    (h : swapRefusal rd rm rn = some e) : swap n ext rd rm rn s = .refused e := by
  simp only [swap, h]

/-- Settles O50: the refusals in their order, and the aborts of both accesses. -/
theorem swapStops : Obligations.SwapStops := by
  unfold Obligations.SwapStops
  intro c rd rm rn s hc
  refine ⟨fun hpc => ?fifteen, fun hpc hsame => ?same, fun hpc hm hd x hx hal h => ?abort⟩
  case fifteen =>
    have hrefusal : swapRefusal rd rm rn = some .r15Operand := by
      rw [swapRefusal, if_pos (by simpa [eq_comm] using hpc)]
    rw [exec_swp, exec_swpb, conditional_passes c s _ hc, conditional_passes c s _ hc]
    exact ⟨swap_refused hrefusal, swap_refused hrefusal⟩
  case same =>
    have hrefusal : swapRefusal rd rm rn = some .swapRegisters := by
      rw [swapRefusal, if_neg (by simpa [eq_comm] using hpc), if_pos hsame]
    rw [exec_swp, exec_swpb, conditional_passes c s _ hc, conditional_passes c s _ hc]
    exact ⟨swap_refused hrefusal, swap_refused hrefusal⟩
  case abort =>
    refine ⟨_, ?_, enter_entered .dataAbort (s.pc + 8#32) s⟩
    simp only [List.mem_cons, List.not_mem_nil, or_false] at hx
    rcases hx with rfl | rfl
    · exact ((exec_swp ..).trans (conditional_passes c s _ hc)).trans (swap_abort hpc hm hd hal h)
    · exact ((exec_swpb ..).trans (conditional_passes c s _ hc)).trans (swap_abort hpc hm hd hal h)

end Sys2Proof.Proofs

/-! Which faults an instruction can be (R64 to R66, R68, R280). -/

namespace Sys2Proof.Proofs

open Sys2Proof Sys2Proof.Machine

/-! ### The addresses of a block (R161) -/

theorem getElem?_blockAddresses {am : BlockMode} {rn : Reg} {list : BitVec 16} {s : State} {k : Nat}
    (h : k < (regsOf list).length) : (blockAddresses am rn list s)[k]? = some (blockAddress am rn list s k) :=
  getElem?_wordsFrom _ _ _ h

theorem length_blockAddresses (am : BlockMode) (rn : Reg) (list : BitVec 16) (s : State) :
    (blockAddresses am rn list s).length = (regsOf list).length :=
  length_wordsFrom _ _

theorem mem_blockAddresses {am : BlockMode} {rn : Reg} {list : BitVec 16} {s : State} {a : Word} :
    a ∈ blockAddresses am rn list s ↔ ∃ k, k < (regsOf list).length ∧ a = blockAddress am rn list s k := by
  rw [List.mem_iff_getElem?]
  constructor
  · rintro ⟨k, hk⟩
    have hlt : k < (regsOf list).length := length_blockAddresses am rn list s ▸ (List.getElem?_eq_some_iff.1 hk).1
    exact ⟨k, hlt, Option.some.inj (hk.symm.trans (getElem?_blockAddresses hlt))⟩
  · rintro ⟨k, hk, rfl⟩
    exact ⟨k, getElem?_blockAddresses hk⟩

/-- The words of a block are aligned, whatever its base is (R161). -/
theorem blockAddress_aligned (am : BlockMode) (rn : Reg) (list : BitVec 16) (s : State) (k : Nat) :
    (blockAddress am rn list s k).toNat % 4 = 0 := by
  rw [blockAddress_eq_ofInt, BitVec.toNat_ofInt]
  omega

theorem blockAddresses_aligned {am : BlockMode} {rn : Reg} {list : BitVec 16} {s : State} {a : Word}
    (h : a ∈ blockAddresses am rn list s) : a.toNat % 4 = 0 := by
  obtain ⟨k, -, rfl⟩ := mem_blockAddresses.1 h
  exact blockAddress_aligned am rn list s k

/-! ### Faults -/

/-- Whatever fault an outcome is, it has a property. -/
def OnFault (P : Fault → Prop) (o : Out) : Prop :=
  ∀ f, o = .fault f → P f

theorem onFault_next (P : Fault → Prop) (s : State) : OnFault P (.next s) :=
  fun _ h => by cases h

theorem onFault_refused (P : Fault → Prop) (e : Refusal) : OnFault P (.refused e) :=
  fun _ h => by cases h

theorem onFault_ite {P : Fault → Prop} {p : Prop} [Decidable p] {o q : Out} (ho : OnFault P o) (hq : OnFault P q) :
    OnFault P (if p then o else q) := by
  split
  · exact ho
  · exact hq

theorem onFault_advance (P : Fault → Prop) (s : State) : OnFault P (advance s) :=
  onFault_ite (onFault_refused P _) (onFault_next P _)

theorem onFault_jump (P : Fault → Prop) (s : State) (a : Word) : OnFault P (jump s a) :=
  onFault_ite (onFault_next P _) (onFault_refused P _)

theorem onFault_conditional {P : Fault → Prop} {c : Cond} {s : State} {body : State → Out} (h : OnFault P (body s)) :
    OnFault P (conditional c s body) :=
  onFault_ite h (onFault_advance P s)

theorem onFault_finishDp (P : Fault → Prop) (sf : Bool) (rd : Reg) (r : DpResult) (s : State) :
    OnFault P (finishDp sf rd r s) := by
  refine onFault_ite (onFault_ite ?_ (onFault_jump P _ _)) (onFault_ite (onFault_advance P _) (onFault_advance P _))
  cases returnCpsr s with
  | error e => exact onFault_refused P e
  | ok t => exact onFault_ite (onFault_next P _) (onFault_jump P _ _)

theorem onFault_dataProc {P : Fault → Prop} {op : DpOp} {sf : Bool} {rd rn : Reg} {so : ShiftOp} {s : State} :
    OnFault P (dataProc op sf rd rn so s) :=
  onFault_ite (onFault_refused P _) (onFault_finishDp P _ _ _ _)

theorem onFault_dataMove {P : Fault → Prop} {op : DpOp} {sf : Bool} {rd : Reg} {so : ShiftOp} {s : State} :
    OnFault P (dataMove op sf rd so s) :=
  onFault_ite (onFault_refused P _) (onFault_finishDp P _ _ _ _)

theorem onFault_dataCompare {P : Fault → Prop} {op : DpOp} {rn : Reg} {so : ShiftOp} {s : State} :
    OnFault P (dataCompare op rn so s) :=
  onFault_ite (onFault_refused P _) (onFault_advance P _)

theorem onFault_readPsr {P : Fault → Prop} {rd : Reg} {p : Psr} {s : State} : OnFault P (readPsr rd p s) :=
  onFault_ite (onFault_refused P _) (onFault_advance P _)

theorem onFault_writeCpsr {P : Fault → Prop} {fields : PsrFields} {v : Word} {s : State} :
    OnFault P (writeCpsr fields v s) := by
  refine onFault_ite ?_ (onFault_advance P _)
  split
  · exact onFault_refused P _
  · exact onFault_advance P _

theorem onFault_writeSpsr {P : Fault → Prop} {fields : PsrFields} {v : Word} {s : State} :
    OnFault P (writeSpsr fields v s) := by
  unfold writeSpsr
  split
  · exact onFault_refused P _
  · exact onFault_advance P _

theorem onFault_multiply {P : Fault → Prop} {sf : Bool} {rd : Reg} {p : Word} {s : State} :
    OnFault P (multiply sf rd p s) :=
  onFault_ite (onFault_advance P _) (onFault_advance P _)

theorem onFault_longMultiply {P : Fault → Prop} {sf : Bool} {rdLo rdHi : Reg} {p : BitVec 64} {s : State} :
    OnFault P (longMultiply sf rdLo rdHi p s) :=
  onFault_ite (onFault_advance P _) (onFault_advance P _)

theorem onFault_branchExchange {P : Fault → Prop} {s : State} {a : Word} : OnFault P (branchExchange s a) :=
  onFault_ite (onFault_next P _) (onFault_ite (onFault_refused P _) (onFault_next P _))

/-! ### The faults of accesses -/

/-- The fault of an access: its width, and the address that is no multiple of it or is not mapped (R64, R65). -/
theorem checkAccess_fault {s : State} {a : Word} {n : Nat} {k : AccessKind} {pr : Privilege} {f : Fault}
    (h : s.checkAccess a n k pr = .fault f) : (f = .misaligned a n ∧ a.toNat % n ≠ 0) ∨ f = .unmapped a n := by
  unfold State.checkAccess at h
  split at h
  next hmis =>
    cases h
    exact .inl ⟨rfl, hmis⟩
  · split at h
    · cases h
    · split at h
      · cases h
      · cases h
        exact .inr rfl

theorem readMem_fault_checkAccess {s : State} {a : Word} {n : Nat} {pr : Privilege} {f : Fault}
    (h : s.readMem a n pr = .fault f) : s.checkAccess a n .read pr = .fault f := by
  unfold State.readMem at h
  split at h
  · cases h
  · cases h
  · cases h
    assumption

theorem writeMem_fault_checkAccess {s : State} {a v : Word} {n : Nat} {pr : Privilege} {f : Fault}
    (h : s.writeMem a n v pr = .fault f) : s.checkAccess a n .write pr = .fault f := by
  unfold State.writeMem at h
  split at h
  · cases h
  · cases h
  · cases h
    assumption

/-- Every fault that an access of this width can be has a property. -/
def OnAccessFault (P : Fault → Prop) (n : Nat) : Prop :=
  ∀ a : Word, P (.unmapped a n) ∧ (a.toNat % n ≠ 0 → P (.misaligned a n))

theorem OnAccessFault.of_checkAccess {P : Fault → Prop} {n : Nat} (hP : OnAccessFault P n) {s : State} {a : Word}
    {k : AccessKind} {pr : Privilege} {f : Fault} (h : s.checkAccess a n k pr = .fault f) : P f := by
  rcases checkAccess_fault h with ⟨rfl, hmis⟩ | rfl
  · exact (hP a).2 hmis
  · exact (hP a).1

theorem onFault_loadSingle {P : Fault → Prop} {n : Nat} (hP : OnAccessFault P n) {ext : Word → Word} {pcOk : Bool}
    {pr : Privilege} {idx : Index} {u : Bool} {rn rd : Reg} {off : Offset} {s : State} :
    OnFault P (loadSingle n ext pcOk pr idx u rn rd off s) := by
  unfold loadSingle
  split
  · exact onFault_refused P _
  · refine onFault_ite (onFault_refused P _) ?_
    split
    next f hf => exact fun g hg => by
                  cases hg
                  exact hP.of_checkAccess (readMem_fault_checkAccess hf)
    · exact onFault_next P _
    · exact onFault_ite (onFault_next P _) (onFault_advance P _)

theorem onFault_storeSingle {P : Fault → Prop} {n : Nat} (hP : OnAccessFault P n) {pcOk : Bool} {pr : Privilege}
    {idx : Index} {u : Bool} {rn rd : Reg} {off : Offset} {s : State} :
    OnFault P (storeSingle n pcOk pr idx u rn rd off s) := by
  unfold storeSingle
  split
  · exact onFault_refused P _
  · refine onFault_ite (onFault_refused P _) ?_
    split
    next f hf => exact fun g hg => by
                  cases hg
                  exact hP.of_checkAccess (writeMem_fault_checkAccess hf)
    · exact onFault_next P _
    · exact onFault_advance P _

theorem onFault_swap {P : Fault → Prop} {n : Nat} (hP : OnAccessFault P n) {ext : Word → Word} {rd rm rn : Reg}
    {s : State} : OnFault P (swap n ext rd rm rn s) := by
  unfold swap
  split
  · exact onFault_refused P _
  · split
    next f hf => exact fun g hg => by
                  cases hg
                  exact hP.of_checkAccess (readMem_fault_checkAccess hf)
    · exact onFault_next P _
    · split
      next f hf => exact fun g hg => by
                    cases hg
                    exact hP.of_checkAccess (writeMem_fault_checkAccess hf)
      · exact onFault_next P _
      · exact onFault_advance P _

/-! ### The faults of block transfers (R66, R280) -/

theorem readBlock_fault {s : State} {as : List Word} {k : Nat} {f : Fault} (h : readBlock s as k = .fault f) :
    ∃ a ∈ as, s.readMem a 4 s.privilege = .fault f := by
  induction as generalizing k with
  | nil => cases h
  | cons a rest ih =>
    unfold readBlock at h
    split at h
    next g hg =>
      cases h
      exact ⟨a, List.mem_cons_self, hg⟩
    · cases h
    · split at h
      · cases h
      · cases h
      next g hg =>
        cases h
        obtain ⟨b, hb, hf⟩ := ih hg
        exact ⟨b, List.mem_cons_of_mem _ hb, hf⟩

theorem writeBlock_fault {s : State} {l : List (Word × Word)} {k : Nat} {f : Fault} (h : writeBlock s l k = .fault f) :
    ∃ x ∈ l, ∃ t : State, t.checkAccess x.1 4 .write t.privilege = .fault f := by
  induction l generalizing s k with
  | nil => cases h
  | cons x rest ih =>
    obtain ⟨a, v⟩ := x
    unfold writeBlock at h
    split at h
    next g hg =>
      cases h
      exact ⟨(a, v), List.mem_cons_self, s, writeMem_fault_checkAccess hg⟩
    · cases h
    · obtain ⟨y, hy, hf⟩ := ih h
      exact ⟨y, List.mem_cons_of_mem _ hy, hf⟩

/-- An aligned word access is no misalignment. -/
theorem unmapped_of_checkAccess {s : State} {a : Word} {k : AccessKind} {pr : Privilege} {f : Fault}
    (hal : a.toNat % 4 = 0) (h : s.checkAccess a 4 k pr = .fault f) : f = .unmapped a 4 :=
  (checkAccess_fault h).resolve_left fun h => h.2 hal

theorem onFault_loadBlock {P : Fault → Prop} (hP : ∀ a, P (.unmapped a 4)) {am : BlockMode} {w : Bool} {rn : Reg}
    {list : BitVec 16} {m : Mode} {finish : List (Reg × Word) → State → Out} (s : State)
    (hfinish : ∀ l t, OnFault P (finish l t)) : OnFault P (loadBlock am w rn list m finish s) := by
  unfold loadBlock
  split
  · exact onFault_refused P _
  · split
    next f hf =>
      obtain ⟨a, ha, hread⟩ := readBlock_fault hf
      intro g hg
      cases hg
      exact unmapped_of_checkAccess (blockAddresses_aligned ha) (readMem_fault_checkAccess hread) ▸ hP a
    · exact onFault_next P _
    · exact hfinish _ _

theorem onFault_storeBlock {P : Fault → Prop} (hP : ∀ a, P (.unmapped a 4)) {am : BlockMode} {w : Bool} {rn : Reg}
    {list : BitVec 16} {m : Mode} {s : State} : OnFault P (storeBlock am w rn list m s) := by
  unfold storeBlock
  split
  · exact onFault_refused P _
  · split
    next f hf =>
      obtain ⟨x, hx, t, hwrite⟩ := writeBlock_fault hf
      intro g hg
      cases hg
      exact unmapped_of_checkAccess (blockAddresses_aligned (List.of_mem_zip hx).1) hwrite ▸ hP x.1
    · exact onFault_next P _
    · exact onFault_advance P _

theorem onFault_finishLoad (P : Fault → Prop) (list : BitVec 16) (l : List (Reg × Word)) (s : State) :
    OnFault P (finishLoad list l s) :=
  onFault_ite (onFault_next P _) (onFault_advance P _)

theorem onFault_finishLoadReturn (P : Fault → Prop) (l : List (Reg × Word)) (s : State) :
    OnFault P (finishLoadReturn l s) := by
  unfold finishLoadReturn
  split
  · exact onFault_refused P _
  · split
    · exact onFault_next P _
    · exact onFault_next P _

theorem onFault_markUserLdm {P : Fault → Prop} {o : Out} (h : OnFault P o) : OnFault P (markUserLdm o) := by
  cases o with
  | next s => exact onFault_next P _
  | fault f => exact h
  | refused e => exact onFault_refused P e

/-- The bodies of the block transfers. -/
inductive IsBlock : Body → Prop
  | loadMultiple (am : BlockMode) (w : Bool) (rn : Reg) (list : BitVec 16) : IsBlock (.loadMultiple am w rn list)
  | loadUser (am : BlockMode) (w : Bool) (rn : Reg) (list : BitVec 16) : IsBlock (.loadUser am w rn list)
  | loadReturn (am : BlockMode) (w : Bool) (rn : Reg) (list : BitVec 16) : IsBlock (.loadReturn am w rn list)
  | storeMultiple (am : BlockMode) (w : Bool) (rn : Reg) (list : BitVec 16) : IsBlock (.storeMultiple am w rn list)
  | storeUser (am : BlockMode) (w : Bool) (rn : Reg) (list : BitVec 16) : IsBlock (.storeUser am w rn list)

/-- A block transfer can only reach an unmapped word. -/
theorem onFault_blockRun {P : Fault → Prop} (hunmapped : ∀ a, P (.unmapped a 4)) (b : Body) (s : State)
    (hb : IsBlock b) : OnFault P (b.run s) := by
  cases hb
  case loadMultiple =>
    simp only [Body.run]
    split
    · exact onFault_refused P _
    · exact onFault_loadBlock hunmapped s (onFault_finishLoad P _)
  case loadUser =>
    simp only [Body.run]
    split
    · exact onFault_refused P _
    · exact onFault_markUserLdm (onFault_loadBlock hunmapped s fun _ _ => onFault_advance P _)
  case loadReturn =>
    simp only [Body.run]
    refine onFault_ite (onFault_refused P _) ?_
    split
    · exact onFault_refused P _
    · exact onFault_loadBlock hunmapped s (onFault_finishLoadReturn P)
  case storeMultiple =>
    simp only [Body.run]
    split
    · exact onFault_refused P _
    · exact onFault_storeBlock hunmapped
  case storeUser =>
    simp only [Body.run]
    split
    · exact onFault_refused P _
    · exact onFault_storeBlock hunmapped

theorem onFault_sequence {P : Fault → Prop} {f g : State → Out} {s : State} (hf : OnFault P (f s))
    (hg : ∀ t, OnFault P (g t)) : OnFault P (Machine.sequence f g s) := by
  unfold Machine.sequence
  split
  · exact onFault_ite (hg _) (onFault_next P _)
  next e he => exact he ▸ hf
  · exact onFault_refused P _

theorem onFault_run {P : Fault → Prop} (hP : ∀ n, OnAccessFault P n) (b : Body) (s : State) : OnFault P (b.run s) := by
  have hunmapped : ∀ a, P (.unmapped a 4) := fun a => (hP 4 a).1
  cases b
  case proc => exact onFault_dataProc
  case move => exact onFault_dataMove
  case compare => exact onFault_dataCompare
  case mrsCpsr => exact onFault_readPsr
  case mrsSpsr =>
    simp only [Body.run]
    split
    · exact onFault_refused P _
    · exact onFault_readPsr
  case msrCpsrReg => exact onFault_ite (onFault_refused P _) (onFault_writeCpsr)
  case msrSpsrReg => exact onFault_ite (onFault_refused P _) (onFault_writeSpsr)
  case msrCpsrImm => exact onFault_writeCpsr
  case msrSpsrImm => exact onFault_writeSpsr
  case multiply =>
    exact onFault_ite (onFault_refused P _) (onFault_ite (onFault_refused P _) (onFault_multiply))
  case longMultiply =>
    simp only [Body.run]
    split
    · exact onFault_refused P _
    · exact onFault_longMultiply
  case branchExchange => exact onFault_branchExchange
  case swapWord => exact onFault_swap (hP 4)
  case swapByte => exact onFault_swap (hP 1)
  case transfer f => exact onFault_ite (onFault_loadSingle (hP _)) (onFault_storeSingle (hP _))
  case loadMultiple am w rn list => exact onFault_blockRun hunmapped _ s (.loadMultiple am w rn list)
  case loadUser am w rn list => exact onFault_blockRun hunmapped _ s (.loadUser am w rn list)
  case loadReturn am w rn list => exact onFault_blockRun hunmapped _ s (.loadReturn am w rn list)
  case storeMultiple am w rn list => exact onFault_blockRun hunmapped _ s (.storeMultiple am w rn list)
  case storeUser am w rn list => exact onFault_blockRun hunmapped _ s (.storeUser am w rn list)
  case branch => exact onFault_next P _
  case branchLink => exact onFault_next P _
  case softwareInterrupt => exact onFault_next P _

theorem onFault_exec {P : Fault → Prop} (hP : ∀ n, OnAccessFault P n) (i : Instr) (s : State) :
    OnFault P (exec i s) := by
  have hbody : ∀ {i : Instr} {b : Body}, Runs i b → OnFault P (exec i s) := fun hb => by
    rw [hb.exec s]
    exact onFault_conditional (onFault_run hP _ s)
  rcases exists_runs i with ⟨b, hb⟩ | ⟨c, rd, imm32, u, pool, rfl⟩ | ⟨c, u, rd, rot1, imm1, rot2, imm2, rfl⟩
  · exact hbody hb
  · rw [exec_ldrConst]
    split
    · exact onFault_conditional onFault_dataMove
    · split
      · exact onFault_conditional onFault_dataMove
      · exact onFault_conditional (onFault_loadSingle (hP 4))
  · rw [exec_adrl]
    exact onFault_ite
      (onFault_sequence (onFault_conditional onFault_dataProc) fun _ => onFault_conditional onFault_dataProc)
      (onFault_sequence (onFault_conditional onFault_dataProc) fun _ => onFault_conditional onFault_dataProc)

/-! ### The block transfers that nothing refuses (R162, R283 to R286) -/

theorem blockRefusal_of_allowed {am : BlockMode} {rn : Reg} {list : BitVec 16} {s : State}
    (h : blockAllowed am rn list s) : blockRefusal am rn list s = none := by
  obtain ⟨hlist, hrn, htop⟩ := h
  rw [blockRefusal, if_neg hlist, if_neg hrn, blockCrossesTop, decide_eq_false (Nat.not_lt.2 htop)]
  rfl

theorem loadBaseRefusal_none {w : Bool} {rn : Reg} {list : BitVec 16}
    (h : w = true → list.getLsbD rn.toNat = false) : loadBaseRefusal w rn list = none := by
  refine if_neg fun hboth => ?_
  obtain ⟨hw, hin⟩ := (Bool.and_eq_true _ _).mp hboth
  exact Bool.false_ne_true ((h hw).symm.trans hin)

theorem storeBaseRefusal_none {w : Bool} {rn : Reg} {list : BitVec 16}
    (h : w = true → list.getLsbD rn.toNat = true → listed list 0 rn) : storeBaseRefusal w rn list = none := by
  refine if_neg fun hall => ?_
  simp only [Bool.and_eq_true, decide_eq_true_eq] at hall
  obtain ⟨⟨hw, hin⟩, hne⟩ := hall
  exact hne (List.head?_eq_getElem?.trans (h hw hin))

theorem userBankRefusal_none {s : State} (h : s.cpsr.mode.hasSpsr = true) : userBankRefusal false s = none := by
  rw [userBankRefusal, h]
  rfl

theorem exec_ldm_loadBlock {c : Cond} {am : BlockMode} {w : Bool} {rn : Reg} {list : BitVec 16} {s : State}
    (hc : Cond.passes c s.cpsr = true) (hbase : w = true → list.getLsbD rn.toNat = false) :
    exec (.ldm c am w rn list) s = loadBlock am w rn list s.cpsr.mode (finishLoad list) s := by
  rw [exec_ldm, conditional_passes c s _ hc, loadBaseRefusal_none hbase]

theorem exec_ldmUser_loadBlock {c : Cond} {am : BlockMode} {rn : Reg} {list : BitVec 16} {s : State}
    (hc : Cond.passes c s.cpsr = true) (hspsr : s.cpsr.mode.hasSpsr = true) :
    exec (.ldmUser c am false rn list) s = markUserLdm (loadBlock am false rn list .usr finishLoadUser s) := by
  rw [exec_ldmUser, conditional_passes c s _ hc, userBankRefusal_none hspsr]

theorem exec_ldmReturn_loadBlock {c : Cond} {am : BlockMode} {w : Bool} {rn : Reg} {list : BitVec 16} {s : State}
    (hc : Cond.passes c s.cpsr = true) (hspsr : s.cpsr.mode.hasSpsr = true)
    (hbase : w = true → list.getLsbD rn.toNat = false) :
    exec (.ldmReturn c am w rn list) s = loadBlock am w rn list s.cpsr.mode finishLoadReturn s := by
  rw [exec_ldmReturn, conditional_passes c s _ hc, hspsr, loadBaseRefusal_none hbase]
  rfl

theorem exec_stm_storeBlock {c : Cond} {am : BlockMode} {w : Bool} {rn : Reg} {list : BitVec 16} {s : State}
    (hc : Cond.passes c s.cpsr = true) (hbase : w = true → list.getLsbD rn.toNat = true → listed list 0 rn) :
    exec (.stm c am w rn list) s = storeBlock am w rn list s.cpsr.mode s := by
  rw [exec_stm, conditional_passes c s _ hc, storeBaseRefusal_none hbase]

theorem exec_stmUser_storeBlock {c : Cond} {am : BlockMode} {rn : Reg} {list : BitVec 16} {s : State}
    (hc : Cond.passes c s.cpsr = true) (hspsr : s.cpsr.mode.hasSpsr = true) :
    exec (.stmUser c am false rn list) s = storeBlock am false rn list .usr s := by
  rw [exec_stmUser, conditional_passes c s _ hc, userBankRefusal_none hspsr]

/-! ### Where the accesses of a block stop (R280) -/

/-- The words of a block before one that exists are granted if they are by their number. -/
theorem granted_before {am : BlockMode} {rn : Reg} {list : BitVec 16} {s : State} {kind : AccessKind} {j i : Nat}
    {a : Word} (hj : j < (regsOf list).length)
    (h : ∀ i, i < j → s.grants (blockAddress am rn list s i) 4 kind s.privilege) (hi : i < j)
    (ha : (blockAddresses am rn list s)[i]? = some a) : s.grants a 4 kind s.privilege := by
  rw [getElem?_blockAddresses (hi.trans hj)] at ha
  exact Option.some.inj ha ▸ h i hi

/-- The `k`-th store of a block: the `k`-th address and the value of the `k`-th register. -/
theorem getElem?_blockStores_iff {am : BlockMode} {rn : Reg} {list : BitVec 16} {m : Mode} {s : State} {k : Nat}
    {x : Word × Word} : (blockStores am rn list m s)[k]? = some x ↔
      ∃ r, listed list k r ∧ x = (blockAddress am rn list s k, s.storedReg m r) := by
  obtain ⟨a, v⟩ := x
  rw [blockStores, List.getElem?_zip_eq_some, List.getElem?_map, Option.map_eq_some_iff]
  constructor
  · rintro ⟨ha, r, hr, hv⟩
    rw [getElem?_blockAddresses (List.getElem?_eq_some_iff.1 hr).1] at ha
    exact ⟨r, hr, by rw [Option.some.inj ha, hv]⟩
  · rintro ⟨r, hr, hx⟩
    obtain ⟨rfl, rfl⟩ := Prod.mk.inj hx
    exact ⟨getElem?_blockAddresses (List.getElem?_eq_some_iff.1 hr).1, r, hr, rfl⟩

theorem exists_listed {list : BitVec 16} {k : Nat} (h : k < (regsOf list).length) : ∃ r, listed list k r :=
  ⟨_, List.getElem?_eq_getElem h⟩

theorem readBlock_of_checkAccess {am : BlockMode} {rn : Reg} {list : BitVec 16} {s : State} {j : Nat}
    (hj : j < (regsOf list).length)
    (h : ∀ i, i < j → s.grants (blockAddress am rn list s i) 4 .read s.privilege) :
    (∀ f, s.checkAccess (blockAddress am rn list s j) 4 .read s.privilege = .fault f →
      readBlock s (blockAddresses am rn list s) 0 = .fault f) ∧
    (s.checkAccess (blockAddress am rn list s j) 4 .read s.privilege = .abort →
      readBlock s (blockAddresses am rn list s) 0 = .abort j) := by
  obtain ⟨hfault, habort⟩ := readBlock_stops s (blockAddresses am rn list s) 0 j _ (getElem?_blockAddresses hj)
    fun i a hi ha => granted_before hj h hi ha
  refine ⟨fun f hf => hfault f (readMem_fault hf), fun hf => ?_⟩
  rw [habort ((readMem_abort_iff ..).2 ((checkAccess_abort_iff ..).1 hf)), Nat.zero_add]

theorem writeBlock_of_checkAccess {am : BlockMode} {rn : Reg} {list : BitVec 16} {m : Mode} {s : State} {j : Nat}
    (hj : j < (regsOf list).length)
    (h : ∀ i, i < j → s.grants (blockAddress am rn list s i) 4 .write s.privilege) :
    (∀ f, s.checkAccess (blockAddress am rn list s j) 4 .write s.privilege = .fault f →
      writeBlock s (blockStores am rn list m s) 0 = .fault f) ∧
    (s.checkAccess (blockAddress am rn list s j) 4 .write s.privilege = .abort →
      writeBlock s (blockStores am rn list m s) 0 = .abort j) := by
  obtain ⟨r, hr⟩ := exists_listed hj
  have hgranted : ∀ i x, i < j → (blockStores am rn list m s)[i]? = some x → s.grants x.1 4 .write s.privilege := by
    intro i x hi hx
    obtain ⟨-, -, rfl⟩ := getElem?_blockStores_iff.1 hx
    exact h i hi
  obtain ⟨hfault, habort⟩ := writeBlock_stops s (blockStores am rn list m s) 0 j _ _
    (getElem?_blockStores_iff.2 ⟨r, hr, rfl⟩) hgranted
  refine ⟨hfault, fun hf => ?_⟩
  rw [habort hf, Nat.zero_add]

theorem loadBlock_fault {am : BlockMode} {w : Bool} {rn : Reg} {list : BitVec 16} {m : Mode} {s : State} {j : Nat}
    {finish : List (Reg × Word) → State → Out} (hallowed : blockAllowed am rn list s)
    (h : blockUnmappedAt am rn list s .read j) :
    loadBlock am w rn list m finish s = .fault (.unmapped (blockAddress am rn list s j) 4) := by
  obtain ⟨hj, hbefore, haborts, hmaps⟩ := h
  have hread := (readBlock_of_checkAccess hj hbefore).1 _
    (checkAccess_unmapped (blockAddress_aligned am rn list s j) haborts hmaps)
  simp only [loadBlock, blockRefusal_of_allowed hallowed, hread]

theorem storeBlock_fault {am : BlockMode} {w : Bool} {rn : Reg} {list : BitVec 16} {m : Mode} {s : State} {j : Nat}
    (hallowed : blockAllowed am rn list s) (h : blockUnmappedAt am rn list s .write j) :
    storeBlock am w rn list m s = .fault (.unmapped (blockAddress am rn list s j) 4) := by
  obtain ⟨hj, hbefore, haborts, hmaps⟩ := h
  have hwrite := (writeBlock_of_checkAccess (m := m) hj hbefore).1 _
    (checkAccess_unmapped (blockAddress_aligned am rn list s j) haborts hmaps)
  simp only [storeBlock, blockRefusal_of_allowed hallowed, hwrite]

/-- Settles O48: the checks of a transfer, a swap and a block in their order; no byte access is misaligned, since every
number is a multiple of 1, and no block access, since the addresses of a block are aligned. -/
theorem accessFaults : Obligations.AccessFaults := by
  unfold Obligations.AccessFaults
  refine ⟨fun i f s hf h hc hpc => ?transfer, fun c rd rm rn s hc hpc hm hd => ?swap, fun i s a h => ?byte,
    fun mk hmk c am w rn list s a n h => ?block, fun c am w rn list s j f hc hallowed hfault => ?unmappedBlock⟩
  case transfer =>
    rw [exec_transfer i f s hf hc]
    exact ⟨fun hmis => runRow_fault h hpc (checkAccess_misaligned hmis),
      fun hal haborts hmaps => runRow_fault h hpc (checkAccess_unmapped hal haborts hmaps)⟩
  case swap =>
    refine ⟨fun hmis => ?_, fun x hx hal haborts hmaps => ?_⟩
    · rw [exec_swp, conditional_passes c s _ hc]
      exact swap_fault hpc hm hd (checkAccess_misaligned hmis)
    · have hcheck := checkAccess_unmapped hal haborts hmaps
      simp only [List.mem_cons, List.not_mem_nil, or_false] at hx
      rcases hx with rfl | rfl
      · exact ((exec_swp ..).trans (conditional_passes c s _ hc)).trans (swap_fault hpc hm hd hcheck)
      · exact ((exec_swpb ..).trans (conditional_passes c s _ hc)).trans (swap_fault hpc hm hd hcheck)
  case byte =>
    have hnone := onFault_exec (P := fun f => ∀ a, f ≠ .misaligned a 1)
      (fun n a => ⟨fun b e => (by cases e), fun hmis b e => (by cases e; exact hmis (Nat.mod_one _))⟩) i s
    exact hnone _ h a rfl
  case block =>
    have hrun := fun b => onFault_blockRun (P := fun f => ∀ a n, f ≠ .misaligned a n) (fun a b n e => by cases e) b s
    simp only [List.mem_cons, List.not_mem_nil, or_false] at hmk
    rcases hmk with rfl | rfl | rfl | rfl | rfl
    · exact onFault_conditional (hrun _ (.loadMultiple am w rn list)) _ h a n rfl
    · exact onFault_conditional (hrun _ (.loadUser am w rn list)) _ h a n rfl
    · exact onFault_conditional (hrun _ (.loadReturn am w rn list)) _ h a n rfl
    · exact onFault_conditional (hrun _ (.storeMultiple am w rn list)) _ h a n rfl
    · exact onFault_conditional (hrun _ (.storeUser am w rn list)) _ h a n rfl
  case unmappedBlock =>
    subst hfault
    refine ⟨fun hread => ⟨fun hbase => ⟨?_, fun hspsr => ?_⟩, fun hspsr => ?_⟩,
      fun hwrite => ⟨fun hbase => ?_, fun hspsr => ?_⟩⟩
    · rw [exec_ldm_loadBlock hc hbase, loadBlock_fault hallowed hread]
    · rw [exec_ldmReturn_loadBlock hc hspsr hbase, loadBlock_fault hallowed hread]
    · rw [exec_ldmUser_loadBlock hc hspsr, loadBlock_fault hallowed hread]
      rfl
    · rw [exec_stm_storeBlock hc hbase, storeBlock_fault hallowed hwrite]
    · rw [exec_stmUser_storeBlock hc hspsr, storeBlock_fault hallowed hwrite]

end Sys2Proof.Proofs

/-! What a load of a block leaves in the registers and the PC (R280 to R284). -/

namespace Sys2Proof.Proofs

open Sys2Proof Sys2Proof.Machine

/-! ### The list of a block (R161) -/

theorem regsOf_nodup (list : BitVec 16) : (regsOf list).Nodup :=
  (regsOf_increasing list).imp fun {_ _} hlt heq => Nat.ne_of_lt hlt (congrArg BitVec.toNat heq)

theorem getLsbD_of_listed {list : BitVec 16} {k : Nat} {r : Reg} (h : listed list k r) :
    list.getLsbD r.toNat = true :=
  (mem_regsOf list r).1 (List.mem_of_getElem? h)

theorem lt_of_listed {list : BitVec 16} {k : Nat} {r : Reg} (h : listed list k r) : k < (regsOf list).length :=
  (List.getElem?_eq_some_iff.1 h).1

/-- R15 has the highest number, so that it is the last of its list (R161). -/
theorem listed_fifteen_last {list : BitVec 16} {k : Nat} (h : listed list k 15#4) : k + 1 = (regsOf list).length := by
  obtain ⟨hk, hget⟩ := List.getElem?_eq_some_iff.1 h
  refine Nat.le_antisymm hk (Nat.le_of_not_lt fun hlt => ?_)
  have hrise := List.pairwise_iff_getElem.1 (regsOf_increasing list) k (k + 1) hk hlt (Nat.lt_succ_self k)
  rw [hget] at hrise
  exact absurd (BitVec.isLt (regsOf list)[k + 1]) (Nat.not_lt.2 hrise)

theorem exists_phys (m : Mode) {r : Reg} (h : r ≠ 15#4) : ∃ p, phys m r = some p :=
  Option.ne_none_iff_exists'.1 fun e => h ((phys_eq_none_iff m r).1 e)

/-! ### The words of a block (R280) -/

/-- The words in memory at the addresses of a block. -/
def blockWords (am : BlockMode) (rn : Reg) (list : BitVec 16) (s : State) : List Word :=
  (blockAddresses am rn list s).map fun a => s.wordAt a.toNat

/-- The registers of a block with the words in memory for them. -/
def blockLoads (am : BlockMode) (rn : Reg) (list : BitVec 16) (s : State) : List (Reg × Word) :=
  (regsOf list).zip (blockWords am rn list s)

theorem length_blockWords (am : BlockMode) (rn : Reg) (list : BitVec 16) (s : State) :
    (blockWords am rn list s).length = (regsOf list).length := by
  rw [blockWords, List.length_map, length_blockAddresses]

theorem getElem?_blockLoads {am : BlockMode} {rn : Reg} {list : BitVec 16} {s : State} {k : Nat} {r : Reg}
    (h : listed list k r) :
    (blockLoads am rn list s)[k]? = some (r, s.wordAt (blockAddress am rn list s k).toNat) := by
  rw [blockLoads, List.getElem?_zip_eq_some, blockWords, List.getElem?_map,
    getElem?_blockAddresses (lt_of_listed h)]
  exact ⟨h, rfl⟩

theorem blockLoads_numbers (am : BlockMode) (rn : Reg) (list : BitVec 16) (s : State) :
    (blockLoads am rn list s).map Prod.fst = regsOf list :=
  List.map_fst_zip (length_blockWords am rn list s).ge

theorem number_of_blockLoads {am : BlockMode} {rn : Reg} {list : BitVec 16} {s : State} {x : Reg × Word}
    (h : x ∈ blockLoads am rn list s) : list.getLsbD x.1.toNat = true :=
  (mem_regsOf list x.1).1 (blockLoads_numbers am rn list s ▸ List.mem_map_of_mem h)

theorem getLast?_blockLoads {am : BlockMode} {rn : Reg} {list : BitVec 16} {s : State} {k : Nat}
    (h : listed list k 15#4) :
    (blockLoads am rn list s).getLast? = some (15#4, s.wordAt (blockAddress am rn list s k).toNat) := by
  have hlength : (blockLoads am rn list s).length = k + 1 := by
    rw [listed_fifteen_last h, ← List.length_map (f := Prod.fst), blockLoads_numbers]
  rw [List.getLast?_eq_getElem?, hlength]
  exact getElem?_blockLoads h

/-- A granted load of a block ends with the words in memory. -/
theorem loadBlock_granted {am : BlockMode} {w : Bool} {rn : Reg} {list : BitVec 16} {m : Mode} {s : State}
    {finish : List (Reg × Word) → State → Out} (hallowed : blockAllowed am rn list s)
    (h : blockGranted am rn list s .read) :
    loadBlock am w rn list m finish s =
      finish (blockLoads am rn list s) (s.writeBlockBase am w rn (regsOf list).length) := by
  have hgranted : ∀ a ∈ blockAddresses am rn list s, s.grants a 4 .read s.privilege := by
    intro a ha
    obtain ⟨k, hk, rfl⟩ := mem_blockAddresses.1 ha
    exact h k hk
  have hread : readBlock s (blockAddresses am rn list s) 0 = .ok (blockWords am rn list s) := by
    rw [readBlock_eq s _ 0 hgranted]
    exact congrArg _ (List.map_congr_left fun a _ => load_four s.mem a.toNat)
  simp only [loadBlock, blockRefusal_of_allowed hallowed, hread]
  rfl

/-! ### Writing the registers -/

theorem setRegIn_eq (s : State) (m : Mode) (r : Reg) (v : Word) :
    s.setRegIn m r v = { s with gprs := (s.setRegIn m r v).gprs, pc := (s.setRegIn m r v).pc } := by
  unfold State.setRegIn
  split
  · rfl
  · rfl

/-- Register writes change the registers and the PC alone. -/
theorem loadRegs_eq (m : Mode) (l : List (Reg × Word)) (s : State) :
    loadRegs m l s = { s with gprs := (loadRegs m l s).gprs, pc := (loadRegs m l s).pc } := by
  induction l generalizing s with
  | nil => rfl
  | cons x rest ih =>
    obtain ⟨r, v⟩ := x
    rw [loadRegs]
    refine (ih _).trans ?_
    rw [setRegIn_eq s m r _]

theorem writeBlockBase_eq (s : State) (am : BlockMode) (w : Bool) (rn : Reg) (n : Nat) :
    s.writeBlockBase am w rn n =
      { s with gprs := (s.writeBlockBase am w rn n).gprs, pc := (s.writeBlockBase am w rn n).pc } := by
  unfold State.writeBlockBase
  split
  · exact setRegIn_eq s _ rn _
  · rfl

/-- R15 receives its word with bits 1..0 cleared (R281). -/
theorem loadRegs_pc_of_mem (m : Mode) (l : List (Reg × Word)) (s : State) (hn : (l.map Prod.fst).Nodup) {v : Word}
    (hm : (15#4, v) ∈ l) : (loadRegs m l s).pc = v &&& 0xFFFFFFFC#32 := by
  induction l generalizing s with
  | nil => cases hm
  | cons x rest ih =>
    obtain ⟨r, u⟩ := x
    rw [List.map_cons, List.nodup_cons] at hn
    rw [loadRegs]
    rcases List.mem_cons.1 hm with he | hm
    · obtain ⟨rfl, rfl⟩ := Prod.mk.inj he
      rw [loadRegs_pc _ _ _ fun y hy e => hn.1 (List.mem_map.2 ⟨y, hy, e⟩), State.setRegIn_fifteen, if_pos rfl]
    · exact ih _ hn.2 hm

/-- What a block leaves in the registers of the bank it loads and in its base; every other register is as before. -/
structure Loaded (m : Mode) (am : BlockMode) (w : Bool) (rn : Reg) (list : BitVec 16) (s t : State) : Prop where
  words : ∀ k r p, listed list k r → phys m r = some p → t.gpr p = s.wordAt (blockAddress am rn list s k).toNat
  base : w = true → ∀ p, phys s.cpsr.mode rn = some p → (∀ r, phys m r = some p → list.getLsbD r.toNat = false) →
    t.gpr p = blockBase am (s.reg rn) (regsOf list).length
  rest : ∀ p, (∀ r, phys m r = some p → list.getLsbD r.toNat = false) → (w = true → phys s.cpsr.mode rn ≠ some p) →
    t.gpr p = s.gpr p

/-- The register writes of a block, R15's among them or not. -/
theorem loaded_loadRegs {m : Mode} {am : BlockMode} {w : Bool} {rn : Reg} {list : BitVec 16} {s : State}
    {l : List (Reg × Word)} (hsub : l.Sublist (blockLoads am rn list s))
    (hall : ∀ x ∈ blockLoads am rn list s, x.1 ≠ 15#4 → x ∈ l) :
    Loaded m am w rn list s (loadRegs m l (s.writeBlockBase am w rn (regsOf list).length)) := by
  have hnodup : (l.map Prod.fst).Nodup :=
    (blockLoads_numbers am rn list s ▸ regsOf_nodup list : ((blockLoads am rn list s).map Prod.fst).Nodup).sublist
      (hsub.map _)
  have hnot : ∀ {p : PhysReg}, (∀ r, phys m r = some p → list.getLsbD r.toNat = false) → ∀ x ∈ l,
      phys m x.1 ≠ some p := fun hp x hx hphys =>
    Bool.false_ne_true ((hp x.1 hphys).symm.trans (number_of_blockLoads (hsub.subset hx)))
  refine ⟨fun k r p hk hp => ?words, fun hw p hrn hp => ?base, fun p hp hbase => ?rest⟩
  case words =>
    have hr : r ≠ 15#4 := fun e => by
      rw [(phys_eq_none_iff m r).2 e] at hp
      cases hp
    exact gpr_loadRegs_of_mem m l _ hnodup r _ (hall _ (List.mem_of_getElem? (getElem?_blockLoads hk)) hr) p hp
  case base => rw [gpr_loadRegs_of_not_mem m l _ p (hnot hp), State.gpr_writeBlockBase, if_pos ⟨hw, hrn⟩]
  case rest => rw [gpr_loadRegs_of_not_mem m l _ p (hnot hp), gpr_writeBlockBase_of_not_mem hbase]

theorem loaded_blockLoads (m : Mode) (am : BlockMode) (w : Bool) (rn : Reg) (list : BitVec 16) (s : State) :
    Loaded m am w rn list s
      (loadRegs m (blockLoads am rn list s) (s.writeBlockBase am w rn (regsOf list).length)) :=
  loaded_loadRegs (List.Sublist.refl _) fun _ hx _ => hx

/-- A base outside the list holds what was written in every state with those registers. -/
theorem Loaded.regIn_base {am : BlockMode} {w : Bool} {rn : Reg} {list : BitVec 16} {s t u : State}
    (h : Loaded s.cpsr.mode am w rn list s t) (hw : w = true) (hrn : rn ≠ 15#4)
    (hout : list.getLsbD rn.toNat = false) (hregs : u.gprs = t.gprs) :
    u.regIn s.cpsr.mode rn = blockBase am (s.reg rn) (regsOf list).length := by
  obtain ⟨p, hp⟩ := exists_phys s.cpsr.mode hrn
  rw [State.regIn_eq_gpr u _ rn p hp, State.gpr_congr hregs]
  exact h.base hw p hp fun r hr => phys_injective _ r rn p hr hp ▸ hout

theorem Loaded.regIn_listed {m : Mode} {am : BlockMode} {w : Bool} {rn : Reg} {list : BitVec 16} {s t u : State}
    (h : Loaded m am w rn list s t) {k : Nat} {r : Reg} (hk : listed list k r) (hr : r ≠ 15#4)
    (hregs : u.gprs = t.gprs) : u.regIn m r = s.wordAt (blockAddress am rn list s k).toNat := by
  obtain ⟨p, hp⟩ := exists_phys m hr
  rw [State.regIn_eq_gpr u m r p hp, State.gpr_congr hregs]
  exact h.words k r p hk hp

/-- The written state of a block differs from the old one in the registers and the PC. -/
theorem loadedBlock_eq (m : Mode) (l : List (Reg × Word)) (s : State) (am : BlockMode) (w : Bool) (rn : Reg) (n : Nat) :
    loadRegs m l (s.writeBlockBase am w rn n) =
      { s with
        gprs := (loadRegs m l (s.writeBlockBase am w rn n)).gprs
        pc := (loadRegs m l (s.writeBlockBase am w rn n)).pc } := by
  refine (loadRegs_eq m l _).trans ?_
  rw [writeBlockBase_eq s am w rn n]

/-- Without R15 in the list the PC is left. -/
theorem loadRegs_blockLoads_pc {am : BlockMode} {rn : Reg} {list : BitVec 16} (m : Mode) (s t : State)
    (h : list.getLsbD 15 = false) : (loadRegs m (blockLoads am rn list s) t).pc = t.pc :=
  loadRegs_pc m _ t fun x hx e => by
    have hin := number_of_blockLoads hx
    rw [e] at hin
    exact Bool.false_ne_true (h.symm.trans hin)

/-- The end of `ldm`: it goes on at the word loaded to R15, or past itself (R281). -/
theorem finishLoad_eq {list : BitVec 16} {l : List (Reg × Word)} {s : State}
    (h : list.getLsbD 15 = false → (loadRegs s.cpsr.mode l s).pc ≠ 0xFFFFFFFC#32) :
    finishLoad list l s = .next { loadRegs s.cpsr.mode l s with
      pc := if list.getLsbD 15 then (loadRegs s.cpsr.mode l s).pc else (loadRegs s.cpsr.mode l s).pc + 4#32 } := by
  unfold finishLoad
  split
  · rfl
  next h15 => exact advance_eq _ (h (Bool.eq_false_iff.2 h15))

/-- Settles O52: the words read are written to registers with different numbers, R15 last. -/
theorem loadMultipleResults : Obligations.LoadMultipleResults := by
  unfold Obligations.LoadMultipleResults
  intro c am w rn list s hc hallowed hgranted hbase htop
  have hrn : rn ≠ 15#4 := hallowed.2.1
  have hloaded := loaded_blockLoads s.cpsr.mode am w rn list s
  have heq := loadedBlock_eq s.cpsr.mode (blockLoads am rn list s) s am w rn (regsOf list).length
  have hpc15 : ∀ k, listed list k 15#4 →
      (loadRegs s.cpsr.mode (blockLoads am rn list s) (s.writeBlockBase am w rn (regsOf list).length)).pc =
        s.wordAt (blockAddress am rn list s k).toNat &&& 0xFFFFFFFC#32 := fun k hk =>
    loadRegs_pc_of_mem _ _ _ (blockLoads_numbers am rn list s ▸ regsOf_nodup list)
      (List.mem_of_getElem? (getElem?_blockLoads hk))
  have hpc : list.getLsbD 15 = false →
      (loadRegs s.cpsr.mode (blockLoads am rn list s) (s.writeBlockBase am w rn (regsOf list).length)).pc = s.pc :=
    fun h15 => (loadRegs_blockLoads_pc _ s _ h15).trans (State.writeBlockBase_pc s am w rn _ hrn)
  have hexec : exec (.ldm c am w rn list) s = .next _ :=
    (exec_ldm_loadBlock hc hbase).trans ((loadBlock_granted hallowed hgranted).trans
      (finishLoad_eq (by
        rw [State.writeBlockBase_cpsr]
        exact fun h15 => ne_of_eq_of_ne (hpc h15) (htop h15))))
  rw [State.writeBlockBase_cpsr] at hexec
  generalize loadRegs s.cpsr.mode (blockLoads am rn list s) (s.writeBlockBase am w rn (regsOf list).length) = u at *
  have hmode : u.cpsr = s.cpsr := by rw [heq]
  refine ⟨_, hexec, fun k r hk hr => ?words, fun k hk => ?fifteen, fun h15 => ?onward, fun hw => ?base, hloaded.rest,
    congrArg (fun u => { u with pc := if list.getLsbD 15 then u.pc else u.pc + 4#32 }) heq⟩
  case words =>
    show State.regIn _ u.cpsr.mode r = _
    rw [hmode]
    exact hloaded.regIn_listed hk hr rfl
  case fifteen => exact (if_pos (getLsbD_of_listed hk)).trans (hpc15 k hk)
  case onward =>
    show (if list.getLsbD 15 then u.pc else u.pc + 4#32) = _
    rw [h15, if_neg Bool.false_ne_true, hpc h15]
  case base =>
    show State.regIn _ u.cpsr.mode rn = _
    rw [hmode]
    exact hloaded.regIn_base hw hrn (hbase hw) rfl

/-- Settles O53: the same writes in the User bank, without a base write. -/
theorem loadUserRegistersResults : Obligations.LoadUserRegistersResults := by
  unfold Obligations.LoadUserRegistersResults
  intro c am rn list s hruns hspsr h15 hallowed hgranted
  obtain ⟨hc, htop⟩ := hruns
  have hloaded := loaded_blockLoads .usr am false rn list s
  have hpc : (loadRegs .usr (blockLoads am rn list s) s).pc = s.pc := loadRegs_blockLoads_pc .usr s s h15
  have heq := loadRegs_eq .usr (blockLoads am rn list s) s
  have hexec : exec (.ldmUser c am false rn list) s =
      .next { (loadRegs .usr (blockLoads am rn list s) s).onward with afterUserLdm := true } := by
    rw [exec_ldmUser_loadBlock hc hspsr, loadBlock_granted hallowed hgranted]
    exact congrArg markUserLdm (advance_eq _ (ne_of_eq_of_ne hpc htop))
  have hbelow : ∀ k r, listed list k r → r ≠ 15#4 := fun k r hk e => by
    rw [e] at hk
    exact Bool.false_ne_true (h15.symm.trans (getLsbD_of_listed hk))
  refine ⟨_, hexec, fun k r hk => hloaded.regIn_listed hk (hbelow k r hk) rfl,
    fun p hp => hloaded.rest p hp fun hw => (by cases hw), ?_⟩
  · have hstate := congrArg (fun u : State => { u.onward with afterUserLdm := true }) heq
    rw [hpc] at hstate
    exact hstate

/-- Settles O54: the registers below R15 are written before the CPSR, the PC after it. -/
theorem loadReturnResults : Obligations.LoadReturnResults := by
  unfold Obligations.LoadReturnResults
  intro c am w rn list s p new hc hp hnew h15 hallowed hgranted hbase
  have hrn : rn ≠ 15#4 := hallowed.2.1
  have hloaded := loaded_loadRegs (m := s.cpsr.mode) (w := w) (rn := rn) (am := am) (list := list) (s := s)
    List.filter_sublist fun x hx hne => List.mem_filter.2 ⟨hx, decide_eq_true hne⟩
  have heq := loadedBlock_eq s.cpsr.mode ((blockLoads am rn list s).filter fun x => decide (x.1 ≠ 15#4)) s am w rn
    (regsOf list).length
  have hspsr : s.cpsr.mode.hasSpsr = true := by rw [← State.spsr?_isSome s, hp, Option.isSome_some]
  obtain ⟨k, hk⟩ : ∃ k, listed list k 15#4 := List.mem_iff_getElem?.1 ((mem_regsOf list 15#4).2 h15)
  have hexec : exec (.ldmReturn c am w rn list) s = .next { loadRegs s.cpsr.mode
      ((blockLoads am rn list s).filter fun x => decide (x.1 ≠ 15#4))
        (s.writeBlockBase am w rn (regsOf list).length) with
      cpsr := new
      pc := s.wordAt (blockAddress am rn list s k).toNat &&& (if new.t then 0xFFFFFFFE#32 else 0xFFFFFFFC#32) } := by
    rw [exec_ldmReturn_loadBlock hc hspsr hbase, loadBlock_granted hallowed hgranted, finishLoadReturn,
      State.writeBlockBase_cpsr, returnCpsr_eq _ p new (by rw [heq]; exact hp) hnew]
    simp only [getLast?_blockLoads hk]
  generalize loadRegs s.cpsr.mode ((blockLoads am rn list s).filter fun x => decide (x.1 ≠ 15#4))
    (s.writeBlockBase am w rn (regsOf list).length) = u at *
  have hstate := congrArg (fun u : State => { u with
    cpsr := new
    pc := s.wordAt (blockAddress am rn list s k).toNat &&& (if new.t then 0xFFFFFFFE#32 else 0xFFFFFFFC#32) }) heq
  refine ⟨_, hexec, fun i r hi hr => hloaded.regIn_listed hi hr rfl, fun i hi => ?_,
    fun hw => hloaded.regIn_base hw hrn (hbase hw) rfl, hloaded.rest, hstate⟩
  · have hik : i = k := Nat.succ_injective ((listed_fifteen_last hi).trans (listed_fifteen_last hk).symm)
    rw [hik]

/-! ### The refusals of block transfers (R31, R77, R162, R283, R284, R286) -/

theorem blockRefusal_of_not_allowed {am : BlockMode} {rn : Reg} {list : BitVec 16} {s : State}
    (h : ¬blockAllowed am rn list s) : ∃ e, blockRefusal am rn list s = some e := by
  refine Option.ne_none_iff_exists'.1 fun hnone => h ?_
  obtain ⟨hlist, hrn, htop⟩ := blockRefusal_none hnone
  exact ⟨hlist, hrn, Nat.le_of_not_lt (of_decide_eq_false htop)⟩

theorem loadBlock_refused {am : BlockMode} {w : Bool} {rn : Reg} {list : BitVec 16} {m : Mode} {s : State} {e : Refusal}
    {finish : List (Reg × Word) → State → Out} (h : blockRefusal am rn list s = some e) :
    loadBlock am w rn list m finish s = .refused e := by
  simp only [loadBlock, h]

theorem storeBlock_refused {am : BlockMode} {w : Bool} {rn : Reg} {list : BitVec 16} {m : Mode} {s : State} {e : Refusal}
    (h : blockRefusal am rn list s = some e) : storeBlock am w rn list m s = .refused e := by
  simp only [storeBlock, h]

theorem userBankRefusal_noSpsr {s : State} (w : Bool) (h : s.cpsr.mode.hasSpsr = false) :
    userBankRefusal w s = some .userBankMode := by
  rw [userBankRefusal, h]
  rfl

theorem userBankRefusal_writeBack {s : State} (h : s.cpsr.mode.hasSpsr = true) :
    userBankRefusal true s = some .userBankWriteBack := by
  rw [userBankRefusal, h]
  rfl

/-- Settles O56: each refusal where its check stands, before any access. -/
theorem blockStops : Obligations.BlockStops := by
  unfold Obligations.BlockStops
  intro c am w rn list s hc
  refine ⟨fun hnot mk hmk => ?notAllowed, fun hw hin => ?baseListed, fun hmode => ?noBank, fun hspsr hw => ?writeBack,
    fun p hp hillegal hallowed hgranted hbase => ?illegalMode⟩
  case notAllowed =>
    obtain ⟨e, he⟩ := blockRefusal_of_not_allowed hnot
    simp only [List.mem_cons, List.not_mem_nil, or_false] at hmk
    rcases hmk with rfl | rfl | rfl | rfl | rfl
    · rw [exec_ldm, conditional_passes c s _ hc]
      split
      · exact ⟨_, rfl⟩
      · exact ⟨e, loadBlock_refused he⟩
    · rw [exec_ldmUser, conditional_passes c s _ hc]
      split
      · exact ⟨_, rfl⟩
      · exact ⟨e, congrArg markUserLdm (loadBlock_refused he)⟩
    · rw [exec_ldmReturn, conditional_passes c s _ hc]
      split
      · exact ⟨_, rfl⟩
      · split
        · exact ⟨_, rfl⟩
        · exact ⟨e, loadBlock_refused he⟩
    · rw [exec_stm, conditional_passes c s _ hc]
      split
      · exact ⟨_, rfl⟩
      · exact ⟨e, storeBlock_refused he⟩
    · rw [exec_stmUser, conditional_passes c s _ hc]
      split
      · exact ⟨_, rfl⟩
      · exact ⟨e, storeBlock_refused he⟩
  case baseListed =>
    have hload : loadBaseRefusal w rn list = some .baseInRegisterList := by rw [loadBaseRefusal, hw, hin]; rfl
    refine ⟨?_, fun hspsr => ?_, fun hlow => ?_⟩
    · rw [exec_ldm, conditional_passes c s _ hc, hload]
    · rw [exec_ldmReturn, conditional_passes c s _ hc, hspsr, hload]
      rfl
    · have hhead : (regsOf list).head? ≠ some rn := fun h => hlow (List.head?_eq_getElem?.symm.trans h)
      have hstore : storeBaseRefusal w rn list = some .baseInRegisterList := by
        rw [storeBaseRefusal, hw, hin, decide_eq_true hhead]
        rfl
      rw [exec_stm, conditional_passes c s _ hc, hstore]
  case noBank =>
    have hspsr : s.cpsr.mode.hasSpsr = false := by
      rcases hmode with h | h
      · rw [h]; rfl
      · rw [h]; rfl
    rw [exec_ldmUser, exec_stmUser, exec_ldmReturn, conditional_passes c s _ hc, conditional_passes c s _ hc,
      conditional_passes c s _ hc, userBankRefusal_noSpsr w hspsr, hspsr]
    exact ⟨rfl, rfl, rfl⟩
  case writeBack =>
    subst hw
    rw [exec_ldmUser, exec_stmUser, conditional_passes c s _ hc, conditional_passes c s _ hc,
      userBankRefusal_writeBack hspsr]
    exact ⟨rfl, rfl⟩
  case illegalMode =>
    have hspsr : s.cpsr.mode.hasSpsr = true := by rw [← State.spsr?_isSome s, hp, Option.isSome_some]
    have heq := loadedBlock_eq s.cpsr.mode ((blockLoads am rn list s).filter fun x => decide (x.1 ≠ 15#4)) s am w rn
      (regsOf list).length
    rw [exec_ldmReturn_loadBlock hc hspsr hbase, loadBlock_granted hallowed hgranted, finishLoadReturn,
      State.writeBlockBase_cpsr, returnCpsr_illegalMode _ p (by rw [heq]; exact hp) hillegal]

end Sys2Proof.Proofs

/-! What a store of a block leaves in memory, and what an aborted block transfer may have done (R280 to R287). -/

namespace Sys2Proof.Proofs

open Sys2Proof Sys2Proof.Machine

/-! ### Stored words (R62, R65) -/

theorem wordAt_congr {s t : State} {a : Nat} (h : ∀ x, a ≤ x → x < a + 4 → t.byteAt x = s.byteAt x) :
    t.wordAt a = s.wordAt a := by
  have hbyte : ∀ k, k < 4 → Memory.byte t.mem (a + k) = Memory.byte s.mem (a + k) := fun k hk =>
    h (a + k) (by omega) (by omega)
  have hzero : Memory.byte t.mem a = Memory.byte s.mem a := hbyte 0 (by omega)
  rw [State.wordAt, State.wordAt, Memory.word, Memory.word, hzero, hbyte 1 (by omega), hbyte 2 (by omega),
    hbyte 3 (by omega)]

/-- The word at the address of a stored word. -/
theorem wordAt_stored {s : State} (a v : Word) (h : Memory.wf s.mem = true) :
    (s.stored a 4 v).wordAt a.toNat = v := by
  have hbyte : ∀ k, k < 4 → Memory.byte (s.stored a 4 v).mem (a.toNat + k) = v.extractLsb' (8 * k) 8 := fun k hk =>
    byteAt_stored h hk
  have hzero : Memory.byte (s.stored a 4 v).mem a.toNat = v.extractLsb' 0 8 := hbyte 0 (by omega)
  rw [State.wordAt, Memory.word, hzero, hbyte 1 (by omega), hbyte 2 (by omega), hbyte 3 (by omega)]
  rw [BitVec.extractLsb'_append_extractLsb'_eq_extractLsb' (rfl : 8 * 3 = 8 * 2 + 8),
    BitVec.extractLsb'_append_extractLsb'_eq_extractLsb' (rfl : 8 * 2 = 8 * 1 + 8),
    BitVec.extractLsb'_append_extractLsb'_eq_extractLsb' (rfl : 8 * 1 = 0 + 8)]
  exact BitVec.extractLsb'_eq_self

/-- Words of which each ends before the next begins. -/
def Rising (l : List (Word × Word)) : Prop :=
  l.Pairwise fun x y => x.1.toNat + 4 ≤ y.1.toNat

theorem wordAt_stored_of_below {s : State} {a v b : Word} (h : Memory.wf s.mem = true)
    (hab : a.toNat + 4 ≤ b.toNat) : (s.stored a 4 v).wordAt b.toNat = s.wordAt b.toNat :=
  wordAt_congr fun _ hx _ => Memory.byte_store_outside _ _ _ _ _ h (.inr (hab.trans hx))

/-- Rising stores leave each word at its address. -/
theorem wordAt_storedAll {l : List (Word × Word)} {s : State} (hwf : Memory.wf s.mem = true) (hl : Rising l)
    {a v : Word} (hmem : (a, v) ∈ l) : (s.storedAll l).wordAt a.toNat = v := by
  induction l generalizing s with
  | nil => cases hmem
  | cons y rest ih =>
    obtain ⟨b, u⟩ := y
    obtain ⟨hfirst, hrest⟩ := List.pairwise_cons.1 hl
    have hwfStored : Memory.wf (s.stored b 4 u).mem = true := Memory.wf_store _ _ _ _ hwf
    rw [State.storedAll]
    rcases List.mem_cons.1 hmem with he | hmem
    · obtain ⟨rfl, rfl⟩ := Prod.mk.inj he
      refine Eq.trans (wordAt_congr fun x hx hlt => byte_storedAll _ rest x hwfStored ?_) (wordAt_stored a v hwf)
      rintro ⟨y, hy, hle, -⟩
      exact absurd ((hfirst y hy).trans hle) (Nat.not_le.2 hlt)
    · exact ih hwfStored hrest hmem

/-! ### The words of a block (R161) -/

/-- A block that does not cross the top of memory has its words one after another (R77, R161). -/
theorem toNat_blockAddress {am : BlockMode} {rn : Reg} {list : BitVec 16} {s : State} {k : Nat}
    (h : blockAllowed am rn list s) (hk : k < (regsOf list).length) :
    (blockAddress am rn list s k).toNat = (blockFirst am (s.reg rn) (regsOf list).length).toNat + 4 * k := by
  obtain ⟨-, -, htop⟩ := h
  rw [blockAddress, BitVec.toNat_add, BitVec.toNat_ofNat]
  omega

theorem blockStores_rising {am : BlockMode} {rn : Reg} {list : BitVec 16} {m : Mode} {s : State}
    (h : blockAllowed am rn list s) : Rising (blockStores am rn list m s) := by
  have hfirst : ∀ i (hi : i < (blockStores am rn list m s).length), ((blockStores am rn list m s)[i]).1.toNat =
      (blockFirst am (s.reg rn) (regsOf list).length).toNat + 4 * i := by
    intro i hi
    obtain ⟨r, hr, hget⟩ := getElem?_blockStores_iff.1 (List.getElem?_eq_getElem hi)
    rw [hget]
    exact toNat_blockAddress h (lt_of_listed hr)
  refine List.pairwise_iff_getElem.2 fun i j hi hj hij => ?_
  rw [hfirst i hi, hfirst j hj]
  omega

theorem mem_blockStores_iff {am : BlockMode} {rn : Reg} {list : BitVec 16} {m : Mode} {s : State} {x : Word × Word} :
    x ∈ blockStores am rn list m s ↔ ∃ k r, listed list k r ∧ x = (blockAddress am rn list s k, s.storedReg m r) := by
  rw [List.mem_iff_getElem?]
  exact exists_congr fun _ => getElem?_blockStores_iff

/-- The bytes of a block are those its stores reach. -/
theorem inBlock_iff {am : BlockMode} {rn : Reg} {list : BitVec 16} {m : Mode} {s : State} {x : Nat} :
    inBlock am rn list s x ↔ ∃ y ∈ blockStores am rn list m s, y.1.toNat ≤ x ∧ x < y.1.toNat + 4 := by
  constructor
  · rintro ⟨k, hk, hx⟩
    obtain ⟨r, hr⟩ := exists_listed hk
    exact ⟨_, mem_blockStores_iff.2 ⟨k, r, hr, rfl⟩, hx⟩
  · rintro ⟨y, hy, hx⟩
    obtain ⟨k, r, hr, rfl⟩ := mem_blockStores_iff.1 hy
    exact ⟨k, lt_of_listed hr, hx⟩

/-! ### A store of a block (R285, R286) -/

theorem writeBlockBase_stored (s : State) (am : BlockMode) (w : Bool) (rn : Reg) (n : Nat) (mem : List Host.Cell)
    (written : List Nat) :
    ({ s with mem := mem, written := written } : State).writeBlockBase am w rn n =
      { (if w then s.setReg rn (blockBase am (s.reg rn) n) else s) with mem := mem, written := written } := by
  cases w
  · rfl
  · show State.setRegIn _ s.cpsr.mode rn _ = _
    rw [if_pos rfl, State.setReg]
    unfold State.setRegIn
    split
    · rfl
    · rfl

theorem storeBlock_granted {am : BlockMode} {w : Bool} {rn : Reg} {list : BitVec 16} {m : Mode} {s : State}
    (htop : s.pc ≠ 0xFFFFFFFC#32) (hallowed : blockAllowed am rn list s) (h : blockGranted am rn list s .write) :
    storeBlock am w rn list m s = .next (State.onward
      ((s.storedAll (blockStores am rn list m s)).writeBlockBase am w rn (regsOf list).length)) := by
  have hgranted : ∀ x ∈ blockStores am rn list m s, s.grants x.1 4 .write s.privilege := by
    intro x hx
    obtain ⟨k, r, hr, rfl⟩ := mem_blockStores_iff.1 hx
    exact h k (lt_of_listed hr)
  have hpc : ((s.storedAll (blockStores am rn list m s)).writeBlockBase am w rn (regsOf list).length).pc = s.pc := by
    rw [State.writeBlockBase_pc _ _ _ _ _ hallowed.2.1, storedAll_eq]
  simp only [storeBlock, blockRefusal_of_allowed hallowed, writeBlock_eq s _ 0 hgranted]
  exact advance_eq _ (ne_of_eq_of_ne hpc htop)

/-- What a store of a block leaves in memory: the values at their addresses, R15's plus 8 or plus 12, and nothing outside the
block. -/
structure BlockStored (m : Mode) (am : BlockMode) (rn : Reg) (list : BitVec 16) (s t : State) : Prop where
  words : ∀ k r, listed list k r → r ≠ 15#4 → t.wordAt (blockAddress am rn list s k).toNat = s.regIn m r
  fifteen : ∀ k, listed list k 15#4 → t.wordAt (blockAddress am rn list s k).toNat = s.pc + 8#32 ∨
    t.wordAt (blockAddress am rn list s k).toNat = s.pc + 12#32
  outside : StoredInBlock am rn list s t

theorem storedPc_eq (s : State) : s.storedPc = s.pc + 8#32 ∨ s.storedPc = s.pc + 12#32 := by
  unfold State.storedPc
  split
  · exact .inr rfl
  · exact .inl rfl

theorem blockStored {m : Mode} {am : BlockMode} {rn : Reg} {list : BitVec 16} {s t : State}
    (hallowed : blockAllowed am rn list s) (hwf : Memory.wf s.mem = true)
    (hmem : t.mem = (s.storedAll (blockStores am rn list m s)).mem)
    (hwritten : t.written = (s.storedAll (blockStores am rn list m s)).written) : BlockStored m am rn list s t := by
  have hword : ∀ k r, listed list k r → t.wordAt (blockAddress am rn list s k).toNat = s.storedReg m r := by
    intro k r hr
    have hmemory : t.wordAt (blockAddress am rn list s k).toNat =
        (s.storedAll (blockStores am rn list m s)).wordAt (blockAddress am rn list s k).toNat :=
      congrArg (fun mem => Memory.word mem _) hmem
    have hx : (blockAddress am rn list s k, s.storedReg m r) ∈ blockStores am rn list m s :=
      mem_blockStores_iff.2 ⟨k, r, hr, rfl⟩
    exact hmemory.trans (wordAt_storedAll hwf (blockStores_rising hallowed) hx)
  refine ⟨fun k r hk hr => ?words, fun k hk => ?fifteen, fun x => ⟨fun hx => ?byte, ?written⟩⟩
  case words => rw [hword k r hk, State.storedReg, if_neg hr]
  case fifteen =>
    rw [hword k _ hk, State.storedReg, if_pos rfl]
    exact storedPc_eq s
  case byte =>
    rw [inBlock_iff (m := m)] at hx
    rw [State.byteAt, hmem]
    exact byte_storedAll s _ x hwf hx
  case written =>
    rw [hwritten, inBlock_iff (m := m)]
    exact mem_written_storedAll s _ x

/-- Settles O55: the words of the block rise, so that each holds what was stored to it. -/
theorem storeMultipleResults : Obligations.StoreMultipleResults := by
  unfold Obligations.StoreMultipleResults
  intro c am w rn list s hruns hallowed hgranted hwf
  obtain ⟨hc, htop⟩ := hruns
  refine ⟨fun hbase => ?current, fun hspsr => ?user⟩
  case current =>
    have hstored := blockStored (m := s.cpsr.mode)
      (t := ((s.storedAll (blockStores am rn list s.cpsr.mode s)).writeBlockBase am w rn (regsOf list).length).onward)
      hallowed hwf (State.writeBlockBase_mem ..) (State.writeBlockBase_written ..)
    refine ⟨_, (exec_stm_storeBlock hc hbase).trans (storeBlock_granted htop hallowed hgranted), hstored.words,
      hstored.fifteen, hstored.outside, ?_⟩
    have hpc : (if w then s.setReg rn (blockBase am (s.reg rn) (regsOf list).length) else s).pc = s.pc :=
      State.writeBlockBase_pc s am w rn _ hallowed.2.1
    rw [storedAll_eq, writeBlockBase_stored, State.onward]
    simp only [hpc]
  case user =>
    have hstored := blockStored (m := .usr) (t := (s.storedAll (blockStores am rn list .usr s)).onward)
      hallowed hwf rfl rfl
    refine ⟨_, (exec_stmUser_storeBlock hc hspsr).trans (storeBlock_granted htop hallowed hgranted), hstored.words,
      hstored.fifteen, hstored.outside, ?_⟩
    exact congrArg State.onward (storedAll_eq _ s)

end Sys2Proof.Proofs

/-! What a Data abort in a block transfer leaves (R287, R327). -/

namespace Sys2Proof.Proofs

open Sys2Proof Sys2Proof.Machine

/-! ### The base (R287) -/

theorem gpr_abortedBlockBase (s : State) (am : BlockMode) (w : Bool) (rn : Reg) (n : Nat) (p : PhysReg) :
    (s.abortedBlockBase am w rn n).gpr p =
      if phys s.cpsr.mode rn = some p ∧ w = true ∧ s.platform.abortModel = .baseUpdated then blockBase am (s.reg rn) n
      else s.gpr p := by
  unfold State.abortedBlockBase
  split
  next hmodel =>
    rw [State.gpr_writeBlockBase]
    exact if_congr ⟨fun h => ⟨h.2, h.1, hmodel⟩, fun h => ⟨h.2.1, h.1⟩⟩ rfl rfl
  next hmodel => rw [if_neg fun h => hmodel h.2.2]

/-! ### The registers an aborted load may have written (R287) -/

/-- The numbers and addresses of a block. -/
def blockSlots (am : BlockMode) (rn : Reg) (list : BitVec 16) (s : State) : List (Reg × Word) :=
  (regsOf list).zip (blockAddresses am rn list s)

theorem getElem?_blockSlots {am : BlockMode} {rn : Reg} {list : BitVec 16} {s : State} {k : Nat} {r : Reg}
    (h : listed list k r) : (blockSlots am rn list s)[k]? = some (r, blockAddress am rn list s k) := by
  rw [blockSlots, List.getElem?_zip_eq_some, getElem?_blockAddresses (lt_of_listed h)]
  exact ⟨h, rfl⟩

theorem blockSlots_numbers (am : BlockMode) (rn : Reg) (list : BitVec 16) (s : State) :
    (blockSlots am rn list s).map Prod.fst = regsOf list :=
  List.map_fst_zip (length_blockAddresses am rn list s).ge

/-- A listed register keeps its value or has the word read for it, and the aborting one keeps its own. -/
theorem gpr_abortedLoads_listed {old : State} {m : Mode} {rn : Reg} {j : Nat} {choice : BitVec 32}
    {l : List (Reg × Word)} {k i : Nat} {s : State} {r : Reg} {a : Word} {p : PhysReg}
    (hn : (l.map Prod.fst).Nodup) (hi : l[i]? = some (r, a)) (hp : phys m r = some p) :
    (abortedLoads old m rn j choice l k s).gpr p = s.gpr p ∨
      (k + i ≠ j ∧ (abortedLoads old m rn j choice l k s).gpr p = old.wordAt a.toNat) := by
  induction l generalizing k i s with
  | nil => cases hi
  | cons x rest ih =>
    obtain ⟨q, b⟩ := x
    rw [List.map_cons, List.nodup_cons] at hn
    obtain ⟨hq, hrest⟩ := hn
    rw [abortedLoads]
    cases i with
    | zero =>
      obtain ⟨rfl, rfl⟩ := Prod.mk.inj (Option.some.inj hi)
      have hout : ∀ x ∈ rest, phys m x.1 ≠ some p := fun x hx hxp =>
        hq (List.mem_map.2 ⟨x, hx, phys_injective m x.1 q p hxp hp⟩)
      rw [gpr_abortedLoads _ _ _ _ _ _ _ _ _ (.inl hout)]
      split
      · exact .inl rfl
      next hwritten =>
        split
        next v hread =>
          refine .inr ⟨fun e => hwritten (.inl e), ?_⟩
          rw [State.gpr_setRegIn, if_pos hp, ((readMem_ok_iff ..).1 hread).2, load_four]
          rfl
        · exact .inl rfl
        · exact .inl rfl
    | succ i =>
      have hr : r ∈ rest.map Prod.fst := List.mem_map.2 ⟨(r, a), List.mem_of_getElem? hi, rfl⟩
      have hne : phys m q ≠ some p := fun hqp => hq (phys_injective m q r p hqp hp ▸ hr)
      have hindex : k + 1 + i = k + (i + 1) := by omega
      have hkept : ∀ v, (s.setRegIn m q v).gpr p = s.gpr p := fun v => by rw [State.gpr_setRegIn, if_neg hne]
      split
      · exact hindex ▸ ih hrest hi
      · split
        · exact hkept _ ▸ hindex ▸ ih hrest hi
        · exact hindex ▸ ih hrest hi
        · exact hindex ▸ ih hrest hi

/-- The state in which an `ldm` takes its Data abort (R287). -/
def abortedLoad (m : Mode) (am : BlockMode) (w : Bool) (rn : Reg) (list : BitVec 16) (s : State) (j : Nat) : State :=
  (abortedLoads s m rn j s.drawn (blockSlots am rn list s) 0
    (s.abortedBlockBase am w rn (regsOf list).length)).afterDraw

theorem loadBlock_abort {m : Mode} {am : BlockMode} {w : Bool} {rn : Reg} {list : BitVec 16} {s : State} {j : Nat}
    {finish : List (Reg × Word) → State → Out} (hallowed : blockAllowed am rn list s)
    (h : blockAbortsAt am rn list s .read j) :
    loadBlock am w rn list m finish s =
      .next (enter .dataAbort (s.pc + 8#32) (abortedLoad m am w rn list s j)) := by
  obtain ⟨hj, hbefore, haborts⟩ := h
  have hread := (readBlock_of_checkAccess hj hbefore).2
    ((checkAccess_abort_iff ..).2 ⟨blockAddress_aligned am rn list s j, haborts⟩)
  have hnone := blockRefusal_of_allowed hallowed
  have hpc : (abortedLoad m am w rn list s j).pc = s.pc := abortedLoads_pc s m j hnone
  simp only [loadBlock, hnone, hread]
  exact congrArg (fun pc => Host.Outcome.next (enter .dataAbort (pc + 8#32) _)) hpc

/-- What an aborted load changes: its listed registers and its base. -/
structure LoadAborted (m : Mode) (am : BlockMode) (w : Bool) (rn : Reg) (list : BitVec 16) (s : State) (j : Nat)
    (u : State) : Prop where
  cpsr : u.cpsr = s.cpsr
  mem : u.mem = s.mem
  written : u.written = s.written
  spsrs : ∀ k, u.spsr? k = s.spsr? k
  base : ∀ p, phys s.cpsr.mode rn = some p → u.gpr p =
    if w = true ∧ s.platform.abortModel = .baseUpdated then blockBase am (s.reg rn) (regsOf list).length else s.gpr p
  words : ∀ p, phys s.cpsr.mode rn ≠ some p → ∀ k r, listed list k r → phys m r = some p →
    u.gpr p = s.gpr p ∨ (k ≠ j ∧ u.gpr p = s.wordAt (blockAddress am rn list s k).toNat)
  rest : ∀ p, phys s.cpsr.mode rn ≠ some p → (∀ r, phys m r = some p → list.getLsbD r.toNat = false) →
    u.gpr p = s.gpr p

theorem loadAborted_abortedLoad (m : Mode) (am : BlockMode) (w : Bool) (rn : Reg) (list : BitVec 16) (s : State)
    (j : Nat) : LoadAborted m am w rn list s j (abortedLoad m am w rn list s j) := by
  obtain ⟨-, hcpsr, hmem, hwritten, -, -, -, hspsr⟩ := abortedLoads_frame s m rn j s.drawn (blockSlots am rn list s) 0
    (s.abortedBlockBase am w rn (regsOf list).length)
  have hgpr : ∀ p, phys s.cpsr.mode rn ≠ some p →
      (s.abortedBlockBase am w rn (regsOf list).length).gpr p = s.gpr p := fun p hp => by
    rw [gpr_abortedBlockBase, if_neg fun h => hp h.1]
  refine ⟨hcpsr.trans (State.abortedBlockBase_cpsr ..), hmem.trans (State.abortedBlockBase_mem ..),
    hwritten.trans (State.abortedBlockBase_written ..), fun k => (hspsr k).trans (spsr?_abortedBlockBase ..),
    fun p hp => ?base, fun p hp k r hk hr => ?words, fun p hp hout => ?rest⟩
  case base =>
    rw [abortedLoad, State.gpr_afterDraw, gpr_abortedLoads _ _ _ _ _ _ _ _ _ (.inr hp), gpr_abortedBlockBase]
    exact if_congr (and_iff_right hp) rfl rfl
  case words =>
    have hvalue := gpr_abortedLoads_listed (old := s) (m := m) (rn := rn) (j := j) (choice := s.drawn) (k := 0)
      (s := s.abortedBlockBase am w rn (regsOf list).length)
      (blockSlots_numbers am rn list s ▸ regsOf_nodup list) (getElem?_blockSlots hk) hr
    rw [hgpr p hp, Nat.zero_add] at hvalue
    exact hvalue
  case rest =>
    have hslots : ∀ x ∈ blockSlots am rn list s, phys m x.1 ≠ some p := fun x hx hxp => by
      have hin : x.1 ∈ regsOf list := blockSlots_numbers am rn list s ▸ List.mem_map_of_mem hx
      exact Bool.false_ne_true ((hout x.1 hxp).symm.trans ((mem_regsOf list x.1).1 hin))
    rw [abortedLoad, State.gpr_afterDraw, gpr_abortedLoads _ _ _ _ _ _ _ _ _ (.inl hslots), hgpr p hp]

/-- Settles O57: the Data abort is entered from the state with the old or updated base and some of the registers loaded; a
User-bank `ldm` is remembered besides. -/
theorem loadBlockAborts : Obligations.LoadBlockAborts := by
  unfold Obligations.LoadBlockAborts
  intro c am w rn list s j m i hc hallowed haborts hi
  have hexec : ∃ mark, exec i s = .next
      { enter .dataAbort (s.pc + 8#32) (abortedLoad m am w rn list s j) with afterUserLdm := mark } := by
    rcases hi with ⟨rfl, rfl, hbase⟩ | ⟨rfl, rfl, rfl, hspsr⟩ | ⟨rfl, rfl, hspsr, hbase⟩
    · exact ⟨_, (exec_ldm_loadBlock hc hbase).trans (loadBlock_abort hallowed haborts)⟩
    · exact ⟨true, (exec_ldmUser_loadBlock hc hspsr).trans (congrArg markUserLdm (loadBlock_abort hallowed haborts))⟩
    · exact ⟨_, (exec_ldmReturn_loadBlock hc hspsr hbase).trans (loadBlock_abort hallowed haborts)⟩
  have hload := loadAborted_abortedLoad m am w rn list s j
  generalize abortedLoad m am w rn list s j = u at *
  obtain ⟨mark, hexec⟩ := hexec
  obtain ⟨hlink, hsaved, hcpsr, hpc, hgpr, hspsrs, hmem, hwritten, -⟩ := enter_entered .dataAbort (s.pc + 8#32) u
  rw [hload.cpsr] at hsaved hcpsr
  rw [show Exc.dataAbort.setsF = false from rfl, Bool.or_false] at hcpsr
  refine ⟨_, hexec, hpc, hlink, hcpsr, Option.some.inj hsaved, hmem.trans hload.mem, hwritten.trans hload.written,
    fun k hk => (hspsrs k hk).trans (hload.spsrs k), fun p hp => ⟨fun hrn => ?_, fun hrn =>
      ⟨fun k r hk hr => ?_, fun hout => ?_⟩⟩⟩
  · exact (hgpr p hp).trans (hload.base p hrn)
  · exact (hload.words p hrn k r hk hr).imp (hgpr p hp).trans fun ⟨hkj, hword⟩ => ⟨hkj, (hgpr p hp).trans hword⟩
  · exact (hgpr p hp).trans (hload.rest p hrn hout)

/-! ### The words an aborted store may have written (R287) -/

/-- A word of the block keeps its contents or has its value, and the aborting one keeps its own. -/
theorem wordAt_abortedStores {pr : Privilege} {j : Nat} {choice : BitVec 32} {l : List (Word × Word)} {k i : Nat}
    {s : State} {a v : Word} (hwf : Memory.wf s.mem = true) (hl : Rising l) (hi : l[i]? = some (a, v)) :
    (abortedStores pr j choice l k s).wordAt a.toNat = s.wordAt a.toNat ∨
      (k + i ≠ j ∧ (abortedStores pr j choice l k s).wordAt a.toNat = v) := by
  induction l generalizing k i s with
  | nil => cases hi
  | cons x rest ih =>
    obtain ⟨b, u⟩ := x
    obtain ⟨hfirst, hrest⟩ := List.pairwise_cons.1 hl
    have hwfStored : Memory.wf (s.stored b 4 u).mem = true := Memory.wf_store _ _ _ _ hwf
    rw [abortedStores]
    cases i with
    | zero =>
      obtain ⟨rfl, rfl⟩ := Prod.mk.inj (Option.some.inj hi)
      have hkept : ∀ t : State, Memory.wf t.mem = true →
          (abortedStores pr j choice rest (k + 1) t).wordAt b.toNat = t.wordAt b.toNat := fun t ht =>
        wordAt_congr fun x _ hlt => (keepsOutside_abortedStores (r := rest.map fun y => (y.1, 4)) pr j choice rest
          (k + 1) t (fun y hy => List.mem_map.2 ⟨y, hy, rfl⟩) ht x fun c n hcn => by
            obtain ⟨y, hy, he⟩ := List.mem_map.1 hcn
            obtain ⟨rfl, rfl⟩ := Prod.mk.inj he
            exact .inl (hlt.trans_le (hfirst y hy))).1
      split
      · exact .inl (hkept s hwf)
      next hwritten =>
        split
        next t ht =>
          obtain ⟨-, rfl⟩ := (writeMem_ok_iff ..).1 ht
          exact .inr ⟨fun e => hwritten (.inl e), (hkept _ hwfStored).trans (wordAt_stored b u hwf)⟩
        · exact .inl (hkept s hwf)
        · exact .inl (hkept s hwf)
    | succ i =>
      have hindex : k + 1 + i = k + (i + 1) := by omega
      have hbelow : (s.stored b 4 u).wordAt a.toNat = s.wordAt a.toNat :=
        wordAt_stored_of_below hwf (hfirst (a, v) (List.mem_of_getElem? hi))
      split
      · exact hindex ▸ ih hwf hrest hi
      · split
        next t ht =>
          obtain ⟨-, rfl⟩ := (writeMem_ok_iff ..).1 ht
          exact hbelow ▸ hindex ▸ ih hwfStored hrest hi
        · exact hindex ▸ ih hwf hrest hi
        · exact hindex ▸ ih hwf hrest hi

/-- The state in which an `stm` takes its Data abort (R287). -/
def abortedStore (m : Mode) (am : BlockMode) (w : Bool) (rn : Reg) (list : BitVec 16) (s : State) (j : Nat) : State :=
  (abortedStores s.privilege j s.drawn (blockStores am rn list m s) 0
    (s.abortedBlockBase am w rn (regsOf list).length)).afterDraw

/-- The state of an aborted store differs from that with the base in memory, the bytes stored to and the count of free
values. -/
theorem abortedStore_eq (m : Mode) (am : BlockMode) (w : Bool) (rn : Reg) (list : BitVec 16) (s : State) (j : Nat) :
    abortedStore m am w rn list s j = { s.abortedBlockBase am w rn (regsOf list).length with
      mem := (abortedStore m am w rn list s j).mem
      written := (abortedStore m am w rn list s j).written
      draws := (s.abortedBlockBase am w rn (regsOf list).length).draws + 1 } :=
  congrArg State.afterDraw (abortedStores_eq s.privilege j s.drawn (blockStores am rn list m s) 0 _)

theorem storeBlock_abort {m : Mode} {am : BlockMode} {w : Bool} {rn : Reg} {list : BitVec 16} {s : State} {j : Nat}
    (hallowed : blockAllowed am rn list s) (h : blockAbortsAt am rn list s .write j) :
    storeBlock am w rn list m s = .next (enter .dataAbort (s.pc + 8#32) (abortedStore m am w rn list s j)) := by
  obtain ⟨hj, hbefore, haborts⟩ := h
  have hwrite := (writeBlock_of_checkAccess (m := m) hj hbefore).2
    ((checkAccess_abort_iff ..).2 ⟨blockAddress_aligned am rn list s j, haborts⟩)
  have hpc : (abortedStore m am w rn list s j).pc = s.pc := by
    rw [abortedStore_eq]
    rcases abortedBlockBase_eq s am w rn (regsOf list).length with e | e
    · rw [e]
    · rw [e]
      exact State.writeBlockBase_pc s am w rn _ hallowed.2.1
  simp only [storeBlock, blockRefusal_of_allowed hallowed, hwrite]
  exact congrArg (fun pc => Host.Outcome.next (enter .dataAbort (pc + 8#32) _)) hpc

/-- What an aborted store changes: its base, and the words of its block. -/
structure StoreAborted (m : Mode) (am : BlockMode) (w : Bool) (rn : Reg) (list : BitVec 16) (s : State) (j : Nat)
    (u : State) : Prop where
  cpsr : u.cpsr = s.cpsr
  spsrs : ∀ k, u.spsr? k = s.spsr? k
  regs : ∀ p, u.gpr p = if phys s.cpsr.mode rn = some p ∧ w = true ∧ s.platform.abortModel = .baseUpdated then
    blockBase am (s.reg rn) (regsOf list).length else s.gpr p
  words : ∀ k r, listed list k r →
    u.wordAt (blockAddress am rn list s k).toNat = s.wordAt (blockAddress am rn list s k).toNat ∨
      (k ≠ j ∧ u.wordAt (blockAddress am rn list s k).toNat = s.storedReg m r)
  outside : ∀ x, ¬inBlock am rn list s x → u.byteAt x = s.byteAt x

theorem storeAborted_abortedStore {m : Mode} {am : BlockMode} (w : Bool) {rn : Reg} {list : BitVec 16} {s : State}
    (j : Nat) (hallowed : blockAllowed am rn list s) (hwf : Memory.wf s.mem = true) :
    StoreAborted m am w rn list s j (abortedStore m am w rn list s j) := by
  have hmem : (s.abortedBlockBase am w rn (regsOf list).length).mem = s.mem := State.abortedBlockBase_mem ..
  have hwfBase : Memory.wf (s.abortedBlockBase am w rn (regsOf list).length).mem = true := hmem ▸ hwf
  refine ⟨?cpsr, fun k => ?spsrs, fun p => ?regs, fun k r hk => ?words, fun x hx => ?outside⟩
  case cpsr =>
    rw [abortedStore_eq]
    exact State.abortedBlockBase_cpsr ..
  case spsrs =>
    rw [abortedStore_eq]
    exact spsr?_abortedBlockBase s am w rn _ k
  case regs =>
    rw [abortedStore_eq]
    exact gpr_abortedBlockBase s am w rn _ p
  case words =>
    have hword := wordAt_abortedStores (pr := s.privilege) (j := j) (choice := s.drawn) (k := 0) hwfBase
      (blockStores_rising (m := m) hallowed) (getElem?_blockStores_iff.2 ⟨r, hk, rfl⟩)
    have hold : ∀ a, (s.abortedBlockBase am w rn (regsOf list).length).wordAt a = s.wordAt a := fun a =>
      congrArg (fun mem => Memory.word mem a) hmem
    rw [hold, Nat.zero_add] at hword
    exact hword
  case outside =>
    have hkeeps := keepsOutside_abortedStores s.privilege j s.drawn (blockStores am rn list m s) 0
      (s.abortedBlockBase am w rn (regsOf list).length) blockStores_permitted hwfBase x fun a n ha => by
        obtain ⟨b, hb, he⟩ := List.mem_map.1 ha
        obtain ⟨rfl, rfl⟩ := Prod.mk.inj he
        obtain ⟨k, hk, rfl⟩ := mem_blockAddresses.1 hb
        exact (Nat.lt_or_ge x _).imp_right fun hle => Nat.le_of_not_lt fun hlt => hx ⟨k, hk, hle, hlt⟩
    exact hkeeps.1.trans (congrArg (fun mem => Memory.byte mem x) hmem)

/-- Settles O58: the Data abort is entered from the state with the old or updated base and some of the words stored. -/
theorem storeBlockAborts : Obligations.StoreBlockAborts := by
  unfold Obligations.StoreBlockAborts
  intro c am w rn list s j m i hc hallowed haborts hwf hi
  have hexec : exec i s = .next (enter .dataAbort (s.pc + 8#32) (abortedStore m am w rn list s j)) := by
    rcases hi with ⟨rfl, rfl, hbase⟩ | ⟨rfl, rfl, rfl, hspsr⟩
    · exact (exec_stm_storeBlock hc hbase).trans (storeBlock_abort hallowed haborts)
    · exact (exec_stmUser_storeBlock hc hspsr).trans (storeBlock_abort hallowed haborts)
  have hstore := storeAborted_abortedStore (m := m) w j hallowed hwf
  generalize abortedStore m am w rn list s j = u at *
  obtain ⟨hlink, hsaved, hcpsr, hpc, hgpr, hspsrs, hmem, -⟩ := enter_entered .dataAbort (s.pc + 8#32) u
  rw [hstore.cpsr] at hsaved hcpsr
  rw [show Exc.dataAbort.setsF = false from rfl, Bool.or_false] at hcpsr
  have hword : ∀ a, (enter .dataAbort (s.pc + 8#32) u).wordAt a = u.wordAt a := fun a =>
    congrArg (fun mem => Memory.word mem a) hmem
  refine ⟨_, hexec, hpc, hlink, hcpsr, Option.some.inj hsaved, fun k hk => (hspsrs k hk).trans (hstore.spsrs k),
    fun p hp => (hgpr p hp).trans (hstore.regs p), fun k r hk => ?words, fun x hx => ?outside⟩
  case words =>
    rw [hword]
    refine (hstore.words k r hk).imp_right fun ⟨hkj, hvalue⟩ => ⟨hkj, ?_⟩
    rw [hvalue, State.storedReg]
    by_cases hr : r = 15#4
    · rw [if_pos hr]
      exact .inr ⟨hr, storedPc_eq s⟩
    · rw [if_neg hr]
      exact .inl ⟨hr, rfl⟩
  case outside =>
    have hout : ¬inBlock am rn list s x := fun ⟨k, hk, hle, hlt⟩ =>
      (hx k hk).elim (Nat.not_lt.2 hle) (Nat.not_le.2 hlt)
    exact (congrArg (fun mem => Memory.byte mem x) hmem).trans (hstore.outside x hout)

end Sys2Proof.Proofs

/-! The pseudo-instructions: what each does, from what its expansion does (R310 to R314). -/

namespace Sys2Proof.Proofs

open Sys2Proof Sys2Proof.Machine

/-! ### The expansion (R310 to R313) -/

/-- An instruction that stands for one does what it stands for. -/
theorem exec_of_expand {i j : Instr} (s : State) (h : i.expand = [j]) : exec i s = exec j s := by
  cases i
  case adrl c u rd rot1 imm1 rot2 imm2 => cases u <;> cases h
  case adr c u rd rot imm =>
    cases u
    · cases h
      rfl
    · cases h
      rfl
  case ldrConst c rd imm32 u pool =>
    rw [exec_ldrConst]
    unfold Instr.expand at h
    split
    next hmov =>
      simp only [hmov] at h
      cases h
      rfl
    next hmov =>
      split
      next hmvn =>
        simp only [hmov, hmvn] at h
        cases h
        rfl
      next hmvn =>
        simp only [hmov, hmvn] at h
        cases h
        rfl
  all_goals
    cases h
    rfl

/-! ### Registers written twice, and with their own value -/

theorem setReg_reg (s : State) {r : Reg} (h : r ≠ 15#4) : s.setReg r (s.reg r) = s := by
  obtain ⟨p, hp⟩ := exists_phys s.cpsr.mode h
  have hsame : s.gprs.set p.index (s.gpr p) = s.gprs := Vector.set_getElem_self p.index.isLt
  rw [State.setReg, State.setRegIn_eq_setGpr s _ r _ p hp, State.reg, State.regIn_eq_gpr s _ r p hp, State.setGpr,
    hsame]

theorem setReg_onward_setReg (s : State) {r : Reg} (v w : Word) (h : r ≠ 15#4) :
    State.onward ((State.onward (s.setReg r v)).setReg r w) = { s.setReg r w with pc := s.pc + 8#32 } := by
  obtain ⟨p, hp⟩ := exists_phys s.cpsr.mode h
  have hset : ∀ (t : State) (x : Word), t.cpsr.mode = s.cpsr.mode → t.setReg r x = t.setGpr p x := fun t x ht =>
    State.setRegIn_eq_setGpr t t.cpsr.mode r x p (ht ▸ hp)
  rw [hset s v rfl, hset s w rfl, hset (s.setGpr p v).onward w rfl]
  simp only [State.onward, State.setGpr, Vector.set_set, BitVec.add_assoc]
  rfl

/-! ### The instructions of the expansions -/

/-- The next address exists after the next one. -/
theorem add_four_ne_top {pc : Word} (h : pc ≠ 0xFFFFFFF8#32) : pc + 4#32 ≠ 0xFFFFFFFC#32 := fun e =>
  h (by rw [← BitVec.add_sub_cancel pc 4#32, e]; rfl)

theorem exec_addImm_next {c : Cond} {rd rn : Reg} {rot : BitVec 4} {imm : BitVec 8} {s : State} (h : s.runs c)
    (hrd : rd ≠ 15#4) : exec (.addImm c false rd rn rot imm) s =
      .next (State.onward (s.setReg rd (s.reg rn + rotatedImm rot imm))) := by
  obtain ⟨hc, hpc⟩ := h
  have hwrites : DpWrites (.addImm c false rd rn rot imm) false rd (DpRule.at (dpResult .add) rn (.imm rot imm)) :=
    dpWrites_of_runsDataProc (exec_addImm c false rd rn rot imm) rfl
  have hvalue := congrArg DpResult.value (addCarry_false_result (s.reg rn) (rotatedImm rot imm))
  exact ((hwrites s hc).1 hrd hpc).trans (congrArg (fun v => Host.Outcome.next (State.onward (s.setReg rd v))) hvalue)

theorem exec_subImm_next {c : Cond} {rd rn : Reg} {rot : BitVec 4} {imm : BitVec 8} {s : State} (h : s.runs c)
    (hrd : rd ≠ 15#4) : exec (.subImm c false rd rn rot imm) s =
      .next (State.onward (s.setReg rd (s.reg rn - rotatedImm rot imm))) := by
  obtain ⟨hc, hpc⟩ := h
  have hwrites : DpWrites (.subImm c false rd rn rot imm) false rd (DpRule.at (dpResult .sub) rn (.imm rot imm)) :=
    dpWrites_of_runsDataProc (exec_subImm c false rd rn rot imm) rfl
  have hvalue := congrArg DpResult.value (subCarry_true_result (s.reg rn) (rotatedImm rot imm))
  exact ((hwrites s hc).1 hrd hpc).trans (congrArg (fun v => Host.Outcome.next (State.onward (s.setReg rd v))) hvalue)

/-- A move of an immediate or of a register writes the value of its operation. -/
theorem conditional_dataMove {op : DpOp} {c : Cond} {rd : Reg} {so : ShiftOp} {s : State} {v : Word} (h : s.runs c)
    (hrd : rd ≠ 15#4) (hso : regShiftWithPc so [rd] = false)
    (hv : (dpResult op 0#32 (shifter so s).1 (shifter so s).2 s.cpsr).value = v) :
    conditional c s (dataMove op false rd so) = .next (State.onward (s.setReg rd v)) := by
  obtain ⟨hc, hpc⟩ := h
  rw [conditional_passes c s _ hc, dataMove, hso, if_neg Bool.false_ne_true, finishDp_below_next _ _ _ _ hrd hpc, ← hv]
  rfl

/-- `ldr` of a label reads the word there (R311). -/
theorem exec_ldrLabel_next {c : Cond} {u : Bool} {rd : Reg} {imm : BitVec 12} {s : State} {label : Word} (h : s.runs c)
    (hrd : rd ≠ 15#4)
    (hlabel : label = if u then s.pc + 8#32 + imm.setWidth 32 else s.pc + 8#32 - imm.setWidth 32)
    (hg : s.grants label 4 .read s.privilege) :
    exec (.ldrLabel c u rd imm) s = .next (State.onward (s.setReg rd (s.wordAt label.toNat))) := by
  have hload := loadResults.1 (.ldrPreImm c u false 15#4 rd imm)
    ⟨true, 4, false, false, true, .offset, u, 15#4, rd, .imm (imm.setWidth 32)⟩ s rfl rfl
    ⟨fun _ _ he => (by cases he), fun he => (by cases he)⟩ h hrd
  have haddress : transferAddress .offset u 15#4 (.imm (imm.setWidth 32)) s = label := by
    rw [hlabel, ← State.reg_fifteen s]
    rfl
  rw [Transfer.address, haddress] at hload
  exact hload hg

/-- `ldr` of a constant gives it: by a move, or by the pool where the word stands (R312). -/
theorem exec_ldrConst_next {c : Cond} {rd : Reg} {imm32 : Word} {u : Bool} {pool : BitVec 12} {s : State} (h : s.runs c)
    (hrd : rd ≠ 15#4)
    (hpool : immPair? imm32 = none → immPair? (~~~imm32) = none →
      exec (.ldrLabel c u rd pool) s = .next (State.onward (s.setReg rd imm32))) :
    exec (.ldrConst c rd imm32 u pool) s = .next (State.onward (s.setReg rd imm32)) := by
  rw [exec_ldrConst]
  split
  next rot imm hmov =>
    exact conditional_dataMove (op := .mov) h hrd rfl (immediateOperand.2.1 _ _ _ hmov).1
  next hmov =>
    split
    next rot imm hmvn =>
      refine conditional_dataMove (op := .mvn) h hrd rfl ?_
      show ~~~rotatedImm rot imm = imm32
      rw [(immediateOperand.2.1 _ _ _ hmvn).1, BitVec.not_not]
    next hmvn => exact hpool hmov hmvn

/-- A first instruction that goes on, and the second after it (R314). -/
theorem sequence_of_next {f g : State → Out} {s t : State} (h : f s = .next t) (hpc : t.pc = s.pc + 4#32) :
    Machine.sequence f g s = g t := by
  simp only [Machine.sequence, h, if_pos hpc]

/-- The second half of an `adrl` finds the first one's sum and the next address. -/
theorem onward_setReg_runs {c : Cond} {rd : Reg} {s : State} (v : Word) (h : s.runs c) (hpc : s.pc ≠ 0xFFFFFFF8#32)
    (hrd : rd ≠ 15#4) :
    (State.onward (s.setReg rd v)).pc = s.pc + 4#32 ∧ (State.onward (s.setReg rd v)).runs c ∧
      (State.onward (s.setReg rd v)).reg rd = v := by
  have hnext : (State.onward (s.setReg rd v)).pc = s.pc + 4#32 :=
    congrArg (· + 4#32) (State.setReg_pc s rd v hrd)
  refine ⟨hnext, ⟨?_, ne_of_eq_of_ne hnext (add_four_ne_top hpc)⟩, ?_⟩
  · rw [State.onward_cpsr, State.setReg_cpsr]
    exact h.1
  · obtain ⟨p, hp⟩ := exists_phys s.cpsr.mode hrd
    have hmode : phys (State.onward (s.setReg rd v)).cpsr.mode rd = some p := by
      rw [State.onward_cpsr, State.setReg_cpsr, hp]
    refine (State.regIn_eq_gpr _ _ rd p hmode).trans ?_
    exact (State.gpr_setReg s rd v p).trans (if_pos hp)

/-- `adrl` gives the label by two additions or two subtractions (R314). -/
theorem exec_adrl_next {c : Cond} {u : Bool} {rd : Reg} {rot1 rot2 : BitVec 4} {imm1 imm2 : BitVec 8} {s : State}
    (h : s.runs c) (hpc : s.pc ≠ 0xFFFFFFF8#32) (hrd : rd ≠ 15#4) :
    exec (.adrl c u rd rot1 imm1 rot2 imm2) s = .next { s.setReg rd
      (if u then s.pc + 8#32 + (rotatedImm rot1 imm1 + rotatedImm rot2 imm2)
        else s.pc + 8#32 - (rotatedImm rot1 imm1 + rotatedImm rot2 imm2)) with pc := s.pc + 8#32 } := by
  have hfirst := fun v => onward_setReg_runs v h hpc hrd
  cases u
  · obtain ⟨hnext, hruns, hreg⟩ := hfirst (s.reg 15#4 - rotatedImm rot1 imm1)
    refine (sequence_of_next (exec_subImm_next h hrd) hnext).trans ((exec_subImm_next hruns hrd).trans ?_)
    rw [hreg, setReg_onward_setReg s _ _ hrd, State.reg_fifteen, BitVec.sub_sub]
    rfl
  · obtain ⟨hnext, hruns, hreg⟩ := hfirst (s.reg 15#4 + rotatedImm rot1 imm1)
    refine (sequence_of_next (exec_addImm_next h hrd) hnext).trans ((exec_addImm_next hruns hrd).trans ?_)
    rw [hreg, setReg_onward_setReg s _ _ hrd, State.reg_fifteen, BitVec.add_assoc]
    rfl

/-- An `adrl` whose condition fails goes past its two words (R132, R314). -/
theorem exec_adrl_fails {c : Cond} {u : Bool} {rd : Reg} {rot1 rot2 : BitVec 4} {imm1 imm2 : BitVec 8} {s : State}
    (hc : Cond.passes c s.cpsr = false) (htop : s.pc ≠ 0xFFFFFFFC#32) (hpc : s.pc ≠ 0xFFFFFFF8#32) :
    exec (.adrl c u rd rot1 imm1 rot2 imm2) s = .next { s with pc := s.pc + 8#32 } := by
  have hskip : ∀ body, conditional c s body = .next s.onward := fun body =>
    (conditional_fails c s body hc).trans (advance_eq s htop)
  have hagain : ∀ body, conditional c s.onward body = .next { s with pc := s.pc + 8#32 } := fun body => by
    rw [conditional_fails c s.onward body hc, advance_eq s.onward (add_four_ne_top hpc), State.onward, State.onward,
      BitVec.add_assoc]
    rfl
  cases u
  · exact (sequence_of_next (hskip _) rfl).trans (hagain _)
  · exact (sequence_of_next (hskip _) rfl).trans (hagain _)

/-- Settles O59: each pseudo-instruction by the instructions of its expansion. -/
theorem pseudoResults : Obligations.PseudoResults := by
  unfold Obligations.PseudoResults
  refine ⟨fun i j s h => exec_of_expand s h, fun c s h => ?nop, fun c u rd imm s label h hrd hlabel hg =>
    exec_ldrLabel_next h hrd hlabel hg, fun c rd imm32 u pool s label h hrd hlabel hg hword =>
    exec_ldrConst_next h hrd fun _ _ => hword ▸ exec_ldrLabel_next h hrd hlabel hg,
    fun c rd imm32 u pool s h hrd hfits => exec_ldrConst_next h hrd fun hmov hmvn => ?constant,
    fun c u rd rot imm s h hrd => ?adr, fun c u rd rot1 rot2 imm1 imm2 s h hpc hrd => exec_adrl_next h hpc hrd,
    fun c u rd rot1 rot2 imm1 imm2 s hc htop hpc => exec_adrl_fails hc htop hpc⟩
  case nop =>
    have hmove : exec (.nop c) s = .next (State.onward (s.setReg 0#4 (s.reg 0#4))) :=
      conditional_dataMove (op := .mov) (so := .shiftImm 0#4 (.lsl 0)) h (by decide) rfl rfl
    rw [hmove, setReg_reg s (by decide)]
  case constant =>
    obtain ⟨rot, imm, hvalue | hvalue⟩ := hfits
    · exact absurd hvalue (immediateOperand.2.2 _ hmov rot imm)
    · exact absurd hvalue (immediateOperand.2.2 _ hmvn rot imm)
  case adr =>
    cases u
    · exact (exec_subImm_next h hrd).trans (by rw [State.reg_fifteen]; rfl)
    · exact (exec_addImm_next h hrd).trans (by rw [State.reg_fifteen]; rfl)

end Sys2Proof.Proofs
